-- ==== Sys2Proof/Word.lean ====
section
/-! DEFINITION. Word.lean: the widths of spec/00_scope.md rule R7. A register, a length, a count and a code are
32 bits (W_LEN, W_CODE, W_CNT); the sum and a bit cost (binary64) are 64 bits (W_SUM, FMT). -/

namespace Sys2Proof

/-- One byte of the byte view of the bus space (R81). -/
abbrev Byte := BitVec 8

/-- A register, an array word, a bus word (R22, R40 to R42, R83). -/
abbrev Word := BitVec 32

/-- The encoding of an IEEE 754 binary64 value (R7 FMT, R15 `bits64`). -/
abbrev F64 := BitVec 64

/-- A byte address of the host bus space, 0x0000..0x7FFF (R70). -/
abbrev BusAddr := BitVec 15

end Sys2Proof
end

