-- ==== Sys2Proof/Config.lean ====
section
/-! DEFINITION. Config.lean: what an implementation fixes (spec/00_scope.md rule R7) and the values the spec
leaves open. An `opaque` constant has no body: nothing can evaluate it, so a claim holds whatever it is. -/

namespace Sys2Proof

/-- The parameters of R7 that are values: the alphabet capacity `N_MAX`, the scratch capacity `MAXBITS_MAX` and the
clamp threshold `EPS`. -/
structure Params where
  nMax : Nat
  maxbitsMax : Nat
  eps : F64
  deriving DecidableEq, Repr

/-- The logarithm units of R7 and R196: functions from binary64 to binary64, arguments of every definition that
uses them. -/
structure LogUnits where
  log2 : F64 → F64
  ln : F64 → F64

/-- What a free value stands for: the places where the spec leaves a value open and the machine goes on. -/
inductive Draw where
  /-- A host read of an output entry below `n` while its engine is busy (R80). -/
  | busyRead
  /-- The latched operands of CA after a reset (R51). -/
  | caN | caMaxbits
  /-- CA scratch between commands (R45). -/
  | blCount (L : Nat) | nextCode (L : Nat) | code
  /-- The latched operand of EE after a reset (R51). -/
  | eeN
  /-- EE internal registers between commands (R46). -/
  | sum | log2sum | v
  deriving DecidableEq, Repr

namespace Config

/-- The default of `EPS`, the binary64 nearest 1e-5 (R7). -/
def eps : F64 := 0x3EE4F8B588E368F1#64

/-- The values this hardware takes (R7, column "default"). -/
def defaultParams : Params := { nMax := 1024, maxbitsMax := 20, eps := eps }

/-- The identity constant, "CHE1" (R23). -/
def idWord : Word := 0x43484531#32

/-- CFG.VERSION (R24). -/
def version : BitVec 8 := 0x01#8

/-- The free values: the `k`-th value drawn for `d` (log entries 8 and 9). -/
opaque freeBits (d : Draw) (k : Nat) : BitVec 64

/-- The sign and payload of the NaN that `fsub a b` delivers: R209 gives them no value (log entry 10). -/
opaque nanBits (a b : F64) : BitVec 64

/-- What a logarithm unit delivers outside the positive finite values (log entry 12). -/
opaque logOutside (x : F64) : F64

end Config

end Sys2Proof
end

