-- ==== Sys2Proof/Syntax.lean ====
section
/-! DEFINITION. Syntax.lean: the command set of spec/30_encoding.md rule R112, one constructor for each row of
spec/opcode_table.json. A command carries no operand fields (R114). -/

namespace Sys2Proof

/-- The three commands of R112. -/
inductive Instr where
  /-- OP 0x0: no effect (R131). -/
  | nop
  /-- OP 0x1: starts CA, the code assigner (R133, R150). -/
  | assign
  /-- OP 0x2: starts EE, the entropy estimator (R134, R190). -/
  | estimate
  deriving DecidableEq, Repr

end Sys2Proof
end

