-- ==== Sys2Proof/Machine/State.lean ====
section
/-! DEFINITION. Machine/State.lean: the state of the block, after spec/10_state.md, as plain data. What CA owns
and what EE owns are records of their own (R49); the array memories are one byte-addressed list (R71, R81). -/

namespace Sys2Proof.Machine

/-- The two engines of R6. -/
inductive Engine where
  | ca | ee
  deriving DecidableEq, Repr

/-- Why the machine stops with a fault. -/
inductive Fault where
  /-- A host read or a running command reads an array entry that holds no value (R44, R281). `addr` is the byte
  address of the entry (or of the half read). Raised by a host read and by the steps of CA and EE. Safe: the
  hardware goes on with a value the spec does not fix. -/
  | unwrittenEntry (addr : Nat)
  deriving DecidableEq, Repr

/-- Why a step has no meaning. -/
inductive Refusal where
  /-- An instruction without a meaning yet; raised by no arm of this model. Safe. -/
  | notModelled (mnemonic : String)
  /-- A misaligned or sub-word access presented to the host's bridge (R82: "a model refuses it at the bridge").
  Raised by a host transaction. Safe: the block's port cannot express it. -/
  | bridgeAccess
  deriving DecidableEq, Repr

/-- The error codes of R231. -/
inductive ErrCode where
  | none | lenGtMaxbits | costNegative | costNonfinite | scratchExhausted | nCapacity | nZero
  deriving DecidableEq, Repr

/-- Where CA stands in the passes of R150 (R47: pass number, symbol index `i`, length `L`). Each position names the
work that CA does next. -/
inductive CaPhase where
  /-- IDLE. -/
  | idle
  /-- The capacity checks R151, R152. -/
  | check
  /-- Pass 1, the tally clear of `bl_count[L]` (R153). -/
  | clear (L : Nat)
  /-- Pass 1, the tally of symbol `i` (R154). -/
  | tally (i : Nat)
  /-- The length-0 exclusion (R155). -/
  | exclude
  /-- Pass 2, the base code of length `L` (R156). -/
  | base (L : Nat)
  /-- Pass 3, the code of symbol `i` (R157). -/
  | emit (i : Nat)
  deriving DecidableEq, Repr

/-- Where EE stands in the steps of R190 (R47). -/
inductive EePhase where
  /-- IDLE. -/
  | idle
  /-- The checks R191, R192. -/
  | check
  /-- The sum of R193, at symbol `i`. -/
  | sum (i : Nat)
  /-- The logarithm of the sum (R195). -/
  | log
  /-- The cost of symbol `i` (R197 to R200). -/
  | cost (i : Nat)
  deriving DecidableEq, Repr

/-- What CA owns besides its arrays: operand and error registers, its STATUS bits (BUSY is `phase`, R47), the
latched operands (R48) and the scratch (R45). -/
structure CaUnit where
  /-- CA_N (R29). -/
  regN : Word
  /-- CA_MAXBITS (R30). -/
  regMaxbits : Word
  /-- CA_ERR_CODE[7:0] (R31). -/
  errCode : BitVec 8
  /-- CA_ERR_INDEX (R32). -/
  errIndex : Word
  /-- CA_ERR_VALUE (R33). -/
  errValue : Word
  /-- STATUS.CA_DONE (R26). -/
  done : Bool
  /-- STATUS.CA_ERR (R26). -/
  err : Bool
  phase : CaPhase
  /-- The latched `n` (R48). -/
  latchN : Word
  /-- The latched `maxbits` (R48). -/
  latchMaxbits : Word
  /-- `bl_count[0..MAXBITS_MAX]` (R45). -/
  blCount : List Word
  /-- `next_code[0..MAXBITS_MAX]` (R45). -/
  nextCode : List Word
  /-- The working register `code` (R45). -/
  code : Word
  /-- How many times CA's open values have been drawn (log entry 8). -/
  draws : Nat
  deriving DecidableEq, Repr

/-- What EE owns besides its arrays. -/
structure EeUnit where
  /-- EE_N (R34). -/
  regN : Word
  /-- EE_ERR_CODE[7:0] (R35). -/
  errCode : BitVec 8
  /-- EE_ERR_INDEX (R36). -/
  errIndex : Word
  /-- EE_ERR_VALUE_LO (R37). -/
  errValueLo : Word
  /-- EE_ERR_VALUE_HI (R37). -/
  errValueHi : Word
  /-- STATUS.EE_DONE (R26). -/
  done : Bool
  /-- STATUS.EE_ERR (R26). -/
  err : Bool
  phase : EePhase
  /-- The latched `n` (R48). -/
  latchN : Word
  /-- `sum` (R46). -/
  sum : BitVec 64
  /-- `log2sum` (R46). -/
  log2sum : F64
  /-- The per-symbol working value `v` (R46). -/
  v : F64
  /-- How many times EE's open values have been drawn (log entry 8). -/
  draws : Nat
  deriving DecidableEq, Repr

/-- The global sticky bits of STATUS (R26), which belong to no engine. -/
structure BusFlags where
  /-- STATUS.ILL_CMD. -/
  illCmd : Bool
  /-- STATUS.WR_DROP. -/
  wrDrop : Bool
  /-- STATUS.CMD_DROP. -/
  cmdDrop : Bool
  deriving DecidableEq, Repr

/-- One line of a host program (R117, R118) as it stands in front of the host's bridge: a byte address, and an
access size in bytes, of which the block accepts 4 only (R12, R82). -/
inductive HostOp where
  /-- `WR addr, w`: `MemWrite(addr, size, w)`. -/
  | wr (addr : BusAddr) (size : Nat) (w : Word)
  /-- `RD addr`: `MemRead(addr, size)`, its word kept in `received`. -/
  | rd (addr : BusAddr) (size : Nat)
  /-- `POLL addr, mask, value`: one `RD` a turn until `(t & mask) == value` (R118). -/
  | poll (addr : BusAddr) (mask value : Word)
  deriving DecidableEq, Repr

/-- Who acts in a step (log entries 2 and 3). -/
inductive Turn where
  /-- The host performs its next transaction. -/
  | host
  /-- A busy engine does the next piece of work of its passes (R47). -/
  | advance (e : Engine)
  /-- A busy engine takes its completion step: all the work that remains (R91, R137). -/
  | complete (e : Engine)
  /-- `rst = 1` at a clock edge (R270). -/
  | rst
  deriving DecidableEq, Repr

/-- The array memories as (byte address, byte) pairs, addresses strictly rising; an address that is not listed is
unwritten (R44). -/
abbrev Memory := List Host.Cell

/-- The block, the host in front of it and the turns to come. -/
structure State where
  /-- N_MAX, MAXBITS_MAX and EPS, which no step changes (R7). -/
  params : Params
  /-- The host's pending transactions, in the order issued (R86, R116). -/
  program : List HostOp
  /-- Who acts in the coming steps. -/
  schedule : List Turn
  /-- `bus_rdata`: the word delivered in this step, if the step performed a read (R21). -/
  rdata : Option Word
  /-- The words the host's `RD` lines received, newest first (R117). -/
  received : List Word
  ca : CaUnit
  ee : EeUnit
  bus : BusFlags
  /-- IRQ_EN[2:0] (R28). -/
  irqEn : BitVec 3
  /-- LEN_MEM, SYM_MEM, CNT_MEM and BITLEN_MEM (R40 to R43). -/
  mem : Memory
  /-- How many busy reads have been drawn (R80; log entry 9). -/
  busDraws : Nat
  deriving DecidableEq, Repr

/-- CA after reset (R51); latches and scratch, which R51 leaves open, at zero (log entry 7). -/
def CaUnit.reset (p : Params) : CaUnit :=
  { regN := 0, regMaxbits := 0, errCode := 0, errIndex := 0, errValue := 0, done := false, err := false
    phase := .idle, latchN := 0, latchMaxbits := 0
    blCount := List.replicate (p.maxbitsMax + 1) 0, nextCode := List.replicate (p.maxbitsMax + 1) 0
    code := 0, draws := 0 }

/-- EE after reset (R51); the latch and the internal registers at zero (log entry 7). -/
def EeUnit.reset : EeUnit :=
  { regN := 0, errCode := 0, errIndex := 0, errValueLo := 0, errValueHi := 0, done := false, err := false
    phase := .idle, latchN := 0, sum := 0, log2sum := 0, v := 0, draws := 0 }

/-- The block right after power-up and reset (R51, R271, R273; vector V-R1): every register at its reset value,
both engines idle, no array entry written, nothing pending. -/
def State.reset : State :=
  { params := Config.defaultParams
    program := [], schedule := [], rdata := none, received := []
    ca := CaUnit.reset Config.defaultParams, ee := EeUnit.reset
    bus := { illCmd := false, wrDrop := false, cmdDrop := false }
    irqEn := 0, mem := [], busDraws := 0 }

end Sys2Proof.Machine
end

