-- ==== Sys2Proof/Machine/Float.lean ====
section
/-! DEFINITION. Machine/Float.lean: the binary64 primitives of spec/00_scope.md rule R15, in the IEEE 754 meaning
that rule takes from general knowledge (log entry 13). A finite value is an integer multiple of 2^-1074, so it is
kept as that integer, computed with exactly and rounded once, to nearest, ties to even. -/

namespace Sys2Proof.Machine.Fp

/-- The encoding without its sign bit, as a number. -/
def magnitude (a : F64) : Nat := a.toNat % 2 ^ 63

/-- The sign bit. -/
def negative (a : F64) : Bool := a.msb

/-- The magnitude of ±infinity; NaNs lie above, finite values below. -/
def infMag : Nat := 0x7FF * 2 ^ 52

def isNaN (a : F64) : Bool := decide (infMag < magnitude a)

def isInf (a : F64) : Bool := decide (magnitude a = infMag)

/-- False exactly for ±infinity and NaN (R15). -/
def isFinite (a : F64) : Bool := decide (magnitude a < infMag)

/-- The place of a value that is no NaN in the order of the extended reals, both zeros at 0. -/
def orderKey (a : F64) : Int := if negative a then -(magnitude a : Int) else (magnitude a : Int)

/-- IEEE 754 ordered `a < b`, false when either is NaN (R15). -/
def flt (a b : F64) : Bool := !isNaN a && !isNaN b && decide (orderKey a < orderKey b)

/-- IEEE 754 ordered `a > b` (R15). -/
def fgt (a b : F64) : Bool := flt b a

/-- The multiple of 2^-1074 that a finite magnitude `m` encodes: a subnormal is its fraction, a normal value its
significand shifted by its exponent. -/
def decodeMag (m : Nat) : Nat :=
  if m < 2 ^ 52 then m else (2 ^ 52 + m % 2 ^ 52) * 2 ^ (m / 2 ^ 52 - 1)

/-- A finite value as a signed multiple of 2^-1074. -/
def scaled (a : F64) : Int := if negative a then -(decodeMag (magnitude a) : Int) else (decodeMag (magnitude a) : Int)

/-- `k / 2^s` rounded to an integer, to nearest, ties to even. -/
def roundShift (k s : Nat) : Nat :=
  let q := k / 2 ^ s
  let r := k % 2 ^ s
  if 2 ^ s < 2 * r ∨ (2 ^ s = 2 * r ∧ q % 2 = 1) then q + 1 else q

/-- The magnitude of the binary64 value nearest `k` times 2^-1074, infinity where that overflows. -/
def encodeMag (k : Nat) : Nat :=
  let s := Nat.log2 k - 52
  min (s * 2 ^ 52 + roundShift k s) infMag

/-- The binary64 value of a sign and a multiple of 2^-1074. -/
def ofScaled (neg : Bool) (k : Nat) : F64 := BitVec.ofNat 64 (encodeMag k + if neg then 2 ^ 63 else 0)

/-- A non-negative integer under roundTiesToEven (R15); exact below 2^53 (R194). -/
def toF64 (k : Nat) : F64 := ofScaled false (k * 2 ^ 1074)

/-- The value with its sign bit flipped. -/
def negate (a : F64) : F64 := a ^^^ 0x8000000000000000#64

/-- A NaN whose sign and payload are `p`'s: R209 gives them no value. A payload of zero would be an infinity and is
made a quiet NaN. -/
def nanOf (p : BitVec 64) : F64 :=
  if p.extractLsb' 0 52 = 0#52 then p ||| 0x7FF8000000000000#64 else p ||| 0x7FF0000000000000#64

/-- IEEE 754 subtraction under roundTiesToEven (R15, R209). -/
def fsub (a b : F64) : F64 :=
  if isNaN a || isNaN b then nanOf (Config.nanBits a b)
  else if isInf a then (if isInf b && negative a == negative b then nanOf (Config.nanBits a b) else a)
  else if isInf b then negate b
  else
    let d := scaled a - scaled b
    if d = 0 then (if negative a && !negative b then 0x8000000000000000#64 else 0#64)
    else ofScaled (decide (d < 0)) d.natAbs

end Sys2Proof.Machine.Fp
end

