-- ==== Sys2Proof/Laws/Fp.lean ====
section
/-! SUPPORT. Laws/Fp.lean: what the binary64 primitives of Machine/Float.lean do. Rounding is monotone, leaves
representable values alone and is nearest; subtraction is the rounded exact difference (spec/00_scope.md rule R15). -/

namespace Sys2Proof.Machine.Fp

/-! ### Rounding to an integer -/

theorem roundShift_mono {k k' s : Nat} (h : k ≤ k') : roundShift k s ≤ roundShift k' s := by
  simp only [roundShift]
  have hq : k / 2 ^ s ≤ k' / 2 ^ s := Nat.div_le_div_right h
  have h1 := Nat.div_add_mod k (2 ^ s)
  have h2 := Nat.div_add_mod k' (2 ^ s)
  rcases Nat.lt_or_ge (k / 2 ^ s) (k' / 2 ^ s) with hlt | hge
  · split <;> split <;> omega
  · have he : k / 2 ^ s = k' / 2 ^ s := le_antisymm hq hge
    have hr : k % 2 ^ s ≤ k' % 2 ^ s := by rw [he] at h1; omega
    rw [← he]
    split
    · next hc =>
      rw [if_pos (by rcases hc with hc | ⟨hc, ho⟩ <;> omega)]
    · split <;> omega

theorem roundShift_mul (q s : Nat) : roundShift (q * 2 ^ s) s = q := by
  have hp : 0 < 2 ^ s := Nat.two_pow_pos s
  simp only [roundShift, Nat.mul_div_cancel _ hp, Nat.mul_mod_left]
  rw [if_neg (by omega)]

/-- The rounding error is at most half a unit. -/
theorem roundShift_near (k s : Nat) :
    2 * k ≤ 2 * (roundShift k s * 2 ^ s) + 2 ^ s ∧ 2 * (roundShift k s * 2 ^ s) ≤ 2 * k + 2 ^ s := by
  have hp : 0 < 2 ^ s := Nat.two_pow_pos s
  have h := Nat.div_add_mod k (2 ^ s)
  have hr := Nat.mod_lt k hp
  have hc : k / 2 ^ s * 2 ^ s = 2 ^ s * (k / 2 ^ s) := Nat.mul_comm _ _
  simp only [roundShift]
  split
  · next hh => rw [Nat.add_mul, hc]; omega
  · next hh => rw [hc]; omega

theorem roundShift_zero (k : Nat) : roundShift k 0 = k := by simpa using roundShift_mul k 0

/-! ### Magnitudes -/

theorem decodeMag_block (s q : Nat) (h1 : 2 ^ 52 ≤ q) (h2 : q ≤ 2 ^ 53) : decodeMag (s * 2 ^ 52 + q) = q * 2 ^ s := by
  rw [decodeMag, if_neg (by omega)]
  rcases Nat.lt_or_eq_of_le h2 with h | h
  · rw [show (s * 2 ^ 52 + q) % 2 ^ 52 = q - 2 ^ 52 by omega, show (s * 2 ^ 52 + q) / 2 ^ 52 - 1 = s by omega,
      show 2 ^ 52 + (q - 2 ^ 52) = q by omega]
  · subst h
    rw [show (s * 2 ^ 52 + 2 ^ 53) % 2 ^ 52 = 0 by omega, show (s * 2 ^ 52 + 2 ^ 53) / 2 ^ 52 - 1 = s + 1 by omega,
      Nat.pow_succ]
    omega

/-- The exponent step of a multiple of 2^-1074 and its significand's range. -/
theorem shift_range (k : Nat) (h : 2 ^ 52 ≤ k) :
    2 ^ 52 * 2 ^ (Nat.log2 k - 52) ≤ k ∧ k < 2 ^ 53 * 2 ^ (Nat.log2 k - 52) := by
  have hk : k ≠ 0 := by omega
  have hl : 52 ≤ Nat.log2 k := (Nat.le_log2 hk).2 h
  rw [← Nat.pow_add, ← Nat.pow_add, show 52 + (Nat.log2 k - 52) = Nat.log2 k by omega,
    show 53 + (Nat.log2 k - 52) = Nat.log2 k + 1 by omega]
  exact ⟨Nat.log2_self_le hk, Nat.lt_log2_self⟩

theorem shift_small {k : Nat} (h : k < 2 ^ 53) : Nat.log2 k - 52 = 0 := by
  rcases Nat.eq_zero_or_pos k with rfl | hk
  · rfl
  · have : Nat.log2 k < 53 := (Nat.log2_lt (by omega)).2 h
    omega

/-- The encoding before it saturates at infinity. -/
def encodeWide (k : Nat) : Nat := (Nat.log2 k - 52) * 2 ^ 52 + roundShift k (Nat.log2 k - 52)

theorem encodeMag_eq (k : Nat) : encodeMag k = min (encodeWide k) infMag := rfl

theorem encodeWide_small {k : Nat} (h : k < 2 ^ 53) : encodeWide k = k := by
  rw [encodeWide, shift_small h, roundShift_zero, Nat.zero_mul, Nat.zero_add]

theorem roundShift_range (k : Nat) (h : 2 ^ 52 ≤ k) :
    2 ^ 52 ≤ roundShift k (Nat.log2 k - 52) ∧ roundShift k (Nat.log2 k - 52) ≤ 2 ^ 53 := by
  obtain ⟨h1, h2⟩ := shift_range k h
  refine ⟨?_, ?_⟩
  · have := roundShift_mono (s := Nat.log2 k - 52) h1
    rwa [roundShift_mul] at this
  · have := roundShift_mono (s := Nat.log2 k - 52) h2.le
    rwa [roundShift_mul] at this

theorem decodeMag_encodeWide (k : Nat) :
    decodeMag (encodeWide k) = roundShift k (Nat.log2 k - 52) * 2 ^ (Nat.log2 k - 52) := by
  rcases Nat.lt_or_ge k (2 ^ 52) with h | h
  · rw [encodeWide_small (by omega), shift_small (by omega), roundShift_zero, decodeMag, if_pos h]; simp
  · obtain ⟨h1, h2⟩ := roundShift_range k h
    exact decodeMag_block _ _ h1 h2

theorem encodeWide_mono {k k' : Nat} (h : k ≤ k') : encodeWide k ≤ encodeWide k' := by
  rcases Nat.lt_or_ge k (2 ^ 52) with hk | hk
  · rw [encodeWide_small (by omega)]
    rcases Nat.lt_or_ge k' (2 ^ 52) with hk' | hk'
    · rw [encodeWide_small (by omega)]; exact h
    · have := (roundShift_range k' hk').1
      rw [encodeWide]; omega
  · have hk' : 2 ^ 52 ≤ k' := hk.trans h
    have hs : Nat.log2 k ≤ Nat.log2 k' := by
      rw [Nat.le_log2 (by omega)]
      exact (Nat.log2_self_le (by omega)).trans h
    rcases Nat.lt_or_eq_of_le (Nat.sub_le_sub_right hs 52) with hlt | heq
    · have := (roundShift_range k hk).2
      have := (roundShift_range k' hk').1
      simp only [encodeWide]; omega
    · simp only [encodeWide, heq]
      exact Nat.add_le_add_left (roundShift_mono h) _

theorem encodeMag_mono {k k' : Nat} (h : k ≤ k') : encodeMag k ≤ encodeMag k' := by
  rw [encodeMag_eq, encodeMag_eq]
  exact min_le_min_right _ (encodeWide_mono h)

/-- Encoding gives back what was decoded. -/
theorem encodeWide_decodeMag (m : Nat) : encodeWide (decodeMag m) = m := by
  rcases Nat.lt_or_ge m (2 ^ 52) with h | h
  · rw [decodeMag, if_pos h, encodeWide_small (by omega)]
  · rw [decodeMag, if_neg (by omega)]
    have hf : m % 2 ^ 52 < 2 ^ 52 := Nat.mod_lt _ (by omega)
    have hl : Nat.log2 ((2 ^ 52 + m % 2 ^ 52) * 2 ^ (m / 2 ^ 52 - 1)) = 52 + (m / 2 ^ 52 - 1) := by
      rw [Nat.log2_eq_iff (by positivity)]
      constructor
      · rw [Nat.pow_add]; exact Nat.mul_le_mul_right _ (by omega)
      · rw [show 52 + (m / 2 ^ 52 - 1) + 1 = 53 + (m / 2 ^ 52 - 1) by omega, Nat.pow_add]
        exact Nat.mul_lt_mul_of_pos_right (by omega) (Nat.two_pow_pos _)
    rw [encodeWide, hl, Nat.add_sub_cancel_left, roundShift_mul]
    omega

theorem encodeMag_decodeMag {m : Nat} (h : m ≤ infMag) : encodeMag (decodeMag m) = m := by
  rw [encodeMag_eq, encodeWide_decodeMag]; exact min_eq_left h

theorem decodeMag_lt {m m' : Nat} : decodeMag m < decodeMag m' ↔ m < m' := by
  constructor
  · intro h
    by_contra hc
    rcases Nat.lt_or_eq_of_le (Nat.not_lt.1 hc) with hlt | heq
    · have := encodeWide_mono h.le
      rw [encodeWide_decodeMag, encodeWide_decodeMag] at this
      omega
    · rw [heq] at h; omega
  · intro h
    by_contra hc
    have := encodeWide_mono (Nat.not_lt.1 hc)
    rw [encodeWide_decodeMag, encodeWide_decodeMag] at this
    omega

theorem decodeMag_le {m m' : Nat} : decodeMag m ≤ decodeMag m' ↔ m ≤ m' := by
  rw [← Nat.not_lt, ← Nat.not_lt, decodeMag_lt]

theorem decodeMag_inj {m m' : Nat} (h : decodeMag m = decodeMag m') : m = m' :=
  le_antisymm (decodeMag_le.1 h.le) (decodeMag_le.1 h.ge)

@[simp] theorem decodeMag_zero : decodeMag 0 = 0 := rfl

/-- A magnitude that decodes to `2^(52+s)` or more decodes to a multiple of `2^s`. -/
theorem dvd_decodeMag {m s : Nat} (h : 2 ^ (52 + s) ≤ decodeMag m) : 2 ^ s ∣ decodeMag m := by
  rw [decodeMag] at h ⊢
  split at h
  · next hm =>
    have : 2 ^ (52 + s) < 2 ^ 52 := lt_of_le_of_lt h hm
    have := (Nat.pow_lt_pow_iff_right (a := 2) (by omega)).1 this
    omega
  · next hm =>
    rw [if_neg hm]
    refine dvd_mul_of_dvd_right (pow_dvd_pow 2 ?_) _
    by_contra hc
    have hlt : m / 2 ^ 52 - 1 + 1 ≤ s := by omega
    have hf : m % 2 ^ 52 < 2 ^ 52 := Nat.mod_lt _ (by omega)
    have h2 : (2 ^ 52 + m % 2 ^ 52) * 2 ^ (m / 2 ^ 52 - 1) < 2 ^ 53 * 2 ^ (m / 2 ^ 52 - 1) :=
      Nat.mul_lt_mul_of_pos_right (by omega) (Nat.two_pow_pos _)
    have h3 : 2 ^ 53 * 2 ^ (m / 2 ^ 52 - 1) ≤ 2 ^ (52 + s) := by
      rw [← Nat.pow_add]; exact Nat.pow_le_pow_right (by omega) (by omega)
    omega

/-- Rounding is nearest: no magnitude decodes to a value nearer to `k`. -/
theorem encodeWide_nearest (k m : Nat) :
    |(decodeMag (encodeWide k) : Int) - k| ≤ |(decodeMag m : Int) - k| := by
  rw [decodeMag_encodeWide]
  obtain ⟨n1, n2⟩ := roundShift_near k (Nat.log2 k - 52)
  have key : ∀ q : Nat, |((roundShift k (Nat.log2 k - 52) * 2 ^ (Nat.log2 k - 52) : Nat) : Int) - k| ≤
      |((q * 2 ^ (Nat.log2 k - 52) : Nat) : Int) - k| := by
    intro q
    set R := roundShift k (Nat.log2 k - 52)
    set P := 2 ^ (Nat.log2 k - 52) with hP
    rcases Nat.lt_trichotomy q R with h | h | h
    · have : (q + 1) * P ≤ R * P := Nat.mul_le_mul_right _ h
      rw [Nat.add_mul] at this
      rw [abs_le]
      have := neg_abs_le (((q * P : Nat) : Int) - k)
      have := le_abs_self (((q * P : Nat) : Int) - k)
      have := neg_le_abs (((q * P : Nat) : Int) - k)
      omega
    · rw [h]
    · have : (R + 1) * P ≤ q * P := Nat.mul_le_mul_right _ h
      rw [Nat.add_mul] at this
      rw [abs_le]
      have := le_abs_self (((q * P : Nat) : Int) - k)
      have := neg_le_abs (((q * P : Nat) : Int) - k)
      omega
  rcases Nat.lt_or_ge k (2 ^ 52) with hk | hk
  · rw [shift_small (by omega), roundShift_zero]; simp
  · obtain ⟨h1, h2⟩ := shift_range k hk
    rcases Nat.lt_or_ge (decodeMag m) (2 ^ 52 * 2 ^ (Nat.log2 k - 52)) with hm | hm
    · refine (key (2 ^ 52)).trans ?_
      rw [abs_sub_comm, abs_sub_comm (decodeMag m : Int), abs_of_nonneg (by omega), abs_of_nonneg (by omega)]
      omega
    · obtain ⟨q, hq⟩ := dvd_decodeMag (m := m) (s := Nat.log2 k - 52) (by rw [Nat.pow_add]; exact hm)
      rw [hq, Nat.mul_comm (2 ^ (Nat.log2 k - 52)) q]
      exact key q

/-! ### Values -/

@[simp] theorem infMag_lt : infMag < 2 ^ 63 := by decide

theorem encodeMag_le (k : Nat) : encodeMag k ≤ infMag := min_le_right _ _

theorem magnitude_le (a : F64) : magnitude a < 2 ^ 63 := Nat.mod_lt _ (by decide)

theorem magnitude_ofScaled (neg : Bool) (k : Nat) : magnitude (ofScaled neg k) = encodeMag k := by
  have := encodeMag_le k
  have := infMag_lt
  rw [magnitude, ofScaled, BitVec.toNat_ofNat]
  cases neg <;> simp <;> omega

theorem negative_ofScaled (neg : Bool) (k : Nat) : negative (ofScaled neg k) = neg := by
  have := encodeMag_le k
  have := infMag_lt
  rw [negative, ofScaled, BitVec.msb_eq_decide, BitVec.toNat_ofNat]
  cases neg <;> simp <;> omega

/-- A value is its sign and its magnitude. -/
theorem ext_magnitude {a b : F64} (hn : negative a = negative b) (hm : magnitude a = magnitude b) : a = b := by
  apply BitVec.eq_of_toNat_eq
  have ha := a.isLt
  have hb := b.isLt
  simp only [negative, magnitude, BitVec.msb_eq_decide, decide_eq_decide] at hn hm
  by_cases h : 2 ^ (64 - 1) ≤ a.toNat
  · have := hn.1 h; omega
  · have : ¬ 2 ^ (64 - 1) ≤ b.toNat := fun h' => h (hn.2 h')
    omega

theorem not_isNaN_ofScaled (neg : Bool) (k : Nat) : isNaN (ofScaled neg k) = false := by
  simp [isNaN, magnitude_ofScaled, encodeMag_le]

theorem isNaN_of_isFinite {a : F64} (h : isFinite a = true) : isNaN a = false := by
  simp only [isFinite, isNaN, decide_eq_true_eq, decide_eq_false_iff_not] at *; omega

theorem isInf_of_isFinite {a : F64} (h : isFinite a = true) : isInf a = false := by
  simp only [isFinite, isInf, decide_eq_true_eq, decide_eq_false_iff_not] at *; omega

/-- Encoding a finite value's own multiple gives the value back. -/
theorem ofScaled_self {a : F64} (h : isFinite a = true) :
    ofScaled (negative a) (decodeMag (magnitude a)) = a := by
  have hle : magnitude a ≤ infMag := by simp only [isFinite, decide_eq_true_eq] at h; omega
  exact ext_magnitude (negative_ofScaled _ _) (by rw [magnitude_ofScaled, encodeMag_decodeMag hle])

/-- The order of the keys is the order of the values. -/
theorem scaled_le_iff (a b : F64) : scaled a ≤ scaled b ↔ orderKey a ≤ orderKey b := by
  have hle := @decodeMag_le (magnitude a) (magnitude b)
  have hge := @decodeMag_le (magnitude b) (magnitude a)
  have za : decodeMag (magnitude a) = 0 ↔ magnitude a = 0 :=
    ⟨fun h => decodeMag_inj (h.trans decodeMag_zero.symm), fun h => by rw [h]; rfl⟩
  have zb : decodeMag (magnitude b) = 0 ↔ magnitude b = 0 :=
    ⟨fun h => decodeMag_inj (h.trans decodeMag_zero.symm), fun h => by rw [h]; rfl⟩
  simp only [scaled, orderKey]
  cases negative a <;> cases negative b <;> simp <;> omega

/-- The key of the value nearest a signed multiple. -/
def signedKey (d : Int) : Int := if d < 0 then -(encodeMag d.natAbs : Int) else (encodeMag d.natAbs : Int)

@[simp] theorem encodeMag_zero : encodeMag 0 = 0 := by decide

theorem signedKey_mono {d d' : Int} (h : d ≤ d') : signedKey d ≤ signedKey d' := by
  simp only [signedKey]
  split <;> split
  · have := encodeMag_mono (show d'.natAbs ≤ d.natAbs by omega); omega
  · omega
  · omega
  · have := encodeMag_mono (show d.natAbs ≤ d'.natAbs by omega); omega

theorem orderKey_ofScaled (d : Int) : orderKey (ofScaled (decide (d < 0)) d.natAbs) = signedKey d := by
  simp only [orderKey, negative_ofScaled, magnitude_ofScaled, signedKey, decide_eq_true_eq]

/-- Subtraction of finite values is the exact difference, rounded. -/
theorem orderKey_fsub {a b : F64} (ha : isFinite a = true) (hb : isFinite b = true) :
    orderKey (fsub a b) = signedKey (scaled a - scaled b) := by
  rw [fsub, isNaN_of_isFinite ha, isNaN_of_isFinite hb, isInf_of_isFinite ha, isInf_of_isFinite hb]
  simp only [Bool.or_self, Bool.false_eq_true, if_false]
  split
  · next h =>
    rw [h]
    split <;> decide
  · exact orderKey_ofScaled _

theorem not_isNaN_fsub {a b : F64} (ha : isFinite a = true) (hb : isFinite b = true) :
    isNaN (fsub a b) = false := by
  rw [fsub, isNaN_of_isFinite ha, isNaN_of_isFinite hb, isInf_of_isFinite ha, isInf_of_isFinite hb]
  simp only [Bool.or_self, Bool.false_eq_true, if_false]
  split
  · split <;> decide
  · exact not_isNaN_ofScaled _ _

/-- `fsub(x, x) = +0` for a finite `x` (R203). -/
theorem fsub_self {a : F64} (ha : isFinite a = true) : fsub a a = 0#64 := by
  rw [fsub, isNaN_of_isFinite ha, isInf_of_isFinite ha]
  simp

/-- `fsub(x, +0) = x` for a finite `x` (R203). -/
theorem fsub_zero {a : F64} (ha : isFinite a = true) : fsub a 0#64 = a := by
  have hz : scaled 0#64 = 0 := by decide
  have h0 : isNaN 0#64 = false := by decide
  have h1 : isInf 0#64 = false := by decide
  have h2 : negative 0#64 = false := by decide
  rw [fsub, isNaN_of_isFinite ha, isInf_of_isFinite ha, h0, h1, h2, hz]
  simp only [Bool.or_self, Bool.false_eq_true, if_false, Int.sub_zero, Bool.not_false, Bool.and_true]
  have hm : scaled a = 0 ↔ magnitude a = 0 := by
    rw [scaled]
    have : decodeMag (magnitude a) = 0 ↔ magnitude a = 0 :=
      ⟨fun h => decodeMag_inj (h.trans decodeMag_zero.symm), fun h => by rw [h]; rfl⟩
    split <;> omega
  split
  · next h =>
    have hma := hm.1 h
    split
    · next hn => exact ext_magnitude (by rw [hn]; decide) (by rw [hma]; decide)
    · next hn => exact ext_magnitude (by simp only [Bool.not_eq_true] at hn; rw [hn]; decide) (by rw [hma]; decide)
  · next h =>
    have hneg : decide (scaled a < 0) = negative a := by
      rw [scaled] at h ⊢
      cases hn : negative a
      · simp [hn]
      · simp [hn] at h ⊢; omega
    have habs : (scaled a).natAbs = decodeMag (magnitude a) := by rw [scaled]; split <;> omega
    rw [hneg, habs, ofScaled_self ha]

/-- A non-negative integer below 2^53 converts exactly (R194). -/
theorem decodeMag_toF64 {k : Nat} (h : k < 2 ^ 53) : decodeMag (magnitude (toF64 k)) = k * 2 ^ 1074 := by
  have hwide : decodeMag (encodeWide (k * 2 ^ 1074)) = k * 2 ^ 1074 := by
    rcases Nat.eq_zero_or_pos k with rfl | hk
    · rw [Nat.zero_mul]; decide
    · rw [decodeMag_encodeWide]
      have hl : Nat.log2 (k * 2 ^ 1074) = Nat.log2 k + 1074 := by
        rw [Nat.log2_eq_iff (by positivity)]
        have h1 := Nat.log2_self_le (n := k) (by omega)
        have h2 := Nat.lt_log2_self (n := k)
        constructor
        · rw [Nat.pow_add]; exact Nat.mul_le_mul_right _ h1
        · rw [show Nat.log2 k + 1074 + 1 = Nat.log2 k + 1 + 1074 by omega, Nat.pow_add]
          exact Nat.mul_lt_mul_of_pos_right h2 (Nat.two_pow_pos _)
      have hlog : Nat.log2 k < 53 := (Nat.log2_lt (by omega)).2 h
      obtain ⟨c, hc⟩ : ∃ c, k * 2 ^ 1074 = c * 2 ^ (Nat.log2 (k * 2 ^ 1074) - 52) :=
        ⟨k * 2 ^ (1074 - (Nat.log2 (k * 2 ^ 1074) - 52)), by
          rw [Nat.mul_assoc, ← Nat.pow_add, Nat.sub_add_cancel (by omega)]⟩
      rw [← hl] at *
      generalize Nat.log2 (k * 2 ^ 1074) - 52 = s at *
      rw [hc, roundShift_mul]
  have hfin : encodeWide (k * 2 ^ 1074) ≤ infMag := by
    rw [← decodeMag_le, hwide]
    calc k * 2 ^ 1074 ≤ 2 ^ 53 * 2 ^ 1074 := Nat.mul_le_mul_right _ h.le
      _ ≤ decodeMag infMag := by decide +kernel
  rw [toF64, magnitude_ofScaled, encodeMag_eq, min_eq_left hfin, hwide]

theorem negative_toF64 (k : Nat) : negative (toF64 k) = false := negative_ofScaled _ _

theorem isFinite_toF64 {k : Nat} (h : k < 2 ^ 53) : isFinite (toF64 k) = true := by
  rw [isFinite, decide_eq_true_eq, ← decodeMag_lt, decodeMag_toF64 h]
  calc k * 2 ^ 1074 < 2 ^ 53 * 2 ^ 1074 := Nat.mul_lt_mul_of_pos_right h (Nat.two_pow_pos _)
    _ ≤ decodeMag infMag := by decide +kernel

theorem scaled_toF64 {k : Nat} (h : k < 2 ^ 53) : scaled (toF64 k) = ((k * 2 ^ 1074 : Nat) : Int) := by
  rw [scaled, negative_toF64, decodeMag_toF64 h, if_neg Bool.false_ne_true]

end Sys2Proof.Machine.Fp
end

