-- ==== Sys2Proof/Machine/Log.lean ====
section
/-! DEFINITION. Machine/Log.lean: enclosures of the binary and the natural logarithm, and how an enclosure is rounded
to binary64 (spec/42_estimate.md rule R196). An enclosure of precision `n` is a pair of integers, the logarithm lying
between these two multiples of a power of two; a larger `n` makes it as narrow as one likes. The units that use them
are in Machine/LogUnits.lean. -/

namespace Sys2Proof.Machine.Log

/-- Bits after the binary point of the significand that is squared, for a result of `n` bits. -/
def workBits (n : Nat) : Nat := 2 * n + 80

/-- Bits of the binary logarithm of a value `y` between 1 and 2 by repeated squaring: `lo` and `hi` enclose
`y * 2^w`, and `acc` holds the bits found. A square of 2 or more gives the bit 1 and is halved. -/
def squareLoop (w : Nat) : Nat → Nat → Nat → Nat → Nat × Nat × Nat
  | 0, acc, lo, hi => (acc, lo, hi)
  | t + 1, acc, lo, hi =>
    let lo2 := lo * lo / 2 ^ w
    let hi2 := (hi * hi + (2 ^ w - 1)) / 2 ^ w
    if 2 ^ (w + 1) ≤ hi2 then squareLoop w t (2 * acc + 1) (lo2 / 2) ((hi2 + 1) / 2)
    else squareLoop w t (2 * acc) lo2 hi2

/-- For the value `k * 2^-1074`, `k > 0`: two multiples of `2^-n` that enclose its binary logarithm. -/
def log2Enclosure (n k : Nat) : Int × Int :=
  let w := workBits n
  let e := Nat.log2 k
  let r := squareLoop w n 0 (k * 2 ^ w / 2 ^ e) ((k * 2 ^ w + (2 ^ e - 1)) / 2 ^ e)
  let whole : Int := ((e : Int) - 1074) * 2 ^ n + r.1
  (if 2 ^ w ≤ r.2.1 then whole else whole - 1,
   if r.2.2 ≤ 2 ^ w then whole else whole + 1)

/-- The first `t` terms of `ln 2 = Σ 1 / (i * 2^i)`, each cut off to a multiple of `2^-n`. -/
def ln2Terms (n : Nat) : Nat → Nat
  | 0 => 0
  | i + 1 => ln2Terms n i + 2 ^ n / ((i + 1) * 2 ^ (i + 1))

/-- `ln 2` is at least this multiple of `2^-n`. -/
def ln2Low (n : Nat) : Nat := ln2Terms n n

/-- `ln 2` is at most this multiple of `2^-n`: less than one is lost in each term, and one in the terms left out. -/
def ln2High (n : Nat) : Nat := ln2Low n + (n + 1)

/-- For the value `k * 2^-1074`, `k > 0`: two multiples of `2^-(2 * n)` that enclose its natural logarithm. -/
def lnEnclosure (n k : Nat) : Int × Int :=
  let r := log2Enclosure n k
  (if 0 ≤ r.1 then r.1 * ln2Low n else r.1 * ln2High n,
   if 0 ≤ r.2 then r.2 * ln2High n else r.2 * ln2Low n)

/-- The binary64 value nearest `n * 2^-bits`, for `bits ≤ 1074`. -/
def roundDyadic (bits : Nat) (n : Int) : F64 := Fp.ofScaled (decide (n < 0)) (n.natAbs * 2 ^ (1074 - bits))

/-- Both ends of an enclosure in multiples of `2^-bits` round to one value. -/
def RoundsAlike (bits : Nat) (r : Int × Int) : Prop := roundDyadic bits r.1 = roundDyadic bits r.2

/-- The multiple of 2^-1074 such that the enclosure lies strictly between it and the next one, if there is one. -/
def openCell (bits : Nat) (r : Int × Int) : Option Int :=
  let c := r.1 * 2 ^ 1074 / 2 ^ bits
  if c * 2 ^ bits < r.1 * 2 ^ 1074 ∧ r.2 * 2 ^ 1074 < (c + 1) * 2 ^ bits then some c else none

/-- The binary64 value nearest every number strictly between `c` and `c + 1` multiples of 2^-1074, where binary64
values and the points midway between two of them are even multiples: the odd one of the two stands for them all. -/
def roundCell (c : Int) : F64 :=
  let o := if c % 2 = 0 then c + 1 else c
  Fp.ofScaled (decide (o < 0)) o.natAbs

/-- The precision at which rounding is tried first. -/
def firstPrecision : Nat := 160

/-- The number that the enclosures `r n`, in multiples of `2^-(bits n)`, close in on, rounded to nearest. Where the
first enclosure does not settle the rounding, the first that lies inside a cell does; `settles` says that there is
one. -/
def correctlyRounded (bits : Nat → Nat) (r : Nat → Int × Int)
    (settles : ¬ RoundsAlike (bits firstPrecision) (r firstPrecision) → ∃ n, (openCell (bits n) (r n)).isSome = true) :
    F64 :=
  if h : roundDyadic (bits firstPrecision) (r firstPrecision).1 =
      roundDyadic (bits firstPrecision) (r firstPrecision).2 then
    roundDyadic (bits firstPrecision) (r firstPrecision).1
  else roundCell ((openCell _ _).get (Nat.find_spec (settles h)))

/-- The positive finite values, where a logarithm is a real number. -/
def inDomain (x : F64) : Bool := Fp.isFinite x && !Fp.negative x && decide (0 < Fp.magnitude x)

/-- A positive finite value as a multiple of 2^-1074. -/
def unitsIn (x : F64) : Nat := Fp.decodeMag (Fp.magnitude x)

end Sys2Proof.Machine.Log
end

