-- ==== Sys2Proof/Laws/Log.lean ====
section
/-! SUPPORT. Laws/Log.lean: the enclosures of Machine/Log.lean hold the real logarithms, at every precision, and are
narrow: that of the binary logarithm is at most 2 wide, and exact at a power of two (spec/42_estimate.md rule R196). -/

namespace Sys2Proof.Machine.Log

/-! ### One squaring -/

/-- What the loop keeps: `lo` and `hi` enclose `y`, scaled by `P`; `hi` stays between `P` and `2 * P`; and the
enclosure is at most `w` wide. -/
structure Encloses (P w lo hi : Nat) (y : ℝ) : Prop where
  pos : 0 < y
  lower : (lo : ℝ) ≤ y * P
  upper : y * P ≤ hi
  hiLow : P ≤ hi
  hiHigh : hi ≤ 2 * P
  width : hi ≤ lo + w

theorem Encloses.lo_le_hi {P w lo hi : Nat} {y : ℝ} (h : Encloses P w lo hi y) : lo ≤ hi := by
  have := h.lower.trans h.upper
  exact_mod_cast this

/-- The squared enclosure, before the halving. -/
theorem square_bounds {P w lo hi : Nat} {y : ℝ} (hP : 0 < P) (h : Encloses P w lo hi y) :
    ((lo * lo / P : Nat) : ℝ) ≤ y ^ 2 * P ∧ y ^ 2 * P ≤ ((hi * hi + (P - 1)) / P : Nat) ∧
      P ≤ (hi * hi + (P - 1)) / P ∧ (hi * hi + (P - 1)) / P ≤ 4 * P ∧
      (hi * hi + (P - 1)) / P ≤ lo * lo / P + (4 * w + 2) := by
  have hPr : (0 : ℝ) < P := by exact_mod_cast hP
  have hle := h.lo_le_hi
  have d1 := Nat.div_add_mod (lo * lo) P
  have m1 := Nat.mod_lt (lo * lo) hP
  have d2 := Nat.div_add_mod (hi * hi + (P - 1)) P
  have m2 := Nat.mod_lt (hi * hi + (P - 1)) hP
  generalize lo * lo / P = lo2 at *
  generalize (hi * hi + (P - 1)) / P = hi2 at *
  have e1 : P * lo2 ≤ lo * lo := by omega
  have e1' : lo * lo < P * lo2 + P := by omega
  have e2 : hi * hi ≤ P * hi2 := by omega
  have e2' : P * hi2 ≤ hi * hi + (P - 1) := by omega
  refine ⟨?_, ?_, ?_, ?_, ?_⟩
  · have hl : (lo : ℝ) * lo ≤ (y * P) * (y * P) :=
      mul_self_le_mul_self (Nat.cast_nonneg _) h.lower
    have hc : (P : ℝ) * lo2 ≤ lo * lo := by exact_mod_cast e1
    have : (P : ℝ) * lo2 ≤ P * (y ^ 2 * P) := by nlinarith
    exact le_of_mul_le_mul_left this hPr
  · have hu : (y * P) * (y * P) ≤ (hi : ℝ) * hi :=
      mul_self_le_mul_self (mul_nonneg h.pos.le hPr.le) h.upper
    have hc : (hi : ℝ) * hi ≤ P * hi2 := by exact_mod_cast e2
    have : (P : ℝ) * (y ^ 2 * P) ≤ P * hi2 := by nlinarith
    exact le_of_mul_le_mul_left this hPr
  · have : P * P ≤ P * hi2 := (Nat.mul_le_mul h.hiLow h.hiLow).trans e2
    exact Nat.le_of_mul_le_mul_left this hP
  · have h4 : hi * hi ≤ (2 * P) * (2 * P) := Nat.mul_le_mul h.hiHigh h.hiHigh
    have : P * hi2 < P * (4 * P + 1) := by
      have : P * (4 * P + 1) = (2 * P) * (2 * P) + P := by ring
      omega
    have := Nat.lt_of_mul_lt_mul_left this
    omega
  · have hw : hi * hi ≤ lo * lo + w * (4 * P) := by
      have hs : hi * hi ≤ hi * lo + hi * w := by
        rw [← Nat.mul_add]; exact Nat.mul_le_mul_left _ h.width
      have hs2 : hi * lo ≤ lo * lo + w * lo := by
        rw [← Nat.add_mul]; exact Nat.mul_le_mul_right _ h.width
      have h5 : hi * w ≤ w * (2 * P) := by rw [Nat.mul_comm]; exact Nat.mul_le_mul_left _ h.hiHigh
      have h6 : w * lo ≤ w * (2 * P) := Nat.mul_le_mul_left _ (hle.trans h.hiHigh)
      have : w * (4 * P) = w * (2 * P) + w * (2 * P) := by ring
      omega
    have : P * hi2 < P * (lo2 + (4 * w + 2)) := by
      have : P * (lo2 + (4 * w + 2)) = P * lo2 + w * (4 * P) + 2 * P := by ring
      omega
    exact (Nat.lt_of_mul_lt_mul_left this).le

theorem Encloses.halve {P w lo hi : Nat} {y : ℝ} (hP : 0 < P) (h : Encloses P w lo hi y)
    (hb : 2 * P ≤ (hi * hi + (P - 1)) / P) :
    Encloses P (4 * w + 4) (lo * lo / P / 2) (((hi * hi + (P - 1)) / P + 1) / 2) (y ^ 2 / 2) := by
  obtain ⟨b1, b2, b3, b4, b5⟩ := square_bounds hP h
  generalize lo * lo / P = lo2 at *
  generalize (hi * hi + (P - 1)) / P = hi2 at *
  refine ⟨by have := h.pos; positivity, ?_, ?_, by omega, by omega, by omega⟩
  · have : ((2 * (lo2 / 2) : Nat) : ℝ) ≤ lo2 := by exact_mod_cast Nat.mul_div_le lo2 2
    push_cast at this
    linarith
  · have : (hi2 : ℝ) ≤ ((2 * ((hi2 + 1) / 2) : Nat) : ℝ) := by
      exact_mod_cast (show hi2 ≤ 2 * ((hi2 + 1) / 2) by omega)
    push_cast at this
    linarith

theorem Encloses.keep {P w lo hi : Nat} {y : ℝ} (hP : 0 < P) (h : Encloses P w lo hi y)
    (hb : ¬ 2 * P ≤ (hi * hi + (P - 1)) / P) :
    Encloses P (4 * w + 4) (lo * lo / P) ((hi * hi + (P - 1)) / P) (y ^ 2) := by
  obtain ⟨b1, b2, b3, b4, b5⟩ := square_bounds hP h
  exact ⟨by have := h.pos; positivity, b1, b2, b3, by omega, by omega⟩

/-! ### The loop -/

/-- The loop's bits and its last enclosure give the binary logarithm. -/
theorem squareLoop_spec (b t : Nat) : ∀ {w acc lo hi : Nat} {y : ℝ}, Encloses (2 ^ b) w lo hi y →
    ∃ y' : ℝ,
      Encloses (2 ^ b) (4 ^ t * (w + 2)) (squareLoop b t acc lo hi).2.1 (squareLoop b t acc lo hi).2.2 y' ∧
      2 ^ t * ((acc : ℝ) + Real.logb 2 y) = (squareLoop b t acc lo hi).1 + Real.logb 2 y' := by
  induction t with
  | zero =>
    intro w acc lo hi y h
    refine ⟨y, ⟨h.pos, h.lower, h.upper, h.hiLow, h.hiHigh, ?_⟩, by simp [squareLoop]⟩
    rw [pow_zero, one_mul]
    exact h.width.trans (Nat.add_le_add_left (Nat.le_add_right w 2) lo)
  | succ t ih =>
    intro w acc lo hi y h
    have hP : 0 < 2 ^ b := Nat.two_pow_pos _
    have hlog : Real.logb 2 (y ^ 2) = 2 * Real.logb 2 y := by
      rw [Real.logb_pow]; norm_num
    have hw : 4 ^ t * (4 * w + 4 + 2) ≤ 4 ^ (t + 1) * (w + 2) := by
      rw [Nat.pow_succ, Nat.mul_assoc]; exact Nat.mul_le_mul_left _ (by omega)
    rw [squareLoop, Nat.pow_succ 2 b, Nat.mul_comm _ 2]
    split
    · next hb =>
      obtain ⟨y', he, hv⟩ := ih (acc := 2 * acc + 1) (h.halve hP hb)
      refine ⟨y', ⟨he.pos, he.lower, he.upper, he.hiLow, he.hiHigh, he.width.trans (Nat.add_le_add_left hw _)⟩, ?_⟩
      rw [← hv, Real.logb_div (pow_pos h.pos 2).ne' two_ne_zero, hlog, Real.logb_self_eq_one one_lt_two]
      push_cast
      ring
    · next hb =>
      obtain ⟨y', he, hv⟩ := ih (acc := 2 * acc) (h.keep hP hb)
      refine ⟨y', ⟨he.pos, he.lower, he.upper, he.hiLow, he.hiHigh, he.width.trans (Nat.add_le_add_left hw _)⟩, ?_⟩
      rw [← hv, hlog]
      push_cast
      ring

/-- The first enclosure of a significand. -/
theorem encloses_significand (b : Nat) {k : Nat} (hk : 0 < k) :
    Encloses (2 ^ b) 1 (k * 2 ^ b / 2 ^ Nat.log2 k)
      ((k * 2 ^ b + (2 ^ Nat.log2 k - 1)) / 2 ^ Nat.log2 k) ((k : ℝ) / 2 ^ Nat.log2 k) := by
  have h1 : 2 ^ Nat.log2 k ≤ k := Nat.log2_self_le (by omega)
  have h2 : k < 2 * 2 ^ Nat.log2 k := by rw [Nat.mul_comm, ← Nat.pow_succ]; exact Nat.lt_log2_self
  have hcast : ((2 ^ Nat.log2 k : Nat) : ℝ) = (2 : ℝ) ^ Nat.log2 k := by push_cast; rfl
  rw [← hcast]
  generalize 2 ^ b = P
  have hE : 0 < 2 ^ Nat.log2 k := Nat.two_pow_pos _
  generalize 2 ^ Nat.log2 k = E at *
  have hEr : (0 : ℝ) < E := by exact_mod_cast hE
  have d1 := Nat.div_add_mod (k * P) E
  have m1 := Nat.mod_lt (k * P) hE
  have d2 := Nat.div_add_mod (k * P + (E - 1)) E
  have m2 := Nat.mod_lt (k * P + (E - 1)) hE
  generalize k * P / E = lo at *
  generalize (k * P + (E - 1)) / E = hi at *
  refine ⟨by have : (0 : ℝ) < k := by exact_mod_cast hk
             positivity, ?_, ?_, ?_, ?_, ?_⟩
  · rw [div_mul_eq_mul_div, le_div_iff₀ hEr, mul_comm]
    exact_mod_cast (show E * lo ≤ k * P by omega)
  · rw [div_mul_eq_mul_div, div_le_iff₀ hEr, mul_comm (hi : ℝ)]
    exact_mod_cast (show k * P ≤ E * hi by omega)
  · have : E * P ≤ E * hi := (Nat.mul_le_mul_right P h1).trans (by omega)
    exact Nat.le_of_mul_le_mul_left this hE
  · have : k * P ≤ 2 * E * P := Nat.mul_le_mul_right P h2.le
    have : E * hi < E * (2 * P + 1) := by
      have : E * (2 * P + 1) = 2 * E * P + E := by ring
      omega
    have := Nat.lt_of_mul_lt_mul_left this
    omega
  · have : E * hi < E * (lo + 1 + 1) := by
      have : E * (lo + 1 + 1) = E * lo + 2 * E := by ring
      omega
    have := Nat.lt_of_mul_lt_mul_left this
    omega

/-! ### The enclosure of log2 -/

/-- The enclosure holds the binary logarithm, and is at most 2 wide. -/
theorem log2Enclosure_spec (n : Nat) {k : Nat} (hk : 0 < k) :
    ((log2Enclosure n k).1 : ℝ) ≤ 2 ^ n * (Real.logb 2 k - 1074) ∧
      2 ^ n * (Real.logb 2 k - 1074) ≤ ((log2Enclosure n k).2 : ℝ) ∧
      (log2Enclosure n k).2 ≤ (log2Enclosure n k).1 + 2 ∧ (log2Enclosure n k).1 ≤ (log2Enclosure n k).2 := by
  obtain ⟨y', he, hv⟩ := squareLoop_spec (workBits n) n (acc := 0) (encloses_significand (workBits n) hk)
  have hlog : Real.logb 2 ((k : ℝ) / 2 ^ Nat.log2 k) = Real.logb 2 k - Nat.log2 k := by
    rw [Real.logb_div (by exact_mod_cast hk.ne') (by positivity), Real.logb_pow,
      Real.logb_self_eq_one one_lt_two, mul_one]
  rw [hlog, Nat.cast_zero, zero_add] at hv
  simp only [log2Enclosure]
  generalize squareLoop (workBits n) n 0 (k * 2 ^ workBits n / 2 ^ Nat.log2 k)
    ((k * 2 ^ workBits n + (2 ^ Nat.log2 k - 1)) / 2 ^ Nat.log2 k) = r at *
  have hP : (0 : ℝ) < ((2 ^ workBits n : Nat) : ℝ) := by exact_mod_cast Nat.two_pow_pos _
  have hwide : 4 ^ n * (1 + 2) ≤ 2 ^ (workBits n - 1) := by
    rw [show workBits n - 1 = 2 * n + 79 by simp only [workBits]; omega, Nat.pow_add, Nat.pow_mul]
    exact Nat.mul_le_mul_left _ (by norm_num)
  have hhalf : 2 ^ workBits n = 2 * 2 ^ (workBits n - 1) := by
    rw [← Nat.pow_succ']; congr 1
  have hlo : 2 ^ (workBits n - 1) ≤ r.2.1 := by
    have := he.width
    have := he.hiLow
    omega
  have whole : ((((Nat.log2 k : Int) - 1074) * 2 ^ n + (r.1 : Int) : Int) : ℝ) =
      2 ^ n * (Real.logb 2 k - 1074) - Real.logb 2 y' := by
    push_cast
    linarith
  have up : Real.logb 2 y' ≤ 1 := by
    rw [Real.logb_le_iff_le_rpow one_lt_two he.pos, Real.rpow_one]
    have h1 := he.upper
    have h2 : ((r.2.2 : Nat) : ℝ) ≤ 2 * ((2 ^ workBits n : Nat) : ℝ) := by exact_mod_cast he.hiHigh
    exact le_of_mul_le_mul_right (h1.trans h2) hP
  have down : -1 ≤ Real.logb 2 y' := by
    rw [Real.le_logb_iff_rpow_le one_lt_two he.pos, Real.rpow_neg_one]
    have h1 := he.lower
    have h2 : ((2 ^ workBits n : Nat) : ℝ) ≤ 2 * (r.2.1 : ℝ) := by
      rw [hhalf]; exact_mod_cast Nat.mul_le_mul_left 2 hlo
    have : (2 : ℝ)⁻¹ * ((2 ^ workBits n : Nat) : ℝ) ≤ y' * ((2 ^ workBits n : Nat) : ℝ) := by linarith
    exact le_of_mul_le_mul_right this hP
  have downSharp : 2 ^ workBits n ≤ r.2.1 → 0 ≤ Real.logb 2 y' := by
    intro h
    refine Real.logb_nonneg one_lt_two ?_
    have h2 : ((2 ^ workBits n : Nat) : ℝ) ≤ (r.2.1 : ℝ) := by exact_mod_cast h
    exact le_of_mul_le_mul_right (by rw [one_mul]; exact h2.trans he.lower) hP
  have upSharp : r.2.2 ≤ 2 ^ workBits n → Real.logb 2 y' ≤ 0 := by
    intro h
    refine Real.logb_nonpos one_lt_two he.pos.le ?_
    have h2 : (r.2.2 : ℝ) ≤ ((2 ^ workBits n : Nat) : ℝ) := by exact_mod_cast h
    exact le_of_mul_le_mul_right (by rw [one_mul]; exact he.upper.trans h2) hP
  refine ⟨?_, ?_, by split <;> split <;> omega, by split <;> split <;> omega⟩
  · split
    · next h => rw [whole]; linarith [downSharp h]
    · rw [Int.cast_sub, whole, Int.cast_one]; linarith
  · split
    · next h => rw [whole]; linarith [upSharp h]
    · rw [Int.cast_add, whole, Int.cast_one]; linarith

/-- Squaring 1 finds no bits and loses nothing. -/
theorem squareLoop_one (w t : Nat) : squareLoop w t 0 (2 ^ w) (2 ^ w) = (0, 2 ^ w, 2 ^ w) := by
  induction t with
  | zero => rfl
  | succ t ih =>
    have hp : 0 < 2 ^ w := Nat.two_pow_pos w
    have h1 : 2 ^ w * 2 ^ w / 2 ^ w = 2 ^ w := Nat.mul_div_cancel _ hp
    have h2 : (2 ^ w * 2 ^ w + (2 ^ w - 1)) / 2 ^ w = 2 ^ w := by
      rw [Nat.add_comm, Nat.add_mul_div_right _ _ hp, Nat.div_eq_of_lt (by omega), Nat.zero_add]
    rw [squareLoop, h1, h2, if_neg (by rw [Nat.pow_succ]; omega)]
    exact ih

/-- The enclosure of the binary logarithm of a power of two is that integer. -/
theorem log2Enclosure_two_pow (n e : Nat) :
    log2Enclosure n (2 ^ e) = (((e : Int) - 1074) * 2 ^ n, ((e : Int) - 1074) * 2 ^ n) := by
  have hp : 0 < 2 ^ e := Nat.two_pow_pos e
  have h1 : 2 ^ e * 2 ^ workBits n / 2 ^ e = 2 ^ workBits n := Nat.mul_div_cancel_left _ hp
  have h2 : (2 ^ e * 2 ^ workBits n + (2 ^ e - 1)) / 2 ^ e = 2 ^ workBits n := by
    rw [Nat.add_comm, Nat.add_mul_div_left _ _ hp, Nat.div_eq_of_lt (by omega), Nat.zero_add]
  simp only [log2Enclosure, Nat.log2_two_pow, h1, h2, squareLoop_one, le_refl, if_true, Nat.cast_zero, add_zero]

/-! ### ln 2 -/

/-- A term cut off to a multiple of `2^-n` loses less than one. -/
theorem ln2Term_bounds (n i : Nat) :
    ((2 ^ n / ((i + 1) * 2 ^ (i + 1)) : Nat) : ℝ) ≤ 2 ^ n * ((1 / 2 : ℝ) ^ (i + 1) / (i + 1)) ∧
      2 ^ n * ((1 / 2 : ℝ) ^ (i + 1) / (i + 1)) ≤ ((2 ^ n / ((i + 1) * 2 ^ (i + 1)) : Nat) : ℝ) + 1 := by
  have e : (2 : ℝ) ^ n * ((1 / 2 : ℝ) ^ (i + 1) / (i + 1)) = ((2 ^ n : Nat) : ℝ) / (((i + 1) * 2 ^ (i + 1) : Nat) : ℝ) := by
    push_cast
    rw [one_div, inv_pow]
    field_simp
  rw [e]
  exact ⟨Nat.cast_div_le, (Nat.lt_floor_add_one _).le.trans_eq (by rw [Nat.floor_div_eq_div])⟩

theorem ln2Terms_bounds (n t : Nat) :
    (ln2Terms n t : ℝ) ≤ 2 ^ n * ∑ i ∈ Finset.range t, (1 / 2 : ℝ) ^ (i + 1) / (i + 1) ∧
      2 ^ n * ∑ i ∈ Finset.range t, (1 / 2 : ℝ) ^ (i + 1) / (i + 1) ≤ (ln2Terms n t : ℝ) + t := by
  induction t with
  | zero => simp [ln2Terms]
  | succ t ih =>
    obtain ⟨h1, h2⟩ := ln2Term_bounds n t
    rw [Finset.sum_range_succ, mul_add, ln2Terms]
    push_cast at *
    constructor <;> linarith

/-- `ln 2` lies between the two multiples of `2^-n`. -/
theorem ln2_bounds (n : Nat) :
    (ln2Low n : ℝ) ≤ 2 ^ n * Real.log 2 ∧ 2 ^ n * Real.log 2 ≤ (ln2High n : ℝ) := by
  have h := Real.abs_log_sub_add_sum_range_le (x := 1 / 2) (by norm_num [abs_of_pos]) n
  rw [show (1 : ℝ) - 1 / 2 = 2⁻¹ by norm_num, Real.log_inv, abs_of_pos (by norm_num : (0 : ℝ) < 1 / 2),
    show (1 / 2 : ℝ) ^ (n + 1) / (1 - 1 / 2) = 1 / 2 ^ n by rw [pow_succ, one_div, inv_pow]; ring, abs_le] at h
  have pos : ∑ i ∈ Finset.range n, (1 / 2 : ℝ) ^ (i + 1) / (i + 1) ≤ Real.log 2 := by
    have hs := Real.hasSum_pow_div_log_of_abs_lt_one (x := 1 / 2) (by norm_num [abs_of_pos])
    rw [show (1 : ℝ) - 1 / 2 = 2⁻¹ by norm_num, Real.log_inv, neg_neg] at hs
    exact sum_le_hasSum _ (fun i _ => by positivity) hs
  have hp : (0 : ℝ) < 2 ^ n := by positivity
  obtain ⟨h1, h2⟩ := ln2Terms_bounds n n
  have h3 : (2 : ℝ) ^ n * (1 / 2 ^ n) = 1 := mul_one_div_cancel hp.ne'
  constructor
  · exact h1.trans (mul_le_mul_of_nonneg_left pos hp.le)
  · rw [ln2High, ln2Low]
    push_cast
    nlinarith [h.1]

/-! ### The enclosure of ln -/

/-- The enclosure holds the natural logarithm, and is narrow against its precision. -/
theorem lnEnclosure_spec (n : Nat) {k : Nat} (hk : 0 < k) :
    ((lnEnclosure n k).1 : ℝ) ≤ 2 ^ (2 * n) * (Real.log k - 1074 * Real.log 2) ∧
      2 ^ (2 * n) * (Real.log k - 1074 * Real.log 2) ≤ ((lnEnclosure n k).2 : ℝ) ∧
      ((lnEnclosure n k).2 : ℝ) ≤
        (lnEnclosure n k).1 + 2 ^ n * ((n + 1) * (|Real.logb 2 k - 1074| + 4)) := by
  obtain ⟨h1, h2, h3, h4⟩ := log2Enclosure_spec n hk
  obtain ⟨l1, l2⟩ := ln2_bounds n
  have hl2 : Real.log 2 ≠ 0 := (Real.log_pos one_lt_two).ne'
  have key : (2 : ℝ) ^ (2 * n) * (Real.log k - 1074 * Real.log 2) =
      (2 ^ n * (Real.logb 2 k - 1074)) * (2 ^ n * Real.log 2) := by
    rw [two_mul, pow_add, Real.logb]; field_simp
  have hlog : Real.log 2 ≤ 1 := Real.log_two_lt_d9.le.trans (by norm_num)
  have hone : (1 : ℝ) ≤ 2 ^ n := one_le_pow₀ one_le_two
  have hC : (0 : ℝ) ≤ ln2Low n := Nat.cast_nonneg _
  have hH : (ln2High n : ℝ) = ln2Low n + (n + 1) := by rw [ln2High]; push_cast; ring
  have hx : |2 ^ n * (Real.logb 2 k - 1074)| = 2 ^ n * |Real.logb 2 k - 1074| := by
    rw [abs_mul, abs_of_pos (by linarith)]
  rw [key]
  generalize |Real.logb 2 k - 1074| = A at *
  generalize 2 ^ n * (Real.logb 2 k - 1074) = x at *
  have lo : (2 : ℝ) ^ n * Real.log 2 ≤ 2 ^ n := mul_le_of_le_one_right (by linarith) hlog
  generalize 2 ^ n * Real.log 2 = l at *
  generalize (2 : ℝ) ^ n = P at *
  simp only [lnEnclosure]
  generalize log2Enclosure n k = r at *
  have h3' : (r.2 : ℝ) ≤ r.1 + 2 := by exact_mod_cast h3
  have h4' : (r.1 : ℝ) ≤ r.2 := by exact_mod_cast h4
  have hn : (0 : ℝ) ≤ n := Nat.cast_nonneg _
  have hxl := neg_abs_le x
  have hxu := le_abs_self x
  rw [hx] at hxl hxu
  have hA : 0 ≤ P * A := by linarith
  refine ⟨?_, ?_, ?_⟩
  · split
    · next h =>
      have : (0 : ℝ) ≤ (r.1 : ℝ) := by exact_mod_cast h
      push_cast
      nlinarith
    · next h =>
      have : (r.1 : ℝ) ≤ 0 := by exact_mod_cast (not_le.1 h).le
      push_cast
      nlinarith
  · split
    · next h =>
      have : (0 : ℝ) ≤ (r.2 : ℝ) := by exact_mod_cast h
      push_cast
      nlinarith
    · next h =>
      have : (r.2 : ℝ) ≤ 0 := by exact_mod_cast (not_le.1 h).le
      push_cast
      nlinarith
  · have budget : 2 * P + (P * A + 2) * (n + 1) ≤ P * ((n + 1) * (A + 4)) := by nlinarith [mul_nonneg hn hA]
    refine le_trans ?_ (add_le_add_right budget _)
    by_cases h : 0 ≤ r.1
    · have ha : (0 : ℝ) ≤ (r.1 : ℝ) := by exact_mod_cast h
      rw [if_pos h, if_pos (h.trans h4)]
      push_cast
      nlinarith
    · have ha : (r.1 : ℝ) ≤ 0 := by exact_mod_cast (not_le.1 h).le
      rw [if_neg h]
      by_cases h' : 0 ≤ r.2
      · have hb : (0 : ℝ) ≤ (r.2 : ℝ) := by exact_mod_cast h'
        rw [if_pos h']
        push_cast
        nlinarith
      · have hb : (r.2 : ℝ) ≤ 0 := by exact_mod_cast (not_le.1 h').le
        rw [if_neg h']
        push_cast
        nlinarith

end Sys2Proof.Machine.Log
end

