-- ==== Sys2Proof/Laws/LogSettles.lean ====
section
/-! SUPPORT. Laws/LogSettles.lean: every logarithm that the units round is settled at some precision. The binary
logarithm of a value that is no power of two, and the natural logarithm of a value other than 1, is no multiple of
2^-1074, so that a narrow enough enclosure lies inside an open cell (spec/42_estimate.md rule R196). -/

namespace Sys2Proof.Machine.Log

open Filter Topology Polynomial

/-! ### Logarithms that are no rational numbers -/

/-- A positive integer that is no power of two has no rational binary logarithm. -/
theorem mul_logb_ne {k M : Nat} (hk : 0 < k) (hM : 0 < M) (hp : ∀ e, k ≠ 2 ^ e) (c : ℤ) :
    (M : ℝ) * Real.logb 2 k ≠ c := by
  intro h
  have hk1 : (1 : ℝ) ≤ k := by exact_mod_cast hk
  have hc : (0 : ℝ) ≤ c := by
    rw [← h]; exact mul_nonneg (Nat.cast_nonneg _) (Real.logb_nonneg one_lt_two hk1)
  obtain ⟨d, rfl⟩ := Int.eq_ofNat_of_zero_le (show 0 ≤ c by exact_mod_cast hc)
  have hpow : (k : ℝ) ^ M = 2 ^ d := by
    have h1 : Real.logb 2 ((k : ℝ) ^ M) = d := by rw [Real.logb_pow, h]; simp
    rw [← Real.rpow_natCast 2 d, ← h1, Real.rpow_logb two_pos (by norm_num) (by positivity)]
  have hnat : k ^ M = 2 ^ d := by exact_mod_cast hpow
  obtain ⟨e, -, he⟩ := (Nat.dvd_prime_pow Nat.prime_two).1 (hnat ▸ dvd_pow_self k hM.ne')
  exact hp e he

/-- The exponential of a positive integer is no quotient of integers. -/
theorem exp_nat_ne_div {a : Nat} (ha : 0 < a) (u v : ℤ) (hv : v ≠ 0) : Real.exp a ≠ u / v := by
  intro h
  have hu : u ≠ 0 := by
    rintro rfl
    exact (Real.exp_pos a).ne' (by rw [h]; simp)
  have hev : (X - C (a : ℤ) : ℤ[X]).eval 0 = -(a : ℤ) := by simp
  obtain ⟨c, hc⟩ := LindemannWeierstrass.exp_polynomial_approx (X - C (a : ℤ)) (by rw [hev]; omega)
  have hlim : Tendsto (fun q : ℕ => |(v : ℝ)| * (c ^ (q + 1) / (q.factorial : ℝ))) atTop (𝓝 0) := by
    have h1 := (FloorSemiring.tendsto_pow_div_factorial_atTop c).const_mul (|(v : ℝ)| * c)
    rw [mul_zero] at h1
    refine h1.congr (fun q => ?_)
    rw [pow_succ]; ring
  obtain ⟨N, hN⟩ := (hlim.eventually (gt_mem_nhds one_pos)).exists_forall_of_atTop
  obtain ⟨p, hpN, hpp⟩ := Nat.exists_infinite_primes (N + 1 + a + u.natAbs + 1)
  obtain ⟨n, hpn, gp, -, hr⟩ := hc p (by rw [hev]; simp; omega) hpp
  have hroot : (a : ℂ) ∈ (X - C (a : ℤ) : ℤ[X]).aroots ℂ := by
    rw [mem_aroots]
    exact ⟨X_sub_C_ne_zero _, by simp⟩
  have hb := hr hroot
  have hval : aeval (a : ℂ) gp = ((gp.eval (a : ℤ) : ℤ) : ℂ) := by
    have := aeval_algebraMap_apply_eq_algebraMap_eval (A := ℂ) (a : ℤ) gp
    simpa using this
  have hexp : Complex.exp (a : ℂ) = ((u / v : ℝ) : ℂ) := by
    rw [← h]; push_cast; rfl
  rw [hval, hexp] at hb
  set g := gp.eval (a : ℤ)
  have hvr : (v : ℝ) ≠ 0 := by exact_mod_cast hv
  have hreal : |(n : ℝ) * (u / v) - p * g| ≤ c ^ p / ((p - 1).factorial : ℝ) := by
    rw [← Real.norm_eq_abs, ← Complex.norm_real]
    refine le_trans (le_of_eq ?_) hb
    congr 1
    push_cast
    simp
  have hint : |((n * u - p * g * v : ℤ) : ℝ)| < 1 := by
    have e : ((n * u - p * g * v : ℤ) : ℝ) = v * ((n : ℝ) * (u / v) - p * g) := by
      push_cast; field_simp
    rw [e, abs_mul]
    have h2 := hN (p - 1) (by omega)
    rw [show p - 1 + 1 = p by have := hpp.pos; omega] at h2
    exact lt_of_le_of_lt (mul_le_mul_of_nonneg_left hreal (abs_nonneg _)) h2
  have hzero : n * u - p * g * v = 0 := by
    have : |n * u - p * g * v| < 1 := by exact_mod_cast hint
    exact Int.abs_lt_one_iff.1 this
  have hdvd : (p : ℤ) ∣ n * u := ⟨g * v, by linarith⟩
  rcases (Nat.prime_iff_prime_int.1 hpp).dvd_or_dvd hdvd with hd | hd
  · exact hpn hd
  · have := Int.natAbs_le_of_dvd_ne_zero hd hu
    simp at this
    omega

/-- A positive rational other than 1 has no rational natural logarithm. -/
theorem mul_log_ne {a b M : Nat} (ha : 0 < a) (hb : 0 < b) (hM : 0 < M) (hne : a ≠ b) (c : ℤ) :
    (M : ℝ) * (Real.log a - Real.log b) ≠ c := by
  intro h
  have har : (0 : ℝ) < a := by exact_mod_cast ha
  have hbr : (0 : ℝ) < b := by exact_mod_cast hb
  have hexp : Real.exp c = (a / b : ℝ) ^ M := by
    rw [← h, ← Real.log_div har.ne' hbr.ne', mul_comm, Real.exp_mul, Real.exp_log (by positivity), Real.rpow_natCast]
  obtain ⟨d, rfl | rfl⟩ := Int.eq_nat_or_neg c
  · rcases Nat.eq_zero_or_pos d with rfl | hd
    · rw [Int.cast_natCast, Nat.cast_zero] at h
      rcases mul_eq_zero.1 h with h | h
      · exact hM.ne' (by exact_mod_cast h)
      · exact hne (by exact_mod_cast Real.log_injOn_pos har hbr (sub_eq_zero.1 h))
    · refine exp_nat_ne_div hd ((a : ℤ) ^ M) ((b : ℤ) ^ M) (by positivity) ?_
      rw [div_pow] at hexp
      push_cast at *
      exact hexp
  · rcases Nat.eq_zero_or_pos d with rfl | hd
    · rw [Int.cast_neg, Int.cast_natCast, Nat.cast_zero, neg_zero] at h
      rcases mul_eq_zero.1 h with h | h
      · exact hM.ne' (by exact_mod_cast h)
      · exact hne (by exact_mod_cast Real.log_injOn_pos har hbr (sub_eq_zero.1 h))
    · refine exp_nat_ne_div hd ((b : ℤ) ^ M) ((a : ℤ) ^ M) (by positivity) ?_
      rw [Int.cast_neg, Real.exp_neg, div_pow, inv_eq_iff_eq_inv, inv_div] at hexp
      push_cast at *
      exact hexp

/-! ### Narrow enclosures lie inside a cell -/

/-- An enclosure that is narrow against the distances of the number to the multiples of 2^-1074 around it lies inside
their cell. -/
theorem openCell_isSome {bits : Nat} {r : Int × Int} {x w : ℝ}
    (h1 : (r.1 : ℝ) ≤ 2 ^ bits * x) (h2 : 2 ^ bits * x ≤ r.2) (hw : (r.2 : ℝ) ≤ r.1 + w)
    (hlo : ((2 ^ 1074 : Nat) : ℝ) * w < 2 ^ bits * ((2 ^ 1074 : Nat) * x - ⌊((2 ^ 1074 : Nat) : ℝ) * x⌋))
    (hhi : ((2 ^ 1074 : Nat) : ℝ) * w < 2 ^ bits * (⌊((2 ^ 1074 : Nat) : ℝ) * x⌋ + 1 - (2 ^ 1074 : Nat) * x)) :
    (openCell bits r).isSome = true := by
  have hcast : ((2 ^ 1074 : ℤ) : ℝ) = ((2 ^ 1074 : Nat) : ℝ) := by push_cast; rfl
  have hB : (0 : ℝ) < ((2 ^ 1074 : Nat) : ℝ) := by exact_mod_cast Nat.two_pow_pos _
  rw [openCell]
  generalize ((2 ^ 1074 : Nat) : ℝ) = B at *
  generalize (2 ^ 1074 : ℤ) = Bi at *
  have hP : (0 : ℝ) < 2 ^ bits := by positivity
  have hPi : (0 : ℤ) < 2 ^ bits := by positivity
  generalize hf : ⌊B * x⌋ = f at *
  have l1 : (f : ℝ) * 2 ^ bits < r.1 * Bi := by
    rw [hcast]; nlinarith
  have l2 : (r.2 : ℝ) * Bi < (f + 1) * 2 ^ bits := by
    rw [hcast]; nlinarith
  have l3 : (r.1 : ℝ) * Bi ≤ r.2 * Bi := by
    rw [hcast]; exact mul_le_mul_of_nonneg_right (h1.trans h2) hB.le
  have i1 : f * 2 ^ bits < r.1 * Bi := by exact_mod_cast l1
  have i2 : r.2 * Bi < (f + 1) * 2 ^ bits := by exact_mod_cast l2
  have i3 : r.1 * Bi ≤ r.2 * Bi := by exact_mod_cast l3
  have hdiv : r.1 * Bi / 2 ^ bits = f := by
    refine Int.ediv_eq_iff_of_pos hPi |>.2 ⟨?_, ?_⟩
    · exact i1.le
    · linarith
  simp only [hdiv]
  rw [if_pos ⟨i1, i2⟩]
  rfl

/-- Enclosures whose width is small against their precision lie inside a cell from some precision on. -/
theorem exists_openCell {bits : Nat → Nat} {r : Nat → Int × Int} {x : ℝ} {w : Nat → ℝ}
    (hx : ∀ c : ℤ, (2 ^ 1074 : Nat) * x ≠ c) (h1 : ∀ n, ((r n).1 : ℝ) ≤ 2 ^ bits n * x)
    (h2 : ∀ n, 2 ^ bits n * x ≤ (r n).2) (hw : ∀ n, ((r n).2 : ℝ) ≤ (r n).1 + w n)
    (hlim : Tendsto (fun n => w n / 2 ^ bits n) atTop (𝓝 0)) :
    ∃ n, (openCell (bits n) (r n)).isSome = true := by
  have fl := Int.floor_le (((2 ^ 1074 : Nat) : ℝ) * x)
  have fu := Int.lt_floor_add_one (((2 ^ 1074 : Nat) : ℝ) * x)
  have hne := hx ⌊((2 ^ 1074 : Nat) : ℝ) * x⌋
  have small : ∀ d : ℝ, 0 < d → ∀ᶠ n in atTop, ((2 ^ 1074 : Nat) : ℝ) * w n < 2 ^ bits n * d := by
    intro d hd
    have h := hlim.const_mul ((2 ^ 1074 : Nat) : ℝ)
    rw [mul_zero] at h
    filter_upwards [h.eventually (gt_mem_nhds hd)] with n hn
    rw [← mul_div_assoc, div_lt_iff₀ (by positivity)] at hn
    linarith
  obtain ⟨n, hn⟩ := ((small _ (sub_pos.2 (lt_of_le_of_ne fl hne.symm))).and (small _ (sub_pos.2 fu))).exists
  exact ⟨n, openCell_isSome (h1 n) (h2 n) (hw n) hn.1 hn.2⟩

/-! ### The two logarithms -/

theorem unitsIn_pos {x : F64} (h : inDomain x = true) : 0 < unitsIn x := by
  simp only [inDomain, Bool.and_eq_true, decide_eq_true_eq] at h
  rw [unitsIn, ← Fp.decodeMag_zero]
  exact Fp.decodeMag_lt.2 h.2

/-- Where the first enclosure of the binary logarithm does not settle the rounding, some enclosure lies inside a
cell. -/
theorem log2_settles {k : Nat} (hk : 0 < k)
    (h : ¬ RoundsAlike firstPrecision (log2Enclosure firstPrecision k)) :
    ∃ n, (openCell n (log2Enclosure n k)).isSome = true := by
  have hp : ∀ e, k ≠ 2 ^ e := by
    rintro e rfl
    exact h (by rw [log2Enclosure_two_pow]; rfl)
  refine exists_openCell (bits := id) (x := Real.logb 2 k - 1074) (w := fun _ => 2) (fun c hc => ?_)
    (fun n => (log2Enclosure_spec n hk).1) (fun n => (log2Enclosure_spec n hk).2.1)
    (fun n => by exact_mod_cast (log2Enclosure_spec n hk).2.2.1) ?_
  · generalize hM : 2 ^ 1074 = M at hc
    refine mul_logb_ne (M := M) hk (hM ▸ Nat.two_pow_pos _) hp (c + M * 1074) ?_
    push_cast
    linarith
  · have : Tendsto (fun n : ℕ => (2 : ℝ) * (1 / 2) ^ n) atTop (𝓝 (2 * 0)) :=
      (tendsto_pow_atTop_nhds_zero_of_lt_one (by norm_num) (by norm_num)).const_mul 2
    rw [mul_zero] at this
    refine this.congr (fun n => ?_)
    rw [one_div, inv_pow, id, div_eq_mul_inv]

/-- The enclosure of the natural logarithm of 1 is 0. -/
theorem lnEnclosure_one {n k : Nat} (h : k = 2 ^ 1074) : lnEnclosure n k = (0, 0) := by
  have hz : log2Enclosure n k = (0, 0) := by rw [h, log2Enclosure_two_pow]; simp
  simp [lnEnclosure, hz]

/-- The same of the natural logarithm. -/
theorem ln_settles {k : Nat} (hk : 0 < k)
    (h : ¬ RoundsAlike (2 * firstPrecision) (lnEnclosure firstPrecision k)) :
    ∃ n, (openCell (2 * n) (lnEnclosure n k)).isSome = true := by
  have hp : k ≠ 2 ^ 1074 := by
    intro hk1
    refine h ?_
    rw [RoundsAlike, lnEnclosure_one hk1]
  refine exists_openCell (bits := fun n => 2 * n) (x := Real.log k - 1074 * Real.log 2)
    (w := fun n => 2 ^ n * ((n + 1) * (|Real.logb 2 k - 1074| + 4))) (fun c hc => ?_)
    (fun n => (lnEnclosure_spec n hk).1) (fun n => (lnEnclosure_spec n hk).2.1)
    (fun n => (lnEnclosure_spec n hk).2.2) ?_
  · have e : (1074 : ℝ) * Real.log 2 = Real.log ((2 ^ 1074 : Nat) : ℝ) := by
      rw [Nat.cast_pow, Real.log_pow]; norm_num
    rw [e] at hc
    generalize hM : 2 ^ 1074 = M at *
    have hM0 : 0 < M := hM ▸ Nat.two_pow_pos _
    exact mul_log_ne hk hM0 hM0 hp c hc
  · have h1 : Tendsto (fun n : ℕ => (n : ℝ) / 2 ^ n) atTop (𝓝 0) := by
      simpa using tendsto_pow_const_div_const_pow_of_one_lt 1 (one_lt_two (α := ℝ))
    have h2 : Tendsto (fun n : ℕ => (1 : ℝ) / 2 ^ n) atTop (𝓝 0) := by
      simpa using tendsto_pow_const_div_const_pow_of_one_lt 0 (one_lt_two (α := ℝ))
    have h3 := (h1.add h2).mul_const (|Real.logb 2 k - 1074| + 4)
    rw [add_zero, zero_mul] at h3
    refine h3.congr (fun n => ?_)
    have : (2 : ℝ) ^ n ≠ 0 := by positivity
    rw [two_mul, pow_add]
    field_simp

end Sys2Proof.Machine.Log
end

