-- ==== Sys2Proof/Machine/LogUnits.lean ====
section
/-! DEFINITION. Machine/LogUnits.lean: the logarithm units this hardware takes, LOG2 and LN correctly rounded to
nearest even (spec/00_scope.md rule R7, spec/42_estimate.md rule R196). Every definition that uses a unit takes it as
an argument (R7); `logUnits` is what `step` passes. -/

namespace Sys2Proof.Machine

/-- The default LOG2 of R196. -/
def log2Unit (x : F64) : F64 :=
  if h : Log.inDomain x = true then
    Log.correctlyRounded (fun n => n) (fun n => Log.log2Enclosure n (Log.unitsIn x))
      (Log.log2_settles (Log.unitsIn_pos h))
  else Config.logOutside x

/-- The default LN of R196. -/
def lnUnit (x : F64) : F64 :=
  if h : Log.inDomain x = true then
    Log.correctlyRounded (fun n => 2 * n) (fun n => Log.lnEnclosure n (Log.unitsIn x))
      (Log.ln_settles (Log.unitsIn_pos h))
  else Config.logOutside x

/-- The units this hardware takes (R7, R196). -/
def logUnits : LogUnits := { log2 := log2Unit, ln := lnUnit }

end Sys2Proof.Machine
end

