-- ==== Sys2Proof/WellFormed.lean ====
section
/-! DEFINITION. WellFormed.lean: which terms stand for something the spec admits. A command carries no operand
(spec/30_encoding.md rule R114), so what can be ill formed is a host transaction (R12, R82) or a choice of
parameters (R7). -/

namespace Sys2Proof

/-- Every command is well formed: it has no field (R114). -/
def Instr.wellFormed : Instr → Bool
  | .nop => true
  | .assign => true
  | .estimate => true

/-- The legal ranges of R7; that of `EPS` is its default alone. -/
def Params.wellFormed (p : Params) : Bool :=
  decide (1 ≤ p.nMax) && decide (p.nMax ≤ 1024) && decide (1 ≤ p.maxbitsMax) && decide (p.maxbitsMax ≤ 31) &&
    decide (p.eps = Config.eps)

namespace Machine

/-- An access the block's port can express: one aligned 32-bit word (R12, R70, R82). -/
def portAccess (addr : BusAddr) (size : Nat) : Bool :=
  decide (size = 4) && decide (addr.toNat % 4 = 0)

/-- A host program line whose access the port can express. -/
def HostOp.wellFormed : HostOp → Bool
  | .wr addr size _ => portAccess addr size
  | .rd addr size => portAccess addr size
  | .poll addr _ _ => portAccess addr 4

end Machine

end Sys2Proof
end

