-- ==== Sys2Proof/Decode.lean ====
section
/-! DEFINITION. Decode.lean: command words to commands and back, after spec/30_encoding.md. A decoder reads one
32-bit word (R110); every word is a command of R112 or is refused by name (R113). -/

namespace Sys2Proof

/-- Why bytes are no command. -/
inductive DecodeError where
  /-- RSVD, bits [31:4], is not 0 (R113). -/
  | reservedBits
  /-- OP is in 0x3..0xF (R113). -/
  | reservedOp
  /-- Fewer than the four bytes of a command word (R110). -/
  | truncated
  deriving DecidableEq, Repr

/-- OP, bits [3:0] (R111). -/
def opField (w : Word) : BitVec 4 := w.extractLsb' 0 4

/-- RSVD, bits [31:4] (R111). -/
def rsvdField (w : Word) : BitVec 28 := w.extractLsb' 4 28

/-- The command a word stands for (R112), or the reason it is illegal (R113). -/
def decodeWord (w : Word) : Except DecodeError Instr :=
  if rsvdField w = 0#28 then
    if opField w = 0x0#4 then .ok .nop
    else if opField w = 0x1#4 then .ok .assign
    else if opField w = 0x2#4 then .ok .estimate
    else .error .reservedOp
  else .error .reservedBits

/-- The four bytes of a word as the byte view stores them: byte `k` is bits [8k+7:8k] (R81). -/
def wordBytes (w : Word) : List Byte :=
  [w.extractLsb' 0 8, w.extractLsb' 8 8, w.extractLsb' 16 8, w.extractLsb' 24 8]

/-- The word of four bytes, byte 0 least significant (R81). -/
def bytesWord (b0 b1 b2 b3 : Byte) : Word := b3 ++ b2 ++ b1 ++ b0

/-- The decoder over bytes: the command in front and the bytes after it. -/
def decode : List Byte → Except DecodeError (Instr × List Byte)
  | b0 :: b1 :: b2 :: b3 :: rest => (decodeWord (bytesWord b0 b1 b2 b3)).map (·, rest)
  | _ => .error .truncated

/-- OP of a command (R112). -/
def opcode : Instr → BitVec 4
  | .nop => 0x0#4
  | .assign => 0x1#4
  | .estimate => 0x2#4

/-- The command word: RSVD = 0 above OP (R111). -/
def encodeWord (i : Instr) : Word := 0#28 ++ opcode i

/-- The bytes of a command. -/
def encode (i : Instr) : List Byte := wordBytes (encodeWord i)

/-- A row of spec/opcode_table.json (R115). -/
structure OpcodeRow where
  instr : Instr
  matchBits : Word
  mask : Word
  deriving DecidableEq, Repr

/-- The rows of spec/opcode_table.json. -/
def opcodeTable : List OpcodeRow :=
  [ { instr := .nop, matchBits := 0x00000000#32, mask := 0xFFFFFFFF#32 },
    { instr := .assign, matchBits := 0x00000001#32, mask := 0xFFFFFFFF#32 },
    { instr := .estimate, matchBits := 0x00000002#32, mask := 0xFFFFFFFF#32 } ]

/-- A word selects a row exactly when `(w & mask) == match` (R115). -/
def OpcodeRow.selects (r : OpcodeRow) (w : Word) : Prop := w &&& r.mask = r.matchBits

/-- The command word whose low `nbits` bits are `w`, every bit above them 0. -/
def tableWord (nbits w : Nat) : Word := BitVec.ofNat 32 (w % 2 ^ nbits)

/-- What the decoder reads from a word numbered as spec/opcode_table.json numbers it. -/
def decodeTableWord (nbits w : Nat) : Option Instr :=
  match decode (wordBytes (tableWord nbits w)) with
  | .ok (i, _) => some i
  | .error _ => none

end Sys2Proof
end

