-- ==== Sys2Proof/Machine/Memory.lean ====
section
/-! DEFINITION. Machine/Memory.lean: the byte-addressed list that holds the four array memories (spec/20_memory.md
rules R71, R81). An address that is not listed is unwritten (spec/10_state.md rule R44), so no listed cell can equal
what an unlisted one reads as. -/

namespace Sys2Proof.Machine.Memory

/-- The canonical form: addresses strictly rising. -/
abbrev wf (m : Memory) : Prop := m.Pairwise (fun c d => c.1 < d.1)

/-- The byte at an address, `none` where it is unwritten. -/
def lookup : Memory → Nat → Option Byte
  | [], _ => none
  | c :: m, x => if c.1 = x then some c.2 else lookup m x

/-- A byte is written. -/
def insert : Memory → Nat → Byte → Memory
  | [], x, v => [(x, v)]
  | c :: m, x, v =>
    if x < c.1 then (x, v) :: c :: m
    else if x = c.1 then (x, v) :: m
    else c :: insert m x v

/-- The addresses that `p` names become unwritten: their content is unspecified (R16, R44). -/
def forget (m : Memory) (p : Nat → Bool) : Memory := m.filter (fun c => !p c.1)

/-- The 32-bit word at byte address `a`, byte `k` at `a + k` (R81); `none` where it is unwritten. -/
def readWord (m : Memory) (a : Nat) : Option Word :=
  match lookup m a, lookup m (a + 1), lookup m (a + 2), lookup m (a + 3) with
  | some b0, some b1, some b2, some b3 => some (bytesWord b0 b1 b2 b3)
  | _, _, _, _ => none

/-- A whole word is replaced (R83), little-endian (R81). -/
def writeWord (m : Memory) (a : Nat) (w : Word) : Memory :=
  insert (insert (insert (insert m a (w.extractLsb' 0 8)) (a + 1) (w.extractLsb' 8 8))
    (a + 2) (w.extractLsb' 16 8)) (a + 3) (w.extractLsb' 24 8)

/-- A 64-bit entry, low word at the lower address (R81). -/
def readDword (m : Memory) (a : Nat) : Option (BitVec 64) :=
  match readWord m a, readWord m (a + 4) with
  | some lo, some hi => some (hi ++ lo)
  | _, _ => none

/-- A whole 64-bit entry is replaced (R83). -/
def writeDword (m : Memory) (a : Nat) (v : BitVec 64) : Memory :=
  writeWord (writeWord m a (v.extractLsb' 0 32)) (a + 4) (v.extractLsb' 32 32)

end Sys2Proof.Machine.Memory
end

