-- ==== Sys2Proof/Machine/Operands.lean ====
section
/-! DEFINITION. Machine/Operands.lean: where operands and results live. The register map (spec/10_state.md rule
R22), the address decode of spec/20_memory.md rules R71 to R74, the array entries, and the scratch tables. -/

namespace Sys2Proof.Machine

/-- The registers of R22. -/
inductive Reg where
  | id | cfg | cmd | status | irqEn
  | caN | caMaxbits | caErrCode | caErrIndex | caErrValue
  | eeN | eeErrCode | eeErrIndex | eeErrValueLo | eeErrValueHi
  deriving DecidableEq, Repr

/-- The offset column of R22. -/
def Reg.offset : Reg → Nat
  | .id => 0x000 | .cfg => 0x004 | .cmd => 0x008 | .status => 0x00C | .irqEn => 0x010
  | .caN => 0x020 | .caMaxbits => 0x024 | .caErrCode => 0x028 | .caErrIndex => 0x02C | .caErrValue => 0x030
  | .eeN => 0x040 | .eeErrCode => 0x044 | .eeErrIndex => 0x048 | .eeErrValueLo => 0x04C | .eeErrValueHi => 0x050

/-- The register at an offset; every other offset of the region is reserved (R38). -/
def regAt (offset : Nat) : Option Reg :=
  if offset = 0x000 then some .id else if offset = 0x004 then some .cfg
  else if offset = 0x008 then some .cmd else if offset = 0x00C then some .status
  else if offset = 0x010 then some .irqEn
  else if offset = 0x020 then some .caN else if offset = 0x024 then some .caMaxbits
  else if offset = 0x028 then some .caErrCode else if offset = 0x02C then some .caErrIndex
  else if offset = 0x030 then some .caErrValue
  else if offset = 0x040 then some .eeN else if offset = 0x044 then some .eeErrCode
  else if offset = 0x048 then some .eeErrIndex else if offset = 0x04C then some .eeErrValueLo
  else if offset = 0x050 then some .eeErrValueHi
  else none

/-- What a bus address names (R71, R72). -/
inductive Target where
  | reg (r : Reg)
  /-- A reserved register offset (R38). -/
  | reserved
  | lenEntry (i : Nat)
  | symEntry (i : Nat)
  | cntEntry (i : Nat)
  /-- One half of a BITLEN entry: `high = false` is bits [31:0], `high = true` is bits [63:32] (R72). -/
  | bitlenHalf (i : Nat) (high : Bool)
  /-- 0x6000..0x7FFF, and an array index at or above N_MAX (R73, R74). -/
  | unmapped
  deriving DecidableEq, Repr

/-- An array entry exists when its index is below N_MAX (R73). -/
def mappedEntry (p : Params) (i : Nat) (t : Target) : Target := if i < p.nMax then t else .unmapped

/-- The address map R71 and the entry decode R72. -/
def decodeAddr (p : Params) (addr : BusAddr) : Target :=
  let a := addr.toNat
  if a < 0x1000 then
    match regAt a with
    | some r => .reg r
    | none => .reserved
  else if a < 0x2000 then mappedEntry p ((a - 0x1000) >>> 2) (.lenEntry ((a - 0x1000) >>> 2))
  else if a < 0x3000 then mappedEntry p ((a - 0x2000) >>> 2) (.symEntry ((a - 0x2000) >>> 2))
  else if a < 0x4000 then mappedEntry p ((a - 0x3000) >>> 2) (.cntEntry ((a - 0x3000) >>> 2))
  else if a < 0x6000 then
    mappedEntry p ((a - 0x4000) >>> 3) (.bitlenHalf ((a - 0x4000) >>> 3) (addr.getLsbD 2))
  else .unmapped

/-- The byte address of `LEN[i]` (R40). -/
def lenAddr (i : Nat) : Nat := 0x1000 + 4 * i
/-- The byte address of `SYM[i]` (R41). -/
def symAddr (i : Nat) : Nat := 0x2000 + 4 * i
/-- The byte address of `CNT[i]` (R42). -/
def cntAddr (i : Nat) : Nat := 0x3000 + 4 * i
/-- The byte address of `BITLEN[i]`, its low half (R43). -/
def bitlenAddr (i : Nat) : Nat := 0x4000 + 8 * i
/-- The byte address of a half of `BITLEN[i]` (R43, R81). -/
def bitlenHalfAddr (i : Nat) (high : Bool) : Nat := bitlenAddr i + if high then 4 else 0

/-- Which engine owns what an address names (R49); nothing else is ever busy-locked. -/
def Target.owner : Target → Option Engine
  | .reg .caN => some .ca
  | .reg .caMaxbits => some .ca
  | .reg .eeN => some .ee
  | .reg _ => none
  | .reserved => none
  | .lenEntry _ => some .ca
  | .symEntry _ => some .ca
  | .cntEntry _ => some .ee
  | .bitlenHalf _ _ => some .ee
  | .unmapped => none

/-- `LEN[i]`, if written. -/
def State.readLen (s : State) (i : Nat) : Option Word := s.mem.readWord (lenAddr i)
/-- `SYM[i]`, if written. -/
def State.readSym (s : State) (i : Nat) : Option Word := s.mem.readWord (symAddr i)
/-- `CNT[i]`, if written. -/
def State.readCnt (s : State) (i : Nat) : Option Word := s.mem.readWord (cntAddr i)
/-- `BITLEN[i]`, if both halves are written. -/
def State.readBitlen (s : State) (i : Nat) : Option F64 := s.mem.readDword (bitlenAddr i)

/-- `SYM[i] <- w`. -/
def State.writeSym (i : Nat) (w : Word) (s : State) : State :=
  { s with mem := s.mem.writeWord (symAddr i) w }

/-- `BITLEN[i] <- v`. -/
def State.writeBitlen (i : Nat) (v : F64) (s : State) : State :=
  { s with mem := s.mem.writeDword (bitlenAddr i) v }

/-- The bytes of `BITLEN[0..n-1]`. -/
def inBitlen (n : Nat) (a : Nat) : Bool := decide (bitlenAddr 0 ≤ a) && decide (a < bitlenAddr n)

/-- An entry of a scratch table (R45); the engines read entries `0..MAXBITS_MAX` only. -/
def tableRead (t : List Word) (L : Nat) : Word := t.getD L 0

/-- A scratch entry is written (R45). -/
def tableWrite (t : List Word) (L : Nat) (w : Word) : List Word := t.set L w

end Sys2Proof.Machine
end

