-- ==== Sys2Proof/Machine/Flags.lean ====
section
/-! DEFINITION. Machine/Flags.lean: STATUS, IRQ_EN and the interrupt line (spec/10_state.md rules R26 to R28,
spec/60_exceptions.md rule R239). -/

namespace Sys2Proof.Machine

/-- STATUS.CA_BUSY or STATUS.EE_BUSY: the engine is RUNNING (R47). -/
def State.busy (s : State) : Engine → Bool
  | .ca => decide (s.ca.phase ≠ .idle)
  | .ee => decide (s.ee.phase ≠ .idle)

/-- STATUS as the host reads it: the fields of R26, the reserved bits 3, 7 and 31:11 as 0. -/
def State.statusWord (s : State) : Word :=
  0#21 ++ (BitVec.ofBool s.bus.cmdDrop ++ (BitVec.ofBool s.bus.wrDrop ++ (BitVec.ofBool s.bus.illCmd ++
    (0#1 ++ (BitVec.ofBool s.ee.err ++ (BitVec.ofBool s.ee.done ++ (BitVec.ofBool (s.busy .ee) ++
      (0#1 ++ (BitVec.ofBool s.ca.err ++ (BitVec.ofBool s.ca.done ++ BitVec.ofBool (s.busy .ca)))))))))))

/-- A host write of `w` to STATUS: every RW1C bit whose bit in `w` is 1 is cleared (R27). This is also how a host
acknowledges an error: the block has no return instruction (R241). -/
def State.clearStatus (w : Word) (s : State) : State :=
  { s with
    ca := { s.ca with done := s.ca.done && !w.getLsbD 1, err := s.ca.err && !w.getLsbD 2 }
    ee := { s.ee with done := s.ee.done && !w.getLsbD 5, err := s.ee.err && !w.getLsbD 6 }
    bus := { illCmd := s.bus.illCmd && !w.getLsbD 8, wrDrop := s.bus.wrDrop && !w.getLsbD 9
             cmdDrop := s.bus.cmdDrop && !w.getLsbD 10 } }

/-- A host write of `w` to IRQ_EN stores `w[2:0]` (R28). -/
def State.writeIrqEn (w : Word) (s : State) : State := { s with irqEn := w.extractLsb' 0 3 }

/-- IRQ_EN as the host reads it, bits 31:3 as 0 (R28). -/
def State.irqEnWord (s : State) : Word := s.irqEn.setWidth 32

/-- The level of the interrupt line (R239). -/
def State.irq (s : State) : Bool :=
  (s.irqEn.getLsbD 0 && (s.ca.done || s.ca.err)) ||
  (s.irqEn.getLsbD 1 && (s.ee.done || s.ee.err)) ||
  (s.irqEn.getLsbD 2 && (s.bus.illCmd || s.bus.wrDrop || s.bus.cmdDrop))

/-- `STATUS.ILL_CMD <- 1` (R132). -/
def State.setIllCmd (s : State) : State := { s with bus := { s.bus with illCmd := true } }

/-- `STATUS.WR_DROP <- 1` (R78). -/
def State.setWrDrop (s : State) : State := { s with bus := { s.bus with wrDrop := true } }

/-- `STATUS.CMD_DROP <- 1` (R135). -/
def State.setCmdDrop (s : State) : State := { s with bus := { s.bus with cmdDrop := true } }

/-- CFG: VERSION, MAXBITS_MAX and N_MAX (R24). -/
def cfgWord (p : Params) : Word :=
  Config.version ++ (BitVec.ofNat 8 p.maxbitsMax ++ BitVec.ofNat 16 p.nMax)

end Sys2Proof.Machine
end

