-- ==== Sys2Proof/Machine/Ops.lean ====
section
/-! DEFINITION. Machine/Ops.lean: the operations the engines and the bus share: acceptance of a command
(spec/40_command.md rules R133, R134), completion (R137), error recording (spec/60_exceptions.md rule R236), and
reset (spec/70_reset_and_hazards.md rules R270 to R274). -/

namespace Sys2Proof.Machine

/-- The outcome type of every step. -/
abbrev Result := Host.Outcome State Fault Refusal

/-- A second step after a first that answered a next state. -/
def andThen (r : Result) (f : State → Result) : Result :=
  match r with
  | .next s => f s
  | .fault e => .fault e
  | .refused e => .refused e

/-- The code of R231. -/
def ErrCode.code : ErrCode → BitVec 8
  | .none => 0x00#8
  | .lenGtMaxbits => 0x01#8
  | .costNegative => 0x02#8
  | .costNonfinite => 0x03#8
  | .scratchExhausted => 0x04#8
  | .nCapacity => 0x05#8
  | .nZero => 0x06#8

/-- Acceptance in the transaction itself: operands latched, error registers, DONE and ERR cleared, BUSY set
(R133, R134, R48). -/
def State.accept (e : Engine) (s : State) : State :=
  match e with
  | .ca =>
    { s with ca := { s.ca with
        latchN := s.ca.regN, latchMaxbits := s.ca.regMaxbits
        errCode := ErrCode.none.code, errIndex := 0, errValue := 0
        done := false, err := false, phase := .check } }
  | .ee =>
    { s with ee := { s.ee with
        latchN := s.ee.regN
        errCode := ErrCode.none.code, errIndex := 0, errValueLo := 0, errValueHi := 0
        done := false, err := false, phase := .check } }

/-- A scratch table of unspecified content (R45): the `k`-th draw of free values. -/
def freeTable (p : Params) (d : Nat → Draw) (k : Nat) : List Word :=
  (List.range (p.maxbitsMax + 1)).map (fun L => (Config.freeBits (d L) k).setWidth 32)

/-- The scratch of an engine is left with unspecified content (R45, R46, R161). -/
def State.openScratch (e : Engine) (s : State) : State :=
  match e with
  | .ca =>
    { s with ca := { s.ca with
        blCount := freeTable s.params .blCount s.ca.draws
        nextCode := freeTable s.params .nextCode s.ca.draws
        code := (Config.freeBits .code s.ca.draws).setWidth 32
        draws := s.ca.draws + 1 } }
  | .ee =>
    { s with ee := { s.ee with
        sum := Config.freeBits .sum s.ee.draws
        log2sum := Config.freeBits .log2sum s.ee.draws
        v := Config.freeBits .v s.ee.draws
        draws := s.ee.draws + 1 } }

/-- Completion: BUSY <- 0 and DONE <- 1 (R137, R161, R202). -/
def State.finish (e : Engine) (s : State) : State :=
  match e with
  | .ca => State.openScratch .ca { s with ca := { s.ca with phase := .idle, done := true } }
  | .ee => State.openScratch .ee { s with ee := { s.ee with phase := .idle, done := true } }

/-- The registers that record an error, and ERR <- 1 (R236, R237). CA keeps 32 bits of the value, EE 64. -/
def State.recordError (e : Engine) (c : ErrCode) (index : Word) (value : BitVec 64) (s : State) : State :=
  match e with
  | .ca =>
    { s with ca := { s.ca with
        errCode := c.code, errIndex := index, errValue := value.setWidth 32, err := true } }
  | .ee =>
    { s with ee := { s.ee with
        errCode := c.code, errIndex := index
        errValueLo := value.extractLsb' 0 32, errValueHi := value.extractLsb' 32 32, err := true } }

/-- `raise E(index, value)` (R13, R236): the error is recorded and the command is over, in one step. No program
state is saved and control passes nowhere (R240). -/
def State.raise (e : Engine) (c : ErrCode) (index : Word) (value : BitVec 64) (s : State) : State :=
  State.finish e (State.recordError e c index value s)

/-- The latched `n` of an engine (R48). -/
def State.latchedN (s : State) : Engine → Nat
  | .ca => s.ca.latchN.toNat
  | .ee => s.ee.latchN.toNat

/-- How many entries of an output array lie below the latched `n`: the array has `N_MAX` entries (R40 to R43). -/
def State.outputSpan (s : State) (e : Engine) : Nat := min (s.latchedN e) s.params.nMax

/-- The array bytes that a reset leaves unspecified: the outputs a running command could write (R272). An entry
whose length is unwritten counts as one that could be written (log entry 17). -/
def State.abandoned (s : State) (a : Nat) : Bool :=
  (s.busy .ca && decide (symAddr 0 ≤ a) && decide (a < symAddr (s.outputSpan .ca)) &&
    decide (s.readLen ((a - symAddr 0) / 4) ≠ some 0)) ||
  (s.busy .ee && inBitlen (s.outputSpan .ee) a)

/-- CA at a reset: its registers at their reset values (R271), latches and scratch unspecified (R51). -/
def CaUnit.afterReset (p : Params) (draws : Nat) : CaUnit :=
  { CaUnit.reset p with
    latchN := (Config.freeBits .caN draws).setWidth 32
    latchMaxbits := (Config.freeBits .caMaxbits draws).setWidth 32
    blCount := freeTable p .blCount draws
    nextCode := freeTable p .nextCode draws
    code := (Config.freeBits .code draws).setWidth 32
    draws := draws + 1 }

/-- EE at a reset: its registers at their reset values (R271), latch and internal registers unspecified (R51). -/
def EeUnit.afterReset (draws : Nat) : EeUnit :=
  { EeUnit.reset with
    latchN := (Config.freeBits .eeN draws).setWidth 32
    sum := Config.freeBits .sum draws
    log2sum := Config.freeBits .log2sum draws
    v := Config.freeBits .v draws
    draws := draws + 1 }

/-- `rst = 1` at a clock edge (R270 to R274): registers reset, running commands abandoned, memories kept but for
the abandoned outputs. What waits outside the block is untouched (log entry 2). -/
def State.applyReset (s : State) : State :=
  { s with
    ca := CaUnit.afterReset s.params s.ca.draws
    ee := EeUnit.afterReset s.ee.draws
    bus := { illCmd := false, wrDrop := false, cmdDrop := false }
    irqEn := 0
    mem := s.mem.forget s.abandoned }

end Sys2Proof.Machine
end

