-- ==== Sys2Proof/Machine/Assign.lean ====
section
/-! DEFINITION. Machine/Assign.lean: ASSIGN (spec/41_assign.md rule R150). `execAssign` is the command's own
transaction, in which CA accepts or drops it (spec/40_command.md rules R130, R133, R135); `caTick` is one piece of the
work CA then does, in the order of the rules R151 to R161. -/

namespace Sys2Proof.Machine

/-- An ASSIGN word dispatched: dropped while CA is busy (R135), else accepted (R133). -/
def execAssign (s : State) : Result :=
  if s.busy .ca then .next s.setCmdDrop else .next (s.accept .ca)

/-- CA's position becomes `p` (R47). -/
def State.setCaPhase (p : CaPhase) (s : State) : State := { s with ca := { s.ca with phase := p } }

/-- Pass 3 goes on at symbol `i`, or is over and CA completes (R157, R161). -/
def enterEmit (i : Nat) (s : State) : State :=
  if i < s.ca.latchN.toNat then s.setCaPhase (.emit i) else s.finish .ca

/-- Pass 2 goes on at length `L`, or is over (R156). -/
def enterBase (L : Nat) (s : State) : State :=
  if L ≤ s.ca.latchMaxbits.toNat then s.setCaPhase (.base L) else enterEmit 0 s

/-- Pass 1 goes on at symbol `i`, or is over (R154, R155). -/
def enterTally (i : Nat) (s : State) : State :=
  if i < s.ca.latchN.toNat then s.setCaPhase (.tally i) else s.setCaPhase .exclude

/-- The tally clear goes on at length `L`, or is over (R153). -/
def enterClear (L : Nat) (s : State) : State :=
  if L ≤ s.ca.latchMaxbits.toNat then s.setCaPhase (.clear L) else enterTally 0 s

/-- The capacity checks, before any LEN entry is read (R151, R152, R234). -/
def caCheck (s : State) : State :=
  if s.params.nMax < s.ca.latchN.toNat then s.raise .ca .nCapacity 0 (s.ca.latchN.setWidth 64)
  else if s.params.maxbitsMax < s.ca.latchMaxbits.toNat then
    s.raise .ca .scratchExhausted 0 (s.ca.latchMaxbits.setWidth 64)
  else enterClear 0 s

/-- `bl_count[L] <- 0` (R153). -/
def caClear (L : Nat) (s : State) : State :=
  enterClear (L + 1) { s with ca := { s.ca with blCount := tableWrite s.ca.blCount L 0 } }

/-- The length check and the tally of symbol `i` (R154). -/
def caTally (i : Nat) (s : State) : Result :=
  match s.readLen i with
  | none => .fault (.unwrittenEntry (lenAddr i))
  | some l =>
    if s.ca.latchMaxbits < l then .next (s.raise .ca .lenGtMaxbits (BitVec.ofNat 32 i) (l.setWidth 64))
    else .next (enterTally (i + 1)
      { s with ca := { s.ca with
          blCount := tableWrite s.ca.blCount l.toNat (tableRead s.ca.blCount l.toNat + 1) } })

/-- `bl_count[0] <- 0` (R155), and `code <- 0` before pass 2 (R156). -/
def caExclude (s : State) : State :=
  enterBase 1 { s with ca := { s.ca with blCount := tableWrite s.ca.blCount 0 0, code := 0 } }

/-- `code <- trunc_32((code + bl_count[L-1]) << 1)` and `next_code[L] <- code` (R156, R158). -/
def caBase (L : Nat) (s : State) : State :=
  let code := (s.ca.code + tableRead s.ca.blCount (L - 1)) <<< 1
  enterBase (L + 1) { s with ca := { s.ca with code := code, nextCode := tableWrite s.ca.nextCode L code } }

/-- The code of symbol `i`; a length of 0 leaves its entry untouched (R157, R158, R159). -/
def caEmit (i : Nat) (s : State) : Result :=
  match s.readLen i with
  | none => .fault (.unwrittenEntry (lenAddr i))
  | some l =>
    if l = 0 then .next (enterEmit (i + 1) s)
    else
      let code := tableRead s.ca.nextCode l.toNat
      let s' := s.writeSym i code
      .next (enterEmit (i + 1)
        { s' with ca := { s'.ca with nextCode := tableWrite s'.ca.nextCode l.toNat (code + 1) } })

/-- One piece of CA's work, by its position (R47, R150). An idle engine holds its state (R248). -/
def caTick (s : State) : Result :=
  match s.ca.phase with
  | .idle => .next s
  | .check => .next (caCheck s)
  | .clear L => .next (caClear L s)
  | .tally i => caTally i s
  | .exclude => .next (caExclude s)
  | .base L => .next (caBase L s)
  | .emit i => caEmit i s

/-- An upper bound on the pieces of work left to CA: the command is O(n + maxbits) (R140, R283). -/
def caWork (s : State) : Nat :=
  let n := s.ca.latchN.toNat
  let m := s.ca.latchMaxbits.toNat
  match s.ca.phase with
  | .idle => 0
  | .check => 2 * n + 2 * m + 4
  | .clear L => (m - L) + 2 * n + m + 3
  | .tally i => (n - i) + n + m + 2
  | .exclude => n + m + 1
  | .base L => (m - L) + n + 1
  | .emit i => (n - i - 1) + 1

end Sys2Proof.Machine
end

