-- ==== Sys2Proof/Machine/Estimate.lean ====
section
/-! DEFINITION. Machine/Estimate.lean: ESTIMATE (spec/42_estimate.md rule R190). `execEstimate` is the command's own
transaction (spec/40_command.md rules R130, R134, R135); `eeTick` is one piece of the work EE then does, in the order
of the rules R191 to R202. The logarithm units are an argument (R7, R196). -/

namespace Sys2Proof.Machine

/-- An ESTIMATE word dispatched: dropped while EE is busy (R135), else accepted (R134). -/
def execEstimate (s : State) : Result :=
  if s.busy .ee then .next s.setCmdDrop else .next (s.accept .ee)

/-- EE's position becomes `p` (R47). -/
def State.setEePhase (p : EePhase) (s : State) : State := { s with ee := { s.ee with phase := p } }

/-- An ESTIMATE error: recorded (R236), and every `BITLEN[i]`, `i < n`, holds no value any more (R201). -/
def raiseEe (c : ErrCode) (index : Word) (value : BitVec 64) (s : State) : State :=
  State.raise .ee c index value { s with mem := s.mem.forget (inBitlen (s.outputSpan .ee)) }

/-- The sum goes on at symbol `i`, or is over (R193). -/
def enterSum (i : Nat) (s : State) : State :=
  if i < s.ee.latchN.toNat then s.setEePhase (.sum i) else s.setEePhase .log

/-- The costs go on at symbol `i`, or are over and EE completes (R197, R202). -/
def enterCost (i : Nat) (s : State) : State :=
  if i < s.ee.latchN.toNat then s.setEePhase (.cost i) else s.finish .ee

/-- The checks before any CNT entry is read (R191, R192, R235), then `sum <- 0` (R193). -/
def eeCheck (s : State) : State :=
  if s.params.nMax < s.ee.latchN.toNat then raiseEe .nCapacity 0 (s.ee.latchN.setWidth 64) s
  else if s.ee.latchN = 0 then raiseEe .nZero 0 0 s
  else enterSum 0 { s with ee := { s.ee with sum := 0 } }

/-- `sum <- sum + zext_64(CNT[i])` (R193). -/
def eeSum (i : Nat) (s : State) : Result :=
  match s.readCnt i with
  | none => .fault (.unwrittenEntry (cntAddr i))
  | some c => .next (enterSum (i + 1) { s with ee := { s.ee with sum := s.ee.sum + c.setWidth 64 } })

/-- The base value: the natural logarithm of `n` when every count is 0, the binary logarithm of the sum otherwise
(R195). -/
def baseCost (u : LogUnits) (n : Word) (sum : BitVec 64) : F64 :=
  if sum = 0 then u.ln (Fp.toF64 n.toNat) else u.log2 (Fp.toF64 sum.toNat)

/-- `log2sum` (R195). -/
def eeLog (u : LogUnits) (s : State) : State :=
  enterCost 0 { s with ee := { s.ee with log2sum := baseCost u s.ee.latchN s.ee.sum } }

/-- The raw cost of a count (R197). -/
def rawCost (u : LogUnits) (log2sum : F64) (c : Word) : F64 :=
  if c = 0 then log2sum else Fp.fsub log2sum (u.log2 (Fp.toF64 c.toNat))

/-- The clamp: strictly between -EPS and 0 becomes +0 (R198). -/
def clampCost (eps v : F64) : F64 :=
  if Fp.flt v 0#64 && Fp.fgt v (Fp.negate eps) then 0#64 else v

/-- The error a clamped cost raises, the non-finite test first (R199). -/
def costError (v : F64) : Option ErrCode :=
  if !Fp.isFinite v then some .costNonfinite
  else if Fp.flt v 0#64 then some .costNegative
  else none

/-- The cost of symbol `i`: computed, clamped, checked, written (R197 to R200). -/
def eeCost (u : LogUnits) (i : Nat) (s : State) : Result :=
  match s.readCnt i with
  | none => .fault (.unwrittenEntry (cntAddr i))
  | some c =>
    let v := clampCost s.params.eps (rawCost u s.ee.log2sum c)
    let s' : State := { s with ee := { s.ee with v := v } }
    match costError v with
    | some e => .next (raiseEe e (BitVec.ofNat 32 i) v s')
    | none => .next (enterCost (i + 1) (s'.writeBitlen i v))

/-- One piece of EE's work, by its position (R47, R190). An idle engine holds its state (R248). -/
def eeTick (u : LogUnits) (s : State) : Result :=
  match s.ee.phase with
  | .idle => .next s
  | .check => .next (eeCheck s)
  | .sum i => eeSum i s
  | .log => .next (eeLog u s)
  | .cost i => eeCost u i s

/-- An upper bound on the pieces of work left to EE (R140, R283). -/
def eeWork (s : State) : Nat :=
  let n := s.ee.latchN.toNat
  match s.ee.phase with
  | .idle => 0
  | .check => 2 * n + 3
  | .sum i => (n - i) + n + 2
  | .log => n + 1
  | .cost i => (n - i - 1) + 1

end Sys2Proof.Machine
end

