-- ==== Sys2Proof/Machine/Nop.lean ====
section
/-! DEFINITION. Machine/Nop.lean: NOP (spec/40_command.md rule R131). -/

namespace Sys2Proof.Machine

/-- `skip`: no register, memory or STATUS bit changes, whether or not an engine is busy (R131). -/
def execNop (s : State) : Result := .next s

end Sys2Proof.Machine
end

