-- ==== Sys2Proof/Machine/Dispatch.lean ====
section
/-! DEFINITION. Machine/Dispatch.lean: the meaning of each command word that decodes (spec/40_command.md rule
R130). -/

namespace Sys2Proof.Machine

-- One arm per command of R112; each is the transaction in which the command word is written to CMD.
def exec (i : Instr) (s : State) : Host.Outcome State Fault Refusal :=
  match i with
  | .nop => Sys2Proof.Machine.execNop s
  | .assign => Sys2Proof.Machine.execAssign s
  | .estimate => Sys2Proof.Machine.execEstimate s

end Sys2Proof.Machine
end

