-- ==== Sys2Proof/Machine/Bus.lean ====
section
/-! DEFINITION. Machine/Bus.lean: host reads and writes (spec/20_memory.md rules R75 to R80, spec/10_state.md rules
R22 to R38) and the dispatch of a CMD write (spec/40_command.md rule R130). -/

namespace Sys2Proof.Machine

/-- A register as the host reads it, reserved bits 0 (R22 to R37, R75). -/
def readReg (r : Reg) (s : State) : Word :=
  match r with
  | .id => Config.idWord
  | .cfg => cfgWord s.params
  | .cmd => 0
  | .status => s.statusWord
  | .irqEn => s.irqEnWord
  | .caN => s.ca.regN
  | .caMaxbits => s.ca.regMaxbits
  | .caErrCode => s.ca.errCode.setWidth 32
  | .caErrIndex => s.ca.errIndex
  | .caErrValue => s.ca.errValue
  | .eeN => s.ee.regN
  | .eeErrCode => s.ee.errCode.setWidth 32
  | .eeErrIndex => s.ee.errIndex
  | .eeErrValueLo => s.ee.errValueLo
  | .eeErrValueHi => s.ee.errValueHi

/-- The stored word at the byte address of an array word; a fault where it is unwritten (R44). -/
def readStored (a : Nat) (s : State) : Except Fault (Word × State) :=
  match s.mem.readWord a with
  | some w => .ok (w, s)
  | none => .error (.unwrittenEntry a)

/-- An unspecified word, drawn freely (R80). -/
def drawBusyRead (s : State) : Word × State :=
  ((Config.freeBits .busyRead s.busDraws).setWidth 32, { s with busDraws := s.busDraws + 1 })

/-- An output entry with index `i`: an unspecified word while its engine is busy and `i` is below the latched `n`,
the stored word otherwise (R80). -/
def readOutput (e : Engine) (i : Nat) (a : Nat) (s : State) : Except Fault (Word × State) :=
  if s.busy e && decide (i < s.latchedN e) then .ok (drawBusyRead s) else readStored a s

/-- `MemRead(addr, 4)`: the word, and the state with at most a free value drawn (R75, R79, R80, R74, R38). -/
def busRead (addr : BusAddr) (s : State) : Except Fault (Word × State) :=
  match decodeAddr s.params addr with
  | .reg r => .ok (readReg r s, s)
  | .reserved => .ok (0, s)
  | .unmapped => .ok (0, s)
  | .lenEntry i => readStored (lenAddr i) s
  | .cntEntry i => readStored (cntAddr i) s
  | .symEntry i => readOutput .ca i (symAddr i) s
  | .bitlenHalf i high => readOutput .ee i (bitlenHalfAddr i high) s

/-- A CMD write: an illegal word sets ILL_CMD and starts nothing, before any busy test; a legal one is its command
(R130, R132). -/
def dispatchCmd (w : Word) (s : State) : Result :=
  match decodeWord w with
  | .ok i => exec i s
  | .error _ => .next s.setIllCmd

/-- A write to a register that no engine locks, or whose engine is idle (R76). -/
def writeReg (r : Reg) (w : Word) (s : State) : Result :=
  match r with
  | .cmd => dispatchCmd w s
  | .status => .next (s.clearStatus w)
  | .irqEn => .next (s.writeIrqEn w)
  | .caN => .next { s with ca := { s.ca with regN := w } }
  | .caMaxbits => .next { s with ca := { s.ca with regMaxbits := w } }
  | .eeN => .next { s with ee := { s.ee with regN := w } }
  | .id => .next s
  | .cfg => .next s
  | .caErrCode => .next s
  | .caErrIndex => .next s
  | .caErrValue => .next s
  | .eeErrCode => .next s
  | .eeErrIndex => .next s
  | .eeErrValueLo => .next s
  | .eeErrValueHi => .next s

/-- The word at byte address `a` of an array is stored (R77). -/
def storeWord (a : Nat) (w : Word) (s : State) : State := { s with mem := s.mem.writeWord a w }

/-- A write that no busy engine locks (R76, R77, R74, R38). -/
def writeTarget (t : Target) (w : Word) (s : State) : Result :=
  match t with
  | .reg r => writeReg r w s
  | .reserved => .next s
  | .unmapped => .next s
  | .lenEntry i => .next (storeWord (lenAddr i) w s)
  | .symEntry i => .next (storeWord (symAddr i) w s)
  | .cntEntry i => .next (storeWord (cntAddr i) w s)
  | .bitlenHalf i high => .next (storeWord (bitlenHalfAddr i high) w s)

/-- The busy lock: a write to this target is dropped (R49, R78). -/
def State.locked (s : State) (t : Target) : Bool :=
  match t.owner with
  | some e => s.busy e
  | none => false

/-- `MemWrite(addr, 4, w)` (R76 to R78): dropped with WR_DROP while the owning engine is busy. -/
def busWrite (addr : BusAddr) (w : Word) (s : State) : Result :=
  let t := decodeAddr s.params addr
  if s.locked t then .next s.setWrDrop else writeTarget t w s

/-- `bus_rdata` is valid in the cycle of a read (R21). -/
def State.deliver (w : Word) (s : State) : State := { s with rdata := some w }

/-- The bus fields of a host line that is one transaction: write enable, `addr[14:2]`, write data (R21, R117). A read
carries no write data: R117 gives it as `-`. -/
def HostOp.busFields : HostOp → Bool × BitVec 13 × Option Word
  | .wr addr _ w => (true, addr.extractLsb' 2 13, some w)
  | .rd addr _ => (false, addr.extractLsb' 2 13, none)
  | .poll addr _ _ => (false, addr.extractLsb' 2 13, none)

/-- The host performs a line of its program, already taken from the front. An access the port cannot express is
refused at the bridge (R82). A POLL whose condition fails waits at the front and reads again at the host's next turn
(R118). -/
def hostOp (op : HostOp) (s : State) : Result :=
  if op.wellFormed then
    match op with
    | .wr addr _ w => busWrite addr w s
    | .rd addr _ =>
      match busRead addr s with
      | .error f => .fault f
      | .ok (w, s') => .next { s'.deliver w with received := w :: s'.received }
    | .poll addr mask value =>
      match busRead addr s with
      | .error f => .fault f
      | .ok (w, s') =>
        if w &&& mask = value then .next (s'.deliver w)
        else .next { s'.deliver w with program := op :: s'.program }
  else .refused .bridgeAccess

/-- The host's turn: its next pending line, or nothing. -/
def hostTurn (s : State) : Result :=
  match s.program with
  | [] => .next s
  | op :: rest => hostOp op { s with program := rest }

end Sys2Proof.Machine
end

