-- ==== Sys2Proof/Machine/Engine.lean ====
section
/-! DEFINITION. Machine/Engine.lean: how a busy engine runs. One step may do one piece of its work (spec/10_state.md
rule R47) or all that remains (spec/20_memory.md rule R91, spec/40_command.md rule R137). -/

namespace Sys2Proof.Machine

/-- One piece of an engine's work. -/
def engineTick (u : LogUnits) (e : Engine) (s : State) : Result :=
  match e with
  | .ca => caTick s
  | .ee => eeTick u s

/-- A bound on the pieces of work an engine has left; 0 exactly when it is idle. -/
def engineWork (e : Engine) (s : State) : Nat :=
  match e with
  | .ca => caWork s
  | .ee => eeWork s

/-- At most `k` pieces of work, ending when the engine is idle or the machine stops. -/
def runEngine (u : LogUnits) (e : Engine) : Nat → State → Result
  | 0, s => .next s
  | k + 1, s => if s.busy e then andThen (engineTick u e s) (runEngine u e k) else .next s

/-- The completion step: every remaining piece of work, in one step (R137). -/
def completeEngine (u : LogUnits) (e : Engine) (s : State) : Result := runEngine u e (engineWork e s) s

end Sys2Proof.Machine
end

