-- ==== Sys2Proof/Machine/Turns.lean ====
section
/-! DEFINITION. Machine/Turns.lean: whose turn a step is, and what the turn does (spec/00_scope.md rule R6,
spec/70_reset_and_hazards.md rules R270, R283, R284; log entries 2 and 3). -/

namespace Sys2Proof.Machine

/-- The turn of the coming step: the schedule's first entry. Once the schedule is used up, a busy engine takes its
completion step before the host goes on, which is a fair order (R284). -/
def State.nextTurn (s : State) : Turn :=
  match s.schedule with
  | t :: _ => t
  | [] => if s.busy .ca then .complete .ca else if s.busy .ee then .complete .ee else .host

/-- The state a turn starts from: the schedule's entry is used up, and no read data is valid yet (R21). -/
def State.beginTurn (s : State) : State := { s with schedule := s.schedule.tail, rdata := none }

/-- What a turn does. -/
def takeTurn (u : LogUnits) (t : Turn) (s : State) : Result :=
  match t with
  | .host => hostTurn s
  | .advance e => engineTick u e s
  | .complete e => completeEngine u e s
  | .rst => .next s.applyReset

/-- One step of the block with logarithm units `u`. -/
def stepWith (u : LogUnits) (s : State) : Result := takeTurn u s.nextTurn s.beginTurn

/-- The host's next transaction writes the command word `w` to CMD, and the coming step is the host's. -/
def State.presentCommand (w : Word) (s : State) : State :=
  { s with
    program := .wr (BitVec.ofNat 15 Reg.cmd.offset) 4 w :: s.program
    schedule := .host :: s.schedule }

end Sys2Proof.Machine
end

