-- ==== Sys2Proof/Machine/HostProgram.lean ====
section
/-! DEFINITION. Machine/HostProgram.lean: the host program language of spec/30_encoding.md rules R116 to R118: its
lines, their expansions into bus transactions, and its text. -/

namespace Sys2Proof.Machine

/-- An address operand: a register name, a numeric byte address, or an array element (R116). -/
inductive HostAddr where
  | reg (r : Reg)
  | numeric (a : Nat)
  | len (i : Nat) | sym (i : Nat) | cnt (i : Nat)
  | bitlenLo (i : Nat) | bitlenHi (i : Nat)
  deriving DecidableEq, Repr

/-- The byte address an operand stands for (R22, R72, R116). -/
def HostAddr.byteAddr : HostAddr → BusAddr
  | .reg r => BitVec.ofNat 15 r.offset
  | .numeric a => BitVec.ofNat 15 a
  | .len i => BitVec.ofNat 15 (lenAddr i)
  | .sym i => BitVec.ofNat 15 (symAddr i)
  | .cnt i => BitVec.ofNat 15 (cntAddr i)
  | .bitlenLo i => BitVec.ofNat 15 (bitlenHalfAddr i false)
  | .bitlenHi i => BitVec.ofNat 15 (bitlenHalfAddr i true)

/-- The lines of R117 and R118. The name of an `RD` is the place of its word in `received`. -/
inductive HostLine where
  | wr (a : HostAddr) (v : Word)
  | rd (a : HostAddr)
  | poll (a : HostAddr) (mask value : Word)
  | cmdNop | cmdAssign | cmdEstimate
  | runAssign (n m : Word)
  | runEstimate (n : Word)
  | clearStatus
  | wr64 (i : Nat) (x : BitVec 64)
  | rd64 (i : Nat)
  deriving DecidableEq, Repr

/-- The transaction `WR a, v`. -/
def wrOp (a : HostAddr) (v : Word) : HostOp := .wr a.byteAddr 4 v

/-- The transaction `RD a`. -/
def rdOp (a : HostAddr) : HostOp := .rd a.byteAddr 4

/-- The expansions of R118; a base transaction of R117 is itself. -/
def HostLine.expand : HostLine → List HostOp
  | .wr a v => [wrOp a v]
  | .rd a => [rdOp a]
  | .poll a mask value => [.poll a.byteAddr mask value]
  | .cmdNop => [wrOp (.reg .cmd) 0x00000000]
  | .cmdAssign => [wrOp (.reg .cmd) 0x00000001]
  | .cmdEstimate => [wrOp (.reg .cmd) 0x00000002]
  | .runAssign n m =>
    [wrOp (.reg .caN) n, wrOp (.reg .caMaxbits) m, wrOp (.reg .cmd) 0x00000001,
      .poll (HostAddr.reg .status).byteAddr 0x00000002 0x00000002]
  | .runEstimate n =>
    [wrOp (.reg .eeN) n, wrOp (.reg .cmd) 0x00000002,
      .poll (HostAddr.reg .status).byteAddr 0x00000020 0x00000020]
  | .clearStatus => [wrOp (.reg .status) 0x00000766]
  | .wr64 i x => [wrOp (.bitlenLo i) (x.extractLsb' 0 32), wrOp (.bitlenHi i) (x.extractLsb' 32 32)]
  | .rd64 i => [rdOp (.bitlenLo i), rdOp (.bitlenHi i)]

/-- `name = {hi, lo}` after an `RD64` (R118): the newest received word is the high half. -/
def State.received64 (s : State) : Option (BitVec 64) :=
  match s.received with
  | hi :: lo :: _ => some (hi ++ lo)
  | _ => none

/-- The host issues the transactions of a program, after those already pending (R86). -/
def State.issue (lines : List HostLine) (s : State) : State :=
  { s with program := s.program ++ lines.flatMap HostLine.expand }

namespace HostText

/-- The value of a digit in base 10 or 16. -/
def digit (base : Nat) (c : Char) : Option Nat :=
  let n := c.toNat
  let d := if 48 ≤ n ∧ n ≤ 57 then n - 48 else if 97 ≤ n ∧ n ≤ 102 then n - 87
    else if 65 ≤ n ∧ n ≤ 70 then n - 55 else base
  if d < base then some d else none

/-- The value of a row of digits. -/
def digits (base : Nat) : Nat → List Char → Option Nat
  | acc, [] => some acc
  | acc, c :: cs =>
    match digit base c with
    | some d => digits base (acc * base + d) cs
    | none => none

/-- A number: decimal, or hexadecimal after `0x` (R116). -/
def number (t : List Char) : Option Nat :=
  match t with
  | [] => none
  | '0' :: 'x' :: c :: cs => digits 16 0 (c :: cs)
  | c :: cs => digits 10 0 (c :: cs)

/-- What stands before a character, and what after it. -/
def splitAtChar (sep : Char) : List Char → Option (List Char × List Char)
  | [] => none
  | c :: cs =>
    if c = sep then some ([], cs)
    else match splitAtChar sep cs with
      | some (before, after) => some (c :: before, after)
      | none => none

/-- A line without its comment (R116). -/
def stripComment (line : List Char) : List Char :=
  match splitAtChar ';' line with
  | some (before, _) => before
  | none => line

/-- The words of a line, split at blanks and commas; `cur` is the word being read, reversed. -/
def wordsFrom (cur : List Char) : List Char → List (List Char)
  | [] => if cur.isEmpty then [] else [cur.reverse]
  | c :: cs =>
    if c = ' ' || c = ',' || c = '\t' || c = '\r' then
      if cur.isEmpty then wordsFrom [] cs else cur.reverse :: wordsFrom [] cs
    else wordsFrom (c :: cur) cs

/-- The register names of R22 (R116). -/
def regNames : List (String × Reg) :=
  [("ID", .id), ("CFG", .cfg), ("CMD", .cmd), ("STATUS", .status), ("IRQ_EN", .irqEn),
   ("CA_N", .caN), ("CA_MAXBITS", .caMaxbits), ("CA_ERR_CODE", .caErrCode), ("CA_ERR_INDEX", .caErrIndex),
   ("CA_ERR_VALUE", .caErrValue), ("EE_N", .eeN), ("EE_ERR_CODE", .eeErrCode), ("EE_ERR_INDEX", .eeErrIndex),
   ("EE_ERR_VALUE_LO", .eeErrValueLo), ("EE_ERR_VALUE_HI", .eeErrValueHi)]

/-- A number below a bound. -/
def numberBelow (bound : Nat) (t : List Char) : Option Nat :=
  match number t with
  | some n => if n < bound then some n else none
  | none => none

/-- An array element: the array's name, the index between brackets, and what follows. No array has more than 1024
entries (R7, R71). -/
def element (t : List Char) : Option (List Char × Nat × List Char) :=
  match splitAtChar '[' t with
  | none => none
  | some (name, rest) =>
    match splitAtChar ']' rest with
    | none => none
    | some (index, suffix) => (numberBelow 1024 index).map (fun i => (name, i, suffix))

/-- An address operand (R116). -/
def address (t : List Char) : Option HostAddr :=
  match regNames.find? (fun r => r.1.toList == t) with
  | some r => some (.reg r.2)
  | none =>
    match element t with
    | some (name, i, suffix) =>
      if name = "LEN".toList ∧ suffix = [] then some (.len i)
      else if name = "SYM".toList ∧ suffix = [] then some (.sym i)
      else if name = "CNT".toList ∧ suffix = [] then some (.cnt i)
      else if name = "BITLEN".toList ∧ suffix = ".LO".toList then some (.bitlenLo i)
      else if name = "BITLEN".toList ∧ suffix = ".HI".toList then some (.bitlenHi i)
      else none
    | none => (numberBelow 0x8000 t).map .numeric

/-- A 64-bit element `BITLEN[i]`, as `WR64` and `RD64` name it (R118). -/
def bitlenElement (t : List Char) : Option Nat :=
  match element t with
  | some (name, i, suffix) => if name = "BITLEN".toList ∧ suffix = [] then some i else none
  | none => none

/-- A 32-bit value. -/
def value (t : List Char) : Option Word := (numberBelow (2 ^ 32) t).map (BitVec.ofNat 32)

/-- A line of words (R117, R118). R117 and R118 write `RD` and `RD64` with an arrow and a name, and the programs of
spec/95_test_vectors.md write them without: both are accepted, a DESIGN CHOICE (log entry 22). -/
def lineOf (ws : List (List Char)) : Option HostLine :=
  match ws with
  | [] => none
  | op :: args =>
    if op = "WR".toList then
      match args with
      | [a, v] => do return .wr (← address a) (← value v)
      | _ => none
    else if op = "RD".toList then
      match args with
      | [a] => (address a).map .rd
      | [a, arrow, _] => if arrow = "->".toList then (address a).map .rd else none
      | _ => none
    else if op = "POLL".toList then
      match args with
      | [a, m, v] => do return .poll (← address a) (← value m) (← value v)
      | _ => none
    else if op = "RUN_ASSIGN".toList then
      match args with
      | [n, m] => do return .runAssign (← value n) (← value m)
      | _ => none
    else if op = "RUN_ESTIMATE".toList then
      match args with
      | [n] => (value n).map .runEstimate
      | _ => none
    else if op = "WR64".toList then
      match args with
      | [e, x] => do return .wr64 (← bitlenElement e) (BitVec.ofNat 64 (← numberBelow (2 ^ 64) x))
      | _ => none
    else if op = "RD64".toList then
      match args with
      | [e] => (bitlenElement e).map .rd64
      | [e, arrow, _] => if arrow = "->".toList then (bitlenElement e).map .rd64 else none
      | _ => none
    else if op = "CMD_NOP".toList ∧ args = [] then some .cmdNop
    else if op = "CMD_ASSIGN".toList ∧ args = [] then some .cmdAssign
    else if op = "CMD_ESTIMATE".toList ∧ args = [] then some .cmdEstimate
    else if op = "CLEAR_STATUS".toList ∧ args = [] then some .clearStatus
    else none

/-- The lines of a text, blank ones and comments left out; `cur` is the line being read, reversed. -/
def linesFrom (cur : List Char) : List Char → List (List (List Char))
  | [] => [wordsFrom [] (stripComment cur.reverse)]
  | c :: cs =>
    if c = '\n' then wordsFrom [] (stripComment cur.reverse) :: linesFrom [] cs
    else linesFrom (c :: cur) cs

/-- A host program from its text, one line each (R116); `none` where a line is none of R117 and R118. -/
def program (text : String) : Option (List HostLine) :=
  ((linesFrom [] text.toList).filter (fun ws => !ws.isEmpty)).mapM lineOf

end HostText

end Sys2Proof.Machine
end

