-- ==== Sys2Proof/Safety.lean ====
section
/-! DEFINITION. Safety.lean: the terms that claims about the block use: the invariant of its states, what a command
needs before it starts (spec/70_reset_and_hazards.md rule R276), and the values of the spec's algorithms written as
plain arithmetic (spec/41_assign.md, spec/42_estimate.md). -/

namespace Sys2Proof.Safety

open Sys2Proof.Machine

/-! ### The invariant -/

/-- The bytes of the four array memories (R71, R73). -/
def ArrayByte (p : Params) (a : Nat) : Prop :=
  (lenAddr 0 ≤ a ∧ a < lenAddr p.nMax) ∨ (symAddr 0 ≤ a ∧ a < symAddr p.nMax) ∨
  (cntAddr 0 ≤ a ∧ a < cntAddr p.nMax) ∨ (bitlenAddr 0 ≤ a ∧ a < bitlenAddr p.nMax)

/-- The memory is canonical, lists bytes of mapped array entries only (R73, R74), and holds whole words: one access
writes four bytes (R83). -/
structure MemOk (p : Params) (m : Memory) : Prop where
  canonical : m.wf
  inArrays : ∀ a, m.lookup a ≠ none → ArrayByte p a
  wholeWords : ∀ q k, k < 4 → (m.lookup (4 * q + k) = none ↔ m.lookup (4 * q) = none)

/-- Where a running CA can stand, given its latched operands (R47, R150 to R157). -/
def CaPhase.InBounds (p : Params) (n m : Nat) : CaPhase → Prop
  | .idle => True
  | .check => True
  | .clear L => n ≤ p.nMax ∧ m ≤ p.maxbitsMax ∧ L ≤ m
  | .tally i => n ≤ p.nMax ∧ m ≤ p.maxbitsMax ∧ i < n
  | .exclude => n ≤ p.nMax ∧ m ≤ p.maxbitsMax
  | .base L => n ≤ p.nMax ∧ m ≤ p.maxbitsMax ∧ 1 ≤ L ∧ L ≤ m
  | .emit i => n ≤ p.nMax ∧ m ≤ p.maxbitsMax ∧ i < n

/-- Where a running EE can stand, given its latched operand (R47, R190 to R200). -/
def EePhase.InBounds (p : Params) (n : Nat) : EePhase → Prop
  | .idle => True
  | .check => True
  | .sum i => n ≤ p.nMax ∧ i < n
  | .log => n ≤ p.nMax ∧ 1 ≤ n
  | .cost i => n ≤ p.nMax ∧ i < n

/-- The codes ASSIGN can record (R231). -/
def caCodes : List (BitVec 8) :=
  [ErrCode.none.code, ErrCode.lenGtMaxbits.code, ErrCode.scratchExhausted.code, ErrCode.nCapacity.code]

/-- The codes ESTIMATE can record (R231). -/
def eeCodes : List (BitVec 8) :=
  [ErrCode.none.code, ErrCode.costNegative.code, ErrCode.costNonfinite.code, ErrCode.nCapacity.code,
    ErrCode.nZero.code]

/-- The byte addresses of the state an engine owns (R49, R71, R73). -/
def OwnedAddr (p : Params) (e : Engine) (a : Nat) : Prop :=
  match e with
  | .ca => a = 0x020 ∨ a = 0x024 ∨ (0x1000 ≤ a ∧ a < 0x1000 + 4 * p.nMax) ∨ (0x2000 ≤ a ∧ a < 0x2000 + 4 * p.nMax)
  | .ee => a = 0x040 ∨ (0x3000 ≤ a ∧ a < 0x3000 + 4 * p.nMax) ∨ (0x4000 ≤ a ∧ a < 0x4000 + 8 * p.nMax)

/-- The unmapped addresses (R73, R74). -/
def UnmappedAddr (p : Params) (a : Nat) : Prop :=
  (0x6000 ≤ a ∧ a < 0x8000) ∨ (0x1000 + 4 * p.nMax ≤ a ∧ a < 0x2000) ∨ (0x2000 + 4 * p.nMax ≤ a ∧ a < 0x3000) ∨
  (0x3000 + 4 * p.nMax ≤ a ∧ a < 0x4000) ∨ (0x4000 + 8 * p.nMax ≤ a ∧ a < 0x6000)

/-- The offsets of R22. -/
def regOffsets : List Nat :=
  [0x000, 0x004, 0x008, 0x00C, 0x010, 0x020, 0x024, 0x028, 0x02C, 0x030, 0x040, 0x044, 0x048, 0x04C, 0x050]

/-- The reserved register offsets (R38). -/
def ReservedOffset (a : Nat) : Prop := a < 0x1000 ∧ a ∉ regOffsets

/-- What holds of CA in every state a run reaches. -/
structure CaOk (p : Params) (ca : CaUnit) : Prop where
  /-- The scratch tables have entries `0..MAXBITS_MAX` (R45). -/
  blCountLength : ca.blCount.length = p.maxbitsMax + 1
  nextCodeLength : ca.nextCode.length = p.maxbitsMax + 1
  inBounds : CaPhase.InBounds p ca.latchN.toNat ca.latchMaxbits.toNat ca.phase
  /-- The latched operands equal the registers during a command (R48). -/
  latched : ca.phase ≠ .idle → ca.latchN = ca.regN ∧ ca.latchMaxbits = ca.regMaxbits
  /-- DONE and ERR are clear while CA is busy (R133, R136). -/
  quiet : ca.phase ≠ .idle → ca.done = false ∧ ca.err = false
  /-- Error registers are clear while CA is busy and after a success (R31 to R33, R133). -/
  cleared : ca.phase ≠ .idle → ca.errCode = 0#8
  recorded : ca.errCode = 0#8 → ca.err = false ∧ ca.errIndex = 0 ∧ ca.errValue = 0
  /-- No reserved code is ever recorded (R231). -/
  known : ca.errCode ∈ caCodes

/-- What holds of EE in every state a run reaches. -/
structure EeOk (p : Params) (ee : EeUnit) : Prop where
  inBounds : EePhase.InBounds p ee.latchN.toNat ee.phase
  latched : ee.phase ≠ .idle → ee.latchN = ee.regN
  quiet : ee.phase ≠ .idle → ee.done = false ∧ ee.err = false
  cleared : ee.phase ≠ .idle → ee.errCode = 0#8
  recorded : ee.errCode = 0#8 → ee.err = false ∧ ee.errIndex = 0 ∧ ee.errValueLo = 0 ∧ ee.errValueHi = 0
  known : ee.errCode ∈ eeCodes

/-- The invariant that every step keeps. -/
structure StateInv (s : State) : Prop where
  params : s.params.wellFormed = true
  mem : MemOk s.params s.mem
  ca : CaOk s.params s.ca
  ee : EeOk s.params s.ee

/-! ### Commands from acceptance to completion -/

/-- A command word dispatched to an engine, followed by the engine's completion step (R90, R91, R137). -/
def runCommand (u : LogUnits) (i : Instr) (e : Engine) (s : State) : Result :=
  andThen (exec i s) (completeEngine u e)

/-- `k` steps with logarithm units `u`, stopping at the first fault or refusal. -/
def stepsWith (u : LogUnits) : Nat → State → Result
  | 0, s => .next s
  | k + 1, s => andThen (stepWith u s) (stepsWith u k)

/-! ### Who acts in a step -/

/-- STATUS.CA_DONE or STATUS.EE_DONE. -/
def doneBit (s : State) : Engine → Bool
  | .ca => s.ca.done
  | .ee => s.ee.done

/-- STATUS.CA_ERR or STATUS.EE_ERR. -/
def errBit (s : State) : Engine → Bool
  | .ca => s.ca.err
  | .ee => s.ee.err

/-- The place of an engine's DONE bit in STATUS (R26). -/
def doneIndex : Engine → Nat
  | .ca => 1
  | .ee => 5

/-- The place of an engine's ERR bit in STATUS (R26). -/
def errIndex : Engine → Nat
  | .ca => 2
  | .ee => 6

/-- The command word that starts an engine (R112). -/
def commandWord : Engine → Word
  | .ca => 0x00000001#32
  | .ee => 0x00000002#32

/-- The step is the host's, and its line writes to address `a` a word with property `P`. -/
def HostWrites (s : State) (a : BusAddr) (P : Word → Prop) : Prop :=
  s.nextTurn = .host ∧ ∃ w rest, s.program = .wr a 4 w :: rest ∧ P w

/-- The step is engine `e`'s, and it is busy. -/
def EngineWorks (s : State) (e : Engine) : Prop :=
  (s.nextTurn = .advance e ∨ s.nextTurn = .complete e) ∧ s.busy e = true

/-- Every input entry that a busy engine has still to read, or has read, is written (R281). -/
def InputsWritten (s : State) : Prop :=
  (s.busy .ca = true → ∀ i, i < s.ca.latchN.toNat → i < s.params.nMax → s.readLen i ≠ none) ∧
  (s.busy .ee = true → ∀ i, i < s.ee.latchN.toNat → i < s.params.nMax → s.readCnt i ≠ none)

/-! ### What a command leaves behind -/

/-- What every access to the array memories leaves alone: the bytes outside `[a, a + size)` read as before. -/
def KeepsOutside (a size : Nat) (m m' : Memory) : Prop :=
  ∀ b, b < a ∨ a + size ≤ b → m'.lookup b = m.lookup b

/-- CA is idle with DONE and without an error, and nothing but CA and the array memories has changed; the operand
registers keep their values (R161, R138). -/
structure CaSucceeded (s r : State) : Prop where
  rest : r = { s with ca := r.ca, mem := r.mem }
  regN : r.ca.regN = s.ca.regN
  regMaxbits : r.ca.regMaxbits = s.ca.regMaxbits
  idle : r.busy .ca = false
  done : r.ca.done = true
  err : r.ca.err = false
  code : r.ca.errCode = 0x00#8
  index : r.ca.errIndex = 0
  value : r.ca.errValue = 0

/-- CA is idle with DONE and the recorded error, and nothing but CA has changed: in particular no array entry
(R160, R236, R238). -/
structure CaFailed (s r : State) (code : BitVec 8) (index value : Word) : Prop where
  rest : r = { s with ca := r.ca }
  regN : r.ca.regN = s.ca.regN
  regMaxbits : r.ca.regMaxbits = s.ca.regMaxbits
  idle : r.busy .ca = false
  done : r.ca.done = true
  err : r.ca.err = true
  code : r.ca.errCode = code
  index : r.ca.errIndex = index
  value : r.ca.errValue = value

/-- The same of EE after a success (R202, R138). -/
structure EeSucceeded (s r : State) : Prop where
  rest : r = { s with ee := r.ee, mem := r.mem }
  regN : r.ee.regN = s.ee.regN
  idle : r.busy .ee = false
  done : r.ee.done = true
  err : r.ee.err = false
  code : r.ee.errCode = 0x00#8
  index : r.ee.errIndex = 0
  valueLo : r.ee.errValueLo = 0
  valueHi : r.ee.errValueHi = 0

/-- EE after an error: the error is recorded, no BITLEN entry below `n` holds a value, and every other byte of the
array memories is as it was (R201, R236, R238). -/
structure EeFailed (s r : State) (code : BitVec 8) (index : Word) (value : BitVec 64) : Prop where
  rest : r = { s with ee := r.ee, mem := r.mem }
  regN : r.ee.regN = s.ee.regN
  idle : r.busy .ee = false
  done : r.ee.done = true
  err : r.ee.err = true
  code : r.ee.errCode = code
  index : r.ee.errIndex = index
  valueLo : r.ee.errValueLo = value.extractLsb' 0 32
  valueHi : r.ee.errValueHi = value.extractLsb' 32 32
  erased : ∀ i high, i < s.ee.regN.toNat → i < s.params.nMax → r.mem.readWord (bitlenHalfAddr i high) = none
  kept : KeepsOutside (bitlenAddr 0) (8 * min s.ee.regN.toNat s.params.nMax) s.mem r.mem

/-- `n` as ASSIGN will latch it (R48). -/
def caN (s : State) : Nat := s.ca.regN.toNat

/-- `maxbits` as ASSIGN will latch it (R48). -/
def caMaxbits (s : State) : Nat := s.ca.regMaxbits.toNat

/-- `n` as ESTIMATE will latch it (R48). -/
def eeN (s : State) : Nat := s.ee.regN.toNat

/-- CA can take an ASSIGN whose operands pass the capacity checks (R151, R152) and whose lengths, `lens`, are written
(R276, R281). -/
structure AssignReady (s : State) (lens : Nat → Word) : Prop where
  idle : s.busy .ca = false
  nFits : caN s ≤ s.params.nMax
  maxbitsFits : caMaxbits s ≤ s.params.maxbitsMax
  written : ∀ i, i < caN s → s.readLen i = some (lens i)

/-- EE can take an ESTIMATE whose operand passes the checks (R191, R192) and whose counts, `cnts`, are written
(R276, R281). -/
structure EstimateReady (s : State) (cnts : Nat → Word) : Prop where
  idle : s.busy .ee = false
  nFits : eeN s ≤ s.params.nMax
  nPositive : 1 ≤ eeN s
  written : ∀ i, i < eeN s → s.readCnt i = some (cnts i)

/-! ### Canonical codes -/

/-- How many of the first `k` symbols have length `L`. -/
def lengthCount (lens : Nat → Word) (L k : Nat) : Nat := Nat.count (fun j => (lens j).toNat = L) k

/-- `bl_count[L]` for `n` symbols, with the length-0 exclusion (R154, R155). -/
def tierCount (lens : Nat → Word) (n L : Nat) : Nat := if L = 0 then 0 else lengthCount lens L n

/-- The base code of length `L` before any wrap (R156). -/
def tierBase (lens : Nat → Word) (n : Nat) : Nat → Nat
  | 0 => 0
  | L + 1 => 2 * (tierBase lens n L + tierCount lens n L)

/-- The code of symbol `i` before any wrap: the base of its tier plus its place in the tier (R157, R162). -/
def symbolCode (lens : Nat → Word) (n i : Nat) : Nat :=
  tierBase lens n (lens i).toNat + lengthCount lens (lens i).toNat i

/-- The Kraft inequality over the non-zero lengths (R164). -/
def Kraft (lens : Nat → Word) (n : Nat) : Prop :=
  ∑ i ∈ Finset.range n, (if lens i = 0 then 0 else (1 / 2 : ℚ) ^ (lens i).toNat) ≤ 1

/-- Symbol `i` is the first of tier `L`. -/
def FirstOf (lens : Nat → Word) (n L i : Nat) : Prop :=
  i < n ∧ (lens i).toNat = L ∧ ∀ k, k < i → (lens k).toNat ≠ L

/-- The `len` bits of a code, most significant first (R164, R168). -/
def codeBits (len code : Nat) : List Bool := (List.range len).map (fun k => code.testBit (len - 1 - k))

/-- The symbols of tier `L` in index order. -/
def tierSymbols (lens : Nat → Word) (n L : Nat) : List Nat := (List.range n).filter (fun i => (lens i).toNat = L)

/-- The canonical decoder of R164: it knows the lengths only, and reads code bits most significant first. After `L`
bits with value `acc`, the next bit completes a code of length `L + 1` when the value it gives is at least the base
code of that tier, and lies as far above it as the tier has symbols. -/
def canonicalDecode (lens : Nat → Word) (n : Nat) : Nat → Nat → List Bool → Option (Nat × List Bool)
  | _, _, [] => none
  | L, acc, b :: bits =>
    let v := 2 * acc + b.toNat
    if tierBase lens n (L + 1) ≤ v then
      match (tierSymbols lens n (L + 1))[v - tierBase lens n (L + 1)]? with
      | some i => some (i, bits)
      | none => canonicalDecode lens n (L + 1) v bits
    else canonicalDecode lens n (L + 1) v bits

/-- The byte `a` belongs to a SYM entry that ASSIGN writes: one with `i < n` and `LEN[i] ≠ 0` (R157, R159). -/
def AssignedByte (lens : Nat → Word) (n a : Nat) : Prop :=
  ∃ i, i < n ∧ lens i ≠ 0 ∧ symAddr i ≤ a ∧ a < symAddr i + 4

/-! ### Bit costs -/

/-- The sum of the first `k` counts (R193). -/
def countSum (cnts : Nat → Word) (k : Nat) : Nat := ∑ i ∈ Finset.range k, (cnts i).toNat

/-- The base value for `n` counts (R195). -/
def costBase (u : LogUnits) (cnts : Nat → Word) (n : Nat) : F64 :=
  if countSum cnts n = 0 then u.ln (Fp.toF64 n) else u.log2 (Fp.toF64 (countSum cnts n))

/-- The cost of symbol `i` after the clamp with threshold `eps` (R197, R198). -/
def symbolCost (u : LogUnits) (eps : F64) (cnts : Nat → Word) (n i : Nat) : F64 :=
  clampCost eps (rawCost u (costBase u cnts n) (cnts i))

/-- `a ≤ b` in the IEEE 754 order, false when either is NaN (R15). -/
def fle (a b : F64) : Prop := Fp.isNaN a = false ∧ Fp.isNaN b = false ∧ Fp.orderKey a ≤ Fp.orderKey b

/-- P1 of R196. -/
def P1 (u : LogUnits) : Prop := u.log2 (Fp.toF64 1) = 0#64 ∧ u.ln (Fp.toF64 1) = 0#64

/-- P2 of R196. -/
def P2 (u : LogUnits) : Prop :=
  ∀ j k, 1 ≤ j → j ≤ k → k < 2 ^ 42 →
    fle (u.log2 (Fp.toF64 j)) (u.log2 (Fp.toF64 k)) ∧ fle (u.ln (Fp.toF64 j)) (u.ln (Fp.toF64 k))

/-- P3 of R196. -/
def P3 (u : LogUnits) : Prop :=
  ∀ k, 1 ≤ k → k < 2 ^ 42 →
    Fp.isFinite (u.log2 (Fp.toF64 k)) = true ∧ Fp.isFinite (u.ln (Fp.toF64 k)) = true

/-- The real number that a finite binary64 value stands for (R15). -/
noncomputable def realOf (a : F64) : ℝ := (Fp.scaled a : ℝ) / 2 ^ 1074

/-- `y` is a finite value with no finite value nearer to `x`: what rounding to nearest delivers in range (R196). -/
def Nearest (y : F64) (x : ℝ) : Prop :=
  Fp.isFinite y = true ∧ ∀ z, Fp.isFinite z = true → |realOf y - x| ≤ |realOf z - x|

/-- `y` is the one finite value nearest to `x`: no tie arises, so rounding to nearest delivers it whatever is done with
ties (R196). -/
def OnlyNearest (y : F64) (x : ℝ) : Prop :=
  Fp.isFinite y = true ∧ ∀ z, Fp.isFinite z = true → realOf z ≠ realOf y → |realOf y - x| < |realOf z - x|

end Sys2Proof.Safety
end

