-- ==== Sys2Proof/Certificates/Slice0/Obligations.lean ====
section
/-! DEFINITION. Certificates/Slice0/Obligations.lean: the statements for the provers. Each docstring names the rules of
spec/ that its statement comes from. -/

open Sys2Proof Sys2Proof.Machine Sys2Proof.Safety

/-! ### Command words -/

/-- R113: a word is legal exactly when RSVD is 0 and OP is 0, 1 or 2, that is, when it is one of three words; every
other word sets ILL_CMD and does nothing else. -/
def Obligations.LegalCommandWords : Prop :=
  ∀ w : Word,
    ((∃ i, decodeWord w = .ok i) ↔
      w.extractLsb' 4 28 = 0#28 ∧
        (w.extractLsb' 0 4 = 0x0#4 ∨ w.extractLsb' 0 4 = 0x1#4 ∨ w.extractLsb' 0 4 = 0x2#4)) ∧
    ((∃ i, decodeWord w = .ok i) ↔ w = 0#32 ∨ w = 1#32 ∨ w = 2#32) ∧
    ((¬ ∃ i, decodeWord w = .ok i) →
      ∀ s : State, busWrite 0x008#15 w s = .next { s with bus := { s.bus with illCmd := true } })

/-- R115: the decoder and the rows of the opcode table agree, every row compares all 32 bits, and a word that no row
selects is illegal. -/
def Obligations.OpcodeTableDecodes : Prop :=
  (∀ r ∈ opcodeTable, r.mask = 0xFFFFFFFF#32) ∧
  ∀ w : Word,
    (∀ i, decodeWord w = .ok i ↔ ∃ r ∈ opcodeTable, r.instr = i ∧ w &&& r.mask = r.matchBits) ∧
    ((∀ r ∈ opcodeTable, w &&& r.mask ≠ r.matchBits) → ∃ e, decodeWord w = .error e)

/-- R110 to R112: bytes decode to a command and a rest exactly when they are the bytes of that command followed by
that rest. -/
def Obligations.DecodeEncodeAgree : Prop :=
  ∀ (i : Instr) (bytes rest : List Byte), i.wellFormed = true →
    (decode bytes = .ok (i, rest) ↔ bytes = encode i ++ rest)

/-- R112, R113: the words written out in the opcode map, and neighbours of them, decode as the spec says. -/
def Obligations.SpecWordsDecode : Prop :=
  decode [0x00#8, 0x00#8, 0x00#8, 0x00#8] = .ok (.nop, []) ∧
  decode [0x01#8, 0x00#8, 0x00#8, 0x00#8] = .ok (.assign, []) ∧
  decode [0x02#8, 0x00#8, 0x00#8, 0x00#8] = .ok (.estimate, []) ∧
  decode [0x03#8, 0x00#8, 0x00#8, 0x00#8] = .error .reservedOp ∧
  decode [0x11#8, 0x00#8, 0x00#8, 0x00#8] = .error .reservedBits ∧
  decode [0x01#8, 0x00#8, 0x00#8, 0x80#8] = .error .reservedBits

/-- R21, R25, R86, R117, R130: what a step runs. When it is the host's turn and its next line is an aligned `WR`, the
step is that bus write; a `WR` to CMD is so the command the word decodes to, and ILL_CMD where it decodes to none.
When the line is an aligned `RD`, the step is that bus read, the word standing on `bus_rdata` and received. When it is
an engine's turn, the step is its work. That a line and a turn are used up, that the turns come from a schedule and
when a busy engine completes are the model's (log entries 2 and 3), that read data is gone in the next step is log entry
14, and that `withFetchWord` places a command word as the host's next line is log entry 4. -/
def Obligations.StepRunsCommandWord : Prop :=
  (∀ (s : State) (op : HostOp) (rest : List HostOp), s.nextTurn = .host → s.program = op :: rest →
    let s' : State := { s with program := rest, schedule := s.schedule.tail, rdata := none }
    (∀ w i, op = .wr 0x008#15 4 w → decode (wordBytes w) = .ok (i, []) → step s = exec i s') ∧
    (∀ w e, op = .wr 0x008#15 4 w → decode (wordBytes w) = .error e →
      step s = .next { s' with bus := { s'.bus with illCmd := true } }) ∧
    (∀ (a : BusAddr) w, a.toNat % 4 = 0 → op = .wr a 4 w → step s = busWrite a w s') ∧
    (∀ (a : BusAddr), a.toNat % 4 = 0 → op = .rd a 4 →
      (∀ w t, busRead a s' = .ok (w, t) →
        step s = .next { t with rdata := some w, received := w :: t.received } ∧ t.received = s.received) ∧
      ∀ f, busRead a s' = .error f → step s = .fault f)) ∧
  (∀ s : State,
    let s' : State := { s with schedule := s.schedule.tail, rdata := none }
    (s.nextTurn = .host → s.program = [] → step s = .next s') ∧
    (∀ e, s.nextTurn = .advance e → step s = engineTick logUnits e s') ∧
    ∀ e, s.nextTurn = .complete e → step s = completeEngine logUnits e s') ∧
  (∀ (s : State) (w : Nat) (i : Instr), w < 2 ^ 32 → decodeTableWord 32 w = some i →
    step (s.withFetchWord 32 w) = exec i { s with rdata := none })

/-! ### Commands at the bus -/

/-- R131: NOP changes nothing, in any state; a word with OP = 0 and nonzero RSVD is not NOP. -/
def Obligations.NopHasNoEffect : Prop :=
  ∀ s : State, exec .nop s = .next s ∧ busWrite 0x008#15 0x00000000#32 s = .next s ∧
    ∀ w : Word, w.extractLsb' 0 4 = 0x0#4 → w.extractLsb' 4 28 ≠ 0#28 →
      busWrite 0x008#15 w s = .next { s with bus := { s.bus with illCmd := true } }

/-- R130: the dispatch of a CMD write, the legality test before the busy test. -/
def Obligations.CommandDispatch : Prop :=
  ∀ (s : State) (w : Word),
    busWrite 0x008#15 w s =
      if w.extractLsb' 4 28 ≠ 0#28 ∨ 0x2#4 < w.extractLsb' 0 4 then
        .next { s with bus := { s.bus with illCmd := true } }
      else if w.extractLsb' 0 4 = 0x0#4 then .next s
      else if w.extractLsb' 0 4 = 0x1#4 then
        if s.statusWord.getLsbD 0 = true then .next { s with bus := { s.bus with cmdDrop := true } }
        else .next (s.accept .ca)
      else
        if s.statusWord.getLsbD 4 = true then .next { s with bus := { s.bus with cmdDrop := true } }
        else .next (s.accept .ee)

/-- R133: an ASSIGN dispatched while CA is idle latches its operands, clears CA's error registers, DONE and ERR, and
sets BUSY, and does nothing else. -/
def Obligations.AssignAccepted : Prop :=
  ∀ s : State, s.statusWord.getLsbD 0 = false →
    ∃ t, exec .assign s = .next t ∧
      t = { s with ca := { s.ca with
        latchN := s.ca.regN, latchMaxbits := s.ca.regMaxbits
        errCode := 0, errIndex := 0, errValue := 0, done := false, err := false, phase := .check } } ∧
      t.statusWord = (s.statusWord &&& ~~~0x00000006#32) ||| 0x00000001#32

/-- R134: the same of an ESTIMATE. -/
def Obligations.EstimateAccepted : Prop :=
  ∀ s : State, s.statusWord.getLsbD 4 = false →
    ∃ t, exec .estimate s = .next t ∧
      t = { s with ee := { s.ee with
        latchN := s.ee.regN
        errCode := 0, errIndex := 0, errValueLo := 0, errValueHi := 0, done := false, err := false
        phase := .check } } ∧
      t.statusWord = (s.statusWord &&& ~~~0x00000060#32) ||| 0x00000010#32

/-- R135: a command to a busy engine sets CMD_DROP and does nothing else; it is not queued. -/
def Obligations.BusyCommandDropped : Prop :=
  ∀ s : State,
    (s.statusWord.getLsbD 0 = true → exec .assign s = .next { s with bus := { s.bus with cmdDrop := true } }) ∧
    (s.statusWord.getLsbD 4 = true → exec .estimate s = .next { s with bus := { s.bus with cmdDrop := true } })

/-! ### Registers -/

/-- R270, R271: a step in which the reset is asserted performs no host line and no engine work; after it every
register reads its reset value, both engines are idle and the interrupt line is low. The block after power-up reads
the same, CFG for the parameters this hardware takes. -/
def Obligations.ResetRegisters : Prop :=
  (∀ (u : LogUnits) (s : State), s.nextTurn = .rst → stepWith u s = .next s.beginTurn.applyReset) ∧
  (∀ s : State,
    let t := s.applyReset
    t.busy .ca = false ∧ t.busy .ee = false ∧ t.irq = false ∧
    readReg .id t = 0x43484531#32 ∧ readReg .cfg t = readReg .cfg s ∧
    ∀ r, r ≠ .id → r ≠ .cfg → readReg r t = 0#32) ∧
  readReg .id State.reset = 0x43484531#32 ∧ readReg .cfg State.reset = 0x01140400#32 ∧
  (∀ r, r ≠ .id → r ≠ .cfg → readReg r State.reset = 0#32) ∧ State.reset.irq = false ∧
  ∀ a, State.reset.mem.lookup a = none

/-- R272, R273: after a reset, the entries that a running command could write hold no value, and every byte of the
array memories that does not belong to such an entry is as it was. An entry of SYM whose length is itself unwritten
counts as one that could be written: that clause is the model's (log entry 17). -/
def Obligations.ResetMemories : Prop :=
  ∀ s : State, s.params.nMax ≤ 1024 →
    (∀ i l, s.busy .ca = true → i < s.ca.latchN.toNat → i < s.params.nMax → s.readLen i = some l → l ≠ 0 →
      s.applyReset.readSym i = none) ∧
    (∀ i high, s.busy .ee = true → i < s.ee.latchN.toNat → i < s.params.nMax →
      s.applyReset.mem.readWord (bitlenHalfAddr i high) = none) ∧
    (∀ a, (¬ ∃ i, s.busy .ca = true ∧ i < s.ca.latchN.toNat ∧ i < s.params.nMax ∧ s.readLen i ≠ some 0 ∧
        symAddr i ≤ a ∧ a < symAddr i + 4) →
      (¬ ∃ i, s.busy .ee = true ∧ i < s.ee.latchN.toNat ∧ i < s.params.nMax ∧
        bitlenAddr i ≤ a ∧ a < bitlenAddr i + 8) →
      s.applyReset.mem.lookup a = s.mem.lookup a)

/-- R22 to R37, R75: the offset of every register, what a host read of it returns, and that the read leaves the state
as it is. -/
def Obligations.RegisterReads : Prop :=
  (∀ s : State,
    busRead 0x000#15 s = .ok (0x43484531#32, s) ∧
    busRead 0x004#15 s = .ok (0x01#8 ++ BitVec.ofNat 8 s.params.maxbitsMax ++ BitVec.ofNat 16 s.params.nMax, s) ∧
    busRead 0x008#15 s = .ok (0x00000000#32, s) ∧
    busRead 0x00C#15 s = .ok (s.statusWord, s) ∧
    busRead 0x010#15 s = .ok (0#29 ++ s.irqEn, s) ∧
    busRead 0x020#15 s = .ok (s.ca.regN, s) ∧
    busRead 0x024#15 s = .ok (s.ca.regMaxbits, s) ∧
    busRead 0x028#15 s = .ok (0#24 ++ s.ca.errCode, s) ∧
    busRead 0x02C#15 s = .ok (s.ca.errIndex, s) ∧
    busRead 0x030#15 s = .ok (s.ca.errValue, s) ∧
    busRead 0x040#15 s = .ok (s.ee.regN, s) ∧
    busRead 0x044#15 s = .ok (0#24 ++ s.ee.errCode, s) ∧
    busRead 0x048#15 s = .ok (s.ee.errIndex, s) ∧
    busRead 0x04C#15 s = .ok (s.ee.errValueLo, s) ∧
    busRead 0x050#15 s = .ok (s.ee.errValueHi, s)) ∧
  busRead 0x004#15 State.reset = .ok (0x01140400#32, State.reset)

/-- R26: the fields of STATUS; bits 3, 7 and 31:11 read 0. -/
def Obligations.StatusFields : Prop :=
  ∀ s : State,
    s.statusWord.getLsbD 0 = s.busy .ca ∧ s.statusWord.getLsbD 1 = s.ca.done ∧ s.statusWord.getLsbD 2 = s.ca.err ∧
    s.statusWord.getLsbD 4 = s.busy .ee ∧ s.statusWord.getLsbD 5 = s.ee.done ∧ s.statusWord.getLsbD 6 = s.ee.err ∧
    s.statusWord.getLsbD 8 = s.bus.illCmd ∧ s.statusWord.getLsbD 9 = s.bus.wrDrop ∧
    s.statusWord.getLsbD 10 = s.bus.cmdDrop ∧
    ∀ k, k = 3 ∨ k = 7 ∨ 11 ≤ k → s.statusWord.getLsbD k = false

/-- R27: a write of `w` to STATUS clears exactly the RW1C bits that are 1 in `w`, whether or not an engine is busy,
and changes nothing else; a read of STATUS leaves the state as it is. -/
def Obligations.StatusWriteClears : Prop :=
  ∀ (s : State) (w : Word),
    (∃ t, busWrite 0x00C#15 w s = .next t ∧ t.statusWord = s.statusWord &&& ~~~(w &&& 0x00000766#32) ∧
      t = { s with
        ca := { s.ca with done := t.ca.done, err := t.ca.err }
        ee := { s.ee with done := t.ee.done, err := t.ee.err }
        bus := t.bus }) ∧
    busRead 0x00C#15 s = .ok (s.statusWord, s)

/-- R28, R239: a write to IRQ_EN stores the low three bits, whether or not an engine is busy, and IRQ_EN reads them
back with zeros above; the interrupt line is the OR of the enabled sources. -/
def Obligations.IrqEnableAndLine : Prop :=
  ∀ (s : State) (w : Word),
    busWrite 0x010#15 w s = .next { s with irqEn := w.extractLsb' 0 3 } ∧
    busRead 0x010#15 { s with irqEn := w.extractLsb' 0 3 } =
      .ok (0#29 ++ w.extractLsb' 0 3, { s with irqEn := w.extractLsb' 0 3 }) ∧
    s.irq = ((s.irqEn.getLsbD 0 && (s.statusWord.getLsbD 1 || s.statusWord.getLsbD 2)) ||
      (s.irqEn.getLsbD 1 && (s.statusWord.getLsbD 5 || s.statusWord.getLsbD 6)) ||
      (s.irqEn.getLsbD 2 && (s.statusWord.getLsbD 8 || s.statusWord.getLsbD 9 || s.statusWord.getLsbD 10)))

/-- R76: what a write does at every offset of the register region. -/
def Obligations.RegisterWrites : Prop :=
  ∀ (s : State) (w : Word),
    busWrite 0x008#15 w s = dispatchCmd w s ∧
    (∃ t, busWrite 0x00C#15 w s = .next t ∧ t.statusWord = s.statusWord &&& ~~~(w &&& 0x00000766#32)) ∧
    (∃ t, busWrite 0x010#15 w s = .next t ∧ t.irqEnWord = 0#29 ++ w.extractLsb' 0 3) ∧
    (busWrite 0x020#15 w s =
      if s.busy .ca = true then .next { s with bus := { s.bus with wrDrop := true } }
      else .next { s with ca := { s.ca with regN := w } }) ∧
    (busWrite 0x024#15 w s =
      if s.busy .ca = true then .next { s with bus := { s.bus with wrDrop := true } }
      else .next { s with ca := { s.ca with regMaxbits := w } }) ∧
    (busWrite 0x040#15 w s =
      if s.busy .ee = true then .next { s with bus := { s.bus with wrDrop := true } }
      else .next { s with ee := { s.ee with regN := w } }) ∧
    ∀ a : BusAddr, a.toNat < 0x1000 → a.toNat ∉ [0x008, 0x00C, 0x010, 0x020, 0x024, 0x040] →
      busWrite a w s = .next s

/-- R38, R73, R74: reserved offsets and unmapped addresses read 0, and writes to them do nothing; with the default
N_MAX every array address is mapped. -/
def Obligations.UnmappedAndReserved : Prop :=
  (∀ (s : State) (a : BusAddr), s.params.nMax ≤ 1024 → UnmappedAddr s.params a.toNat ∨ ReservedOffset a.toNat →
    busRead a s = .ok (0x00000000#32, s) ∧ ∀ w, busWrite a w s = .next s) ∧
  ∀ a : BusAddr, 0x1000 ≤ a.toNat → a.toNat < 0x6000 → decodeAddr Config.defaultParams a ≠ .unmapped

/-! ### Array memories -/

/-- R72: which entry, and which half of it, an array address names. -/
def Obligations.EntryDecode : Prop :=
  ∀ (p : Params) (a : BusAddr), p.nMax ≤ 1024 →
    (0x1000 ≤ a.toNat → a.toNat < 0x1000 + 4 * p.nMax → decodeAddr p a = .lenEntry ((a.toNat - 0x1000) / 4)) ∧
    (0x2000 ≤ a.toNat → a.toNat < 0x2000 + 4 * p.nMax → decodeAddr p a = .symEntry ((a.toNat - 0x2000) / 4)) ∧
    (0x3000 ≤ a.toNat → a.toNat < 0x3000 + 4 * p.nMax → decodeAddr p a = .cntEntry ((a.toNat - 0x3000) / 4)) ∧
    (0x4000 ≤ a.toNat → a.toNat < 0x4000 + 8 * p.nMax →
      decodeAddr p a = .bitlenHalf ((a.toNat - 0x4000) / 8) (a.getLsbD 2))

/-- R77: a write to an entry whose engine is idle stores the word there, and changes no other byte of the memories and
nothing else; a write to one half of a BITLEN entry leaves the other half as it is. -/
def Obligations.ArrayWrites : Prop :=
  ∀ (s : State) (w : Word) (i : Nat), s.params.nMax ≤ 1024 → i < s.params.nMax →
    (s.busy .ca = false →
      (∃ t, busWrite (BitVec.ofNat 15 (0x1000 + 4 * i)) w s = .next t ∧ t.readLen i = some w ∧
        t = { s with mem := t.mem } ∧ KeepsOutside (0x1000 + 4 * i) 4 s.mem t.mem) ∧
      (∃ t, busWrite (BitVec.ofNat 15 (0x2000 + 4 * i)) w s = .next t ∧ t.readSym i = some w ∧
        t = { s with mem := t.mem } ∧ KeepsOutside (0x2000 + 4 * i) 4 s.mem t.mem)) ∧
    (s.busy .ee = false →
      (∃ t, busWrite (BitVec.ofNat 15 (0x3000 + 4 * i)) w s = .next t ∧ t.readCnt i = some w ∧
        t = { s with mem := t.mem } ∧ KeepsOutside (0x3000 + 4 * i) 4 s.mem t.mem) ∧
      (∃ t, busWrite (BitVec.ofNat 15 (0x4000 + 8 * i)) w s = .next t ∧
        t.mem.readWord (bitlenHalfAddr i false) = some w ∧
        t.mem.readWord (bitlenHalfAddr i true) = s.mem.readWord (bitlenHalfAddr i true) ∧
        t = { s with mem := t.mem } ∧ KeepsOutside (0x4000 + 8 * i) 4 s.mem t.mem) ∧
      (∃ t, busWrite (BitVec.ofNat 15 (0x4000 + 8 * i + 4)) w s = .next t ∧
        t.mem.readWord (bitlenHalfAddr i true) = some w ∧
        t.mem.readWord (bitlenHalfAddr i false) = s.mem.readWord (bitlenHalfAddr i false) ∧
        t = { s with mem := t.mem } ∧ KeepsOutside (0x4000 + 8 * i + 4) 4 s.mem t.mem))

/-- R78: a write to state that a busy engine owns sets WR_DROP and does nothing else. -/
def Obligations.WriteWhileBusyDropped : Prop :=
  ∀ (s : State) (e : Engine) (a : BusAddr) (w : Word), s.params.nMax ≤ 1024 →
    OwnedAddr s.params e a.toNat → s.busy e = true →
    busWrite a w s = .next { s with bus := { s.bus with wrDrop := true } }

/-- R75: a read changes no state. The model's count of free values drawn (log entry 9) moves only for a read of an
output entry below `n` of a busy engine; every other read that succeeds leaves the state as it is, so it returns the
same word when repeated. A read of the register region always succeeds. -/
def Obligations.ReadsChangeNothing : Prop :=
  (∀ (s t : State) (a : BusAddr) (w : Word), busRead a s = .ok (w, t) →
    t = { s with busDraws := t.busDraws } ∧
    ((¬ ∃ i, decodeAddr s.params a = .symEntry i ∧ s.busy .ca = true ∧ i < s.ca.latchN.toNat) →
      (¬ ∃ i high, decodeAddr s.params a = .bitlenHalf i high ∧ s.busy .ee = true ∧ i < s.ee.latchN.toNat) →
      t = s ∧ busRead a t = .ok (w, t))) ∧
  ∀ (s : State) (a : BusAddr), a.toNat < 0x1000 → ∃ w, busRead a s = .ok (w, s)

/-- R79: a LEN or CNT entry reads as its stored word at any time, whether or not its engine is busy. -/
def Obligations.InputReads : Prop :=
  ∀ (s : State) (i : Nat) (w : Word), s.params.nMax ≤ 1024 → i < s.params.nMax →
    (s.readLen i = some w → busRead (BitVec.ofNat 15 (0x1000 + 4 * i)) s = .ok (w, s)) ∧
    (s.readCnt i = some w → busRead (BitVec.ofNat 15 (0x3000 + 4 * i)) s = .ok (w, s))

/-- R80: an output entry below the latched `n` of its busy engine reads as an unspecified word, which is the model's
free value number `busDraws` (log entry 9, a DESIGN CHOICE: the counter too is the model's); one at or above `n`, and
every one while the engine is idle, reads as its stored word. -/
def Obligations.OutputReads : Prop :=
  ∀ (s : State) (i : Nat) (high : Bool) (w : Word), s.params.nMax ≤ 1024 → i < s.params.nMax →
    (s.busy .ca = true → i < s.ca.latchN.toNat →
      busRead (BitVec.ofNat 15 (0x2000 + 4 * i)) s =
        .ok ((Config.freeBits .busyRead s.busDraws).setWidth 32, { s with busDraws := s.busDraws + 1 })) ∧
    (s.busy .ca = false ∨ s.ca.latchN.toNat ≤ i → s.readSym i = some w →
      busRead (BitVec.ofNat 15 (0x2000 + 4 * i)) s = .ok (w, s)) ∧
    (s.busy .ee = true → i < s.ee.latchN.toNat →
      busRead (BitVec.ofNat 15 (0x4000 + 8 * i + if high then 4 else 0)) s =
        .ok ((Config.freeBits .busyRead s.busDraws).setWidth 32, { s with busDraws := s.busDraws + 1 })) ∧
    (s.busy .ee = false ∨ s.ee.latchN.toNat ≤ i → s.mem.readWord (bitlenHalfAddr i high) = some w →
      busRead (BitVec.ofNat 15 (0x4000 + 8 * i + if high then 4 else 0)) s = .ok (w, s))

/-- R44: a host read of an entry that holds no value faults, but for an output entry that R80 makes a free value. -/
def Obligations.UnwrittenReadFaults : Prop :=
  ∀ (s : State) (i : Nat) (high : Bool), s.params.nMax ≤ 1024 → i < s.params.nMax →
    (s.readLen i = none →
      hostOp (.rd (BitVec.ofNat 15 (0x1000 + 4 * i)) 4) s = .fault (.unwrittenEntry (0x1000 + 4 * i))) ∧
    (s.readCnt i = none →
      hostOp (.rd (BitVec.ofNat 15 (0x3000 + 4 * i)) 4) s = .fault (.unwrittenEntry (0x3000 + 4 * i))) ∧
    (s.busy .ca = false ∨ s.ca.latchN.toNat ≤ i → s.readSym i = none →
      hostOp (.rd (BitVec.ofNat 15 (0x2000 + 4 * i)) 4) s = .fault (.unwrittenEntry (0x2000 + 4 * i))) ∧
    (s.busy .ee = false ∨ s.ee.latchN.toNat ≤ i → s.mem.readWord (bitlenHalfAddr i high) = none →
      hostOp (.rd (BitVec.ofNat 15 (bitlenHalfAddr i high)) 4) s = .fault (.unwrittenEntry (bitlenHalfAddr i high)))

/-- R82: a misaligned or sub-word access is refused at the bridge, and nothing else is ever refused. -/
def Obligations.OnlyTheBridgeRefuses : Prop :=
  (∀ (s : State) (a : BusAddr) (size : Nat) (w : Word), size ≠ 4 ∨ a.toNat % 4 ≠ 0 →
    hostOp (.wr a size w) s = .refused .bridgeAccess ∧ hostOp (.rd a size) s = .refused .bridgeAccess) ∧
  (∀ (s : State) (a : BusAddr) (mask value : Word), a.toNat % 4 ≠ 0 →
    hostOp (.poll a mask value) s = .refused .bridgeAccess) ∧
  ∀ (u : LogUnits) (s : State) (r : Refusal), stepWith u s = .refused r →
    r = .bridgeAccess ∧ s.nextTurn = .host ∧ ∃ op rest, s.program = op :: rest ∧ op.wellFormed = false

/-- R81: byte `k` of a word at `a` is bits `[8k+7:8k]` and has address `a + k`; byte `k` of BITLEN entry `i` has
address 0x4000 + 8i + k. -/
def Obligations.LittleEndianBytes : Prop :=
  (∀ (m : Memory) (a : Nat) (w : Word) (k : Nat), k < 4 →
    (m.writeWord a w).lookup (a + k) = some (w.extractLsb' (8 * k) 8)) ∧
  ∀ (s : State) (i : Nat) (v : F64) (k : Nat), k < 8 →
    (s.writeBitlen i v).mem.lookup (0x4000 + 8 * i + k) = some (v.extractLsb' (8 * k) 8)

/-! ### ASSIGN -/

/-- R150, R153 to R159, R161: an ASSIGN whose operands fit and whose lengths are written and at most `maxbits`
completes without error; it writes the code of every symbol with a length, modulo 2^32, and no other byte, and
changes nothing outside CA and SYM. No condition on the lengths' Kraft sum is needed (R165). -/
def Obligations.AssignResult : Prop :=
  ∀ (u : LogUnits) (s : State) (lens : Nat → Word), StateInv s → AssignReady s lens →
    (∀ i, i < caN s → (lens i).toNat ≤ caMaxbits s) →
    ∃ t r, exec .assign s = .next t ∧ completeEngine u .ca t = .next r ∧ CaSucceeded s r ∧
      (∀ i, i < caN s → lens i ≠ 0 →
        r.readSym i = some (BitVec.ofNat 32 (symbolCode lens (caN s) i))) ∧
      ∀ a, ¬ AssignedByte lens (caN s) a → r.mem.lookup a = s.mem.lookup a

/-- R151, R152, R154, R160, R234, R237: the three errors of ASSIGN, in their order; each records its code, index and
value and writes no array entry. -/
def Obligations.AssignErrors : Prop :=
  ∀ (u : LogUnits) (s : State), StateInv s → s.busy .ca = false →
    (s.params.nMax < caN s →
      ∃ r, runCommand u .assign .ca s = .next r ∧ CaFailed s r 0x05#8 0 s.ca.regN) ∧
    (caN s ≤ s.params.nMax → s.params.maxbitsMax < caMaxbits s →
      ∃ r, runCommand u .assign .ca s = .next r ∧ CaFailed s r 0x04#8 0 s.ca.regMaxbits) ∧
    (caN s ≤ s.params.nMax → caMaxbits s ≤ s.params.maxbitsMax →
      ∀ (k : Nat) (l : Word), k < caN s → s.readLen k = some l → caMaxbits s < l.toNat →
        (∀ j, j < k → ∃ l', s.readLen j = some l' ∧ l'.toNat ≤ caMaxbits s) →
        ∃ r, runCommand u .assign .ca s = .next r ∧ CaFailed s r 0x01#8 (BitVec.ofNat 32 k) l)

/-- R8: with parameters up to the defaults, no value of `next_code` and no intermediate `code` wraps: while CA runs,
whatever pieces of its work are done, its scratch and at the end the codes are the numbers of the recurrence taken
without any modulus, and these are at most `2^(L-1) * n + n`, which is below 2^32. -/
def Obligations.CodesDoNotWrap : Prop :=
  ∀ (u : LogUnits) (s : State) (lens : Nat → Word), StateInv s → s.params.maxbitsMax ≤ 20 → AssignReady s lens →
    (∀ i, i < caN s → (lens i).toNat ≤ caMaxbits s) →
    (∀ L, 1 ≤ L → L ≤ caMaxbits s →
      tierBase lens (caN s) L + tierCount lens (caN s) L ≤ 2 ^ (L - 1) * caN s + caN s ∧
      2 ^ (L - 1) * caN s + caN s < 2 ^ 32) ∧
    (∀ (k : Nat) (t : State), andThen (exec .assign s) (runEngine u .ca k) = .next t →
      (∀ L, t.ca.phase = .base L →
        (∀ j, j ≤ caMaxbits s → (tableRead t.ca.blCount j).toNat = tierCount lens (caN s) j) ∧
        t.ca.code.toNat = tierBase lens (caN s) (L - 1) ∧
        ∀ j, 1 ≤ j → j < L → (tableRead t.ca.nextCode j).toNat = tierBase lens (caN s) j) ∧
      ∀ i, t.ca.phase = .emit i →
        t.ca.code.toNat = tierBase lens (caN s) (caMaxbits s) ∧
        ∀ j, 1 ≤ j → j ≤ caMaxbits s →
          (tableRead t.ca.nextCode j).toNat = tierBase lens (caN s) j + lengthCount lens j i) ∧
    ∃ r, runCommand u .assign .ca s = .next r ∧ CaSucceeded s r ∧
      ∀ i, i < caN s → lens i ≠ 0 → ∃ c, r.readSym i = some c ∧ c.toNat = symbolCode lens (caN s) i

/-- R162: after a successful ASSIGN with parameters up to the defaults, the codes of a tier are consecutive in index
order, from the base code of the tier on. -/
def Obligations.CanonicalOrder : Prop :=
  ∀ (u : LogUnits) (s : State) (lens : Nat → Word), StateInv s → s.params.maxbitsMax ≤ 20 → AssignReady s lens →
    (∀ i, i < caN s → (lens i).toNat ≤ caMaxbits s) →
    ∃ r, runCommand u .assign .ca s = .next r ∧ CaSucceeded s r ∧
      (∀ i j, i < j → j < caN s → lens i = lens j → lens i ≠ 0 →
        ∃ a b, r.readSym i = some a ∧ r.readSym j = some b ∧
          b.toNat = a.toNat + ((Finset.Ico i j).filter (fun k => lens k = lens i)).card ∧ a.toNat < b.toNat) ∧
      ∀ i, i < caN s → lens i ≠ 0 →
        ∃ c, r.readSym i = some c ∧
          c.toNat = tierBase lens (caN s) (lens i).toNat +
            ((Finset.range i).filter (fun k => lens k = lens i)).card ∧
          c.toNat < tierBase lens (caN s) (lens i).toNat + tierCount lens (caN s) (lens i).toNat

/-- R163: the base code of tier `L + 1` is that of tier `L` plus the count of tier `L`, shifted left by one, modulo
2^32; so the first code of a tier follows from the first code of the tier below. Any lengths up to `maxbits` will do,
whatever their Kraft sum. -/
def Obligations.TierNesting : Prop :=
  ∀ (u : LogUnits) (s : State) (lens : Nat → Word), StateInv s → AssignReady s lens →
    (∀ i, i < caN s → (lens i).toNat ≤ caMaxbits s) →
    ∃ r, runCommand u .assign .ca s = .next r ∧ CaSucceeded s r ∧
      ∀ L, 1 ≤ L → L + 1 ≤ caMaxbits s →
        BitVec.ofNat 32 (tierBase lens (caN s) (L + 1)) =
          (BitVec.ofNat 32 (tierBase lens (caN s) L) + BitVec.ofNat 32 (tierCount lens (caN s) L)) <<< 1 ∧
        ∀ i j, FirstOf lens (caN s) L i → FirstOf lens (caN s) (L + 1) j →
          ∃ a b, r.readSym i = some a ∧ r.readSym j = some b ∧
            b = (a + BitVec.ofNat 32 (tierCount lens (caN s) L)) <<< 1

/-- R164: when the lengths satisfy the Kraft inequality, every code fits its length, no code is a prefix of another,
and the canonical decoder recovers each symbol from its code bits. -/
def Obligations.KraftCodesDecode : Prop :=
  ∀ (u : LogUnits) (s : State) (lens : Nat → Word), StateInv s → AssignReady s lens →
    (∀ i, i < caN s → (lens i).toNat ≤ caMaxbits s) → Kraft lens (caN s) →
    ∃ r, runCommand u .assign .ca s = .next r ∧ CaSucceeded s r ∧
      (∀ i, i < caN s → lens i ≠ 0 →
        ∃ c, r.readSym i = some c ∧ c.toNat < 2 ^ (lens i).toNat ∧
          ∀ rest, canonicalDecode lens (caN s) 0 0 (codeBits (lens i).toNat c.toNat ++ rest) = some (i, rest)) ∧
      ∀ i j, i < caN s → j < caN s → i ≠ j → lens i ≠ 0 → lens j ≠ 0 →
        ∃ a b, r.readSym i = some a ∧ r.readSym j = some b ∧
          ¬ codeBits (lens i).toNat a.toNat <+: codeBits (lens j).toNat b.toNat

/-- R166: the empty cases of ASSIGN. -/
def Obligations.AssignEmptyCases : Prop :=
  ∀ (u : LogUnits) (s : State), StateInv s → s.busy .ca = false → caMaxbits s ≤ s.params.maxbitsMax →
    (caN s = 0 → ∃ r, runCommand u .assign .ca s = .next r ∧ CaSucceeded s r ∧ r.mem = s.mem) ∧
    (caMaxbits s = 0 → caN s ≤ s.params.nMax →
      ∀ (k : Nat) (l : Word), k < caN s → s.readLen k = some l → l ≠ 0 →
        (∀ j, j < k → s.readLen j = some 0) →
        ∃ r, runCommand u .assign .ca s = .next r ∧ CaFailed s r 0x01#8 (BitVec.ofNat 32 k) l) ∧
    (caN s ≤ s.params.nMax → (∀ i, i < caN s → s.readLen i = some 0) →
      ∃ r, runCommand u .assign .ca s = .next r ∧ CaSucceeded s r ∧ r.mem = s.mem)

/-- R281, R44: a command that passes its operand checks and meets an unwritten input entry, every entry before it
being one it accepts, faults there. -/
def Obligations.UnwrittenInputFaults : Prop :=
  ∀ (u : LogUnits) (s : State) (k : Nat), StateInv s →
    (s.busy .ca = false → caN s ≤ s.params.nMax → caMaxbits s ≤ s.params.maxbitsMax → k < caN s →
      s.readLen k = none → (∀ j, j < k → ∃ l, s.readLen j = some l ∧ l.toNat ≤ caMaxbits s) →
      runCommand u .assign .ca s = .fault (.unwrittenEntry (0x1000 + 4 * k))) ∧
    (s.busy .ee = false → eeN s ≤ s.params.nMax → k < eeN s →
      s.readCnt k = none → (∀ j, j < k → s.readCnt j ≠ none) →
      runCommand u .estimate .ee s = .fault (.unwrittenEntry (0x3000 + 4 * k)))

/-! ### ESTIMATE -/

/-- R190, R193 to R200, R202: an ESTIMATE whose operand fits and whose counts are written, and none of whose costs is
an error, writes the cost of every symbol and no other byte, and changes nothing outside EE and BITLEN; whatever the
logarithm units. -/
def Obligations.EstimateResult : Prop :=
  ∀ (u : LogUnits) (s : State) (cnts : Nat → Word), StateInv s → EstimateReady s cnts →
    (∀ i, i < eeN s → costError (symbolCost u s.params.eps cnts (eeN s) i) = none) →
    ∃ t r, exec .estimate s = .next t ∧ completeEngine u .ee t = .next r ∧ EeSucceeded s r ∧
      (∀ i, i < eeN s → r.readBitlen i = some (symbolCost u s.params.eps cnts (eeN s) i)) ∧
      KeepsOutside (bitlenAddr 0) (8 * eeN s) s.mem r.mem

/-- R191, R192, R199, R201, R235, R237: the errors of ESTIMATE, in their order; each records its code, index and value
and leaves no BITLEN entry below `n` with a value. -/
def Obligations.EstimateErrors : Prop :=
  ∀ (u : LogUnits) (s : State), StateInv s → s.busy .ee = false →
    (s.params.nMax < eeN s →
      ∃ r, runCommand u .estimate .ee s = .next r ∧ EeFailed s r 0x05#8 0 (s.ee.regN.setWidth 64)) ∧
    (eeN s = 0 → ∃ r, runCommand u .estimate .ee s = .next r ∧ EeFailed s r 0x06#8 0 0) ∧
    (∀ (cnts : Nat → Word) (k : Nat), EstimateReady s cnts → k < eeN s →
      (∀ j, j < k → costError (symbolCost u s.params.eps cnts (eeN s) j) = none) →
      (Fp.isFinite (symbolCost u s.params.eps cnts (eeN s) k) = false →
        ∃ r, runCommand u .estimate .ee s = .next r ∧
          EeFailed s r 0x03#8 (BitVec.ofNat 32 k) (symbolCost u s.params.eps cnts (eeN s) k)) ∧
      (Fp.isFinite (symbolCost u s.params.eps cnts (eeN s) k) = true →
        Fp.flt (symbolCost u s.params.eps cnts (eeN s) k) 0#64 = true →
        ∃ r, runCommand u .estimate .ee s = .next r ∧
          EeFailed s r 0x02#8 (BitVec.ofNat 32 k) (symbolCost u s.params.eps cnts (eeN s) k)))

/-- R198: a finite value strictly between -EPS and 0 becomes +0 and every other value is kept, whatever finite value
EPS is; so -EPS itself, -0, the infinities and NaNs are kept. -/
def Obligations.ClampWindow : Prop :=
  (∀ eps v : F64, Fp.isFinite eps = true →
    (Fp.isFinite v = true → -realOf eps < realOf v → realOf v < 0 → clampCost eps v = 0#64) ∧
    (¬ (Fp.isFinite v = true ∧ -realOf eps < realOf v ∧ realOf v < 0) → clampCost eps v = v)) ∧
  Config.defaultParams.eps = 0x3EE4F8B588E368F1#64 ∧
  clampCost Config.defaultParams.eps 0xBEE4F8B588E368F1#64 = 0xBEE4F8B588E368F1#64 ∧
  ∀ eps : F64, clampCost eps 0x8000000000000000#64 = 0x8000000000000000#64

/-- R199, R231: a clamped value that is no finite number is COST_NONFINITE, a finite one below 0 is COST_NEGATIVE, and
every other passes. -/
def Obligations.CostChecks : Prop :=
  ∀ v : F64,
    (Fp.isFinite v = false → costError v = some .costNonfinite) ∧
    (Fp.isFinite v = true → realOf v < 0 → costError v = some .costNegative) ∧
    (Fp.isFinite v = true → 0 ≤ realOf v → costError v = none) ∧
    ErrCode.costNonfinite.code = 0x03#8 ∧ ErrCode.costNegative.code = 0x02#8

/-- R194: every integer that ESTIMATE converts is below 2^53, and its conversion is exact. -/
def Obligations.ConversionsExact : Prop :=
  (∀ k, k < 2 ^ 53 → Fp.isFinite (Fp.toF64 k) = true ∧ realOf (Fp.toF64 k) = k) ∧
  ∀ (s : State) (cnts : Nat → Word), StateInv s → EstimateReady s cnts →
    eeN s < 2 ^ 53 ∧ countSum cnts (eeN s) < 2 ^ 42 ∧ countSum cnts (eeN s) < 2 ^ 53 ∧
    ∀ i, i < eeN s → (cnts i).toNat < 2 ^ 53

/-- R204, R206: with conforming logarithm units, no raw cost is negative or non-finite, the clamp changes nothing, and
an ESTIMATE of written counts succeeds with every entry at least 0. -/
def Obligations.ConformingUnitsNeverErr : Prop :=
  ∀ u : LogUnits, P1 u → P2 u → P3 u →
    ∀ (s : State) (cnts : Nat → Word), StateInv s → EstimateReady s cnts →
      (∀ i, i < eeN s →
        fle 0#64 (rawCost u (costBase u cnts (eeN s)) (cnts i)) ∧
        clampCost s.params.eps (rawCost u (costBase u cnts (eeN s)) (cnts i)) =
          rawCost u (costBase u cnts (eeN s)) (cnts i) ∧
        costError (rawCost u (costBase u cnts (eeN s)) (cnts i)) = none) ∧
      ∃ r, runCommand u .estimate .ee s = .next r ∧ EeSucceeded s r ∧
        ∀ i, i < eeN s → ∃ v, r.readBitlen i = some v ∧ fle 0#64 v

/-- R205: with monotone logarithm units, a greater count never costs more. -/
def Obligations.MonotonicCost : Prop :=
  ∀ u : LogUnits, P2 u →
    ∀ (s r : State) (cnts : Nat → Word), StateInv s → EstimateReady s cnts →
      runCommand u .estimate .ee s = .next r → r.ee.err = false →
      ∀ i j, i < eeN s → j < eeN s → (cnts j).toNat < (cnts i).toNat → 0 < (cnts j).toNat →
        ∃ a b, r.readBitlen i = some a ∧ r.readBitlen j = some b ∧ fle a b

/-- R207: when the sum is positive, a count of 0 costs what a count of 1 does, the logarithm of the sum; when every
count is 0, every symbol costs `LN(n)`, which for `n = 2` is 0x3FE62E42FEFA39EF. -/
def Obligations.ZeroCountCostsAsOne : Prop :=
  (∀ u : LogUnits, P1 u → P2 u → ∀ (eps : F64) (cnts : Nat → Word) (n : Nat), 1 ≤ n → n ≤ 1024 →
    (0 < countSum cnts n → ∀ i j, i < n → j < n → cnts i = 0 → cnts j = 1 →
      rawCost u (costBase u cnts n) (cnts i) = u.log2 (Fp.toF64 (countSum cnts n)) ∧
      rawCost u (costBase u cnts n) (cnts j) = u.log2 (Fp.toF64 (countSum cnts n)) ∧
      symbolCost u eps cnts n i = symbolCost u eps cnts n j) ∧
    (countSum cnts n = 0 → ∀ i, i < n →
      rawCost u (costBase u cnts n) (cnts i) = u.ln (Fp.toF64 n))) ∧
  logUnits.ln (Fp.toF64 2) = 0x3FE62E42FEFA39EF#64

/-- R208: with conforming units, the only symbol with a positive count costs exactly +0 and every other costs the
logarithm of that count; a single symbol costs +0 whatever its count. -/
def Obligations.SingleCountCostsZero : Prop :=
  ∀ u : LogUnits, P1 u → P2 u → P3 u → ∀ (eps : F64) (cnts : Nat → Word) (n k : Nat), n ≤ 1024 → k < n →
    ((∀ i, i < n → (cnts i = 0 ↔ i ≠ k)) →
      symbolCost u eps cnts n k = 0#64 ∧
      ∀ i, i < n → i ≠ k → symbolCost u eps cnts n i = u.log2 (Fp.toF64 (cnts k).toNat)) ∧
    (n = 1 → symbolCost u eps cnts n 0 = 0#64)

/-- R15, R209: subtraction of finite values whose result is finite is the exact difference rounded to nearest, and to
the value with an even significand where two are equally near; no flush to zero. -/
def Obligations.SubtractionRounds : Prop :=
  ∀ a b : F64, Fp.isFinite a = true → Fp.isFinite b = true → Fp.isFinite (Fp.fsub a b) = true →
    Nearest (Fp.fsub a b) (realOf a - realOf b) ∧
    ∀ z, Fp.isFinite z = true → realOf z ≠ realOf (Fp.fsub a b) →
      |realOf z - (realOf a - realOf b)| = |realOf (Fp.fsub a b) - (realOf a - realOf b)| →
      (Fp.fsub a b).getLsbD 0 = false

/-- R196: the units this hardware takes have P1, P2 and P3. -/
def Obligations.DefaultUnitsConform : Prop := P1 logUnits ∧ P2 logUnits ∧ P3 logUnits

/-- R7, R196: the units this hardware takes are correctly rounded at every positive finite value: LOG2 and LN deliver
the one finite value nearest the real logarithm. No tie arises, so what is done with ties plays no part. -/
def Obligations.DefaultUnitsNearest : Prop :=
  ∀ x : F64, Fp.isFinite x = true → 0 < realOf x →
    OnlyNearest (logUnits.log2 x) (Real.logb 2 (realOf x)) ∧ OnlyNearest (logUnits.ln x) (Real.log (realOf x))

/-- R196: LOG2 of a power of two is its exponent, exactly. -/
def Obligations.Log2OfPowersExact : Prop := ∀ k, k < 42 → logUnits.log2 (Fp.toF64 (2 ^ k)) = Fp.toF64 k

/-! ### The whole machine -/

/-- R87, R137: an engine has DONE only once its command is over: while work remains DONE stays 0, and the completion
step ends with BUSY = 0 and DONE = 1, with ERR = 1 exactly when an error code is recorded. -/
def Obligations.CompletionPublishes : Prop :=
  ∀ (u : LogUnits) (s t : State), StateInv s →
    (s.busy .ca = true →
      (engineTick u .ca s = .next t → (t.busy .ca = true ↔ t.ca.done = false)) ∧
      (completeEngine u .ca s = .next t →
        t.busy .ca = false ∧ t.ca.done = true ∧ (t.ca.err = true ↔ t.ca.errCode ≠ 0x00#8))) ∧
    (s.busy .ee = true →
      (engineTick u .ee s = .next t → (t.busy .ee = true ↔ t.ee.done = false)) ∧
      (completeEngine u .ee s = .next t →
        t.busy .ee = false ∧ t.ee.done = true ∧ (t.ee.err = true ↔ t.ee.errCode ≠ 0x00#8)))

/-- R91: a host line and a piece of engine work after which the engine is still busy may be taken in either order. So
the work between acceptance and completion cannot be seen from the bus. -/
def Obligations.EngineWorkInvisible : Prop :=
  ∀ (u : LogUnits) (e : Engine) (op : HostOp) (s t h : State), StateInv s → s.busy e = true →
    engineTick u e s = .next t → t.busy e = true → hostOp op s = .next h →
    ∃ r, hostOp op t = .next r ∧ engineTick u e h = .next r

/-- R88: the two engines may complete in either order, with the same outcome, each as if the other had not run. -/
def Obligations.EnginesIndependent : Prop :=
  ∀ (u : LogUnits) (s a b : State), StateInv s →
    completeEngine u .ca s = .next a → completeEngine u .ee s = .next b →
    ∃ r, completeEngine u .ee a = .next r ∧ completeEngine u .ca b = .next r ∧ r.ca = a.ca ∧ r.ee = b.ee

/-- R85, R138, R40, R42: accepting, running or completing a command changes nothing of the other engine, no register
of the host's, and no byte of the memories but the engine's own outputs: SYM entries below `n` with a length, and
BITLEN entries below `n`. -/
def Obligations.EngineFrame : Prop :=
  (∀ (s t : State), s.busy .ca = false → exec .assign s = .next t → t = { s with ca := t.ca }) ∧
  (∀ (s t : State), s.busy .ee = false → exec .estimate s = .next t → t = { s with ee := t.ee }) ∧
  ∀ (u : LogUnits) (s t : State), StateInv s →
    (engineTick u .ca s = .next t ∨ completeEngine u .ca s = .next t →
      t = { s with ca := t.ca, mem := t.mem } ∧ t.ca.regN = s.ca.regN ∧ t.ca.regMaxbits = s.ca.regMaxbits ∧
      ∀ a, (¬ ∃ i, i < s.ca.latchN.toNat ∧ i < s.params.nMax ∧ s.readLen i ≠ some 0 ∧
          symAddr i ≤ a ∧ a < symAddr i + 4) →
        t.mem.lookup a = s.mem.lookup a) ∧
    (engineTick u .ee s = .next t ∨ completeEngine u .ee s = .next t →
      t = { s with ee := t.ee, mem := t.mem } ∧ t.ee.regN = s.ee.regN ∧
      KeepsOutside (bitlenAddr 0) (8 * min s.ee.latchN.toNat s.params.nMax) s.mem t.mem)

/-- R139: a command's results depend on its operands, its input entries and the parameters only: two states that agree
on these give the same error registers, the same ERR and, on success, the same output entries, whatever else they
hold. -/
def Obligations.ResultsDependOnInputs : Prop :=
  ∀ (u : LogUnits) (s₁ s₂ : State), StateInv s₁ → StateInv s₂ → s₁.params = s₂.params →
    (∀ r₁, s₁.busy .ca = false → s₂.busy .ca = false → s₁.ca.regN = s₂.ca.regN →
      s₁.ca.regMaxbits = s₂.ca.regMaxbits →
      (∀ i, i < caN s₁ → i < s₁.params.nMax → s₁.readLen i = s₂.readLen i) →
      runCommand u .assign .ca s₁ = .next r₁ →
      ∃ r₂, runCommand u .assign .ca s₂ = .next r₂ ∧ r₁.ca.err = r₂.ca.err ∧ r₁.ca.errCode = r₂.ca.errCode ∧
        r₁.ca.errIndex = r₂.ca.errIndex ∧ r₁.ca.errValue = r₂.ca.errValue ∧
        (r₁.ca.err = false → ∀ i, i < caN s₁ → s₁.readLen i ≠ some 0 → r₁.readSym i = r₂.readSym i)) ∧
    (∀ r₁, s₁.busy .ee = false → s₂.busy .ee = false → s₁.ee.regN = s₂.ee.regN →
      (∀ i, i < eeN s₁ → i < s₁.params.nMax → s₁.readCnt i = s₂.readCnt i) →
      runCommand u .estimate .ee s₁ = .next r₁ →
      ∃ r₂, runCommand u .estimate .ee s₂ = .next r₂ ∧ r₁.ee.err = r₂.ee.err ∧ r₁.ee.errCode = r₂.ee.errCode ∧
        r₁.ee.errIndex = r₂.ee.errIndex ∧ r₁.ee.errValueLo = r₂.ee.errValueLo ∧
        r₁.ee.errValueHi = r₂.ee.errValueHi ∧
        (r₁.ee.err = false → ∀ i, i < eeN s₁ → r₁.readBitlen i = r₂.readBitlen i))

/-- R26, R50, R136, R248: an ASSIGN or ESTIMATE word leaves its engine busy in the very state it gives; from a state
with BUSY = 1 or DONE = 1, every step leads to one with BUSY = 1 or DONE = 1, until a reset or until the host writes 1
to the DONE bit of STATUS. And no step changes an engine's BUSY, DONE or ERR bit but by a writer the table of R26
names: a CMD write of its word, the work of the engine itself, a STATUS write of 1 to the bit, or a reset. That a step
is one turn of a schedule is the model's (log entry 2). -/
def Obligations.BusyOrDone : Prop :=
  (∀ s t : State, exec .assign s = .next t → t.busy .ca = true) ∧
  (∀ s t : State, exec .estimate s = .next t → t.busy .ee = true) ∧
  ∀ (u : LogUnits) (e : Engine) (s t : State), stepWith u s = .next t →
    ((s.busy e = true ∨ doneBit s e = true) → ¬ (t.busy e = true ∨ doneBit t e = true) →
      s.nextTurn = .rst ∨ HostWrites s 0x00C#15 (fun w => w.getLsbD (doneIndex e) = true)) ∧
    (s.busy e = false → t.busy e = true → HostWrites s 0x008#15 (fun w => w = commandWord e)) ∧
    (s.busy e = true → t.busy e = false → s.nextTurn = .rst ∨ EngineWorks s e ∧ doneBit t e = true) ∧
    (doneBit s e = false → doneBit t e = true → EngineWorks s e ∧ t.busy e = false) ∧
    (doneBit s e = true → doneBit t e = false →
      s.nextTurn = .rst ∨ HostWrites s 0x00C#15 (fun w => w.getLsbD (doneIndex e) = true) ∨
      HostWrites s 0x008#15 (fun w => w = commandWord e) ∧ s.busy e = false) ∧
    (errBit s e = false → errBit t e = true → EngineWorks s e ∧ doneBit t e = true ∧ t.busy e = false) ∧
    (errBit s e = true → errBit t e = false →
      s.nextTurn = .rst ∨ HostWrites s 0x00C#15 (fun w => w.getLsbD (errIndex e) = true) ∨
      HostWrites s 0x008#15 (fun w => w = commandWord e) ∧ s.busy e = false)

/-- R26, R50, R233: the three global bits of STATUS are set only by the bus rule that names each, and cleared only by a
STATUS write of 1 to them or by a reset. -/
def Obligations.GlobalStatusBits : Prop :=
  ∀ (u : LogUnits) (s t : State), s.params.nMax ≤ 1024 → stepWith u s = .next t →
    (s.bus.illCmd = false → t.bus.illCmd = true →
      s.nextTurn = .host ∧ ∃ w rest, s.program = .wr 0x008#15 4 w :: rest ∧ ∀ i, decodeWord w ≠ .ok i) ∧
    (s.bus.wrDrop = false → t.bus.wrDrop = true →
      s.nextTurn = .host ∧ ∃ a w rest e, s.program = .wr a 4 w :: rest ∧ OwnedAddr s.params e a.toNat ∧
        s.busy e = true) ∧
    (s.bus.cmdDrop = false → t.bus.cmdDrop = true →
      s.nextTurn = .host ∧ ∃ w rest, s.program = .wr 0x008#15 4 w :: rest ∧
        (w = 0x00000001#32 ∧ s.busy .ca = true ∨ w = 0x00000002#32 ∧ s.busy .ee = true)) ∧
    ((s.bus.illCmd = true ∧ t.bus.illCmd = false) ∨ (s.bus.wrDrop = true ∧ t.bus.wrDrop = false) ∨
        (s.bus.cmdDrop = true ∧ t.bus.cmdDrop = false) →
      s.nextTurn = .rst ∨
      s.nextTurn = .host ∧ ∃ w rest, s.program = .wr 0x00C#15 4 w :: rest ∧
        (s.bus.illCmd = true → t.bus.illCmd = false → w.getLsbD 8 = true) ∧
        (s.bus.wrDrop = true → t.bus.wrDrop = false → w.getLsbD 9 = true) ∧
        (s.bus.cmdDrop = true → t.bus.cmdDrop = false → w.getLsbD 10 = true))

/-- R140, R283: a busy engine whose input entries are written completes, within a number of pieces of work that is
linear in `n` and `maxbits`. -/
def Obligations.CommandsTerminate : Prop :=
  ∀ (u : LogUnits) (s : State), StateInv s →
    (s.busy .ca = true → (∀ i, i < s.ca.latchN.toNat → i < s.params.nMax → s.readLen i ≠ none) →
      ∃ k r, k ≤ 2 * s.ca.latchN.toNat + 2 * s.ca.latchMaxbits.toNat + 4 ∧ runEngine u .ca k s = .next r ∧
        completeEngine u .ca s = .next r ∧ r.busy .ca = false ∧ r.ca.done = true) ∧
    (s.busy .ee = true → (∀ i, i < s.ee.latchN.toNat → i < s.params.nMax → s.readCnt i ≠ none) →
      ∃ k r, k ≤ 2 * s.ee.latchN.toNat + 3 ∧ runEngine u .ee k s = .next r ∧
        completeEngine u .ee s = .next r ∧ r.busy .ee = false ∧ r.ee.done = true)

/-- R118, R284: a POLL whose condition fails reads once and stays in front, its word not among those received (one
read a turn is log entry 19, DEDUCED; `rdata` and `received` are log entry 14, a DESIGN CHOICE); and under every
schedule of turns without a reset, a POLL of the DONE bit of a running or completed command ends, whatever the other
engine does, when the inputs of the running commands are written. The schedule, and that a busy engine completes once it
is used up, which makes it fair, are the model's (log entry 2). -/
def Obligations.PollEnds : Prop :=
  (∀ (s s' : State) (a : BusAddr) (mask value w : Word), a.toNat % 4 = 0 → busRead a s = .ok (w, s') →
    (w &&& mask ≠ value →
      hostOp (.poll a mask value) s =
        .next { s' with rdata := some w, program := .poll a mask value :: s'.program }) ∧
    (w &&& mask = value → hostOp (.poll a mask value) s = .next { s' with rdata := some w })) ∧
  ∀ (u : LogUnits) (s : State) (e : Engine) (rest : List HostOp), StateInv s → Turn.rst ∉ s.schedule →
    InputsWritten s → (s.busy e = true ∨ doneBit s e = true) →
    s.program = .poll 0x00C#15 (1#32 <<< doneIndex e) (1#32 <<< doneIndex e) :: rest →
    ∃ k r, k ≤ s.schedule.length + 3 ∧ stepsWith u k s = .next r ∧ r.program = rest ∧ doneBit r e = true

/-- R117, R118: the transactions of each line of a host program, and their bus encodings; `none` stands for the `-`
that R117 gives as the write data of a read. -/
def Obligations.HostLinesExpand : Prop :=
  (∀ (a : BusAddr) (w : Word), HostOp.busFields (.wr a 4 w) = (true, a.extractLsb' 2 13, some w) ∧
    HostOp.busFields (.rd a 4) = (false, a.extractLsb' 2 13, none)) ∧
  HostLine.cmdNop.expand = [.wr 0x008#15 4 0x00000000#32] ∧
  HostLine.cmdAssign.expand = [.wr 0x008#15 4 0x00000001#32] ∧
  HostLine.cmdEstimate.expand = [.wr 0x008#15 4 0x00000002#32] ∧
  (∀ n m, (HostLine.runAssign n m).expand =
    [.wr 0x020#15 4 n, .wr 0x024#15 4 m, .wr 0x008#15 4 0x00000001#32,
      .poll 0x00C#15 0x00000002#32 0x00000002#32]) ∧
  (∀ n, (HostLine.runEstimate n).expand =
    [.wr 0x040#15 4 n, .wr 0x008#15 4 0x00000002#32, .poll 0x00C#15 0x00000020#32 0x00000020#32]) ∧
  HostLine.clearStatus.expand = [.wr 0x00C#15 4 0x00000766#32] ∧
  (∀ i x, i < 1024 → (HostLine.wr64 i x).expand =
    [.wr (BitVec.ofNat 15 (0x4000 + 8 * i)) 4 (x.extractLsb' 0 32),
      .wr (BitVec.ofNat 15 (0x4000 + 8 * i + 4)) 4 (x.extractLsb' 32 32)]) ∧
  ∀ i, i < 1024 → (HostLine.rd64 i).expand =
    [.rd (BitVec.ofNat 15 (0x4000 + 8 * i)) 4, .rd (BitVec.ofNat 15 (0x4000 + 8 * i + 4)) 4]

/-- The invariant holds after power-up and reset (R51). -/
def Obligations.InvAtReset : Prop := StateInv State.reset

/-- The invariant is kept by every step, whatever the logarithm units: the parameters stay legal (R7), the memory stays
canonical, within the mapped arrays and in whole words (R71, R73, R83), a running engine stays inside its passes with
its operand registers equal to the latched ones (R47, R48) and its DONE, ERR and error registers clear (R133, R134),
and no code outside the table is recorded (R231). -/
def Obligations.InvKept : Prop := ∀ (u : LogUnits) (s t : State), StateInv s → stepWith u s = .next t → StateInv t
end

