-- ==== Sys2Proof/Laws/State.lean ====
section
/-! SUPPORT. Laws/State.lean: for each named update of State, one lemma per field. -/

namespace Sys2Proof.Machine.State

@[simp] theorem beginTurn_params (s : State) : (s.beginTurn).params = s.params := rfl
@[simp] theorem beginTurn_program (s : State) : (s.beginTurn).program = s.program := rfl
@[simp] theorem beginTurn_schedule (s : State) : (s.beginTurn).schedule = s.schedule.tail := rfl
@[simp] theorem beginTurn_rdata (s : State) : (s.beginTurn).rdata = none := rfl
@[simp] theorem beginTurn_received (s : State) : (s.beginTurn).received = s.received := rfl
@[simp] theorem beginTurn_ca (s : State) : (s.beginTurn).ca = s.ca := rfl
@[simp] theorem beginTurn_ee (s : State) : (s.beginTurn).ee = s.ee := rfl
@[simp] theorem beginTurn_bus (s : State) : (s.beginTurn).bus = s.bus := rfl
@[simp] theorem beginTurn_irqEn (s : State) : (s.beginTurn).irqEn = s.irqEn := rfl
@[simp] theorem beginTurn_mem (s : State) : (s.beginTurn).mem = s.mem := rfl
@[simp] theorem beginTurn_busDraws (s : State) : (s.beginTurn).busDraws = s.busDraws := rfl

@[simp] theorem setIllCmd_params (s : State) : (s.setIllCmd).params = s.params := rfl
@[simp] theorem setIllCmd_program (s : State) : (s.setIllCmd).program = s.program := rfl
@[simp] theorem setIllCmd_schedule (s : State) : (s.setIllCmd).schedule = s.schedule := rfl
@[simp] theorem setIllCmd_rdata (s : State) : (s.setIllCmd).rdata = s.rdata := rfl
@[simp] theorem setIllCmd_received (s : State) : (s.setIllCmd).received = s.received := rfl
@[simp] theorem setIllCmd_ca (s : State) : (s.setIllCmd).ca = s.ca := rfl
@[simp] theorem setIllCmd_ee (s : State) : (s.setIllCmd).ee = s.ee := rfl
@[simp] theorem setIllCmd_bus (s : State) : (s.setIllCmd).bus = { s.bus with illCmd := true } := rfl
@[simp] theorem setIllCmd_irqEn (s : State) : (s.setIllCmd).irqEn = s.irqEn := rfl
@[simp] theorem setIllCmd_mem (s : State) : (s.setIllCmd).mem = s.mem := rfl
@[simp] theorem setIllCmd_busDraws (s : State) : (s.setIllCmd).busDraws = s.busDraws := rfl

@[simp] theorem setWrDrop_params (s : State) : (s.setWrDrop).params = s.params := rfl
@[simp] theorem setWrDrop_program (s : State) : (s.setWrDrop).program = s.program := rfl
@[simp] theorem setWrDrop_schedule (s : State) : (s.setWrDrop).schedule = s.schedule := rfl
@[simp] theorem setWrDrop_rdata (s : State) : (s.setWrDrop).rdata = s.rdata := rfl
@[simp] theorem setWrDrop_received (s : State) : (s.setWrDrop).received = s.received := rfl
@[simp] theorem setWrDrop_ca (s : State) : (s.setWrDrop).ca = s.ca := rfl
@[simp] theorem setWrDrop_ee (s : State) : (s.setWrDrop).ee = s.ee := rfl
@[simp] theorem setWrDrop_bus (s : State) : (s.setWrDrop).bus = { s.bus with wrDrop := true } := rfl
@[simp] theorem setWrDrop_irqEn (s : State) : (s.setWrDrop).irqEn = s.irqEn := rfl
@[simp] theorem setWrDrop_mem (s : State) : (s.setWrDrop).mem = s.mem := rfl
@[simp] theorem setWrDrop_busDraws (s : State) : (s.setWrDrop).busDraws = s.busDraws := rfl

@[simp] theorem setCmdDrop_params (s : State) : (s.setCmdDrop).params = s.params := rfl
@[simp] theorem setCmdDrop_program (s : State) : (s.setCmdDrop).program = s.program := rfl
@[simp] theorem setCmdDrop_schedule (s : State) : (s.setCmdDrop).schedule = s.schedule := rfl
@[simp] theorem setCmdDrop_rdata (s : State) : (s.setCmdDrop).rdata = s.rdata := rfl
@[simp] theorem setCmdDrop_received (s : State) : (s.setCmdDrop).received = s.received := rfl
@[simp] theorem setCmdDrop_ca (s : State) : (s.setCmdDrop).ca = s.ca := rfl
@[simp] theorem setCmdDrop_ee (s : State) : (s.setCmdDrop).ee = s.ee := rfl
@[simp] theorem setCmdDrop_bus (s : State) : (s.setCmdDrop).bus = { s.bus with cmdDrop := true } := rfl
@[simp] theorem setCmdDrop_irqEn (s : State) : (s.setCmdDrop).irqEn = s.irqEn := rfl
@[simp] theorem setCmdDrop_mem (s : State) : (s.setCmdDrop).mem = s.mem := rfl
@[simp] theorem setCmdDrop_busDraws (s : State) : (s.setCmdDrop).busDraws = s.busDraws := rfl

@[simp] theorem clearStatus_params (w : Word) (s : State) : (s.clearStatus w).params = s.params := rfl
@[simp] theorem clearStatus_program (w : Word) (s : State) : (s.clearStatus w).program = s.program := rfl
@[simp] theorem clearStatus_schedule (w : Word) (s : State) : (s.clearStatus w).schedule = s.schedule := rfl
@[simp] theorem clearStatus_rdata (w : Word) (s : State) : (s.clearStatus w).rdata = s.rdata := rfl
@[simp] theorem clearStatus_received (w : Word) (s : State) : (s.clearStatus w).received = s.received := rfl
@[simp] theorem clearStatus_ca_regN (w : Word) (s : State) : (s.clearStatus w).ca.regN = s.ca.regN := rfl
@[simp] theorem clearStatus_ca_regMaxbits (w : Word) (s : State) :
    (s.clearStatus w).ca.regMaxbits = s.ca.regMaxbits := rfl
@[simp] theorem clearStatus_ca_errCode (w : Word) (s : State) : (s.clearStatus w).ca.errCode = s.ca.errCode := rfl
@[simp] theorem clearStatus_ca_errIndex (w : Word) (s : State) : (s.clearStatus w).ca.errIndex = s.ca.errIndex := rfl
@[simp] theorem clearStatus_ca_errValue (w : Word) (s : State) : (s.clearStatus w).ca.errValue = s.ca.errValue := rfl
@[simp] theorem clearStatus_ca_done (w : Word) (s : State) :
    (s.clearStatus w).ca.done = (s.ca.done && !w.getLsbD 1) := rfl
@[simp] theorem clearStatus_ca_err (w : Word) (s : State) :
    (s.clearStatus w).ca.err = (s.ca.err && !w.getLsbD 2) := rfl
@[simp] theorem clearStatus_ca_phase (w : Word) (s : State) : (s.clearStatus w).ca.phase = s.ca.phase := rfl
@[simp] theorem clearStatus_ca_latchN (w : Word) (s : State) : (s.clearStatus w).ca.latchN = s.ca.latchN := rfl
@[simp] theorem clearStatus_ca_latchMaxbits (w : Word) (s : State) :
    (s.clearStatus w).ca.latchMaxbits = s.ca.latchMaxbits := rfl
@[simp] theorem clearStatus_ca_blCount (w : Word) (s : State) : (s.clearStatus w).ca.blCount = s.ca.blCount := rfl
@[simp] theorem clearStatus_ca_nextCode (w : Word) (s : State) : (s.clearStatus w).ca.nextCode = s.ca.nextCode := rfl
@[simp] theorem clearStatus_ca_code (w : Word) (s : State) : (s.clearStatus w).ca.code = s.ca.code := rfl
@[simp] theorem clearStatus_ca_draws (w : Word) (s : State) : (s.clearStatus w).ca.draws = s.ca.draws := rfl
@[simp] theorem clearStatus_ee_regN (w : Word) (s : State) : (s.clearStatus w).ee.regN = s.ee.regN := rfl
@[simp] theorem clearStatus_ee_errCode (w : Word) (s : State) : (s.clearStatus w).ee.errCode = s.ee.errCode := rfl
@[simp] theorem clearStatus_ee_errIndex (w : Word) (s : State) : (s.clearStatus w).ee.errIndex = s.ee.errIndex := rfl
@[simp] theorem clearStatus_ee_errValueLo (w : Word) (s : State) :
    (s.clearStatus w).ee.errValueLo = s.ee.errValueLo := rfl
@[simp] theorem clearStatus_ee_errValueHi (w : Word) (s : State) :
    (s.clearStatus w).ee.errValueHi = s.ee.errValueHi := rfl
@[simp] theorem clearStatus_ee_done (w : Word) (s : State) :
    (s.clearStatus w).ee.done = (s.ee.done && !w.getLsbD 5) := rfl
@[simp] theorem clearStatus_ee_err (w : Word) (s : State) :
    (s.clearStatus w).ee.err = (s.ee.err && !w.getLsbD 6) := rfl
@[simp] theorem clearStatus_ee_phase (w : Word) (s : State) : (s.clearStatus w).ee.phase = s.ee.phase := rfl
@[simp] theorem clearStatus_ee_latchN (w : Word) (s : State) : (s.clearStatus w).ee.latchN = s.ee.latchN := rfl
@[simp] theorem clearStatus_ee_sum (w : Word) (s : State) : (s.clearStatus w).ee.sum = s.ee.sum := rfl
@[simp] theorem clearStatus_ee_log2sum (w : Word) (s : State) : (s.clearStatus w).ee.log2sum = s.ee.log2sum := rfl
@[simp] theorem clearStatus_ee_v (w : Word) (s : State) : (s.clearStatus w).ee.v = s.ee.v := rfl
@[simp] theorem clearStatus_ee_draws (w : Word) (s : State) : (s.clearStatus w).ee.draws = s.ee.draws := rfl
@[simp] theorem clearStatus_bus (w : Word) (s : State) :
    (s.clearStatus w).bus = { illCmd := s.bus.illCmd && !w.getLsbD 8, wrDrop := s.bus.wrDrop && !w.getLsbD 9, cmdDrop := s.bus.cmdDrop && !w.getLsbD 10 } := rfl
@[simp] theorem clearStatus_irqEn (w : Word) (s : State) : (s.clearStatus w).irqEn = s.irqEn := rfl
@[simp] theorem clearStatus_mem (w : Word) (s : State) : (s.clearStatus w).mem = s.mem := rfl
@[simp] theorem clearStatus_busDraws (w : Word) (s : State) : (s.clearStatus w).busDraws = s.busDraws := rfl

@[simp] theorem writeIrqEn_params (w : Word) (s : State) : (s.writeIrqEn w).params = s.params := rfl
@[simp] theorem writeIrqEn_program (w : Word) (s : State) : (s.writeIrqEn w).program = s.program := rfl
@[simp] theorem writeIrqEn_schedule (w : Word) (s : State) : (s.writeIrqEn w).schedule = s.schedule := rfl
@[simp] theorem writeIrqEn_rdata (w : Word) (s : State) : (s.writeIrqEn w).rdata = s.rdata := rfl
@[simp] theorem writeIrqEn_received (w : Word) (s : State) : (s.writeIrqEn w).received = s.received := rfl
@[simp] theorem writeIrqEn_ca (w : Word) (s : State) : (s.writeIrqEn w).ca = s.ca := rfl
@[simp] theorem writeIrqEn_ee (w : Word) (s : State) : (s.writeIrqEn w).ee = s.ee := rfl
@[simp] theorem writeIrqEn_bus (w : Word) (s : State) : (s.writeIrqEn w).bus = s.bus := rfl
@[simp] theorem writeIrqEn_irqEn (w : Word) (s : State) : (s.writeIrqEn w).irqEn = w.extractLsb' 0 3 := rfl
@[simp] theorem writeIrqEn_mem (w : Word) (s : State) : (s.writeIrqEn w).mem = s.mem := rfl
@[simp] theorem writeIrqEn_busDraws (w : Word) (s : State) : (s.writeIrqEn w).busDraws = s.busDraws := rfl

@[simp] theorem deliver_params (w : Word) (s : State) : (s.deliver w).params = s.params := rfl
@[simp] theorem deliver_program (w : Word) (s : State) : (s.deliver w).program = s.program := rfl
@[simp] theorem deliver_schedule (w : Word) (s : State) : (s.deliver w).schedule = s.schedule := rfl
@[simp] theorem deliver_rdata (w : Word) (s : State) : (s.deliver w).rdata = some w := rfl
@[simp] theorem deliver_received (w : Word) (s : State) : (s.deliver w).received = s.received := rfl
@[simp] theorem deliver_ca (w : Word) (s : State) : (s.deliver w).ca = s.ca := rfl
@[simp] theorem deliver_ee (w : Word) (s : State) : (s.deliver w).ee = s.ee := rfl
@[simp] theorem deliver_bus (w : Word) (s : State) : (s.deliver w).bus = s.bus := rfl
@[simp] theorem deliver_irqEn (w : Word) (s : State) : (s.deliver w).irqEn = s.irqEn := rfl
@[simp] theorem deliver_mem (w : Word) (s : State) : (s.deliver w).mem = s.mem := rfl
@[simp] theorem deliver_busDraws (w : Word) (s : State) : (s.deliver w).busDraws = s.busDraws := rfl

@[simp] theorem storeWord_params (a : Nat) (w : Word) (s : State) : (storeWord a w s).params = s.params := rfl
@[simp] theorem storeWord_program (a : Nat) (w : Word) (s : State) : (storeWord a w s).program = s.program := rfl
@[simp] theorem storeWord_schedule (a : Nat) (w : Word) (s : State) : (storeWord a w s).schedule = s.schedule := rfl
@[simp] theorem storeWord_rdata (a : Nat) (w : Word) (s : State) : (storeWord a w s).rdata = s.rdata := rfl
@[simp] theorem storeWord_received (a : Nat) (w : Word) (s : State) : (storeWord a w s).received = s.received := rfl
@[simp] theorem storeWord_ca (a : Nat) (w : Word) (s : State) : (storeWord a w s).ca = s.ca := rfl
@[simp] theorem storeWord_ee (a : Nat) (w : Word) (s : State) : (storeWord a w s).ee = s.ee := rfl
@[simp] theorem storeWord_bus (a : Nat) (w : Word) (s : State) : (storeWord a w s).bus = s.bus := rfl
@[simp] theorem storeWord_irqEn (a : Nat) (w : Word) (s : State) : (storeWord a w s).irqEn = s.irqEn := rfl
@[simp] theorem storeWord_mem (a : Nat) (w : Word) (s : State) : (storeWord a w s).mem = s.mem.writeWord a w := rfl
@[simp] theorem storeWord_busDraws (a : Nat) (w : Word) (s : State) : (storeWord a w s).busDraws = s.busDraws := rfl

@[simp] theorem setCaPhase_params (p : CaPhase) (s : State) : (s.setCaPhase p).params = s.params := rfl
@[simp] theorem setCaPhase_program (p : CaPhase) (s : State) : (s.setCaPhase p).program = s.program := rfl
@[simp] theorem setCaPhase_schedule (p : CaPhase) (s : State) : (s.setCaPhase p).schedule = s.schedule := rfl
@[simp] theorem setCaPhase_rdata (p : CaPhase) (s : State) : (s.setCaPhase p).rdata = s.rdata := rfl
@[simp] theorem setCaPhase_received (p : CaPhase) (s : State) : (s.setCaPhase p).received = s.received := rfl
@[simp] theorem setCaPhase_ca_regN (p : CaPhase) (s : State) : (s.setCaPhase p).ca.regN = s.ca.regN := rfl
@[simp] theorem setCaPhase_ca_regMaxbits (p : CaPhase) (s : State) :
    (s.setCaPhase p).ca.regMaxbits = s.ca.regMaxbits := rfl
@[simp] theorem setCaPhase_ca_errCode (p : CaPhase) (s : State) : (s.setCaPhase p).ca.errCode = s.ca.errCode := rfl
@[simp] theorem setCaPhase_ca_errIndex (p : CaPhase) (s : State) : (s.setCaPhase p).ca.errIndex = s.ca.errIndex := rfl
@[simp] theorem setCaPhase_ca_errValue (p : CaPhase) (s : State) : (s.setCaPhase p).ca.errValue = s.ca.errValue := rfl
@[simp] theorem setCaPhase_ca_done (p : CaPhase) (s : State) : (s.setCaPhase p).ca.done = s.ca.done := rfl
@[simp] theorem setCaPhase_ca_err (p : CaPhase) (s : State) : (s.setCaPhase p).ca.err = s.ca.err := rfl
@[simp] theorem setCaPhase_ca_phase (p : CaPhase) (s : State) : (s.setCaPhase p).ca.phase = p := rfl
@[simp] theorem setCaPhase_ca_latchN (p : CaPhase) (s : State) : (s.setCaPhase p).ca.latchN = s.ca.latchN := rfl
@[simp] theorem setCaPhase_ca_latchMaxbits (p : CaPhase) (s : State) :
    (s.setCaPhase p).ca.latchMaxbits = s.ca.latchMaxbits := rfl
@[simp] theorem setCaPhase_ca_blCount (p : CaPhase) (s : State) : (s.setCaPhase p).ca.blCount = s.ca.blCount := rfl
@[simp] theorem setCaPhase_ca_nextCode (p : CaPhase) (s : State) : (s.setCaPhase p).ca.nextCode = s.ca.nextCode := rfl
@[simp] theorem setCaPhase_ca_code (p : CaPhase) (s : State) : (s.setCaPhase p).ca.code = s.ca.code := rfl
@[simp] theorem setCaPhase_ca_draws (p : CaPhase) (s : State) : (s.setCaPhase p).ca.draws = s.ca.draws := rfl
@[simp] theorem setCaPhase_ee (p : CaPhase) (s : State) : (s.setCaPhase p).ee = s.ee := rfl
@[simp] theorem setCaPhase_bus (p : CaPhase) (s : State) : (s.setCaPhase p).bus = s.bus := rfl
@[simp] theorem setCaPhase_irqEn (p : CaPhase) (s : State) : (s.setCaPhase p).irqEn = s.irqEn := rfl
@[simp] theorem setCaPhase_mem (p : CaPhase) (s : State) : (s.setCaPhase p).mem = s.mem := rfl
@[simp] theorem setCaPhase_busDraws (p : CaPhase) (s : State) : (s.setCaPhase p).busDraws = s.busDraws := rfl

@[simp] theorem setEePhase_params (p : EePhase) (s : State) : (s.setEePhase p).params = s.params := rfl
@[simp] theorem setEePhase_program (p : EePhase) (s : State) : (s.setEePhase p).program = s.program := rfl
@[simp] theorem setEePhase_schedule (p : EePhase) (s : State) : (s.setEePhase p).schedule = s.schedule := rfl
@[simp] theorem setEePhase_rdata (p : EePhase) (s : State) : (s.setEePhase p).rdata = s.rdata := rfl
@[simp] theorem setEePhase_received (p : EePhase) (s : State) : (s.setEePhase p).received = s.received := rfl
@[simp] theorem setEePhase_ca (p : EePhase) (s : State) : (s.setEePhase p).ca = s.ca := rfl
@[simp] theorem setEePhase_ee_regN (p : EePhase) (s : State) : (s.setEePhase p).ee.regN = s.ee.regN := rfl
@[simp] theorem setEePhase_ee_errCode (p : EePhase) (s : State) : (s.setEePhase p).ee.errCode = s.ee.errCode := rfl
@[simp] theorem setEePhase_ee_errIndex (p : EePhase) (s : State) : (s.setEePhase p).ee.errIndex = s.ee.errIndex := rfl
@[simp] theorem setEePhase_ee_errValueLo (p : EePhase) (s : State) :
    (s.setEePhase p).ee.errValueLo = s.ee.errValueLo := rfl
@[simp] theorem setEePhase_ee_errValueHi (p : EePhase) (s : State) :
    (s.setEePhase p).ee.errValueHi = s.ee.errValueHi := rfl
@[simp] theorem setEePhase_ee_done (p : EePhase) (s : State) : (s.setEePhase p).ee.done = s.ee.done := rfl
@[simp] theorem setEePhase_ee_err (p : EePhase) (s : State) : (s.setEePhase p).ee.err = s.ee.err := rfl
@[simp] theorem setEePhase_ee_phase (p : EePhase) (s : State) : (s.setEePhase p).ee.phase = p := rfl
@[simp] theorem setEePhase_ee_latchN (p : EePhase) (s : State) : (s.setEePhase p).ee.latchN = s.ee.latchN := rfl
@[simp] theorem setEePhase_ee_sum (p : EePhase) (s : State) : (s.setEePhase p).ee.sum = s.ee.sum := rfl
@[simp] theorem setEePhase_ee_log2sum (p : EePhase) (s : State) : (s.setEePhase p).ee.log2sum = s.ee.log2sum := rfl
@[simp] theorem setEePhase_ee_v (p : EePhase) (s : State) : (s.setEePhase p).ee.v = s.ee.v := rfl
@[simp] theorem setEePhase_ee_draws (p : EePhase) (s : State) : (s.setEePhase p).ee.draws = s.ee.draws := rfl
@[simp] theorem setEePhase_bus (p : EePhase) (s : State) : (s.setEePhase p).bus = s.bus := rfl
@[simp] theorem setEePhase_irqEn (p : EePhase) (s : State) : (s.setEePhase p).irqEn = s.irqEn := rfl
@[simp] theorem setEePhase_mem (p : EePhase) (s : State) : (s.setEePhase p).mem = s.mem := rfl
@[simp] theorem setEePhase_busDraws (p : EePhase) (s : State) : (s.setEePhase p).busDraws = s.busDraws := rfl

@[simp] theorem writeSym_params (i : Nat) (w : Word) (s : State) : (s.writeSym i w).params = s.params := rfl
@[simp] theorem writeSym_program (i : Nat) (w : Word) (s : State) : (s.writeSym i w).program = s.program := rfl
@[simp] theorem writeSym_schedule (i : Nat) (w : Word) (s : State) : (s.writeSym i w).schedule = s.schedule := rfl
@[simp] theorem writeSym_rdata (i : Nat) (w : Word) (s : State) : (s.writeSym i w).rdata = s.rdata := rfl
@[simp] theorem writeSym_received (i : Nat) (w : Word) (s : State) : (s.writeSym i w).received = s.received := rfl
@[simp] theorem writeSym_ca (i : Nat) (w : Word) (s : State) : (s.writeSym i w).ca = s.ca := rfl
@[simp] theorem writeSym_ee (i : Nat) (w : Word) (s : State) : (s.writeSym i w).ee = s.ee := rfl
@[simp] theorem writeSym_bus (i : Nat) (w : Word) (s : State) : (s.writeSym i w).bus = s.bus := rfl
@[simp] theorem writeSym_irqEn (i : Nat) (w : Word) (s : State) : (s.writeSym i w).irqEn = s.irqEn := rfl
@[simp] theorem writeSym_mem (i : Nat) (w : Word) (s : State) :
    (s.writeSym i w).mem = s.mem.writeWord (symAddr i) w := rfl
@[simp] theorem writeSym_busDraws (i : Nat) (w : Word) (s : State) : (s.writeSym i w).busDraws = s.busDraws := rfl

@[simp] theorem writeBitlen_params (i : Nat) (v : F64) (s : State) : (s.writeBitlen i v).params = s.params := rfl
@[simp] theorem writeBitlen_program (i : Nat) (v : F64) (s : State) : (s.writeBitlen i v).program = s.program := rfl
@[simp] theorem writeBitlen_schedule (i : Nat) (v : F64) (s : State) :
    (s.writeBitlen i v).schedule = s.schedule := rfl
@[simp] theorem writeBitlen_rdata (i : Nat) (v : F64) (s : State) : (s.writeBitlen i v).rdata = s.rdata := rfl
@[simp] theorem writeBitlen_received (i : Nat) (v : F64) (s : State) :
    (s.writeBitlen i v).received = s.received := rfl
@[simp] theorem writeBitlen_ca (i : Nat) (v : F64) (s : State) : (s.writeBitlen i v).ca = s.ca := rfl
@[simp] theorem writeBitlen_ee (i : Nat) (v : F64) (s : State) : (s.writeBitlen i v).ee = s.ee := rfl
@[simp] theorem writeBitlen_bus (i : Nat) (v : F64) (s : State) : (s.writeBitlen i v).bus = s.bus := rfl
@[simp] theorem writeBitlen_irqEn (i : Nat) (v : F64) (s : State) : (s.writeBitlen i v).irqEn = s.irqEn := rfl
@[simp] theorem writeBitlen_mem (i : Nat) (v : F64) (s : State) :
    (s.writeBitlen i v).mem = s.mem.writeDword (bitlenAddr i) v := rfl
@[simp] theorem writeBitlen_busDraws (i : Nat) (v : F64) (s : State) :
    (s.writeBitlen i v).busDraws = s.busDraws := rfl

@[simp] theorem accept_ca_params (s : State) : (s.accept .ca).params = s.params := rfl
@[simp] theorem accept_ca_program (s : State) : (s.accept .ca).program = s.program := rfl
@[simp] theorem accept_ca_schedule (s : State) : (s.accept .ca).schedule = s.schedule := rfl
@[simp] theorem accept_ca_rdata (s : State) : (s.accept .ca).rdata = s.rdata := rfl
@[simp] theorem accept_ca_received (s : State) : (s.accept .ca).received = s.received := rfl
@[simp] theorem accept_ca_ca_regN (s : State) : (s.accept .ca).ca.regN = s.ca.regN := rfl
@[simp] theorem accept_ca_ca_regMaxbits (s : State) : (s.accept .ca).ca.regMaxbits = s.ca.regMaxbits := rfl
@[simp] theorem accept_ca_ca_errCode (s : State) : (s.accept .ca).ca.errCode = 0x00#8 := rfl
@[simp] theorem accept_ca_ca_errIndex (s : State) : (s.accept .ca).ca.errIndex = 0 := rfl
@[simp] theorem accept_ca_ca_errValue (s : State) : (s.accept .ca).ca.errValue = 0 := rfl
@[simp] theorem accept_ca_ca_done (s : State) : (s.accept .ca).ca.done = false := rfl
@[simp] theorem accept_ca_ca_err (s : State) : (s.accept .ca).ca.err = false := rfl
@[simp] theorem accept_ca_ca_phase (s : State) : (s.accept .ca).ca.phase = .check := rfl
@[simp] theorem accept_ca_ca_latchN (s : State) : (s.accept .ca).ca.latchN = s.ca.regN := rfl
@[simp] theorem accept_ca_ca_latchMaxbits (s : State) : (s.accept .ca).ca.latchMaxbits = s.ca.regMaxbits := rfl
@[simp] theorem accept_ca_ca_blCount (s : State) : (s.accept .ca).ca.blCount = s.ca.blCount := rfl
@[simp] theorem accept_ca_ca_nextCode (s : State) : (s.accept .ca).ca.nextCode = s.ca.nextCode := rfl
@[simp] theorem accept_ca_ca_code (s : State) : (s.accept .ca).ca.code = s.ca.code := rfl
@[simp] theorem accept_ca_ca_draws (s : State) : (s.accept .ca).ca.draws = s.ca.draws := rfl
@[simp] theorem accept_ca_ee (s : State) : (s.accept .ca).ee = s.ee := rfl
@[simp] theorem accept_ca_bus (s : State) : (s.accept .ca).bus = s.bus := rfl
@[simp] theorem accept_ca_irqEn (s : State) : (s.accept .ca).irqEn = s.irqEn := rfl
@[simp] theorem accept_ca_mem (s : State) : (s.accept .ca).mem = s.mem := rfl
@[simp] theorem accept_ca_busDraws (s : State) : (s.accept .ca).busDraws = s.busDraws := rfl

@[simp] theorem accept_ee_params (s : State) : (s.accept .ee).params = s.params := rfl
@[simp] theorem accept_ee_program (s : State) : (s.accept .ee).program = s.program := rfl
@[simp] theorem accept_ee_schedule (s : State) : (s.accept .ee).schedule = s.schedule := rfl
@[simp] theorem accept_ee_rdata (s : State) : (s.accept .ee).rdata = s.rdata := rfl
@[simp] theorem accept_ee_received (s : State) : (s.accept .ee).received = s.received := rfl
@[simp] theorem accept_ee_ca (s : State) : (s.accept .ee).ca = s.ca := rfl
@[simp] theorem accept_ee_ee_regN (s : State) : (s.accept .ee).ee.regN = s.ee.regN := rfl
@[simp] theorem accept_ee_ee_errCode (s : State) : (s.accept .ee).ee.errCode = 0x00#8 := rfl
@[simp] theorem accept_ee_ee_errIndex (s : State) : (s.accept .ee).ee.errIndex = 0 := rfl
@[simp] theorem accept_ee_ee_errValueLo (s : State) : (s.accept .ee).ee.errValueLo = 0 := rfl
@[simp] theorem accept_ee_ee_errValueHi (s : State) : (s.accept .ee).ee.errValueHi = 0 := rfl
@[simp] theorem accept_ee_ee_done (s : State) : (s.accept .ee).ee.done = false := rfl
@[simp] theorem accept_ee_ee_err (s : State) : (s.accept .ee).ee.err = false := rfl
@[simp] theorem accept_ee_ee_phase (s : State) : (s.accept .ee).ee.phase = .check := rfl
@[simp] theorem accept_ee_ee_latchN (s : State) : (s.accept .ee).ee.latchN = s.ee.regN := rfl
@[simp] theorem accept_ee_ee_sum (s : State) : (s.accept .ee).ee.sum = s.ee.sum := rfl
@[simp] theorem accept_ee_ee_log2sum (s : State) : (s.accept .ee).ee.log2sum = s.ee.log2sum := rfl
@[simp] theorem accept_ee_ee_v (s : State) : (s.accept .ee).ee.v = s.ee.v := rfl
@[simp] theorem accept_ee_ee_draws (s : State) : (s.accept .ee).ee.draws = s.ee.draws := rfl
@[simp] theorem accept_ee_bus (s : State) : (s.accept .ee).bus = s.bus := rfl
@[simp] theorem accept_ee_irqEn (s : State) : (s.accept .ee).irqEn = s.irqEn := rfl
@[simp] theorem accept_ee_mem (s : State) : (s.accept .ee).mem = s.mem := rfl
@[simp] theorem accept_ee_busDraws (s : State) : (s.accept .ee).busDraws = s.busDraws := rfl

@[simp] theorem finish_ca_params (s : State) : (s.finish .ca).params = s.params := rfl
@[simp] theorem finish_ca_program (s : State) : (s.finish .ca).program = s.program := rfl
@[simp] theorem finish_ca_schedule (s : State) : (s.finish .ca).schedule = s.schedule := rfl
@[simp] theorem finish_ca_rdata (s : State) : (s.finish .ca).rdata = s.rdata := rfl
@[simp] theorem finish_ca_received (s : State) : (s.finish .ca).received = s.received := rfl
@[simp] theorem finish_ca_ca_regN (s : State) : (s.finish .ca).ca.regN = s.ca.regN := rfl
@[simp] theorem finish_ca_ca_regMaxbits (s : State) : (s.finish .ca).ca.regMaxbits = s.ca.regMaxbits := rfl
@[simp] theorem finish_ca_ca_errCode (s : State) : (s.finish .ca).ca.errCode = s.ca.errCode := rfl
@[simp] theorem finish_ca_ca_errIndex (s : State) : (s.finish .ca).ca.errIndex = s.ca.errIndex := rfl
@[simp] theorem finish_ca_ca_errValue (s : State) : (s.finish .ca).ca.errValue = s.ca.errValue := rfl
@[simp] theorem finish_ca_ca_done (s : State) : (s.finish .ca).ca.done = true := rfl
@[simp] theorem finish_ca_ca_err (s : State) : (s.finish .ca).ca.err = s.ca.err := rfl
@[simp] theorem finish_ca_ca_phase (s : State) : (s.finish .ca).ca.phase = .idle := rfl
@[simp] theorem finish_ca_ca_latchN (s : State) : (s.finish .ca).ca.latchN = s.ca.latchN := rfl
@[simp] theorem finish_ca_ca_latchMaxbits (s : State) : (s.finish .ca).ca.latchMaxbits = s.ca.latchMaxbits := rfl
@[simp] theorem finish_ca_ca_draws (s : State) : (s.finish .ca).ca.draws = s.ca.draws + 1 := rfl
@[simp] theorem finish_ca_ee (s : State) : (s.finish .ca).ee = s.ee := rfl
@[simp] theorem finish_ca_bus (s : State) : (s.finish .ca).bus = s.bus := rfl
@[simp] theorem finish_ca_irqEn (s : State) : (s.finish .ca).irqEn = s.irqEn := rfl
@[simp] theorem finish_ca_mem (s : State) : (s.finish .ca).mem = s.mem := rfl
@[simp] theorem finish_ca_busDraws (s : State) : (s.finish .ca).busDraws = s.busDraws := rfl

@[simp] theorem finish_ee_params (s : State) : (s.finish .ee).params = s.params := rfl
@[simp] theorem finish_ee_program (s : State) : (s.finish .ee).program = s.program := rfl
@[simp] theorem finish_ee_schedule (s : State) : (s.finish .ee).schedule = s.schedule := rfl
@[simp] theorem finish_ee_rdata (s : State) : (s.finish .ee).rdata = s.rdata := rfl
@[simp] theorem finish_ee_received (s : State) : (s.finish .ee).received = s.received := rfl
@[simp] theorem finish_ee_ca (s : State) : (s.finish .ee).ca = s.ca := rfl
@[simp] theorem finish_ee_ee_regN (s : State) : (s.finish .ee).ee.regN = s.ee.regN := rfl
@[simp] theorem finish_ee_ee_errCode (s : State) : (s.finish .ee).ee.errCode = s.ee.errCode := rfl
@[simp] theorem finish_ee_ee_errIndex (s : State) : (s.finish .ee).ee.errIndex = s.ee.errIndex := rfl
@[simp] theorem finish_ee_ee_errValueLo (s : State) : (s.finish .ee).ee.errValueLo = s.ee.errValueLo := rfl
@[simp] theorem finish_ee_ee_errValueHi (s : State) : (s.finish .ee).ee.errValueHi = s.ee.errValueHi := rfl
@[simp] theorem finish_ee_ee_done (s : State) : (s.finish .ee).ee.done = true := rfl
@[simp] theorem finish_ee_ee_err (s : State) : (s.finish .ee).ee.err = s.ee.err := rfl
@[simp] theorem finish_ee_ee_phase (s : State) : (s.finish .ee).ee.phase = .idle := rfl
@[simp] theorem finish_ee_ee_latchN (s : State) : (s.finish .ee).ee.latchN = s.ee.latchN := rfl
@[simp] theorem finish_ee_ee_draws (s : State) : (s.finish .ee).ee.draws = s.ee.draws + 1 := rfl
@[simp] theorem finish_ee_bus (s : State) : (s.finish .ee).bus = s.bus := rfl
@[simp] theorem finish_ee_irqEn (s : State) : (s.finish .ee).irqEn = s.irqEn := rfl
@[simp] theorem finish_ee_mem (s : State) : (s.finish .ee).mem = s.mem := rfl
@[simp] theorem finish_ee_busDraws (s : State) : (s.finish .ee).busDraws = s.busDraws := rfl

@[simp] theorem raise_ca_params (c : ErrCode) (ix : Word) (v : BitVec 64) (s : State) :
    (s.raise .ca c ix v).params = s.params := rfl
@[simp] theorem raise_ca_program (c : ErrCode) (ix : Word) (v : BitVec 64) (s : State) :
    (s.raise .ca c ix v).program = s.program := rfl
@[simp] theorem raise_ca_schedule (c : ErrCode) (ix : Word) (v : BitVec 64) (s : State) :
    (s.raise .ca c ix v).schedule = s.schedule := rfl
@[simp] theorem raise_ca_rdata (c : ErrCode) (ix : Word) (v : BitVec 64) (s : State) :
    (s.raise .ca c ix v).rdata = s.rdata := rfl
@[simp] theorem raise_ca_received (c : ErrCode) (ix : Word) (v : BitVec 64) (s : State) :
    (s.raise .ca c ix v).received = s.received := rfl
@[simp] theorem raise_ca_ca_regN (c : ErrCode) (ix : Word) (v : BitVec 64) (s : State) :
    (s.raise .ca c ix v).ca.regN = s.ca.regN := rfl
@[simp] theorem raise_ca_ca_regMaxbits (c : ErrCode) (ix : Word) (v : BitVec 64) (s : State) :
    (s.raise .ca c ix v).ca.regMaxbits = s.ca.regMaxbits := rfl
@[simp] theorem raise_ca_ca_errCode (c : ErrCode) (ix : Word) (v : BitVec 64) (s : State) :
    (s.raise .ca c ix v).ca.errCode = c.code := rfl
@[simp] theorem raise_ca_ca_errIndex (c : ErrCode) (ix : Word) (v : BitVec 64) (s : State) :
    (s.raise .ca c ix v).ca.errIndex = ix := rfl
@[simp] theorem raise_ca_ca_errValue (c : ErrCode) (ix : Word) (v : BitVec 64) (s : State) :
    (s.raise .ca c ix v).ca.errValue = v.setWidth 32 := rfl
@[simp] theorem raise_ca_ca_done (c : ErrCode) (ix : Word) (v : BitVec 64) (s : State) :
    (s.raise .ca c ix v).ca.done = true := rfl
@[simp] theorem raise_ca_ca_err (c : ErrCode) (ix : Word) (v : BitVec 64) (s : State) :
    (s.raise .ca c ix v).ca.err = true := rfl
@[simp] theorem raise_ca_ca_phase (c : ErrCode) (ix : Word) (v : BitVec 64) (s : State) :
    (s.raise .ca c ix v).ca.phase = .idle := rfl
@[simp] theorem raise_ca_ca_latchN (c : ErrCode) (ix : Word) (v : BitVec 64) (s : State) :
    (s.raise .ca c ix v).ca.latchN = s.ca.latchN := rfl
@[simp] theorem raise_ca_ca_latchMaxbits (c : ErrCode) (ix : Word) (v : BitVec 64) (s : State) :
    (s.raise .ca c ix v).ca.latchMaxbits = s.ca.latchMaxbits := rfl
@[simp] theorem raise_ca_ca_draws (c : ErrCode) (ix : Word) (v : BitVec 64) (s : State) :
    (s.raise .ca c ix v).ca.draws = s.ca.draws + 1 := rfl
@[simp] theorem raise_ca_ee (c : ErrCode) (ix : Word) (v : BitVec 64) (s : State) :
    (s.raise .ca c ix v).ee = s.ee := rfl
@[simp] theorem raise_ca_bus (c : ErrCode) (ix : Word) (v : BitVec 64) (s : State) :
    (s.raise .ca c ix v).bus = s.bus := rfl
@[simp] theorem raise_ca_irqEn (c : ErrCode) (ix : Word) (v : BitVec 64) (s : State) :
    (s.raise .ca c ix v).irqEn = s.irqEn := rfl
@[simp] theorem raise_ca_mem (c : ErrCode) (ix : Word) (v : BitVec 64) (s : State) :
    (s.raise .ca c ix v).mem = s.mem := rfl
@[simp] theorem raise_ca_busDraws (c : ErrCode) (ix : Word) (v : BitVec 64) (s : State) :
    (s.raise .ca c ix v).busDraws = s.busDraws := rfl

@[simp] theorem raise_ee_params (c : ErrCode) (ix : Word) (v : BitVec 64) (s : State) :
    (s.raise .ee c ix v).params = s.params := rfl
@[simp] theorem raise_ee_program (c : ErrCode) (ix : Word) (v : BitVec 64) (s : State) :
    (s.raise .ee c ix v).program = s.program := rfl
@[simp] theorem raise_ee_schedule (c : ErrCode) (ix : Word) (v : BitVec 64) (s : State) :
    (s.raise .ee c ix v).schedule = s.schedule := rfl
@[simp] theorem raise_ee_rdata (c : ErrCode) (ix : Word) (v : BitVec 64) (s : State) :
    (s.raise .ee c ix v).rdata = s.rdata := rfl
@[simp] theorem raise_ee_received (c : ErrCode) (ix : Word) (v : BitVec 64) (s : State) :
    (s.raise .ee c ix v).received = s.received := rfl
@[simp] theorem raise_ee_ca (c : ErrCode) (ix : Word) (v : BitVec 64) (s : State) :
    (s.raise .ee c ix v).ca = s.ca := rfl
@[simp] theorem raise_ee_ee_regN (c : ErrCode) (ix : Word) (v : BitVec 64) (s : State) :
    (s.raise .ee c ix v).ee.regN = s.ee.regN := rfl
@[simp] theorem raise_ee_ee_errCode (c : ErrCode) (ix : Word) (v : BitVec 64) (s : State) :
    (s.raise .ee c ix v).ee.errCode = c.code := rfl
@[simp] theorem raise_ee_ee_errIndex (c : ErrCode) (ix : Word) (v : BitVec 64) (s : State) :
    (s.raise .ee c ix v).ee.errIndex = ix := rfl
@[simp] theorem raise_ee_ee_errValueLo (c : ErrCode) (ix : Word) (v : BitVec 64) (s : State) :
    (s.raise .ee c ix v).ee.errValueLo = v.extractLsb' 0 32 := rfl
@[simp] theorem raise_ee_ee_errValueHi (c : ErrCode) (ix : Word) (v : BitVec 64) (s : State) :
    (s.raise .ee c ix v).ee.errValueHi = v.extractLsb' 32 32 := rfl
@[simp] theorem raise_ee_ee_done (c : ErrCode) (ix : Word) (v : BitVec 64) (s : State) :
    (s.raise .ee c ix v).ee.done = true := rfl
@[simp] theorem raise_ee_ee_err (c : ErrCode) (ix : Word) (v : BitVec 64) (s : State) :
    (s.raise .ee c ix v).ee.err = true := rfl
@[simp] theorem raise_ee_ee_phase (c : ErrCode) (ix : Word) (v : BitVec 64) (s : State) :
    (s.raise .ee c ix v).ee.phase = .idle := rfl
@[simp] theorem raise_ee_ee_latchN (c : ErrCode) (ix : Word) (v : BitVec 64) (s : State) :
    (s.raise .ee c ix v).ee.latchN = s.ee.latchN := rfl
@[simp] theorem raise_ee_ee_draws (c : ErrCode) (ix : Word) (v : BitVec 64) (s : State) :
    (s.raise .ee c ix v).ee.draws = s.ee.draws + 1 := rfl
@[simp] theorem raise_ee_bus (c : ErrCode) (ix : Word) (v : BitVec 64) (s : State) :
    (s.raise .ee c ix v).bus = s.bus := rfl
@[simp] theorem raise_ee_irqEn (c : ErrCode) (ix : Word) (v : BitVec 64) (s : State) :
    (s.raise .ee c ix v).irqEn = s.irqEn := rfl
@[simp] theorem raise_ee_mem (c : ErrCode) (ix : Word) (v : BitVec 64) (s : State) :
    (s.raise .ee c ix v).mem = s.mem := rfl
@[simp] theorem raise_ee_busDraws (c : ErrCode) (ix : Word) (v : BitVec 64) (s : State) :
    (s.raise .ee c ix v).busDraws = s.busDraws := rfl

@[simp] theorem raiseEe_params (c : ErrCode) (ix : Word) (v : BitVec 64) (s : State) :
    (raiseEe c ix v s).params = s.params := rfl
@[simp] theorem raiseEe_program (c : ErrCode) (ix : Word) (v : BitVec 64) (s : State) :
    (raiseEe c ix v s).program = s.program := rfl
@[simp] theorem raiseEe_schedule (c : ErrCode) (ix : Word) (v : BitVec 64) (s : State) :
    (raiseEe c ix v s).schedule = s.schedule := rfl
@[simp] theorem raiseEe_rdata (c : ErrCode) (ix : Word) (v : BitVec 64) (s : State) :
    (raiseEe c ix v s).rdata = s.rdata := rfl
@[simp] theorem raiseEe_received (c : ErrCode) (ix : Word) (v : BitVec 64) (s : State) :
    (raiseEe c ix v s).received = s.received := rfl
@[simp] theorem raiseEe_ca (c : ErrCode) (ix : Word) (v : BitVec 64) (s : State) : (raiseEe c ix v s).ca = s.ca := rfl
@[simp] theorem raiseEe_ee_regN (c : ErrCode) (ix : Word) (v : BitVec 64) (s : State) :
    (raiseEe c ix v s).ee.regN = s.ee.regN := rfl
@[simp] theorem raiseEe_ee_errCode (c : ErrCode) (ix : Word) (v : BitVec 64) (s : State) :
    (raiseEe c ix v s).ee.errCode = c.code := rfl
@[simp] theorem raiseEe_ee_errIndex (c : ErrCode) (ix : Word) (v : BitVec 64) (s : State) :
    (raiseEe c ix v s).ee.errIndex = ix := rfl
@[simp] theorem raiseEe_ee_errValueLo (c : ErrCode) (ix : Word) (v : BitVec 64) (s : State) :
    (raiseEe c ix v s).ee.errValueLo = v.extractLsb' 0 32 := rfl
@[simp] theorem raiseEe_ee_errValueHi (c : ErrCode) (ix : Word) (v : BitVec 64) (s : State) :
    (raiseEe c ix v s).ee.errValueHi = v.extractLsb' 32 32 := rfl
@[simp] theorem raiseEe_ee_done (c : ErrCode) (ix : Word) (v : BitVec 64) (s : State) :
    (raiseEe c ix v s).ee.done = true := rfl
@[simp] theorem raiseEe_ee_err (c : ErrCode) (ix : Word) (v : BitVec 64) (s : State) :
    (raiseEe c ix v s).ee.err = true := rfl
@[simp] theorem raiseEe_ee_phase (c : ErrCode) (ix : Word) (v : BitVec 64) (s : State) :
    (raiseEe c ix v s).ee.phase = .idle := rfl
@[simp] theorem raiseEe_ee_latchN (c : ErrCode) (ix : Word) (v : BitVec 64) (s : State) :
    (raiseEe c ix v s).ee.latchN = s.ee.latchN := rfl
@[simp] theorem raiseEe_ee_draws (c : ErrCode) (ix : Word) (v : BitVec 64) (s : State) :
    (raiseEe c ix v s).ee.draws = s.ee.draws + 1 := rfl
@[simp] theorem raiseEe_bus (c : ErrCode) (ix : Word) (v : BitVec 64) (s : State) :
    (raiseEe c ix v s).bus = s.bus := rfl
@[simp] theorem raiseEe_irqEn (c : ErrCode) (ix : Word) (v : BitVec 64) (s : State) :
    (raiseEe c ix v s).irqEn = s.irqEn := rfl
@[simp] theorem raiseEe_mem (c : ErrCode) (ix : Word) (v : BitVec 64) (s : State) :
    (raiseEe c ix v s).mem = s.mem.forget (inBitlen (s.outputSpan .ee)) := rfl
@[simp] theorem raiseEe_busDraws (c : ErrCode) (ix : Word) (v : BitVec 64) (s : State) :
    (raiseEe c ix v s).busDraws = s.busDraws := rfl

@[simp] theorem applyReset_params (s : State) : (s.applyReset).params = s.params := rfl
@[simp] theorem applyReset_program (s : State) : (s.applyReset).program = s.program := rfl
@[simp] theorem applyReset_schedule (s : State) : (s.applyReset).schedule = s.schedule := rfl
@[simp] theorem applyReset_rdata (s : State) : (s.applyReset).rdata = s.rdata := rfl
@[simp] theorem applyReset_received (s : State) : (s.applyReset).received = s.received := rfl
@[simp] theorem applyReset_ca_regN (s : State) : (s.applyReset).ca.regN = 0 := rfl
@[simp] theorem applyReset_ca_regMaxbits (s : State) : (s.applyReset).ca.regMaxbits = 0 := rfl
@[simp] theorem applyReset_ca_errCode (s : State) : (s.applyReset).ca.errCode = 0 := rfl
@[simp] theorem applyReset_ca_errIndex (s : State) : (s.applyReset).ca.errIndex = 0 := rfl
@[simp] theorem applyReset_ca_errValue (s : State) : (s.applyReset).ca.errValue = 0 := rfl
@[simp] theorem applyReset_ca_done (s : State) : (s.applyReset).ca.done = false := rfl
@[simp] theorem applyReset_ca_err (s : State) : (s.applyReset).ca.err = false := rfl
@[simp] theorem applyReset_ca_phase (s : State) : (s.applyReset).ca.phase = .idle := rfl
@[simp] theorem applyReset_ca_draws (s : State) : (s.applyReset).ca.draws = s.ca.draws + 1 := rfl
@[simp] theorem applyReset_ee_regN (s : State) : (s.applyReset).ee.regN = 0 := rfl
@[simp] theorem applyReset_ee_errCode (s : State) : (s.applyReset).ee.errCode = 0 := rfl
@[simp] theorem applyReset_ee_errIndex (s : State) : (s.applyReset).ee.errIndex = 0 := rfl
@[simp] theorem applyReset_ee_errValueLo (s : State) : (s.applyReset).ee.errValueLo = 0 := rfl
@[simp] theorem applyReset_ee_errValueHi (s : State) : (s.applyReset).ee.errValueHi = 0 := rfl
@[simp] theorem applyReset_ee_done (s : State) : (s.applyReset).ee.done = false := rfl
@[simp] theorem applyReset_ee_err (s : State) : (s.applyReset).ee.err = false := rfl
@[simp] theorem applyReset_ee_phase (s : State) : (s.applyReset).ee.phase = .idle := rfl
@[simp] theorem applyReset_ee_draws (s : State) : (s.applyReset).ee.draws = s.ee.draws + 1 := rfl
@[simp] theorem applyReset_bus (s : State) :
    (s.applyReset).bus = { illCmd := false, wrDrop := false, cmdDrop := false } := rfl
@[simp] theorem applyReset_irqEn (s : State) : (s.applyReset).irqEn = 0 := rfl
@[simp] theorem applyReset_mem (s : State) : (s.applyReset).mem = s.mem.forget s.abandoned := rfl
@[simp] theorem applyReset_busDraws (s : State) : (s.applyReset).busDraws = s.busDraws := rfl

@[simp] theorem presentCommand_params (w : Word) (s : State) : (s.presentCommand w).params = s.params := rfl
@[simp] theorem presentCommand_program (w : Word) (s : State) :
    (s.presentCommand w).program = .wr 0x008#15 4 w :: s.program := rfl
@[simp] theorem presentCommand_schedule (w : Word) (s : State) :
    (s.presentCommand w).schedule = .host :: s.schedule := rfl
@[simp] theorem presentCommand_rdata (w : Word) (s : State) : (s.presentCommand w).rdata = s.rdata := rfl
@[simp] theorem presentCommand_received (w : Word) (s : State) : (s.presentCommand w).received = s.received := rfl
@[simp] theorem presentCommand_ca (w : Word) (s : State) : (s.presentCommand w).ca = s.ca := rfl
@[simp] theorem presentCommand_ee (w : Word) (s : State) : (s.presentCommand w).ee = s.ee := rfl
@[simp] theorem presentCommand_bus (w : Word) (s : State) : (s.presentCommand w).bus = s.bus := rfl
@[simp] theorem presentCommand_irqEn (w : Word) (s : State) : (s.presentCommand w).irqEn = s.irqEn := rfl
@[simp] theorem presentCommand_mem (w : Word) (s : State) : (s.presentCommand w).mem = s.mem := rfl
@[simp] theorem presentCommand_busDraws (w : Word) (s : State) : (s.presentCommand w).busDraws = s.busDraws := rfl

end Sys2Proof.Machine.State
end

