-- ==== Sys2Proof/Laws/Engine.lean ====
section
/-! SUPPORT. Laws/Engine.lean: how engine runs compose. Every piece of work brings a busy engine nearer to idle
(spec/40_command.md rule R140), so the completion step ends with the engine idle, and a piece of work followed by
the completion step is the completion step (spec/20_memory.md rule R91). -/

namespace Sys2Proof.Machine

@[simp] theorem andThen_next (s : State) (f : State → Result) : andThen (.next s) f = f s := rfl
@[simp] theorem andThen_fault (r : Fault) (f : State → Result) : andThen (.fault r) f = .fault r := rfl
@[simp] theorem andThen_refused (r : Refusal) (f : State → Result) : andThen (.refused r) f = .refused r := rfl

theorem andThen_assoc (r : Result) (f g : State → Result) :
    andThen (andThen r f) g = andThen r (fun s => andThen (f s) g) := by cases r <;> rfl

theorem andThen_eq_next {r : Result} {f : State → Result} {t : State} :
    andThen r f = .next t ↔ ∃ s, r = .next s ∧ f s = .next t := by
  cases r <;> simp

@[simp] theorem busy_ca (s : State) : s.busy .ca = decide (s.ca.phase ≠ .idle) := rfl
@[simp] theorem busy_ee (s : State) : s.busy .ee = decide (s.ee.phase ≠ .idle) := rfl

/-! ### The work left after entering a pass -/

@[simp] theorem caWork_finish (s : State) : caWork (s.finish .ca) = 0 := by simp [caWork]
@[simp] theorem caWork_raise (c : ErrCode) (ix : Word) (v : BitVec 64) (s : State) :
    caWork (s.raise .ca c ix v) = 0 := by simp [caWork]

theorem caWork_enterEmit (i : Nat) (s : State) : caWork (enterEmit i s) ≤ s.ca.latchN.toNat - i := by
  unfold enterEmit; split <;> simp [caWork]; omega

theorem caWork_enterBase (L : Nat) (s : State) :
    caWork (enterBase L s) ≤ s.ca.latchN.toNat + (s.ca.latchMaxbits.toNat + 1 - L) := by
  unfold enterBase; split
  · simp [caWork]; omega
  · exact (caWork_enterEmit 0 s).trans (by omega)

theorem caWork_enterTally (i : Nat) (s : State) :
    caWork (enterTally i s) < (s.ca.latchN.toNat + 1 - i) + s.ca.latchN.toNat + s.ca.latchMaxbits.toNat + 2 := by
  unfold enterTally; split
  · simp [caWork]; omega
  · simp [caWork]

theorem caWork_enterClear (L : Nat) (s : State) :
    caWork (enterClear L s) ≤
      (s.ca.latchMaxbits.toNat + 1 - L) + 2 * s.ca.latchN.toNat + s.ca.latchMaxbits.toNat + 2 := by
  unfold enterClear; split
  · simp [caWork]; omega
  · have := caWork_enterTally 0 s
    omega

theorem eeWork_raiseEe (c : ErrCode) (ix : Word) (v : BitVec 64) (s : State) : eeWork (raiseEe c ix v s) = 0 := by
  simp [eeWork]

theorem eeWork_enterCost (i : Nat) (s : State) : eeWork (enterCost i s) ≤ s.ee.latchN.toNat - i := by
  unfold enterCost; split <;> simp [eeWork]; omega

theorem eeWork_enterSum (i : Nat) (s : State) :
    eeWork (enterSum i s) < (s.ee.latchN.toNat + 1 - i) + s.ee.latchN.toNat + 2 := by
  unfold enterSum; split
  · simp [eeWork]; omega
  · simp [eeWork]

/-- A busy CA that does a piece of work has less left. -/
theorem caTick_work {s t : State} (h : caTick s = .next t) (hb : s.ca.phase ≠ .idle) : caWork t < caWork s := by
  cases hp : s.ca.phase with
  | idle => exact absurd hp hb
  | check =>
    simp only [caTick, hp, Host.Outcome.next.injEq] at h
    subst h
    have hw : caWork s = 2 * s.ca.latchN.toNat + 2 * s.ca.latchMaxbits.toNat + 4 := by simp only [caWork, hp]
    rw [hw, caCheck]
    split
    · simp
    · split
      · simp
      · exact lt_of_le_of_lt (caWork_enterClear 0 s) (by omega)
  | clear L =>
    simp only [caTick, hp, Host.Outcome.next.injEq] at h
    subst h
    refine lt_of_le_of_lt (caWork_enterClear _ _) ?_
    simp only [caWork, hp]; omega
  | tally i =>
    simp only [caTick, hp, caTally] at h
    split at h
    · cases h
    · split at h <;> cases h
      · simp [caWork, hp]
      · refine lt_of_lt_of_le (caWork_enterTally _ _) ?_
        simp only [caWork, hp]; omega
  | exclude =>
    simp only [caTick, hp, Host.Outcome.next.injEq] at h
    subst h
    refine lt_of_le_of_lt (caWork_enterBase _ _) ?_
    simp only [caWork, hp]; omega
  | base L =>
    simp only [caTick, hp, Host.Outcome.next.injEq] at h
    subst h
    refine lt_of_le_of_lt (caWork_enterBase _ _) ?_
    simp only [caWork, hp]; omega
  | emit i =>
    simp only [caTick, hp, caEmit] at h
    split at h
    · cases h
    · split at h <;> cases h <;> refine lt_of_le_of_lt (caWork_enterEmit _ _) ?_ <;>
        simp only [caWork, hp, State.writeSym_ca] <;> omega

/-- A busy EE that does a piece of work has less left. -/
theorem eeTick_work {u : LogUnits} {s t : State} (h : eeTick u s = .next t) (hb : s.ee.phase ≠ .idle) :
    eeWork t < eeWork s := by
  cases hp : s.ee.phase with
  | idle => exact absurd hp hb
  | check =>
    simp only [eeTick, hp, Host.Outcome.next.injEq] at h
    subst h
    simp only [eeCheck]
    split
    · rw [eeWork_raiseEe]; simp [eeWork, hp]
    · split
      · rw [eeWork_raiseEe]; simp [eeWork, hp]
      · refine lt_of_lt_of_le (eeWork_enterSum _ _) ?_
        simp only [eeWork, hp]; omega
  | sum i =>
    simp only [eeTick, hp, eeSum] at h
    split at h
    · cases h
    · cases h
      refine lt_of_lt_of_le (eeWork_enterSum _ _) ?_
      simp only [eeWork, hp]; omega
  | log =>
    simp only [eeTick, hp, Host.Outcome.next.injEq] at h
    subst h
    refine lt_of_le_of_lt (eeWork_enterCost _ _) ?_
    simp only [eeWork, hp]; omega
  | cost i =>
    simp only [eeTick, hp, eeCost] at h
    split at h
    · cases h
    · split at h <;> cases h
      · rw [eeWork_raiseEe]; simp [eeWork, hp]
      · refine lt_of_le_of_lt (eeWork_enterCost _ _) ?_
        simp only [eeWork, hp, State.writeBitlen_ee]; omega

theorem engineTick_work {u : LogUnits} {e : Engine} {s t : State} (h : engineTick u e s = .next t)
    (hb : s.busy e = true) : engineWork e t < engineWork e s := by
  cases e
  · exact caTick_work h (by simpa using hb)
  · exact eeTick_work h (by simpa using hb)

/-- Only an idle engine has no work left. -/
theorem engineWork_pos {e : Engine} {s : State} (hb : s.busy e = true) : 0 < engineWork e s := by
  cases e
  · simp only [engineWork, caWork]
    split <;> simp_all
  · simp only [engineWork, eeWork]
    split <;> simp_all

/-! ### Runs -/

theorem runEngine_of_idle {u : LogUnits} {e : Engine} {s : State} (h : s.busy e = false) (k : Nat) :
    runEngine u e k s = .next s := by cases k <;> simp only [runEngine, h, Bool.false_eq_true, if_false]

/-- A run of `a + b` pieces is a run of `a` and then one of `b`. -/
theorem runEngine_add (u : LogUnits) (e : Engine) (a b : Nat) (s : State) :
    runEngine u e (a + b) s = andThen (runEngine u e a s) (runEngine u e b) := by
  induction a generalizing s with
  | zero => simp [runEngine]
  | succ a ih =>
    rw [Nat.add_right_comm, runEngine, runEngine]
    split
    · rw [andThen_assoc]
      congr 1
      exact funext ih
    · next h => rw [andThen_next, runEngine_of_idle (by simpa using h)]

/-- A run that is long enough ends with the engine idle. -/
theorem runEngine_idle {u : LogUnits} {e : Engine} {k : Nat} {s t : State} (hk : engineWork e s ≤ k)
    (h : runEngine u e k s = .next t) : t.busy e = false := by
  induction k generalizing s with
  | zero =>
    cases h
    by_contra hb
    have := engineWork_pos (e := e) (s := t) (by simpa using hb)
    omega
  | succ k ih =>
    rw [runEngine] at h
    split at h
    · next hb =>
      obtain ⟨r, hr, ht⟩ := andThen_eq_next.1 h
      exact ih (Nat.le_of_lt_succ (lt_of_lt_of_le (engineTick_work hr hb) hk)) ht
    · next hb => cases h; simpa using hb

/-- A run longer than the work left is the completion step. -/
theorem runEngine_of_enough {u : LogUnits} {e : Engine} {k : Nat} {s : State} (hk : engineWork e s ≤ k) :
    runEngine u e k s = completeEngine u e s := by
  obtain ⟨d, rfl⟩ := Nat.exists_eq_add_of_le hk
  rw [runEngine_add, completeEngine]
  cases h : runEngine u e (engineWork e s) s with
  | next t => rw [andThen_next, runEngine_of_idle (runEngine_idle le_rfl h)]
  | fault r => rfl
  | refused r => rfl

theorem completeEngine_of_idle {u : LogUnits} {e : Engine} {s : State} (h : s.busy e = false) :
    completeEngine u e s = .next s := runEngine_of_idle h _

/-- The completion step leaves the engine idle. -/
theorem completeEngine_idle {u : LogUnits} {e : Engine} {s t : State} (h : completeEngine u e s = .next t) :
    t.busy e = false := runEngine_idle le_rfl h

/-- The completion step of a busy engine is a piece of work and then the completion step. -/
theorem completeEngine_tick {u : LogUnits} {e : Engine} {s : State} (h : s.busy e = true) :
    completeEngine u e s = andThen (engineTick u e s) (completeEngine u e) := by
  obtain ⟨k, hk⟩ := Nat.exists_eq_succ_of_ne_zero (Nat.pos_iff_ne_zero.1 (engineWork_pos h))
  rw [completeEngine, hk, Nat.succ_eq_add_one, runEngine, if_pos h]
  cases ht : engineTick u e s with
  | next t =>
    have := engineTick_work ht h
    exact runEngine_of_enough (by omega)
  | fault r => rfl
  | refused r => rfl

/-- A property that every piece of work keeps is kept by a run. -/
theorem runEngine_keeps {u : LogUnits} {e : Engine} {P : State → Prop}
    (hP : ∀ s t, P s → s.busy e = true → engineTick u e s = .next t → P t) :
    ∀ {k : Nat} {s t : State}, P s → runEngine u e k s = .next t → P t
  | 0, s, t, hs, h => by cases h; exact hs
  | k + 1, s, t, hs, h => by
    rw [runEngine] at h
    split at h
    · next hb =>
      obtain ⟨r, hr, ht⟩ := andThen_eq_next.1 h
      exact runEngine_keeps hP (hP s r hs hb hr) ht
    · cases h; exact hs

/-- A property that every piece of work keeps is kept by the completion step. -/
theorem completeEngine_keeps {u : LogUnits} {e : Engine} {P : State → Prop}
    (hP : ∀ s t, P s → s.busy e = true → engineTick u e s = .next t → P t) {s t : State} (hs : P s)
    (h : completeEngine u e s = .next t) : P t := runEngine_keeps hP hs h

end Sys2Proof.Machine
end

