-- ==== Sys2Proof/Laws/Memory.lean ====
section
/-! SUPPORT. Laws/Memory.lean: what the memory operations do, byte by byte; the canonical form is kept, and two
canonical memories that read alike are equal. -/

namespace Sys2Proof.Machine.Memory

@[simp] theorem lookup_nil (x : Nat) : lookup [] x = none := rfl

theorem lookup_cons (c : Host.Cell) (m : Memory) (x : Nat) :
    lookup (c :: m) x = if c.1 = x then some c.2 else lookup m x := rfl

/-- A write is seen at its own address and nowhere else. -/
theorem lookup_insert (m : Memory) (x y : Nat) (v : Byte) :
    lookup (insert m x v) y = if y = x then some v else lookup m y := by
  induction m with
  | nil => simp [insert, lookup, eq_comm]
  | cons c m ih =>
    simp only [insert]
    split
    · simp [lookup_cons, eq_comm]
    · split
      · next hx =>
        subst hx
        simp only [lookup_cons, eq_comm (a := c.1)]
        split <;> simp_all
      · simp only [lookup_cons, ih]
        split
        · split <;> simp_all
        · rfl

/-- Forgetting is seen at the addresses it names and nowhere else. -/
theorem lookup_forget (m : Memory) (p : Nat → Bool) (x : Nat) :
    lookup (forget m p) x = if p x then none else lookup m x := by
  induction m with
  | nil => simp [forget]
  | cons c m ih =>
    simp only [forget, List.filter_cons] at ih ⊢
    cases hp : p c.1 <;> simp only [lookup_cons, ih, Bool.not_true, Bool.not_false, if_true]
    · split <;> simp_all
    · simp only [Bool.false_eq_true, if_false, ih]
      by_cases hc : c.1 = x
      · simp [← hc, hp]
      · rw [if_neg hc]

/-- A listed address is one of the cells'. -/
theorem lookup_eq_none_of_forall_ne {m : Memory} {x : Nat} (h : ∀ c ∈ m, c.1 ≠ x) : lookup m x = none := by
  induction m with
  | nil => rfl
  | cons c m ih =>
    rw [lookup_cons, if_neg (h c (by simp)), ih (fun d hd => h d (by simp [hd]))]

theorem lookup_ne_none_iff_mem {m : Memory} {x : Nat} : lookup m x ≠ none ↔ ∃ c ∈ m, c.1 = x := by
  induction m with
  | nil => simp
  | cons c m ih =>
    rw [lookup_cons]
    split <;> simp_all

theorem wf_insert {m : Memory} (h : wf m) (x : Nat) (v : Byte) : wf (insert m x v) := by
  induction m with
  | nil => simp [insert, wf]
  | cons c m ih =>
    have hc := List.pairwise_cons.1 h
    simp only [insert]
    split
    · next hx =>
      refine List.pairwise_cons.2 ⟨fun d hd => ?_, h⟩
      rcases List.mem_cons.1 hd with rfl | hd
      · exact hx
      · exact Nat.lt_trans hx (hc.1 d hd)
    · next hx =>
      split
      · next he =>
        exact List.pairwise_cons.2 ⟨fun d hd => by simpa [he] using hc.1 d hd, hc.2⟩
      · next he =>
        refine List.pairwise_cons.2 ⟨fun d hd => ?_, ih hc.2⟩
        by_cases hdx : d.1 = x
        · omega
        · have : lookup (insert m x v) d.1 ≠ none := lookup_ne_none_iff_mem.2 ⟨d, hd, rfl⟩
          rw [lookup_insert, if_neg hdx] at this
          obtain ⟨e, he', hed⟩ := lookup_ne_none_iff_mem.1 this
          have := hc.1 e he'
          omega

theorem wf_forget {m : Memory} (h : wf m) (p : Nat → Bool) : wf (forget m p) := h.filter _

theorem wf_writeWord {m : Memory} (h : wf m) (a : Nat) (w : Word) : wf (writeWord m a w) :=
  wf_insert (wf_insert (wf_insert (wf_insert h _ _) _ _) _ _) _ _

theorem wf_writeDword {m : Memory} (h : wf m) (a : Nat) (v : BitVec 64) : wf (writeDword m a v) :=
  wf_writeWord (wf_writeWord h _ _) _ _

/-- Canonical memories that read alike are the same list. -/
theorem ext_of_lookup : ∀ {m m' : Memory}, wf m → wf m' → (∀ x, lookup m x = lookup m' x) → m = m'
  | [], [], _, _, _ => rfl
  | [], d :: m', _, _, h => by have := h d.1; simp [lookup_cons] at this
  | c :: m, [], _, _, h => by have := h c.1; simp [lookup_cons] at this
  | c :: m, d :: m', hm, hm', h => by
    have hc := List.pairwise_cons.1 hm
    have hd := List.pairwise_cons.1 hm'
    have none_c : lookup m c.1 = none :=
      lookup_eq_none_of_forall_ne (fun e he => Nat.ne_of_gt (hc.1 e he))
    have none_d : lookup m' d.1 = none :=
      lookup_eq_none_of_forall_ne (fun e he => Nat.ne_of_gt (hd.1 e he))
    have key : c.1 = d.1 := by
      by_contra hne
      have h1 := h c.1
      have h2 := h d.1
      rw [lookup_cons, lookup_cons, if_pos rfl, if_neg (Ne.symm hne)] at h1
      rw [lookup_cons, lookup_cons, if_neg hne, if_pos rfl] at h2
      obtain ⟨e, he, hec⟩ := lookup_ne_none_iff_mem.1 (show lookup m' c.1 ≠ none by rw [← h1]; simp)
      obtain ⟨f, hf, hfd⟩ := lookup_ne_none_iff_mem.1 (show lookup m d.1 ≠ none by rw [h2]; simp)
      have := hd.1 e he
      have := hc.1 f hf
      omega
    have val : c.2 = d.2 := by
      have := h c.1
      rw [lookup_cons, lookup_cons, if_pos rfl, if_pos key.symm] at this
      exact Option.some.inj this
    have tails : m = m' := by
      refine ext_of_lookup hc.2 hd.2 (fun x => ?_)
      by_cases hx : c.1 = x
      · subst hx; rw [none_c, key, none_d]
      · have := h x
        rwa [lookup_cons, lookup_cons, if_neg hx, if_neg (key ▸ hx)] at this
    rw [tails, Prod.ext key val]

/-- The bytes of a word, and every other byte as before. -/
theorem lookup_writeWord (m : Memory) (a : Nat) (w : Word) (x : Nat) :
    lookup (writeWord m a w) x =
      if x = a then some (w.extractLsb' 0 8)
      else if x = a + 1 then some (w.extractLsb' 8 8)
      else if x = a + 2 then some (w.extractLsb' 16 8)
      else if x = a + 3 then some (w.extractLsb' 24 8)
      else lookup m x := by
  simp only [writeWord, lookup_insert]
  by_cases h0 : x = a <;> by_cases h1 : x = a + 1 <;> by_cases h2 : x = a + 2 <;>
    by_cases h3 : x = a + 3 <;> simp_all

theorem lookup_writeWord_of_outside {m : Memory} {a x : Nat} {w : Word} (h : x < a ∨ a + 4 ≤ x) :
    lookup (writeWord m a w) x = lookup m x := by
  rw [lookup_writeWord, if_neg (by omega), if_neg (by omega), if_neg (by omega), if_neg (by omega)]

theorem bytesWord_wordBytes (w : Word) :
    bytesWord (w.extractLsb' 0 8) (w.extractLsb' 8 8) (w.extractLsb' 16 8) (w.extractLsb' 24 8) = w := by
  apply BitVec.eq_of_getLsbD_eq
  intro i hi
  simp only [bytesWord, BitVec.getLsbD_append, BitVec.getLsbD_extractLsb']
  by_cases h0 : i < 8
  · simp [h0]
  · by_cases h1 : i < 16
    · simp [h0, show i - 8 < 8 by omega, show 8 + (i - 8) = i by omega]
    · by_cases h2 : i < 24
      · simp [h0, show ¬ i - 8 < 8 by omega, show i - 8 - 8 < 8 by omega, show 16 + (i - 8 - 8) = i by omega]
      · simp [h0, show ¬ i - 8 < 8 by omega, show ¬ i - 8 - 8 < 8 by omega, show i - 8 - 8 - 8 < 8 by omega,
          show 24 + (i - 8 - 8 - 8) = i by omega]

/-- A word is read back as written. -/
@[simp] theorem readWord_writeWord (m : Memory) (a : Nat) (w : Word) :
    readWord (writeWord m a w) a = some w := by
  simp [readWord, lookup_writeWord, bytesWord_wordBytes]

/-- `readWord` depends on the four bytes of the word only. -/
theorem readWord_congr {m m' : Memory} {a : Nat} (h : ∀ k, k < 4 → lookup m (a + k) = lookup m' (a + k)) :
    readWord m a = readWord m' a := by
  have h0 := h 0 (by omega)
  have h1 := h 1 (by omega)
  have h2 := h 2 (by omega)
  have h3 := h 3 (by omega)
  simp only [Nat.add_zero] at h0
  simp [readWord, h0, h1, h2, h3]

/-- A word that does not overlap the one written reads as before. -/
theorem readWord_writeWord_of_disjoint {m : Memory} {a b : Nat} {w : Word} (h : b + 4 ≤ a ∨ a + 4 ≤ b) :
    readWord (writeWord m a w) b = readWord m b :=
  readWord_congr (fun k hk => lookup_writeWord_of_outside (by omega))

/-- A word none of whose bytes is forgotten reads as before. -/
theorem readWord_forget_of_kept {m : Memory} {p : Nat → Bool} {a : Nat} (h : ∀ k, k < 4 → p (a + k) = false) :
    readWord (forget m p) a = readWord m a :=
  readWord_congr (fun k hk => by rw [lookup_forget, h k hk]; rfl)

/-- A word whose first byte is forgotten is unwritten. -/
theorem readWord_forget_of_forgotten {m : Memory} {p : Nat → Bool} {a : Nat} (h : p a = true) :
    readWord (forget m p) a = none := by
  simp [readWord, lookup_forget, h]

theorem readDword_congr {m m' : Memory} {a : Nat} (h : ∀ k, k < 8 → lookup m (a + k) = lookup m' (a + k)) :
    readDword m a = readDword m' a := by
  have lo : readWord m a = readWord m' a := readWord_congr (fun k hk => h k (by omega))
  have hi : readWord m (a + 4) = readWord m' (a + 4) :=
    readWord_congr (fun k hk => by simpa [Nat.add_assoc] using h (4 + k) (by omega))
  simp [readDword, lo, hi]

theorem lookup_writeDword_of_outside {m : Memory} {a x : Nat} {v : BitVec 64} (h : x < a ∨ a + 8 ≤ x) :
    lookup (writeDword m a v) x = lookup m x := by
  rw [writeDword, lookup_writeWord_of_outside (by omega), lookup_writeWord_of_outside (by omega)]

/-- A 64-bit entry is read back as written. -/
@[simp] theorem readDword_writeDword (m : Memory) (a : Nat) (v : BitVec 64) :
    readDword (writeDword m a v) a = some v := by
  have lo : readWord (writeDword m a v) a = some (v.extractLsb' 0 32) := by
    rw [writeDword, readWord_writeWord_of_disjoint (by omega), readWord_writeWord]
  have hi : readWord (writeDword m a v) (a + 4) = some (v.extractLsb' 32 32) := by
    rw [writeDword, readWord_writeWord]
  simp only [readDword, lo, hi, Option.some.injEq]
  apply BitVec.eq_of_getLsbD_eq
  intro i hi
  simp only [BitVec.getLsbD_append, BitVec.getLsbD_extractLsb']
  by_cases h : i < 32
  · simp [h]
  · simp [h, show i - 32 < 32 by omega, show 32 + (i - 32) = i by omega]

theorem readDword_writeDword_of_disjoint {m : Memory} {a b : Nat} {v : BitVec 64} (h : b + 8 ≤ a ∨ a + 8 ≤ b) :
    readDword (writeDword m a v) b = readDword m b :=
  readDword_congr (fun k hk => lookup_writeDword_of_outside (by omega))

theorem readWord_writeDword_of_disjoint {m : Memory} {a b : Nat} {v : BitVec 64} (h : b + 4 ≤ a ∨ a + 8 ≤ b) :
    readWord (writeDword m a v) b = readWord m b :=
  readWord_congr (fun k hk => lookup_writeDword_of_outside (by omega))

/-- Writes to words that do not overlap commute. -/
theorem writeWord_comm {m : Memory} (h : wf m) {a b : Nat} (w v : Word) (hab : b + 4 ≤ a ∨ a + 4 ≤ b) :
    writeWord (writeWord m a w) b v = writeWord (writeWord m b v) a w := by
  refine ext_of_lookup (wf_writeWord (wf_writeWord h _ _) _ _) (wf_writeWord (wf_writeWord h _ _) _ _) (fun x => ?_)
  by_cases hx : x < b ∨ b + 4 ≤ x
  · rw [lookup_writeWord_of_outside hx, lookup_writeWord, lookup_writeWord, lookup_writeWord_of_outside hx]
  · have hxa : x < a ∨ a + 4 ≤ x := by omega
    rw [lookup_writeWord_of_outside (m := writeWord m b v) hxa, lookup_writeWord _ b, lookup_writeWord _ b,
      lookup_writeWord_of_outside hxa]

/-- A write of a word that is kept and a forgetting commute. -/
theorem forget_writeWord_of_kept {m : Memory} (h : wf m) {p : Nat → Bool} {a : Nat} (w : Word)
    (hp : ∀ k, k < 4 → p (a + k) = false) :
    forget (writeWord m a w) p = writeWord (forget m p) a w := by
  refine ext_of_lookup (wf_forget (wf_writeWord h _ _) _) (wf_writeWord (wf_forget h _) _ _) (fun x => ?_)
  by_cases hx : x < a ∨ a + 4 ≤ x
  · rw [lookup_forget, lookup_writeWord_of_outside hx, lookup_writeWord_of_outside hx, lookup_forget]
  · have : p x = false := by have := hp (x - a) (by omega); rwa [Nat.add_sub_cancel' (by omega)] at this
    rw [lookup_forget, this, lookup_writeWord, lookup_writeWord, lookup_forget, this]
    rfl

/-- Forgetting twice is forgetting both. -/
theorem forget_comm (m : Memory) (p q : Nat → Bool) : forget (forget m p) q = forget (forget m q) p := by
  simp [forget, List.filter_filter, Bool.and_comm]

end Sys2Proof.Machine.Memory
end

