-- ==== Sys2Proof/Laws/Assign.lean ====
section
/-! SUPPORT. Laws/Assign.lean: what a run of CA does, pass by pass (spec/41_assign.md rules R151 to R161). -/

namespace Sys2Proof.Machine

open Sys2Proof.Safety

/-! ### Scratch tables -/

theorem tableRead_tableWrite {t : List Word} {L : Nat} (h : L < t.length) (w : Word) (j : Nat) :
    tableRead (tableWrite t L w) j = if j = L then w else tableRead t j := by
  simp only [tableRead, tableWrite, List.getD_eq_getElem?_getD, List.getElem?_set, eq_comm (a := L)]
  split <;> simp_all

@[simp] theorem length_tableWrite (t : List Word) (L : Nat) (w : Word) : (tableWrite t L w).length = t.length := by
  simp [tableWrite]

/-! ### Where a pass goes next -/

@[simp] theorem enterEmit_setCaPhase (i : Nat) (p : CaPhase) (s : State) :
    enterEmit i (s.setCaPhase p) = enterEmit i s := rfl
@[simp] theorem enterBase_setCaPhase (L : Nat) (p : CaPhase) (s : State) :
    enterBase L (s.setCaPhase p) = enterBase L s := rfl
@[simp] theorem enterTally_setCaPhase (i : Nat) (p : CaPhase) (s : State) :
    enterTally i (s.setCaPhase p) = enterTally i s := rfl
@[simp] theorem enterClear_setCaPhase (L : Nat) (p : CaPhase) (s : State) :
    enterClear L (s.setCaPhase p) = enterClear L s := rfl

/-- A completion leaves no trace of the scratch (R45, R161). -/
theorem finish_ca_scratch (s : State) (p : CaPhase) (bl nc : List Word) (c : Word) :
    State.finish .ca { s with ca := { s.ca with phase := p, blCount := bl, nextCode := nc, code := c } } =
      s.finish .ca := rfl

theorem raise_ca_scratch (s : State) (p : CaPhase) (bl nc : List Word) (c : Word) (e : ErrCode) (ix : Word)
    (v : BitVec 64) :
    State.raise .ca e ix v { s with ca := { s.ca with phase := p, blCount := bl, nextCode := nc, code := c } } =
      s.raise .ca e ix v := rfl

/-- The completion of a busy CA begins with the piece of work its position names. -/
theorem complete_ca {u : LogUnits} {s : State} (h : s.ca.phase ≠ .idle) :
    completeEngine u .ca s = andThen (caTick s) (completeEngine u .ca) :=
  completeEngine_tick (by simpa using h)

theorem complete_ca_next {u : LogUnits} {s t : State} (h : s.ca.phase ≠ .idle) (ht : caTick s = .next t) :
    completeEngine u .ca s = completeEngine u .ca t := by rw [complete_ca h, ht]; rfl

theorem complete_ca_finish {u : LogUnits} (s : State) :
    completeEngine u .ca (s.finish .ca) = .next (s.finish .ca) :=
  completeEngine_of_idle (by simp)

theorem complete_ca_raise {u : LogUnits} (c : ErrCode) (ix : Word) (v : BitVec 64) (s : State) :
    completeEngine u .ca (s.raise .ca c ix v) = .next (s.raise .ca c ix v) :=
  completeEngine_of_idle (by simp)

/-! ### Pass 1 -/

/-- The tally clear sets `bl_count[L..maxbits]` to 0 and goes on to the tally (R153). -/
theorem complete_clear {u : LogUnits} {s : State} {L : Nat} (hp : s.ca.phase = .clear L)
    (hL : L ≤ s.ca.latchMaxbits.toNat) (hlen : s.ca.latchMaxbits.toNat < s.ca.blCount.length)
    (hz : ∀ j, j < L → tableRead s.ca.blCount j = 0) :
    ∃ bl, bl.length = s.ca.blCount.length ∧ (∀ j, j ≤ s.ca.latchMaxbits.toNat → tableRead bl j = 0) ∧
      completeEngine u .ca s =
        completeEngine u .ca (enterTally 0 { s with ca := { s.ca with blCount := bl } }) := by
  have ht : caTick s = .next (caClear L s) := by simp only [caTick, hp]
  rw [complete_ca_next (by simp [hp]) ht]
  have hz' : ∀ j, j < L + 1 → tableRead (tableWrite s.ca.blCount L 0) j = 0 := by
    intro j hj
    rw [tableRead_tableWrite (by omega)]
    split
    · rfl
    · exact hz j (by omega)
  by_cases h : L + 1 ≤ s.ca.latchMaxbits.toNat
  · rw [caClear, enterClear, if_pos (by simpa using h)]
    obtain ⟨bl, hl, hr, hc⟩ := complete_clear (u := u)
      (s := State.setCaPhase (.clear (L + 1)) { s with ca := { s.ca with blCount := tableWrite s.ca.blCount L 0 } })
      (L := L + 1) rfl (by simpa using h) (by simpa using hlen) (by simpa using hz')
    exact ⟨bl, by simpa using hl, by simpa using hr, hc⟩
  · refine ⟨tableWrite s.ca.blCount L 0, by simp, fun j hj => hz' j (by omega), ?_⟩
    rw [caClear, enterClear, if_neg (by simpa using h)]
termination_by s.ca.latchMaxbits.toNat - L
decreasing_by simp; omega

theorem tally_step {s : State} {i : Nat} {l : Word} (hp : s.ca.phase = .tally i) (hr : s.readLen i = some l)
    (hl : l.toNat ≤ s.ca.latchMaxbits.toNat) :
    caTick s = .next (enterTally (i + 1) { s with ca := { s.ca with
      blCount := tableWrite s.ca.blCount l.toNat (tableRead s.ca.blCount l.toNat + 1) } }) := by
  simp only [caTick, hp, caTally, hr]
  rw [if_neg (by simp only [BitVec.lt_def]; omega)]

theorem lengthCount_succ (lens : Nat → Word) (L i : Nat) :
    lengthCount lens L (i + 1) = lengthCount lens L i + if (lens i).toNat = L then 1 else 0 := by
  simp [lengthCount, Nat.count_succ]

theorem tally_counts {lens : Nat → Word} {bl : List Word} {i m : Nat} (hlen : m < bl.length)
    (hl : (lens i).toNat ≤ m)
    (hc : ∀ L, L ≤ m → tableRead bl L = BitVec.ofNat 32 (lengthCount lens L i)) :
    ∀ L, L ≤ m → tableRead (tableWrite bl (lens i).toNat (tableRead bl (lens i).toNat + 1)) L =
      BitVec.ofNat 32 (lengthCount lens L (i + 1)) := by
  intro L hL
  rw [tableRead_tableWrite (by omega), lengthCount_succ]
  by_cases h : L = (lens i).toNat
  · subst h
    rw [if_pos rfl, if_pos rfl, hc _ hL, BitVec.ofNat_add]
    rfl
  · rw [if_neg h, if_neg (Ne.symm h), hc _ hL, Nat.add_zero]

/-- A tally with no length above `maxbits` counts every length and goes on to the exclusion (R154). -/
theorem complete_tally {u : LogUnits} {s : State} {lens : Nat → Word} {i : Nat} (hp : s.ca.phase = .tally i)
    (hi : i < s.ca.latchN.toNat) (hlen : s.ca.latchMaxbits.toNat < s.ca.blCount.length)
    (hr : ∀ j, j < s.ca.latchN.toNat → s.readLen j = some (lens j))
    (hl : ∀ j, j < s.ca.latchN.toNat → (lens j).toNat ≤ s.ca.latchMaxbits.toNat)
    (hc : ∀ L, L ≤ s.ca.latchMaxbits.toNat → tableRead s.ca.blCount L = BitVec.ofNat 32 (lengthCount lens L i)) :
    ∃ bl, bl.length = s.ca.blCount.length ∧
      (∀ L, L ≤ s.ca.latchMaxbits.toNat →
        tableRead bl L = BitVec.ofNat 32 (lengthCount lens L s.ca.latchN.toNat)) ∧
      completeEngine u .ca s =
        completeEngine u .ca (State.setCaPhase .exclude { s with ca := { s.ca with blCount := bl } }) := by
  rw [complete_ca_next (by simp [hp]) (tally_step hp (hr i hi) (hl i hi))]
  have hc' := tally_counts hlen (hl i hi) hc
  by_cases h : i + 1 < s.ca.latchN.toNat
  · rw [enterTally, if_pos (by simpa using h)]
    obtain ⟨bl, h1, h2, h3⟩ := complete_tally (u := u) (lens := lens) (i := i + 1)
      (s := State.setCaPhase (.tally (i + 1)) { s with ca := { s.ca with
        blCount := tableWrite s.ca.blCount (lens i).toNat (tableRead s.ca.blCount (lens i).toNat + 1) } })
      rfl (by simpa using h) (by simpa using hlen) hr hl hc'
    exact ⟨bl, by simpa using h1, h2, h3⟩
  · refine ⟨_, length_tableWrite _ _ _, fun L hL => ?_, by rw [enterTally, if_neg (by simpa using h)]⟩
    rw [hc' L hL, show i + 1 = s.ca.latchN.toNat by omega]
termination_by s.ca.latchN.toNat - i
decreasing_by simp; omega

/-- A tally that meets a length above `maxbits` raises LEN_GT_MAXBITS at the first one (R154, R237). -/
theorem complete_tally_error {u : LogUnits} {s : State} {lens : Nat → Word} {i k : Nat}
    (hp : s.ca.phase = .tally i) (hik : i ≤ k) (hk : k < s.ca.latchN.toNat)
    (hr : ∀ j, j ≤ k → s.readLen j = some (lens j))
    (hl : ∀ j, j < k → (lens j).toNat ≤ s.ca.latchMaxbits.toNat)
    (hbad : s.ca.latchMaxbits.toNat < (lens k).toNat) :
    completeEngine u .ca s =
      .next (s.raise .ca .lenGtMaxbits (BitVec.ofNat 32 k) ((lens k).setWidth 64)) := by
  by_cases h : i = k
  · subst h
    have ht : caTick s = .next (s.raise .ca .lenGtMaxbits (BitVec.ofNat 32 i) ((lens i).setWidth 64)) := by
      simp only [caTick, hp, caTally, hr i le_rfl]
      rw [if_pos (by simpa only [BitVec.lt_def] using hbad)]
    rw [complete_ca_next (by simp [hp]) ht, complete_ca_raise]
  · rw [complete_ca_next (by simp [hp]) (tally_step hp (hr i hik) (hl i (by omega))), enterTally,
      if_pos (by simp; omega)]
    exact (complete_tally_error (u := u) (lens := lens) (i := i + 1) (k := k)
      (s := State.setCaPhase (.tally (i + 1)) { s with ca := { s.ca with
        blCount := tableWrite s.ca.blCount (lens i).toNat (tableRead s.ca.blCount (lens i).toNat + 1) } })
      rfl (by omega) hk hr hl hbad).trans (congrArg _ (raise_ca_scratch s _ _ _ _ _ _ _))
termination_by k - i
decreasing_by omega

/-! ### Pass 2 -/

/-- The code of length `L` from that of the length below (R156, R158). -/
theorem base_code {bl : List Word} {code : Word} {lens : Nat → Word} {n L : Nat} (h1 : 1 ≤ L)
    (hcode : code = BitVec.ofNat 32 (tierBase lens n (L - 1)))
    (hbl : tableRead bl (L - 1) = BitVec.ofNat 32 (tierCount lens n (L - 1))) :
    (code + tableRead bl (L - 1)) <<< 1 = BitVec.ofNat 32 (tierBase lens n L) := by
  obtain ⟨K, rfl⟩ : ∃ K, L = K + 1 := ⟨L - 1, by omega⟩
  rw [hcode, hbl, Nat.add_sub_cancel, ← BitVec.ofNat_add]
  apply BitVec.eq_of_toNat_eq
  simp only [BitVec.toNat_shiftLeft, BitVec.toNat_ofNat, tierBase, Nat.shiftLeft_eq]
  omega

/-- `next_code` below `L + 1` once that of `L` is written (R156). -/
theorem base_nextCode {nc : List Word} {lens : Nat → Word} {n L : Nat} (hlen : L < nc.length)
    (hnc : ∀ j, 1 ≤ j → j < L → tableRead nc j = BitVec.ofNat 32 (tierBase lens n j)) :
    ∀ j, 1 ≤ j → j < L + 1 → tableRead (tableWrite nc L (BitVec.ofNat 32 (tierBase lens n L))) j =
      BitVec.ofNat 32 (tierBase lens n j) := by
  intro j hj hjL
  rw [tableRead_tableWrite hlen]
  split
  · next h => rw [h]
  · exact hnc j hj (by omega)

/-- Pass 2 leaves the base code of every length in `next_code` (R156). -/
theorem complete_base {u : LogUnits} {s : State} {lens : Nat → Word} {n L : Nat} (hp : s.ca.phase = .base L)
    (h1 : 1 ≤ L) (hL : L ≤ s.ca.latchMaxbits.toNat) (hlen : s.ca.latchMaxbits.toNat < s.ca.nextCode.length)
    (hbl : ∀ j, j ≤ s.ca.latchMaxbits.toNat → tableRead s.ca.blCount j = BitVec.ofNat 32 (tierCount lens n j))
    (hcode : s.ca.code = BitVec.ofNat 32 (tierBase lens n (L - 1)))
    (hnc : ∀ j, 1 ≤ j → j < L → tableRead s.ca.nextCode j = BitVec.ofNat 32 (tierBase lens n j)) :
    ∃ nc c, nc.length = s.ca.nextCode.length ∧
      (∀ j, 1 ≤ j → j ≤ s.ca.latchMaxbits.toNat → tableRead nc j = BitVec.ofNat 32 (tierBase lens n j)) ∧
      completeEngine u .ca s =
        completeEngine u .ca (enterEmit 0 { s with ca := { s.ca with nextCode := nc, code := c } }) := by
  have ht : caTick s = .next (caBase L s) := by simp only [caTick, hp]
  rw [complete_ca_next (by simp [hp]) ht]
  have hnew := base_code h1 hcode (hbl (L - 1) (by omega))
  have hnc' := base_nextCode (lt_of_le_of_lt hL hlen) hnc
  rw [caBase, hnew]
  by_cases h : L + 1 ≤ s.ca.latchMaxbits.toNat
  · rw [enterBase, if_pos (by simpa using h)]
    obtain ⟨nc, c, a1, a2, a3⟩ := complete_base (u := u) (lens := lens) (n := n) (L := L + 1)
      (s := State.setCaPhase (.base (L + 1)) { s with ca := { s.ca with
        code := BitVec.ofNat 32 (tierBase lens n L)
        nextCode := tableWrite s.ca.nextCode L (BitVec.ofNat 32 (tierBase lens n L)) } })
      rfl (by omega) (by simpa using h) (by simpa using hlen) hbl (by simp) hnc'
    exact ⟨nc, c, by simpa using a1, a2, a3⟩
  · refine ⟨tableWrite s.ca.nextCode L (BitVec.ofNat 32 (tierBase lens n L)), BitVec.ofNat 32 (tierBase lens n L),
      by simp, fun j hj hjm => hnc' j hj (by omega), ?_⟩
    rw [enterBase, if_neg (by simpa using h)]
termination_by s.ca.latchMaxbits.toNat - L
decreasing_by simp; omega

/-! ### Pass 3 -/

theorem readLen_writeSym {s : State} {i j : Nat} {w : Word} (hj : j < 1024) :
    (s.writeSym i w).readLen j = s.readLen j :=
  Memory.readWord_writeWord_of_disjoint (by simp only [lenAddr, symAddr]; omega)

/-- What pass 3 has done to the memory from symbol `i` on: its entries hold their codes, and nothing else changed
(R157, R159). -/
structure EmittedFrom (lens : Nat → Word) (n i : Nat) (m m' : Memory) : Prop where
  canonical : m.wf → m'.wf
  codes : ∀ j, i ≤ j → j < n → lens j ≠ 0 →
    m'.readWord (symAddr j) = some (BitVec.ofNat 32 (symbolCode lens n j))
  others : ∀ a, (∀ j, i ≤ j → j < n → lens j ≠ 0 → a < symAddr j ∨ symAddr j + 4 ≤ a) → m'.lookup a = m.lookup a

theorem EmittedFrom.done (lens : Nat → Word) (n : Nat) {i : Nat} (h : n ≤ i) (m : Memory) :
    EmittedFrom lens n i m m :=
  ⟨id, fun j _ _ => by omega, fun _ _ => rfl⟩

theorem EmittedFrom.skip {lens : Nat → Word} {n i : Nat} {m m' : Memory} (h0 : lens i = 0)
    (h : EmittedFrom lens n (i + 1) m m') : EmittedFrom lens n i m m' where
  canonical := h.canonical
  codes j hj hn hl := h.codes j (Nat.lt_of_le_of_ne hj (fun e => hl (e ▸ h0))) hn hl
  others a ha := h.others a (fun j hj hn hl => ha j (by omega) hn hl)

theorem EmittedFrom.write {lens : Nat → Word} {n i : Nat} {m m' : Memory} (hi : i < n) (h0 : lens i ≠ 0)
    (h : EmittedFrom lens n (i + 1) (m.writeWord (symAddr i) (BitVec.ofNat 32 (symbolCode lens n i))) m') :
    EmittedFrom lens n i m m' where
  canonical hw := h.canonical (Memory.wf_writeWord hw _ _)
  codes j hj hn hl := by
    by_cases hji : j = i
    · subst hji
      rw [← Memory.readWord_writeWord m (symAddr j)]
      refine Memory.readWord_congr (fun k hk => h.others _ (fun j' hj' _ _ => ?_))
      simp only [symAddr]; omega
    · exact h.codes j (by omega) hn hl
  others a ha := by
    rw [h.others a (fun j hj hn hl => ha j (by omega) hn hl)]
    exact Memory.lookup_writeWord_of_outside (ha i le_rfl hi h0)

theorem emit_step_zero {s : State} {i : Nat} (hp : s.ca.phase = .emit i) (hr : s.readLen i = some 0) :
    caTick s = .next (enterEmit (i + 1) s) := by
  simp only [caTick, hp, caEmit, hr, if_true]

theorem emit_step {s : State} {i : Nat} {l : Word} (hp : s.ca.phase = .emit i) (hr : s.readLen i = some l)
    (h0 : l ≠ 0) :
    caTick s = .next (enterEmit (i + 1)
      { s with
        mem := s.mem.writeWord (symAddr i) (tableRead s.ca.nextCode l.toNat)
        ca := { s.ca with
          nextCode := tableWrite s.ca.nextCode l.toNat (tableRead s.ca.nextCode l.toNat + 1) } }) := by
  simp only [caTick, hp, caEmit, hr]
  rw [if_neg h0]
  rfl

/-- `next_code` once symbol `i` has taken its code (R157). -/
theorem emit_nextCode {nc : List Word} {lens : Nat → Word} {n i m : Nat} (hlen : (lens i).toNat < nc.length)
    (hnc : ∀ L, 1 ≤ L → L ≤ m → tableRead nc L = BitVec.ofNat 32 (tierBase lens n L + lengthCount lens L i))
    (hm : (lens i).toNat ≤ m) :
    ∀ L, 1 ≤ L → L ≤ m → tableRead (tableWrite nc (lens i).toNat (tableRead nc (lens i).toNat + 1)) L =
      BitVec.ofNat 32 (tierBase lens n L + lengthCount lens L (i + 1)) := by
  intro L h1 hL
  rw [tableRead_tableWrite hlen, lengthCount_succ]
  split
  · next h => subst h; rw [if_pos rfl, hnc _ h1 hm, ← Nat.add_assoc, BitVec.ofNat_add _ 1]; rfl
  · next h => rw [if_neg (Ne.symm h), Nat.add_zero]; exact hnc L h1 hL

/-- Pass 3 writes the code of every symbol with a length, and CA completes (R157, R161). -/
theorem complete_emit {u : LogUnits} {s : State} {lens : Nat → Word} {i : Nat} (hp : s.ca.phase = .emit i)
    (hi : i < s.ca.latchN.toNat) (hn : s.ca.latchN.toNat ≤ 1024)
    (hlen : s.ca.latchMaxbits.toNat < s.ca.nextCode.length)
    (hr : ∀ j, j < s.ca.latchN.toNat → s.readLen j = some (lens j))
    (hl : ∀ j, j < s.ca.latchN.toNat → (lens j).toNat ≤ s.ca.latchMaxbits.toNat)
    (hnc : ∀ L, 1 ≤ L → L ≤ s.ca.latchMaxbits.toNat → tableRead s.ca.nextCode L =
      BitVec.ofNat 32 (tierBase lens s.ca.latchN.toNat L + lengthCount lens L i)) :
    ∃ m', EmittedFrom lens s.ca.latchN.toNat i s.mem m' ∧
      completeEngine u .ca s = .next { s.finish .ca with mem := m' } := by
  by_cases h0 : lens i = 0
  · rw [complete_ca_next (by simp [hp]) (emit_step_zero hp (by rw [hr i hi, h0]))]
    have hcount : ∀ L, 1 ≤ L → lengthCount lens L (i + 1) = lengthCount lens L i := by
      intro L hL
      rw [lengthCount_succ, if_neg (by rw [h0]; simp; omega), Nat.add_zero]
    by_cases h : i + 1 < s.ca.latchN.toNat
    · rw [enterEmit, if_pos h]
      obtain ⟨m', he, hc⟩ := complete_emit (u := u) (lens := lens) (i := i + 1)
        (s := s.setCaPhase (.emit (i + 1))) rfl h hn hlen hr hl
        (fun L h1 hL => by rw [State.setCaPhase_ca_nextCode, State.setCaPhase_ca_latchN, hcount L h1]; exact hnc L h1 hL)
      exact ⟨m', he.skip h0, hc⟩
    · rw [enterEmit, if_neg h, complete_ca_finish]
      exact ⟨s.mem, EmittedFrom.skip h0 (EmittedFrom.done _ _ (by omega) _), rfl⟩
  · have h1 : 1 ≤ (lens i).toNat := by
      rcases Nat.eq_zero_or_pos (lens i).toNat with h | h
      · exact absurd (BitVec.eq_of_toNat_eq (by simpa using h)) h0
      · exact h
    have hcode : tableRead s.ca.nextCode (lens i).toNat =
        BitVec.ofNat 32 (symbolCode lens s.ca.latchN.toNat i) := hnc _ h1 (hl i hi)
    rw [complete_ca_next (by simp [hp]) (emit_step hp (hr i hi) h0), hcode]
    by_cases h : i + 1 < s.ca.latchN.toNat
    · rw [enterEmit, if_pos (by simpa using h)]
      obtain ⟨m', he, hc⟩ := complete_emit (u := u) (lens := lens) (i := i + 1)
        (s := State.setCaPhase (.emit (i + 1))
          { s with
            mem := s.mem.writeWord (symAddr i) (BitVec.ofNat 32 (symbolCode lens s.ca.latchN.toNat i))
            ca := { s.ca with
              nextCode := tableWrite s.ca.nextCode (lens i).toNat
                (BitVec.ofNat 32 (symbolCode lens s.ca.latchN.toNat i) + 1) } })
        rfl h hn (by simpa using hlen)
        (fun j hj => (readLen_writeSym (s := s) (lt_of_lt_of_le hj hn)).trans (hr j hj)) hl
        (fun L hL1 hL => by
          have := emit_nextCode (lt_of_le_of_lt (hl i hi) hlen) hnc (hl i hi) L hL1 hL
          rwa [hcode] at this)
      exact ⟨m', EmittedFrom.write hi h0 he, hc⟩
    · rw [enterEmit, if_neg (by simpa using h), complete_ca_finish]
      exact ⟨_, EmittedFrom.write hi h0 (EmittedFrom.done _ _ (by omega) _), rfl⟩
termination_by s.ca.latchN.toNat - i
decreasing_by all_goals simp; omega

/-! ### The whole command -/

/-- From the exclusion to completion, once every length is counted (R155 to R161). -/
theorem complete_exclude {u : LogUnits} {s : State} {lens : Nat → Word} (hp : s.ca.phase = .exclude)
    (hn : s.ca.latchN.toNat ≤ 1024)
    (hbl : s.ca.latchMaxbits.toNat < s.ca.blCount.length) (hlen : s.ca.latchMaxbits.toNat < s.ca.nextCode.length)
    (hr : ∀ j, j < s.ca.latchN.toNat → s.readLen j = some (lens j))
    (hl : ∀ j, j < s.ca.latchN.toNat → (lens j).toNat ≤ s.ca.latchMaxbits.toNat)
    (hc : ∀ L, L ≤ s.ca.latchMaxbits.toNat →
      tableRead s.ca.blCount L = BitVec.ofNat 32 (lengthCount lens L s.ca.latchN.toNat)) :
    ∃ m', EmittedFrom lens s.ca.latchN.toNat 0 s.mem m' ∧
      completeEngine u .ca s = .next { s.finish .ca with mem := m' } := by
  have ht : caTick s = .next (caExclude s) := by simp only [caTick, hp]
  rw [complete_ca_next (by simp [hp]) ht, caExclude]
  have hbl' : ∀ j, j ≤ s.ca.latchMaxbits.toNat → tableRead (tableWrite s.ca.blCount 0 0) j =
      BitVec.ofNat 32 (tierCount lens s.ca.latchN.toNat j) := by
    intro j hj
    rw [tableRead_tableWrite (by omega), tierCount]
    split
    · rfl
    · exact hc j hj
  have emitAll : ∀ t : State, t.ca.latchN = s.ca.latchN → t.ca.latchMaxbits = s.ca.latchMaxbits → t.mem = s.mem →
      t.finish .ca = s.finish .ca → s.ca.latchMaxbits.toNat < t.ca.nextCode.length →
      (∀ j, 1 ≤ j → j ≤ s.ca.latchMaxbits.toNat → tableRead t.ca.nextCode j =
        BitVec.ofNat 32 (tierBase lens s.ca.latchN.toNat j)) →
      ∃ m', EmittedFrom lens s.ca.latchN.toNat 0 s.mem m' ∧
        completeEngine u .ca (enterEmit 0 t) = .next { s.finish .ca with mem := m' } := by
    intro t hN hM hmem hfin hlent hnc
    rw [enterEmit]
    split
    · next h0 =>
      obtain ⟨m', he, hcm⟩ := complete_emit (u := u) (lens := lens) (i := 0) (s := t.setCaPhase (.emit 0)) rfl h0
        (by simpa [hN] using hn) (by simpa [hM] using hlent)
        (fun j hj => by
          have : (t.setCaPhase (.emit 0)).readLen j = s.readLen j := by simp [State.readLen, hmem]
          rw [this]; exact hr j (by simpa [hN] using hj))
        (fun j hj => by simpa [hM] using hl j (by simpa [hN] using hj))
        (fun L h1 hL => by
          simpa [hN, lengthCount] using hnc L h1 (by simpa [hM] using hL))
      refine ⟨m', by simpa [hN, hmem] using he, hcm.trans ?_⟩
      have : (t.setCaPhase (.emit 0)).finish .ca = s.finish .ca := hfin
      rw [this]
    · next h0 =>
      refine ⟨s.mem, EmittedFrom.done _ _ (by rw [hN] at h0; omega) _, ?_⟩
      rw [complete_ca_finish, hfin]
      rfl
  rw [enterBase]
  split
  · next h1 =>
    obtain ⟨nc, c, a1, a2, a3⟩ := complete_base (u := u) (lens := lens) (n := s.ca.latchN.toNat) (L := 1)
      (s := State.setCaPhase (.base 1) { s with ca := { s.ca with blCount := tableWrite s.ca.blCount 0 0, code := 0 } })
      rfl le_rfl (by simpa using h1) (by simpa using hlen) hbl' rfl (fun j hj hj1 => by omega)
    rw [a3]
    exact emitAll _ rfl rfl rfl rfl (by simp only [a1]; simpa using hlen) a2
  · next h1 =>
    exact emitAll _ rfl rfl rfl rfl hlen (fun j hj hjm => by simp at h1; omega)

/-- An accepted ASSIGN whose operands pass the checks and whose lengths are legal: the completion step writes exactly
the codes (R150 to R161). -/
theorem complete_assign {u : LogUnits} {s : State} {lens : Nat → Word} (hp : s.ca.phase = .check)
    (hn : s.ca.latchN.toNat ≤ s.params.nMax) (hN : s.params.nMax ≤ 1024)
    (hm : s.ca.latchMaxbits.toNat ≤ s.params.maxbitsMax)
    (hbl : s.ca.blCount.length = s.params.maxbitsMax + 1) (hnc : s.ca.nextCode.length = s.params.maxbitsMax + 1)
    (hr : ∀ j, j < s.ca.latchN.toNat → s.readLen j = some (lens j))
    (hl : ∀ j, j < s.ca.latchN.toNat → (lens j).toNat ≤ s.ca.latchMaxbits.toNat) :
    ∃ m', EmittedFrom lens s.ca.latchN.toNat 0 s.mem m' ∧
      completeEngine u .ca s = .next { s.finish .ca with mem := m' } := by
  have ht : caTick s = .next (enterClear 0 s) := by
    simp only [caTick, hp, caCheck]
    rw [if_neg (by omega), if_neg (by omega)]
  rw [complete_ca_next (by simp [hp]) ht, enterClear, if_pos (Nat.zero_le _)]
  obtain ⟨bl, b1, b2, b3⟩ := complete_clear (u := u) (s := s.setCaPhase (.clear 0)) (L := 0) rfl (Nat.zero_le _)
    (by simp; omega) (fun j hj => by omega)
  rw [b3, enterTally]
  have b1' : bl.length = s.params.maxbitsMax + 1 := b1.trans hbl
  split
  · next h0 =>
    obtain ⟨bl', c1, c2, c3⟩ := complete_tally (u := u) (lens := lens) (i := 0)
      (s := State.setCaPhase (.tally 0) { s with ca := { s.ca with phase := .clear 0, blCount := bl } })
      rfl h0 (by simp [b1']; omega) hr hl
      (fun L hL => by simpa [lengthCount] using b2 L hL)
    refine (exists_congr fun m' => and_congr_right fun _ => ?_).2 (complete_exclude (u := u) (lens := lens)
      (s := State.setCaPhase .exclude { s with ca := { s.ca with phase := .tally 0, blCount := bl' } })
      rfl (by simp; omega) (by have : bl'.length = bl.length := c1
                               simp [this, b1']; omega) (by simp [hnc]; omega) hr hl c2)
    exact Eq.congr_left c3
  · next h0 =>
    refine complete_exclude (u := u) (lens := lens)
      (s := State.setCaPhase .exclude { s with ca := { s.ca with phase := .clear 0, blCount := bl } })
      rfl (by simp; omega) (by simp [b1']; omega) (by simp [hnc]; omega) hr hl
      (fun L hL => ?_)
    have hz : s.ca.latchN.toNat = 0 := by simpa using h0
    simpa [lengthCount, hz] using b2 L hL

/-- An accepted ASSIGN with a length above `maxbits`: the completion step records the first one and writes nothing
(R154, R160, R237). -/
theorem complete_assign_lenError {u : LogUnits} {s : State} {lens : Nat → Word} {k : Nat} (hp : s.ca.phase = .check)
    (hn : s.ca.latchN.toNat ≤ s.params.nMax) (hm : s.ca.latchMaxbits.toNat ≤ s.params.maxbitsMax)
    (hbl : s.ca.blCount.length = s.params.maxbitsMax + 1) (hk : k < s.ca.latchN.toNat)
    (hr : ∀ j, j ≤ k → s.readLen j = some (lens j))
    (hl : ∀ j, j < k → (lens j).toNat ≤ s.ca.latchMaxbits.toNat)
    (hbad : s.ca.latchMaxbits.toNat < (lens k).toNat) :
    completeEngine u .ca s =
      .next (s.raise .ca .lenGtMaxbits (BitVec.ofNat 32 k) ((lens k).setWidth 64)) := by
  have ht : caTick s = .next (enterClear 0 s) := by
    simp only [caTick, hp, caCheck]
    rw [if_neg (by omega), if_neg (by omega)]
  rw [complete_ca_next (by simp [hp]) ht, enterClear, if_pos (Nat.zero_le _)]
  obtain ⟨bl, b1, b2, b3⟩ := complete_clear (u := u) (s := s.setCaPhase (.clear 0)) (L := 0) rfl (Nat.zero_le _)
    (by simp; omega) (fun j hj => by omega)
  rw [b3, enterTally, if_pos (by simp; omega)]
  exact complete_tally_error (u := u) (lens := lens) (i := 0) (k := k)
    (s := State.setCaPhase (.tally 0) { s with ca := { s.ca with phase := .clear 0, blCount := bl } })
    rfl (Nat.zero_le _) hk hr hl hbad

/-- An accepted ASSIGN whose `n` is too large (R151). -/
theorem complete_assign_nCapacity {u : LogUnits} {s : State} (hp : s.ca.phase = .check)
    (hn : s.params.nMax < s.ca.latchN.toNat) :
    completeEngine u .ca s = .next (s.raise .ca .nCapacity 0 (s.ca.latchN.setWidth 64)) := by
  have ht : caTick s = .next (s.raise .ca .nCapacity 0 (s.ca.latchN.setWidth 64)) := by
    simp only [caTick, hp, caCheck, if_pos hn]
  rw [complete_ca_next (by simp [hp]) ht, complete_ca_raise]

/-- An accepted ASSIGN whose `n` fits and whose `maxbits` is too large (R152, R234). -/
theorem complete_assign_scratch {u : LogUnits} {s : State} (hp : s.ca.phase = .check)
    (hn : s.ca.latchN.toNat ≤ s.params.nMax) (hm : s.params.maxbitsMax < s.ca.latchMaxbits.toNat) :
    completeEngine u .ca s = .next (s.raise .ca .scratchExhausted 0 (s.ca.latchMaxbits.setWidth 64)) := by
  have ht : caTick s = .next (s.raise .ca .scratchExhausted 0 (s.ca.latchMaxbits.setWidth 64)) := by
    simp only [caTick, hp, caCheck, if_neg (Nat.not_lt.2 hn), if_pos hm]
  rw [complete_ca_next (by simp [hp]) ht, complete_ca_raise]

end Sys2Proof.Machine
end

