-- ==== Sys2Proof/Laws/Estimate.lean ====
section
/-! SUPPORT. Laws/Estimate.lean: what a run of EE does, step by step (spec/42_estimate.md rules R191 to R202). -/

namespace Sys2Proof.Machine

open Sys2Proof.Safety

@[simp] theorem enterSum_setEePhase (i : Nat) (p : EePhase) (s : State) :
    enterSum i (s.setEePhase p) = enterSum i s := rfl
@[simp] theorem enterCost_setEePhase (i : Nat) (p : EePhase) (s : State) :
    enterCost i (s.setEePhase p) = enterCost i s := rfl

/-- The completion of a busy EE begins with the piece of work its position names. -/
theorem complete_ee_next {u : LogUnits} {s t : State} (h : s.ee.phase ≠ .idle) (ht : eeTick u s = .next t) :
    completeEngine u .ee s = completeEngine u .ee t := by
  rw [completeEngine_tick (by simpa using h)]
  simp only [engineTick, ht, andThen_next]

theorem complete_ee_finish {u : LogUnits} (s : State) :
    completeEngine u .ee (s.finish .ee) = .next (s.finish .ee) :=
  completeEngine_of_idle (by simp)

theorem complete_ee_raise {u : LogUnits} (c : ErrCode) (ix : Word) (v : BitVec 64) (s : State) :
    completeEngine u .ee (raiseEe c ix v s) = .next (raiseEe c ix v s) :=
  completeEngine_of_idle (by simp)

/-! ### The sum -/

@[simp] theorem countSum_zero (cnts : Nat → Word) : countSum cnts 0 = 0 := by simp [countSum]

theorem countSum_succ (cnts : Nat → Word) (k : Nat) : countSum cnts (k + 1) = countSum cnts k + (cnts k).toNat := by
  simp [countSum, Finset.sum_range_succ]

/-- At most 1024 counts sum to less than 2^42: the accumulator never overflows (R193). -/
theorem countSum_lt {cnts : Nat → Word} {n : Nat} (hn : n ≤ 1024) : countSum cnts n < 2 ^ 42 := by
  have h : ∀ k, countSum cnts k ≤ k * (2 ^ 32 - 1) := by
    intro k
    induction k with
    | zero => simp
    | succ k ih => rw [countSum_succ]; have := (cnts k).isLt; omega
  have := h n
  omega

theorem sum_step {u : LogUnits} {s : State} {i : Nat} {c : Word} (hp : s.ee.phase = .sum i)
    (hr : s.readCnt i = some c) :
    eeTick u s = .next (enterSum (i + 1) { s with ee := { s.ee with sum := s.ee.sum + c.setWidth 64 } }) := by
  simp only [eeTick, hp, eeSum, hr]

/-- The sum of all counts, and on to the logarithm (R193). -/
theorem complete_sum {u : LogUnits} {s : State} {cnts : Nat → Word} {i : Nat} (hp : s.ee.phase = .sum i)
    (hi : i < s.ee.latchN.toNat) (hr : ∀ j, j < s.ee.latchN.toNat → s.readCnt j = some (cnts j))
    (hs : s.ee.sum = BitVec.ofNat 64 (countSum cnts i)) :
    completeEngine u .ee s = completeEngine u .ee (State.setEePhase .log
      { s with ee := { s.ee with sum := BitVec.ofNat 64 (countSum cnts s.ee.latchN.toNat) } }) := by
  have hsum : s.ee.sum + (cnts i).setWidth 64 = BitVec.ofNat 64 (countSum cnts (i + 1)) := by
    rw [countSum_succ, BitVec.ofNat_add, hs]
    congr 1
    apply BitVec.eq_of_toNat_eq
    simp
  rw [complete_ee_next (by simp [hp]) (sum_step hp (hr i hi)), hsum]
  by_cases h : i + 1 < s.ee.latchN.toNat
  · rw [enterSum, if_pos h]
    exact complete_sum (u := u) (cnts := cnts) (i := i + 1)
      (s := State.setEePhase (.sum (i + 1))
        { s with ee := { s.ee with sum := BitVec.ofNat 64 (countSum cnts (i + 1)) } })
      rfl h hr rfl
  · rw [enterSum, if_neg h, show i + 1 = s.ee.latchN.toNat by omega]
termination_by s.ee.latchN.toNat - i
decreasing_by simp; omega

/-! ### The costs -/

/-- What the cost loop has done to the memory from symbol `i` on: its entries hold their costs, and nothing else
changed (R200). -/
structure CostedFrom (u : LogUnits) (eps : F64) (cnts : Nat → Word) (n i : Nat) (m m' : Memory) : Prop where
  canonical : m.wf → m'.wf
  costs : ∀ j, i ≤ j → j < n → m'.readDword (bitlenAddr j) = some (symbolCost u eps cnts n j)
  others : ∀ a, a < bitlenAddr i ∨ bitlenAddr n ≤ a → m'.lookup a = m.lookup a

theorem readCnt_writeBitlen {s : State} {i j : Nat} {v : F64} (hj : j < 1024) :
    (s.writeBitlen i v).readCnt j = s.readCnt j :=
  Memory.readWord_writeDword_of_disjoint (by simp only [cntAddr, bitlenAddr]; omega)

theorem CostedFrom.done (u : LogUnits) (eps : F64) (cnts : Nat → Word) (n : Nat) (m : Memory) :
    CostedFrom u eps cnts n n m m :=
  ⟨id, fun j _ _ => by omega, fun _ _ => rfl⟩

theorem CostedFrom.write {u : LogUnits} {eps : F64} {cnts : Nat → Word} {n i : Nat} {m m' : Memory} (hi : i < n)
    (h : CostedFrom u eps cnts n (i + 1) (m.writeDword (bitlenAddr i) (symbolCost u eps cnts n i)) m') :
    CostedFrom u eps cnts n i m m' where
  canonical hw := h.canonical (Memory.wf_writeDword hw _ _)
  costs j hj hn := by
    by_cases hji : j = i
    · subst hji
      rw [← Memory.readDword_writeDword m (bitlenAddr j)]
      refine Memory.readDword_congr (fun k hk => h.others _ ?_)
      simp only [bitlenAddr]; omega
    · exact h.costs j (by omega) hn
  others a ha := by
    simp only [bitlenAddr] at ha
    rw [h.others a (by simp only [bitlenAddr]; omega)]
    exact Memory.lookup_writeDword_of_outside (by simp only [bitlenAddr]; omega)

theorem cost_step {u : LogUnits} {s : State} {i : Nat} {c : Word} {v : F64} (hp : s.ee.phase = .cost i)
    (hr : s.readCnt i = some c) (hv : clampCost s.params.eps (rawCost u s.ee.log2sum c) = v) (he : costError v = none) :
    eeTick u s = .next (enterCost (i + 1)
      { s with ee := { s.ee with v := v }, mem := s.mem.writeDword (bitlenAddr i) v }) := by
  simp only [eeTick, hp, eeCost, hr, hv, he]
  rfl

theorem cost_step_error {u : LogUnits} {s : State} {i : Nat} {c : Word} {v : F64} {e : ErrCode}
    (hp : s.ee.phase = .cost i) (hr : s.readCnt i = some c)
    (hv : clampCost s.params.eps (rawCost u s.ee.log2sum c) = v) (he : costError v = some e) :
    eeTick u s = .next (raiseEe e (BitVec.ofNat 32 i) v s) := by
  simp only [eeTick, hp, eeCost, hr, hv, he]
  rfl

/-- With no cost that is an error, every entry below `n` receives its cost, and EE completes (R197 to R202). -/
theorem complete_cost {u : LogUnits} {s : State} {cnts : Nat → Word} {i : Nat} (hp : s.ee.phase = .cost i)
    (hi : i < s.ee.latchN.toNat) (hn : s.ee.latchN.toNat ≤ 1024)
    (hr : ∀ j, j < s.ee.latchN.toNat → s.readCnt j = some (cnts j))
    (hb : s.ee.log2sum = costBase u cnts s.ee.latchN.toNat)
    (hok : ∀ j, i ≤ j → j < s.ee.latchN.toNat → costError (symbolCost u s.params.eps cnts s.ee.latchN.toNat j) = none) :
    ∃ m', CostedFrom u s.params.eps cnts s.ee.latchN.toNat i s.mem m' ∧
      completeEngine u .ee s = .next { s.finish .ee with mem := m' } := by
  rw [complete_ee_next (by simp [hp]) (cost_step (v := symbolCost u s.params.eps cnts s.ee.latchN.toNat i) hp (hr i hi)
    (by rw [hb]; rfl) (hok i le_rfl hi))]
  by_cases h : i + 1 < s.ee.latchN.toNat
  · rw [enterCost, if_pos h]
    obtain ⟨m', hm, hc⟩ := complete_cost (u := u) (cnts := cnts) (i := i + 1)
      (s := State.setEePhase (.cost (i + 1))
        { s with
          ee := { s.ee with v := symbolCost u s.params.eps cnts s.ee.latchN.toNat i }
          mem := s.mem.writeDword (bitlenAddr i) (symbolCost u s.params.eps cnts s.ee.latchN.toNat i) })
      rfl h hn (fun j hj => (readCnt_writeBitlen (s := s) (lt_of_lt_of_le hj hn)).trans (hr j hj)) hb
      (fun j hj hjn => hok j (by omega) hjn)
    exact ⟨m', CostedFrom.write hi hm, hc⟩
  · rw [enterCost, if_neg h, complete_ee_finish]
    have hin : i + 1 = s.ee.latchN.toNat := by omega
    refine ⟨_, CostedFrom.write hi ?_, rfl⟩
    rw [hin]
    exact CostedFrom.done _ _ _ _ _
termination_by s.ee.latchN.toNat - i
decreasing_by simp; omega

theorem forget_inBitlen_writeDword {m : Memory} (h : m.wf) {n i : Nat} (hi : i < n) (v : F64) :
    (m.writeDword (bitlenAddr i) v).forget (inBitlen n) = m.forget (inBitlen n) := by
  refine Memory.ext_of_lookup (Memory.wf_forget (Memory.wf_writeDword h _ _) _) (Memory.wf_forget h _) (fun x => ?_)
  rw [Memory.lookup_forget, Memory.lookup_forget]
  by_cases hx : inBitlen n x
  · rw [if_pos hx, if_pos hx]
  · rw [if_neg hx, if_neg hx]
    refine Memory.lookup_writeDword_of_outside ?_
    have : ¬ (bitlenAddr 0 ≤ x ∧ x < bitlenAddr n) := by simpa [inBitlen] using hx
    simp only [bitlenAddr] at this ⊢
    omega

/-- The first cost that is an error ends the command; nothing below `n` holds a value after it (R199, R201, R236). -/
theorem complete_cost_error {u : LogUnits} {s : State} {cnts : Nat → Word} {i k : Nat} {e : ErrCode}
    (hp : s.ee.phase = .cost i) (hik : i ≤ k) (hk : k < s.ee.latchN.toNat)
    (hn : s.ee.latchN.toNat ≤ s.params.nMax) (hN : s.params.nMax ≤ 1024) (hw : s.mem.wf)
    (hr : ∀ j, j < s.ee.latchN.toNat → s.readCnt j = some (cnts j))
    (hb : s.ee.log2sum = costBase u cnts s.ee.latchN.toNat)
    (hok : ∀ j, j < k → costError (symbolCost u s.params.eps cnts s.ee.latchN.toNat j) = none)
    (hbad : costError (symbolCost u s.params.eps cnts s.ee.latchN.toNat k) = some e) :
    completeEngine u .ee s =
      .next (raiseEe e (BitVec.ofNat 32 k) (symbolCost u s.params.eps cnts s.ee.latchN.toNat k) s) := by
  by_cases h : i = k
  · subst h
    rw [complete_ee_next (by simp [hp]) (cost_step_error (v := symbolCost u s.params.eps cnts s.ee.latchN.toNat i) hp (hr i hk)
      (by rw [hb]; rfl) hbad), complete_ee_raise]
  · rw [complete_ee_next (by simp [hp]) (cost_step (v := symbolCost u s.params.eps cnts s.ee.latchN.toNat i) hp (hr i (by omega))
      (by rw [hb]; rfl) (hok i (by omega))), enterCost, if_pos (by simp; omega)]
    refine (complete_cost_error (u := u) (cnts := cnts) (i := i + 1) (k := k)
      (s := State.setEePhase (.cost (i + 1))
        { s with
          ee := { s.ee with v := symbolCost u s.params.eps cnts s.ee.latchN.toNat i }
          mem := s.mem.writeDword (bitlenAddr i) (symbolCost u s.params.eps cnts s.ee.latchN.toNat i) })
      rfl (by omega) hk hn hN (Memory.wf_writeDword hw _ _)
      (fun j hj => (readCnt_writeBitlen (s := s) (lt_of_lt_of_le hj (hn.trans hN))).trans (hr j hj)) hb hok hbad).trans ?_
    have hmem : (s.mem.writeDword (bitlenAddr i) (symbolCost u s.params.eps cnts s.ee.latchN.toNat i)).forget
        (inBitlen (s.outputSpan .ee)) = s.mem.forget (inBitlen (s.outputSpan .ee)) :=
      forget_inBitlen_writeDword hw (by simp only [State.outputSpan, State.latchedN]; omega) _
    simp only [raiseEe, State.setEePhase, State.outputSpan, State.latchedN] at hmem ⊢
    rw [hmem]
    rfl
termination_by k - i
decreasing_by omega

/-! ### The whole command -/

theorem baseCost_eq_costBase {u : LogUnits} {cnts : Nat → Word} {n : Word} (hn : n.toNat ≤ 1024) :
    baseCost u n (BitVec.ofNat 64 (countSum cnts n.toNat)) = costBase u cnts n.toNat := by
  have hlt := countSum_lt (cnts := cnts) hn
  have hto : (BitVec.ofNat 64 (countSum cnts n.toNat)).toNat = countSum cnts n.toNat := by
    rw [BitVec.toNat_ofNat]; omega
  have hz : BitVec.ofNat 64 (countSum cnts n.toNat) = 0 ↔ countSum cnts n.toNat = 0 := by
    rw [← BitVec.toNat_inj, hto]; simp
  simp only [baseCost, costBase, hto]
  by_cases h : countSum cnts n.toNat = 0
  · rw [if_pos (hz.2 h), if_pos h]
  · rw [if_neg (fun e => h (hz.1 e)), if_neg h]

/-- From acceptance to the cost loop: the sum and its logarithm (R191 to R195). -/
theorem complete_estimate_base {u : LogUnits} {s : State} {cnts : Nat → Word} (hp : s.ee.phase = .check)
    (hn : s.ee.latchN.toNat ≤ s.params.nMax) (hN : s.params.nMax ≤ 1024) (h1 : 1 ≤ s.ee.latchN.toNat)
    (hr : ∀ j, j < s.ee.latchN.toNat → s.readCnt j = some (cnts j)) :
    completeEngine u .ee s = completeEngine u .ee
      { s with ee := { s.ee with
          phase := .cost 0, sum := BitVec.ofNat 64 (countSum cnts s.ee.latchN.toNat)
          log2sum := costBase u cnts s.ee.latchN.toNat } } := by
  have ht : eeTick u s = .next (enterSum 0 { s with ee := { s.ee with sum := 0 } }) := by
    simp only [eeTick, hp, eeCheck]
    rw [if_neg (by omega), if_neg (by intro h; rw [h] at h1; simp at h1)]
  rw [complete_ee_next (by simp [hp]) ht, enterSum, if_pos (Nat.lt_of_lt_of_le Nat.zero_lt_one h1),
    complete_sum (u := u) (cnts := cnts) (i := 0)
      (s := State.setEePhase (.sum 0) { s with ee := { s.ee with sum := 0 } }) rfl h1 hr (by simp)]
  rw [complete_ee_next (u := u) (t := enterCost 0
    { s with ee := { s.ee with
        phase := .log, sum := BitVec.ofNat 64 (countSum cnts s.ee.latchN.toNat)
        log2sum := costBase u cnts s.ee.latchN.toNat } }) (by simp) (by
      rw [← baseCost_eq_costBase (hn.trans hN)]
      rfl),
    enterCost, if_pos (Nat.lt_of_lt_of_le Nat.zero_lt_one h1)]
  rfl

/-- An accepted ESTIMATE none of whose costs is an error (R190 to R202). -/
theorem complete_estimate {u : LogUnits} {s : State} {cnts : Nat → Word} (hp : s.ee.phase = .check)
    (hn : s.ee.latchN.toNat ≤ s.params.nMax) (hN : s.params.nMax ≤ 1024) (h1 : 1 ≤ s.ee.latchN.toNat)
    (hr : ∀ j, j < s.ee.latchN.toNat → s.readCnt j = some (cnts j))
    (hok : ∀ j, j < s.ee.latchN.toNat → costError (symbolCost u s.params.eps cnts s.ee.latchN.toNat j) = none) :
    ∃ m', CostedFrom u s.params.eps cnts s.ee.latchN.toNat 0 s.mem m' ∧
      completeEngine u .ee s = .next { s.finish .ee with mem := m' } := by
  rw [complete_estimate_base hp hn hN h1 hr]
  exact complete_cost (u := u) (cnts := cnts) (i := 0)
    (s := { s with ee := { s.ee with
        phase := .cost 0, sum := BitVec.ofNat 64 (countSum cnts s.ee.latchN.toNat)
        log2sum := costBase u cnts s.ee.latchN.toNat } })
    rfl h1 (hn.trans hN) hr rfl (fun j _ hj => hok j hj)

/-- An accepted ESTIMATE with a cost that is an error (R199, R201, R235). -/
theorem complete_estimate_costError {u : LogUnits} {s : State} {cnts : Nat → Word} {k : Nat} {e : ErrCode}
    (hp : s.ee.phase = .check) (hn : s.ee.latchN.toNat ≤ s.params.nMax) (hN : s.params.nMax ≤ 1024)
    (hw : s.mem.wf) (hk : k < s.ee.latchN.toNat)
    (hr : ∀ j, j < s.ee.latchN.toNat → s.readCnt j = some (cnts j))
    (hok : ∀ j, j < k → costError (symbolCost u s.params.eps cnts s.ee.latchN.toNat j) = none)
    (hbad : costError (symbolCost u s.params.eps cnts s.ee.latchN.toNat k) = some e) :
    completeEngine u .ee s =
      .next (raiseEe e (BitVec.ofNat 32 k) (symbolCost u s.params.eps cnts s.ee.latchN.toNat k) s) := by
  rw [complete_estimate_base hp hn hN (by omega) hr]
  exact complete_cost_error (u := u) (cnts := cnts) (i := 0) (k := k)
    (s := { s with ee := { s.ee with
        phase := .cost 0, sum := BitVec.ofNat 64 (countSum cnts s.ee.latchN.toNat)
        log2sum := costBase u cnts s.ee.latchN.toNat } })
    rfl (Nat.zero_le _) hk hn hN hw hr rfl hok hbad

/-- An accepted ESTIMATE whose `n` is too large (R191). -/
theorem complete_estimate_nCapacity {u : LogUnits} {s : State} (hp : s.ee.phase = .check)
    (hn : s.params.nMax < s.ee.latchN.toNat) :
    completeEngine u .ee s = .next (raiseEe .nCapacity 0 (s.ee.latchN.setWidth 64) s) := by
  have ht : eeTick u s = .next (raiseEe .nCapacity 0 (s.ee.latchN.setWidth 64) s) := by
    simp only [eeTick, hp, eeCheck, if_pos hn]
  rw [complete_ee_next (by simp [hp]) ht, complete_ee_raise]

/-- An accepted ESTIMATE whose `n` is 0 (R192). -/
theorem complete_estimate_nZero {u : LogUnits} {s : State} (hp : s.ee.phase = .check)
    (h0 : s.ee.latchN = 0) : completeEngine u .ee s = .next (raiseEe .nZero 0 0 s) := by
  have ht : eeTick u s = .next (raiseEe .nZero 0 0 s) := by
    simp only [eeTick, hp, eeCheck]
    rw [if_neg (by rw [h0]; simp), if_pos h0]
  rw [complete_ee_next (by simp [hp]) ht, complete_ee_raise]

end Sys2Proof.Machine
end

