-- ==== Sys2Proof/Laws/Invariant.lean ====
section
/-! SUPPORT. Laws/Invariant.lean: the pieces of work of CA and EE keep the invariant of Safety.lean, operation by
operation. -/

namespace Sys2Proof.Machine

open Sys2Proof.Safety

/-! ### The memory -/

/-- A word of a mapped array entry, or a half of one, starts at `a`. -/
structure ArrayWord (p : Params) (a : Nat) : Prop where
  aligned : a % 4 = 0
  inArrays : ∀ k, k < 4 → ArrayByte p (a + k)

theorem arrayWord_len {p : Params} {i : Nat} (h : i < p.nMax) : ArrayWord p (lenAddr i) where
  aligned := by simp only [lenAddr]; omega
  inArrays := fun k hk => Or.inl (by simp only [lenAddr]; omega)

theorem arrayWord_sym {p : Params} {i : Nat} (h : i < p.nMax) : ArrayWord p (symAddr i) where
  aligned := by simp only [symAddr]; omega
  inArrays := fun k hk => Or.inr (Or.inl (by simp only [symAddr]; omega))

theorem arrayWord_cnt {p : Params} {i : Nat} (h : i < p.nMax) : ArrayWord p (cntAddr i) where
  aligned := by simp only [cntAddr]; omega
  inArrays := fun k hk => Or.inr (Or.inr (Or.inl (by simp only [cntAddr]; omega)))

theorem arrayWord_bitlen {p : Params} {i : Nat} (h : i < p.nMax) (high : Bool) :
    ArrayWord p (bitlenHalfAddr i high) where
  aligned := by cases high <;> simp only [bitlenHalfAddr, bitlenAddr] <;> norm_num <;> omega
  inArrays := fun k hk => Or.inr (Or.inr (Or.inr (by
    cases high <;> simp only [bitlenHalfAddr, bitlenAddr] <;> norm_num <;> omega)))

/-- A write of a whole array word keeps the memory as it must be. -/
theorem memOk_writeWord {p : Params} {m : Memory} {a : Nat} (h : MemOk p m) (ha : ArrayWord p a) (w : Word) :
    MemOk p (m.writeWord a w) where
  canonical := Memory.wf_writeWord h.canonical a w
  inArrays := by
    intro x hx
    rw [Memory.lookup_writeWord] at hx
    by_cases h0 : x < a ∨ a + 4 ≤ x
    · rw [if_neg (by omega), if_neg (by omega), if_neg (by omega), if_neg (by omega)] at hx
      exact h.inArrays x hx
    · have := ha.inArrays (x - a) (by omega)
      rwa [show a + (x - a) = x by omega] at this
  wholeWords := by
    intro q k hk
    have hal := ha.aligned
    by_cases h0 : 4 * q = a
    · have e : ∀ j, j < 4 → (m.writeWord a w).lookup (4 * q + j) ≠ none := by
        intro j hj
        rw [Memory.lookup_writeWord, h0]
        interval_cases j <;> simp
      have e0 := e 0 (by omega)
      have ek := e k hk
      rw [Nat.add_zero] at e0
      simp [e0, ek]
    · rw [Memory.lookup_writeWord_of_outside (by omega), Memory.lookup_writeWord_of_outside (by omega)]
      exact h.wholeWords q k hk

/-- Forgetting whole words keeps the memory as it must be. -/
theorem memOk_forget {p : Params} {m : Memory} {f : Nat → Bool} (h : MemOk p m)
    (hf : ∀ q k, k < 4 → f (4 * q + k) = f (4 * q)) : MemOk p (m.forget f) where
  canonical := Memory.wf_forget h.canonical f
  inArrays := by
    intro x hx
    rw [Memory.lookup_forget] at hx
    split at hx
    · exact absurd rfl hx
    · exact h.inArrays x hx
  wholeWords := by
    intro q k hk
    rw [Memory.lookup_forget, Memory.lookup_forget, hf q k hk]
    split
    · simp
    · exact h.wholeWords q k hk

theorem memOk_writeSym {s : State} {i : Nat} (h : MemOk s.params s.mem) (hi : i < s.params.nMax) (w : Word) :
    MemOk s.params (s.writeSym i w).mem := memOk_writeWord h (arrayWord_sym hi) w

theorem memOk_writeBitlen {s : State} {i : Nat} (h : MemOk s.params s.mem) (hi : i < s.params.nMax) (v : F64) :
    MemOk s.params (s.writeBitlen i v).mem :=
  memOk_writeWord (memOk_writeWord h (arrayWord_bitlen hi false) _) (arrayWord_bitlen hi true) _

theorem inBitlen_word (n q k : Nat) (hk : k < 4) : inBitlen n (4 * q + k) = inBitlen n (4 * q) := by
  have e1 : bitlenAddr 0 ≤ 4 * q + k ↔ bitlenAddr 0 ≤ 4 * q := by simp only [bitlenAddr]; omega
  have e2 : 4 * q + k < bitlenAddr n ↔ 4 * q < bitlenAddr n := by simp only [bitlenAddr]; omega
  simp only [inBitlen, e1, e2]

theorem memOk_forgetBitlen {p : Params} {m : Memory} (h : MemOk p m) (n : Nat) : MemOk p (m.forget (inBitlen n)) :=
  memOk_forget h (inBitlen_word n)

/-- What a reset abandons is whole words (R272). -/
theorem abandoned_word (s : State) (q k : Nat) (hk : k < 4) : s.abandoned (4 * q + k) = s.abandoned (4 * q) := by
  have e1 : symAddr 0 ≤ 4 * q + k ↔ symAddr 0 ≤ 4 * q := by simp only [symAddr]; omega
  have e2 : ∀ n, 4 * q + k < symAddr n ↔ 4 * q < symAddr n := fun n => by simp only [symAddr]; omega
  have e3 : (4 * q + k - symAddr 0) / 4 = (4 * q - symAddr 0) / 4 := by simp only [symAddr]; omega
  simp only [State.abandoned, inBitlen_word _ q k hk, e1, e2, e3]

/-! ### CA -/

theorem length_freeTable (p : Params) (d : Nat → Draw) (k : Nat) :
    (freeTable p d k).length = p.maxbitsMax + 1 := by simp [freeTable]

theorem ErrCode.code_eq_zero {c : ErrCode} : c.code = 0#8 ↔ c = .none := by cases c <;> decide

/-- Completion keeps CA as it must be. -/
theorem caOk_finish {s : State} (h : CaOk s.params s.ca) : CaOk s.params (s.finish .ca).ca where
  blCountLength := length_freeTable _ _ _
  nextCodeLength := length_freeTable _ _ _
  inBounds := trivial
  latched := fun hp => absurd rfl hp
  quiet := fun hp => absurd rfl hp
  cleared := fun hp => absurd rfl hp
  recorded := h.recorded
  known := h.known

/-- Recording an error and completing keeps CA as it must be. -/
theorem caOk_raise {s : State} {c : ErrCode} (hc : c.code ∈ caCodes) (h0 : c ≠ .none) (ix : Word) (v : BitVec 64) :
    CaOk s.params (s.raise .ca c ix v).ca where
  blCountLength := length_freeTable _ _ _
  nextCodeLength := length_freeTable _ _ _
  inBounds := trivial
  latched := fun hp => absurd rfl hp
  quiet := fun hp => absurd rfl hp
  cleared := fun hp => absurd rfl hp
  recorded := fun h => absurd (ErrCode.code_eq_zero.1 h) h0
  known := hc

/-- CA as it must be, but for where it stands. -/
structure CaRuns (p : Params) (ca : CaUnit) : Prop where
  blCountLength : ca.blCount.length = p.maxbitsMax + 1
  nextCodeLength : ca.nextCode.length = p.maxbitsMax + 1
  latched : ca.latchN = ca.regN ∧ ca.latchMaxbits = ca.regMaxbits
  quiet : ca.done = false ∧ ca.err = false
  cleared : ca.errCode = 0#8
  recorded : ca.errIndex = 0 ∧ ca.errValue = 0

theorem caOk_runs {p : Params} {ca : CaUnit} (h : CaOk p ca) (hp : ca.phase ≠ .idle) : CaRuns p ca where
  blCountLength := h.blCountLength
  nextCodeLength := h.nextCodeLength
  latched := h.latched hp
  quiet := h.quiet hp
  cleared := h.cleared hp
  recorded := (h.recorded (h.cleared hp)).2

theorem CaRuns.ok {p : Params} {ca : CaUnit} (h : CaRuns p ca)
    (hb : CaPhase.InBounds p ca.latchN.toNat ca.latchMaxbits.toNat ca.phase) : CaOk p ca where
  blCountLength := h.blCountLength
  nextCodeLength := h.nextCodeLength
  inBounds := hb
  latched := fun _ => h.latched
  quiet := fun _ => h.quiet
  cleared := fun _ => h.cleared
  recorded := fun _ => ⟨h.quiet.2, h.recorded⟩
  known := by rw [h.cleared]; decide

theorem CaRuns.setPhase {s : State} (h : CaRuns s.params s.ca) {ph : CaPhase}
    (hb : CaPhase.InBounds s.params s.ca.latchN.toNat s.ca.latchMaxbits.toNat ph) :
    CaOk s.params (s.setCaPhase ph).ca :=
  CaRuns.ok (ca := (s.setCaPhase ph).ca) ⟨h.1, h.2, h.3, h.4, h.5, h.6⟩ hb

theorem CaRuns.finish {s : State} (h : CaRuns s.params s.ca) : CaOk s.params (s.finish .ca).ca where
  blCountLength := length_freeTable _ _ _
  nextCodeLength := length_freeTable _ _ _
  inBounds := trivial
  latched := fun hp => absurd rfl hp
  quiet := fun hp => absurd rfl hp
  cleared := fun hp => absurd rfl hp
  recorded := fun _ => ⟨h.quiet.2, h.recorded⟩
  known := by show s.ca.errCode ∈ _; rw [h.cleared]; decide

theorem CaRuns.enterEmit {s : State} (h : CaRuns s.params s.ca) (hn : s.ca.latchN.toNat ≤ s.params.nMax)
    (hm : s.ca.latchMaxbits.toNat ≤ s.params.maxbitsMax) (i : Nat) : CaOk s.params (enterEmit i s).ca := by
  rw [Machine.enterEmit]
  split
  · next hi => exact h.setPhase ⟨hn, hm, hi⟩
  · exact h.finish

theorem CaRuns.enterBase {s : State} (h : CaRuns s.params s.ca) (hn : s.ca.latchN.toNat ≤ s.params.nMax)
    (hm : s.ca.latchMaxbits.toNat ≤ s.params.maxbitsMax) {L : Nat} (h1 : 1 ≤ L) :
    CaOk s.params (enterBase L s).ca := by
  rw [Machine.enterBase]
  split
  · next hL => exact h.setPhase ⟨hn, hm, h1, hL⟩
  · exact h.enterEmit hn hm 0

theorem CaRuns.enterTally {s : State} (h : CaRuns s.params s.ca) (hn : s.ca.latchN.toNat ≤ s.params.nMax)
    (hm : s.ca.latchMaxbits.toNat ≤ s.params.maxbitsMax) (i : Nat) : CaOk s.params (enterTally i s).ca := by
  rw [Machine.enterTally]
  split
  · next hi => exact h.setPhase ⟨hn, hm, hi⟩
  · exact h.setPhase ⟨hn, hm⟩

theorem CaRuns.enterClear {s : State} (h : CaRuns s.params s.ca) (hn : s.ca.latchN.toNat ≤ s.params.nMax)
    (hm : s.ca.latchMaxbits.toNat ≤ s.params.maxbitsMax) (L : Nat) : CaOk s.params (enterClear L s).ca := by
  rw [Machine.enterClear]
  split
  · next hL => exact h.setPhase ⟨hn, hm, hL⟩
  · exact h.enterTally hn hm 0

/-! ### What a piece of CA's work leaves alone -/

/-- Everything but CA and the memory is as it was, and so are CA's operands (R138, R50). -/
structure OnlyCa (s t : State) : Prop where
  rest : t = { s with ca := t.ca, mem := t.mem }
  latchN : t.ca.latchN = s.ca.latchN
  latchMaxbits : t.ca.latchMaxbits = s.ca.latchMaxbits
  regN : t.ca.regN = s.ca.regN
  regMaxbits : t.ca.regMaxbits = s.ca.regMaxbits

theorem OnlyCa.refl (s : State) : OnlyCa s s := ⟨rfl, rfl, rfl, rfl, rfl⟩

theorem OnlyCa.after {s t r : State} (h' : OnlyCa t r) (h : OnlyCa s t) : OnlyCa s r where
  rest := by
    have e1 := h.rest
    have e2 := h'.rest
    rw [e1] at e2
    exact e2
  latchN := h'.latchN.trans h.latchN
  latchMaxbits := h'.latchMaxbits.trans h.latchMaxbits
  regN := h'.regN.trans h.regN
  regMaxbits := h'.regMaxbits.trans h.regMaxbits

theorem onlyCa_finish (s : State) : OnlyCa s (s.finish .ca) := ⟨rfl, rfl, rfl, rfl, rfl⟩
theorem onlyCa_raise (s : State) (c : ErrCode) (ix : Word) (v : BitVec 64) : OnlyCa s (s.raise .ca c ix v) :=
  ⟨rfl, rfl, rfl, rfl, rfl⟩
theorem onlyCa_setCaPhase (s : State) (p : CaPhase) : OnlyCa s (s.setCaPhase p) := ⟨rfl, rfl, rfl, rfl, rfl⟩

theorem onlyCa_enterEmit (s : State) (i : Nat) : OnlyCa s (enterEmit i s) := by
  rw [enterEmit]; split
  · exact onlyCa_setCaPhase _ _
  · exact onlyCa_finish _

theorem onlyCa_enterBase (s : State) (L : Nat) : OnlyCa s (enterBase L s) := by
  rw [enterBase]; split
  · exact onlyCa_setCaPhase _ _
  · exact onlyCa_enterEmit _ _

theorem onlyCa_enterTally (s : State) (i : Nat) : OnlyCa s (enterTally i s) := by
  rw [enterTally]; split <;> exact onlyCa_setCaPhase _ _

theorem onlyCa_enterClear (s : State) (L : Nat) : OnlyCa s (enterClear L s) := by
  rw [enterClear]; split
  · exact onlyCa_setCaPhase _ _
  · exact onlyCa_enterTally _ _

theorem mem_enterEmit (s : State) (i : Nat) : (enterEmit i s).mem = s.mem := by
  rw [enterEmit]; split <;> rfl
theorem mem_enterBase (s : State) (L : Nat) : (enterBase L s).mem = s.mem := by
  rw [enterBase]; split
  · rfl
  · exact mem_enterEmit _ _
theorem mem_enterTally (s : State) (i : Nat) : (enterTally i s).mem = s.mem := by
  rw [enterTally]; split <;> rfl
theorem mem_enterClear (s : State) (L : Nat) : (enterClear L s).mem = s.mem := by
  rw [enterClear]; split
  · rfl
  · exact mem_enterTally _ _

/-- A piece of CA's work changes CA and, in pass 3, the entry of one symbol with a length (R85, R138, R159). -/
theorem caTick_spec {s t : State} (h : caTick s = .next t) :
    OnlyCa s t ∧ (t.mem = s.mem ∨ ∃ i l w, s.ca.phase = .emit i ∧ s.readLen i = some l ∧ l ≠ 0 ∧
      t.mem = s.mem.writeWord (symAddr i) w) := by
  cases hp : s.ca.phase with
  | idle => simp only [caTick, hp] at h; cases h; exact ⟨.refl _, .inl rfl⟩
  | check =>
    simp only [caTick, hp] at h; cases h
    rw [caCheck]; split
    · exact ⟨onlyCa_raise _ _ _ _, .inl rfl⟩
    · split
      · exact ⟨onlyCa_raise _ _ _ _, .inl rfl⟩
      · exact ⟨onlyCa_enterClear _ _, .inl (mem_enterClear _ _)⟩
  | clear L =>
    simp only [caTick, hp] at h; cases h
    exact ⟨OnlyCa.after (onlyCa_enterClear _ _) ⟨rfl, rfl, rfl, rfl, rfl⟩, .inl (mem_enterClear _ _)⟩
  | tally i =>
    simp only [caTick, hp, caTally] at h
    split at h
    · cases h
    · split at h
      · cases h; exact ⟨onlyCa_raise _ _ _ _, .inl rfl⟩
      · cases h; exact ⟨OnlyCa.after (onlyCa_enterTally _ _) ⟨rfl, rfl, rfl, rfl, rfl⟩, .inl (mem_enterTally _ _)⟩
  | exclude =>
    simp only [caTick, hp] at h; cases h
    exact ⟨OnlyCa.after (onlyCa_enterBase _ _) ⟨rfl, rfl, rfl, rfl, rfl⟩, .inl (mem_enterBase _ _)⟩
  | base L =>
    simp only [caTick, hp] at h; cases h
    exact ⟨OnlyCa.after (onlyCa_enterBase _ _) ⟨rfl, rfl, rfl, rfl, rfl⟩, .inl (mem_enterBase _ _)⟩
  | emit i =>
    simp only [caTick, hp, caEmit] at h
    split at h
    · cases h
    · next l hl =>
      split at h
      · cases h; exact ⟨onlyCa_enterEmit _ _, .inl (mem_enterEmit _ _)⟩
      · next h0 =>
        cases h
        exact ⟨OnlyCa.after (onlyCa_enterEmit _ _) ⟨rfl, rfl, rfl, rfl, rfl⟩,
          .inr ⟨i, l, _, rfl, hl, h0, mem_enterEmit _ _⟩⟩

/-- A piece of CA's work keeps CA as it must be. -/
theorem caOk_tick {s t : State} (hok : CaOk s.params s.ca) (hb : s.ca.phase ≠ .idle) (h : caTick s = .next t) :
    CaOk s.params t.ca := by
  have hr := caOk_runs hok hb
  have hin := hok.inBounds
  cases hp : s.ca.phase with
  | idle => exact absurd hp hb
  | check =>
    simp only [caTick, hp] at h; cases h
    rw [caCheck]; split
    · exact caOk_raise (by decide) (by decide) _ _
    · split
      · exact caOk_raise (by decide) (by decide) _ _
      · exact hr.enterClear (by omega) (by omega) _
  | clear L =>
    rw [hp] at hin
    simp only [caTick, hp] at h; cases h
    exact CaRuns.enterClear (s := { s with ca := { s.ca with blCount := tableWrite s.ca.blCount L 0 } })
      ⟨(length_tableWrite _ _ _).trans hr.1, hr.2, hr.3, hr.4, hr.5, hr.6⟩ hin.1 hin.2.1 _
  | tally i =>
    rw [hp] at hin
    simp only [caTick, hp, caTally] at h
    split at h
    · cases h
    · split at h
      · cases h; exact caOk_raise (by decide) (by decide) _ _
      · next l _ _ =>
        cases h
        exact CaRuns.enterTally (s := { s with ca := { s.ca with
            blCount := tableWrite s.ca.blCount l.toNat (tableRead s.ca.blCount l.toNat + 1) } })
          ⟨(length_tableWrite _ _ _).trans hr.1, hr.2, hr.3, hr.4, hr.5, hr.6⟩ hin.1 hin.2.1 _
  | exclude =>
    rw [hp] at hin
    simp only [caTick, hp] at h; cases h
    exact CaRuns.enterBase (s := { s with ca := { s.ca with blCount := tableWrite s.ca.blCount 0 0, code := 0 } })
      ⟨(length_tableWrite _ _ _).trans hr.1, hr.2, hr.3, hr.4, hr.5, hr.6⟩ hin.1 hin.2 le_rfl
  | base L =>
    rw [hp] at hin
    simp only [caTick, hp] at h; cases h
    refine CaRuns.enterBase (s := { s with ca := { s.ca with
        code := (s.ca.code + tableRead s.ca.blCount (L - 1)) <<< 1
        nextCode := tableWrite s.ca.nextCode L ((s.ca.code + tableRead s.ca.blCount (L - 1)) <<< 1) } })
      ⟨hr.1, (length_tableWrite _ _ _).trans hr.2, hr.3, hr.4, hr.5, hr.6⟩ hin.1 hin.2.1 (by omega)
  | emit i =>
    rw [hp] at hin
    simp only [caTick, hp, caEmit] at h
    split at h
    · cases h
    · next l _ =>
      split at h
      · cases h; exact hr.enterEmit hin.1 hin.2.1 _
      · cases h
        exact CaRuns.enterEmit (s := { s.writeSym i (tableRead s.ca.nextCode l.toNat) with
            ca := { s.ca with nextCode := tableWrite s.ca.nextCode l.toNat (tableRead s.ca.nextCode l.toNat + 1) } })
          ⟨hr.1, (length_tableWrite _ _ _).trans hr.2, hr.3, hr.4, hr.5, hr.6⟩ hin.1 hin.2.1 _

/-! ### EE -/

theorem eeOk_raise {s : State} {c : ErrCode} (hc : c.code ∈ eeCodes) (h0 : c ≠ .none) (ix : Word) (v : BitVec 64)
    (p : Params) : EeOk p (raiseEe c ix v s).ee where
  inBounds := trivial
  latched := fun hp => absurd rfl hp
  quiet := fun hp => absurd rfl hp
  cleared := fun hp => absurd rfl hp
  recorded := fun h => absurd (ErrCode.code_eq_zero.1 h) h0
  known := hc

/-- EE as it must be, but for where it stands. -/
structure EeRuns (ee : EeUnit) : Prop where
  latched : ee.latchN = ee.regN
  quiet : ee.done = false ∧ ee.err = false
  cleared : ee.errCode = 0#8
  recorded : ee.errIndex = 0 ∧ ee.errValueLo = 0 ∧ ee.errValueHi = 0

theorem eeOk_runs {p : Params} {ee : EeUnit} (h : EeOk p ee) (hp : ee.phase ≠ .idle) : EeRuns ee where
  latched := h.latched hp
  quiet := h.quiet hp
  cleared := h.cleared hp
  recorded := (h.recorded (h.cleared hp)).2

theorem EeRuns.ok {p : Params} {ee : EeUnit} (h : EeRuns ee) (hb : EePhase.InBounds p ee.latchN.toNat ee.phase) :
    EeOk p ee where
  inBounds := hb
  latched := fun _ => h.latched
  quiet := fun _ => h.quiet
  cleared := fun _ => h.cleared
  recorded := fun _ => ⟨h.quiet.2, h.recorded⟩
  known := by rw [h.cleared]; decide

theorem EeRuns.setPhase {s : State} {p : Params} (h : EeRuns s.ee) {ph : EePhase}
    (hb : EePhase.InBounds p s.ee.latchN.toNat ph) : EeOk p (s.setEePhase ph).ee :=
  EeRuns.ok (ee := (s.setEePhase ph).ee) ⟨h.1, h.2, h.3, h.4⟩ hb

theorem EeRuns.finish {s : State} {p : Params} (h : EeRuns s.ee) : EeOk p (s.finish .ee).ee where
  inBounds := trivial
  latched := fun hp => absurd rfl hp
  quiet := fun hp => absurd rfl hp
  cleared := fun hp => absurd rfl hp
  recorded := fun _ => ⟨h.quiet.2, h.recorded⟩
  known := by show s.ee.errCode ∈ _; rw [h.cleared]; decide

theorem EeRuns.enterCost {s : State} {p : Params} (h : EeRuns s.ee) (hn : s.ee.latchN.toNat ≤ p.nMax) (i : Nat) :
    EeOk p (enterCost i s).ee := by
  rw [Machine.enterCost]
  split
  · next hi => exact h.setPhase ⟨hn, hi⟩
  · exact h.finish

theorem EeRuns.enterSum {s : State} {p : Params} (h : EeRuns s.ee) (hn : s.ee.latchN.toNat ≤ p.nMax)
    (h1 : 1 ≤ s.ee.latchN.toNat) (i : Nat) : EeOk p (enterSum i s).ee := by
  rw [Machine.enterSum]
  split
  · next hi => exact h.setPhase ⟨hn, hi⟩
  · exact h.setPhase ⟨hn, h1⟩

theorem costError_code {v : F64} {e : ErrCode} (h : costError v = some e) :
    e.code ∈ eeCodes ∧ e ≠ .none := by
  simp only [costError] at h
  split at h
  · cases h; decide
  · split at h
    · cases h; decide
    · cases h

/-- A piece of EE's work keeps EE as it must be. -/
theorem eeOk_tick {u : LogUnits} {s t : State} (hok : EeOk s.params s.ee) (hb : s.ee.phase ≠ .idle)
    (h : eeTick u s = .next t) : EeOk s.params t.ee := by
  have hr := eeOk_runs hok hb
  have hin := hok.inBounds
  cases hp : s.ee.phase with
  | idle => exact absurd hp hb
  | check =>
    simp only [eeTick, hp] at h; cases h
    rw [eeCheck]; split
    · exact eeOk_raise (by decide) (by decide) _ _ _
    · split
      · exact eeOk_raise (by decide) (by decide) _ _ _
      · next hn h0 =>
        refine EeRuns.enterSum (s := { s with ee := { s.ee with sum := 0 } }) ⟨hr.1, hr.2, hr.3, hr.4⟩
          (not_lt.1 hn) ?_ _
        show 1 ≤ s.ee.latchN.toNat
        exact Nat.one_le_iff_ne_zero.2 (fun hz => h0 (BitVec.eq_of_toNat_eq hz))
  | sum i =>
    rw [hp] at hin
    simp only [eeTick, hp, eeSum] at h
    split at h
    · cases h
    · next c _ =>
      cases h
      exact EeRuns.enterSum (s := { s with ee := { s.ee with sum := s.ee.sum + c.setWidth 64 } })
        ⟨hr.1, hr.2, hr.3, hr.4⟩ hin.1 (by have := hin.2; show 1 ≤ s.ee.latchN.toNat; omega) _
  | log =>
    rw [hp] at hin
    simp only [eeTick, hp] at h; cases h
    exact EeRuns.enterCost (s := { s with ee := { s.ee with log2sum := baseCost u s.ee.latchN s.ee.sum } })
      ⟨hr.1, hr.2, hr.3, hr.4⟩ hin.1 _
  | cost i =>
    rw [hp] at hin
    simp only [eeTick, hp, eeCost] at h
    split at h
    · cases h
    · next c _ =>
      split at h
      · next e he =>
        cases h
        exact eeOk_raise (costError_code he).1 (costError_code he).2 _ _ _
      · cases h
        exact EeRuns.enterCost (s := State.writeBitlen i (clampCost s.params.eps (rawCost u s.ee.log2sum c))
            { s with ee := { s.ee with v := clampCost s.params.eps (rawCost u s.ee.log2sum c) } })
          ⟨hr.1, hr.2, hr.3, hr.4⟩ hin.1 _

/-- Everything but EE and the memory is as it was, and so is EE's operand (R138, R50). -/
structure OnlyEe (s t : State) : Prop where
  rest : t = { s with ee := t.ee, mem := t.mem }
  latchN : t.ee.latchN = s.ee.latchN
  regN : t.ee.regN = s.ee.regN

theorem OnlyEe.refl (s : State) : OnlyEe s s := ⟨rfl, rfl, rfl⟩

theorem OnlyEe.after {s t r : State} (h' : OnlyEe t r) (h : OnlyEe s t) : OnlyEe s r where
  rest := by
    have e1 := h.rest
    have e2 := h'.rest
    rw [e1] at e2
    exact e2
  latchN := h'.latchN.trans h.latchN
  regN := h'.regN.trans h.regN

theorem onlyEe_raiseEe (s : State) (c : ErrCode) (ix : Word) (v : BitVec 64) : OnlyEe s (raiseEe c ix v s) :=
  ⟨rfl, rfl, rfl⟩

theorem onlyEe_enterCost (s : State) (i : Nat) : OnlyEe s (enterCost i s) := by
  rw [enterCost]; split <;> exact ⟨rfl, rfl, rfl⟩

theorem onlyEe_enterSum (s : State) (i : Nat) : OnlyEe s (enterSum i s) := by
  rw [enterSum]; split <;> exact ⟨rfl, rfl, rfl⟩

theorem mem_enterCost (s : State) (i : Nat) : (enterCost i s).mem = s.mem := by
  rw [enterCost]; split <;> rfl
theorem mem_enterSum (s : State) (i : Nat) : (enterSum i s).mem = s.mem := by
  rw [enterSum]; split <;> rfl

/-- A piece of EE's work changes EE and, in the memory, nothing, one BITLEN entry below `n`, or, when it raises an
error, all of them (R85, R138, R200, R201). -/
theorem eeTick_spec {u : LogUnits} {s t : State} (h : eeTick u s = .next t) :
    OnlyEe s t ∧ (t.mem = s.mem ∨ (∃ i v, s.ee.phase = .cost i ∧ t.mem = s.mem.writeDword (bitlenAddr i) v) ∨
      (s.ee.phase ≠ .idle ∧ t.ee.phase = .idle ∧ t.mem = s.mem.forget (inBitlen (s.outputSpan .ee)))) := by
  cases hp : s.ee.phase with
  | idle => simp only [eeTick, hp] at h; cases h; exact ⟨.refl _, .inl rfl⟩
  | check =>
    simp only [eeTick, hp] at h; cases h
    rw [eeCheck]; split
    · exact ⟨onlyEe_raiseEe _ _ _ _, .inr (.inr ⟨nofun, rfl, rfl⟩)⟩
    · split
      · exact ⟨onlyEe_raiseEe _ _ _ _, .inr (.inr ⟨nofun, rfl, rfl⟩)⟩
      · exact ⟨OnlyEe.after (onlyEe_enterSum _ _) ⟨rfl, rfl, rfl⟩, .inl (mem_enterSum _ _)⟩
  | sum i =>
    simp only [eeTick, hp, eeSum] at h
    split at h
    · cases h
    · cases h; exact ⟨OnlyEe.after (onlyEe_enterSum _ _) ⟨rfl, rfl, rfl⟩, .inl (mem_enterSum _ _)⟩
  | log =>
    simp only [eeTick, hp] at h; cases h
    exact ⟨OnlyEe.after (onlyEe_enterCost _ _) ⟨rfl, rfl, rfl⟩, .inl (mem_enterCost _ _)⟩
  | cost i =>
    simp only [eeTick, hp, eeCost] at h
    split at h
    · cases h
    · split at h
      · cases h; exact ⟨OnlyEe.after (onlyEe_raiseEe _ _ _ _) ⟨rfl, rfl, rfl⟩, .inr (.inr ⟨nofun, rfl, rfl⟩)⟩
      · cases h
        exact ⟨OnlyEe.after (onlyEe_enterCost _ _) ⟨rfl, rfl, rfl⟩, .inr (.inl ⟨i, _, rfl, mem_enterCost _ _⟩)⟩

end Sys2Proof.Machine
end

