-- ==== Sys2Proof/Laws/Bus.lean ====
section
/-! SUPPORT. Laws/Bus.lean: what an address names, and everything a host read, a host write and an acceptance can
do. -/

namespace Sys2Proof.Machine

open Sys2Proof.Safety

/-! ### Addresses -/

theorem regAt_offset (r : Reg) : regAt r.offset = some r := by cases r <;> rfl

theorem decodeAddr_reg (p : Params) (r : Reg) : decodeAddr p (BitVec.ofNat 15 r.offset) = .reg r := by
  cases r <;> rfl

theorem toNat_ofNat_addr {a : Nat} (h : a < 0x8000) : (BitVec.ofNat 15 a).toNat = a := by
  rw [BitVec.toNat_ofNat]; exact Nat.mod_eq_of_lt h

theorem decodeAddr_len {p : Params} {i : Nat} (hN : p.nMax ≤ 1024) (h : i < p.nMax) :
    decodeAddr p (BitVec.ofNat 15 (lenAddr i)) = .lenEntry i := by
  have e : (BitVec.ofNat 15 (lenAddr i)).toNat = 0x1000 + 4 * i := toNat_ofNat_addr (by simp only [lenAddr]; omega)
  have hi : (0x1000 + 4 * i - 0x1000) >>> 2 = i := by rw [Nat.shiftRight_eq_div_pow]; omega
  simp only [decodeAddr, e]
  rw [if_neg (by omega), if_pos (by omega), hi, mappedEntry, if_pos h]

theorem decodeAddr_sym {p : Params} {i : Nat} (hN : p.nMax ≤ 1024) (h : i < p.nMax) :
    decodeAddr p (BitVec.ofNat 15 (symAddr i)) = .symEntry i := by
  have e : (BitVec.ofNat 15 (symAddr i)).toNat = 0x2000 + 4 * i := toNat_ofNat_addr (by simp only [symAddr]; omega)
  have hi : (0x2000 + 4 * i - 0x2000) >>> 2 = i := by rw [Nat.shiftRight_eq_div_pow]; omega
  simp only [decodeAddr, e]
  rw [if_neg (by omega), if_neg (by omega), if_pos (by omega), hi, mappedEntry, if_pos h]

theorem decodeAddr_cnt {p : Params} {i : Nat} (hN : p.nMax ≤ 1024) (h : i < p.nMax) :
    decodeAddr p (BitVec.ofNat 15 (cntAddr i)) = .cntEntry i := by
  have e : (BitVec.ofNat 15 (cntAddr i)).toNat = 0x3000 + 4 * i := toNat_ofNat_addr (by simp only [cntAddr]; omega)
  have hi : (0x3000 + 4 * i - 0x3000) >>> 2 = i := by rw [Nat.shiftRight_eq_div_pow]; omega
  simp only [decodeAddr, e]
  rw [if_neg (by omega), if_neg (by omega), if_neg (by omega), if_pos (by omega), hi, mappedEntry, if_pos h]

theorem decodeAddr_bitlen {p : Params} {i : Nat} (hN : p.nMax ≤ 1024) (h : i < p.nMax) (high : Bool) :
    decodeAddr p (BitVec.ofNat 15 (bitlenHalfAddr i high)) = .bitlenHalf i high := by
  have hb : bitlenHalfAddr i high = 0x4000 + 8 * i + if high then 4 else 0 := rfl
  have hl : bitlenHalfAddr i high < 0x6000 := by rw [hb]; split <;> omega
  have hg : 0x4000 ≤ bitlenHalfAddr i high := by rw [hb]; omega
  have e : (BitVec.ofNat 15 (bitlenHalfAddr i high)).toNat = bitlenHalfAddr i high := toNat_ofNat_addr (by omega)
  have hi : (bitlenHalfAddr i high - 0x4000) >>> 3 = i := by
    rw [Nat.shiftRight_eq_div_pow, hb]; split <;> omega
  have h2 : (BitVec.ofNat 15 (bitlenHalfAddr i high)).getLsbD 2 = high := by
    rw [BitVec.getLsbD, e, Nat.testBit, Nat.shiftRight_eq_div_pow, Nat.one_and_eq_mod_two, hb]
    cases high
    · simp; omega
    · simp; omega
  simp only [decodeAddr, e]
  rw [if_neg (by omega), if_neg (by omega), if_neg (by omega), if_neg (by omega), if_pos hl, hi, h2, mappedEntry,
    if_pos h]

/-- An address that names an array entry names one that exists (R73). -/
theorem decodeAddr_index {p : Params} {a : BusAddr} {i : Nat}
    (h : decodeAddr p a = .lenEntry i ∨ decodeAddr p a = .symEntry i ∨ decodeAddr p a = .cntEntry i ∨
      ∃ b, decodeAddr p a = .bitlenHalf i b) : i < p.nMax := by
  simp only [decodeAddr, mappedEntry] at h
  split at h
  · split at h <;> simp at h
  · split at h
    · split at h
      · next hi => simp at h; exact h ▸ hi
      · simp at h
    · split at h
      · split at h
        · next hi => simp at h; exact h ▸ hi
        · simp at h
      · split at h
        · split at h
          · next hi => simp at h; exact h ▸ hi
          · simp at h
        · split at h
          · split at h
            · next hi => simp at h; exact h ▸ hi
            · simp at h
          · simp at h

/-! ### Reads -/

/-- A read changes at most how many free values have been drawn (R75, R80). -/
theorem busRead_spec {a : BusAddr} {w : Word} {s t : State} (h : busRead a s = .ok (w, t)) :
    t = s ∨ t = { s with busDraws := s.busDraws + 1 } := by
  have stored : ∀ {x : Nat}, readStored x s = .ok (w, t) → t = s := by
    intro x hx
    rw [readStored] at hx
    split at hx
    · cases hx; rfl
    · cases hx
  have output : ∀ {e : Engine} {i x : Nat}, readOutput e i x s = .ok (w, t) →
      t = s ∨ t = { s with busDraws := s.busDraws + 1 } := by
    intro e i x hx
    rw [readOutput] at hx
    split at hx
    · cases hx; exact .inr rfl
    · exact .inl (stored hx)
  rw [busRead] at h
  split at h
  · cases h; exact .inl rfl
  · cases h; exact .inl rfl
  · cases h; exact .inl rfl
  · exact .inl (stored h)
  · exact .inl (stored h)
  · exact output h
  · exact output h

/-! ### Acceptance -/

/-- An accepted command leaves CA as it must be (R133). -/
theorem caOk_accept {s : State} (h : CaOk s.params s.ca) : CaOk s.params (s.accept .ca).ca where
  blCountLength := h.blCountLength
  nextCodeLength := h.nextCodeLength
  inBounds := trivial
  latched := fun _ => ⟨rfl, rfl⟩
  quiet := fun _ => ⟨rfl, rfl⟩
  cleared := fun _ => rfl
  recorded := fun _ => ⟨rfl, rfl, rfl⟩
  known := by show 0#8 ∈ caCodes; decide

/-- An accepted command leaves EE as it must be (R134). -/
theorem eeOk_accept {s : State} (p : Params) : EeOk p (s.accept .ee).ee where
  inBounds := trivial
  latched := fun _ => rfl
  quiet := fun _ => ⟨rfl, rfl⟩
  cleared := fun _ => rfl
  recorded := fun _ => ⟨rfl, rfl, rfl, rfl⟩
  known := by show 0#8 ∈ eeCodes; decide

/-! ### Writes -/

/-- The command that starts an engine (R112). -/
def engineCommand : Engine → Instr
  | .ca => .assign
  | .ee => .estimate

/-- Everything a host write of `w` to address `a` can do, and when it does it. It never stops the machine. -/
inductive WriteEffect (a : BusAddr) (w : Word) (s : State) : State → Prop
  | dropped (e : Engine) (ha : (decodeAddr s.params a).owner = some e) (h : s.busy e = true) :
    WriteEffect a w s s.setWrDrop
  | ignored : WriteEffect a w s s
  | illegal (ha : decodeAddr s.params a = .reg .cmd) (hw : ∀ i, decodeWord w ≠ .ok i) : WriteEffect a w s s.setIllCmd
  | cmdDropped (e : Engine) (ha : decodeAddr s.params a = .reg .cmd) (hw : decodeWord w = .ok (engineCommand e))
    (h : s.busy e = true) : WriteEffect a w s s.setCmdDrop
  | accepted (e : Engine) (ha : decodeAddr s.params a = .reg .cmd) (hw : decodeWord w = .ok (engineCommand e))
    (h : s.busy e = false) : WriteEffect a w s (s.accept e)
  | status (ha : decodeAddr s.params a = .reg .status) : WriteEffect a w s (s.clearStatus w)
  | irqEn (ha : decodeAddr s.params a = .reg .irqEn) : WriteEffect a w s (s.writeIrqEn w)
  | caN (h : s.busy .ca = false) : WriteEffect a w s { s with ca := { s.ca with regN := w } }
  | caMaxbits (h : s.busy .ca = false) : WriteEffect a w s { s with ca := { s.ca with regMaxbits := w } }
  | eeN (h : s.busy .ee = false) : WriteEffect a w s { s with ee := { s.ee with regN := w } }
  | stored (x : Nat) (h : ArrayWord s.params x) : WriteEffect a w s (storeWord x w s)

theorem exec_effect {a : BusAddr} {w : Word} {s : State} (ha : decodeAddr s.params a = .reg .cmd) {i : Instr}
    (hw : decodeWord w = .ok i) : ∃ t, exec i s = .next t ∧ WriteEffect a w s t := by
  cases i with
  | nop => exact ⟨s, rfl, .ignored⟩
  | assign =>
    cases h : s.busy .ca
    · exact ⟨_, by rw [exec, execAssign, h]; rfl, .accepted .ca ha hw h⟩
    · exact ⟨_, by rw [exec, execAssign, h]; rfl, .cmdDropped .ca ha hw h⟩
  | estimate =>
    cases h : s.busy .ee
    · exact ⟨_, by rw [exec, execEstimate, h]; rfl, .accepted .ee ha hw h⟩
    · exact ⟨_, by rw [exec, execEstimate, h]; rfl, .cmdDropped .ee ha hw h⟩

theorem busWrite_effect (a : BusAddr) (w : Word) (s : State) :
    ∃ t, busWrite a w s = .next t ∧ WriteEffect a w s t := by
  rw [busWrite]
  cases hl : s.locked (decodeAddr s.params a)
  · simp only [Bool.false_eq_true, if_false]
    cases hd : decodeAddr s.params a with
    | reg r =>
      rw [hd] at hl
      cases r
      case cmd =>
        simp only [writeTarget, writeReg, dispatchCmd]
        split
        · next hw => exact exec_effect hd hw
        · next hw => exact ⟨_, rfl, .illegal hd (by simp [hw])⟩
      case status => exact ⟨_, rfl, .status hd⟩
      case irqEn => exact ⟨_, rfl, .irqEn hd⟩
      case caN => exact ⟨_, rfl, .caN hl⟩
      case caMaxbits => exact ⟨_, rfl, .caMaxbits hl⟩
      case eeN => exact ⟨_, rfl, .eeN hl⟩
      all_goals exact ⟨_, rfl, .ignored⟩
    | reserved => exact ⟨_, rfl, .ignored⟩
    | unmapped => exact ⟨_, rfl, .ignored⟩
    | lenEntry i => exact ⟨_, rfl, .stored _ (arrayWord_len (decodeAddr_index (.inl hd)))⟩
    | symEntry i => exact ⟨_, rfl, .stored _ (arrayWord_sym (decodeAddr_index (.inr (.inl hd))))⟩
    | cntEntry i => exact ⟨_, rfl, .stored _ (arrayWord_cnt (decodeAddr_index (.inr (.inr (.inl hd)))))⟩
    | bitlenHalf i b =>
      exact ⟨_, rfl, .stored _ (arrayWord_bitlen (decodeAddr_index (.inr (.inr (.inr ⟨b, hd⟩)))) b)⟩
  · simp only [State.locked] at hl
    split at hl
    · next e he => exact ⟨_, rfl, .dropped e he hl⟩
    · cases hl

/-- A host write never changes the parameters, what waits in front of the block, or the read data. -/
theorem WriteEffect.frame {a : BusAddr} {w : Word} {s t : State} (h : WriteEffect a w s t) :
    t = { s with ca := t.ca, ee := t.ee, bus := t.bus, irqEn := t.irqEn, mem := t.mem } := by
  cases h <;> try rfl
  case accepted e _ _ _ => cases e <;> rfl

/-- A host write keeps the memory as it must be. -/
theorem WriteEffect.memOk {a : BusAddr} {w : Word} {s t : State} (h : WriteEffect a w s t) (hm : MemOk s.params s.mem) :
    MemOk s.params t.mem := by
  cases h <;> try exact hm
  case accepted e _ _ _ => cases e <;> exact hm
  case stored x hx => exact memOk_writeWord hm hx w

/-- A host write keeps CA as it must be. -/
theorem WriteEffect.caOk {a : BusAddr} {w : Word} {s t : State} (h : WriteEffect a w s t)
    (hc : CaOk s.params s.ca) : CaOk s.params t.ca := by
  have idle : s.busy .ca = false → s.ca.phase = .idle := fun hb => by simpa [State.busy] using hb
  cases h <;> try exact hc
  case accepted e _ _ _ => cases e <;> [exact caOk_accept hc; exact hc]
  case status =>
    exact ⟨hc.1, hc.2, hc.3, hc.4, fun hp => by simp [State.clearStatus, hc.quiet hp], hc.6,
      fun h0 => by simp [State.clearStatus, hc.recorded h0], hc.8⟩
  case caN h =>
    exact ⟨hc.1, hc.2, hc.3, fun hp => absurd (idle h) hp, hc.5, hc.6, hc.7, hc.8⟩
  case caMaxbits h =>
    exact ⟨hc.1, hc.2, hc.3, fun hp => absurd (idle h) hp, hc.5, hc.6, hc.7, hc.8⟩

/-- A host write keeps EE as it must be. -/
theorem WriteEffect.eeOk {a : BusAddr} {w : Word} {s t : State} (h : WriteEffect a w s t)
    (hc : EeOk s.params s.ee) : EeOk s.params t.ee := by
  have idle : s.busy .ee = false → s.ee.phase = .idle := fun hb => by simpa [State.busy] using hb
  cases h <;> try exact hc
  case accepted e _ _ _ => cases e <;> [exact hc; exact eeOk_accept _]
  case status =>
    exact ⟨hc.1, hc.2, fun hp => by simp [State.clearStatus, hc.quiet hp], hc.4,
      fun h0 => by simp [State.clearStatus, hc.recorded h0], hc.6⟩
  case eeN h => exact ⟨hc.1, fun hp => absurd (idle h) hp, hc.3, hc.4, hc.5, hc.6⟩

/-! ### Reset -/

/-- A reset leaves the memory and both engines as they must be (R270 to R273). -/
theorem inv_applyReset {s : State} (h : StateInv s) : StateInv s.applyReset where
  params := h.params
  mem := memOk_forget h.mem (abandoned_word s)
  ca := ⟨length_freeTable _ _ _, length_freeTable _ _ _, trivial, fun hp => absurd rfl hp, fun hp => absurd rfl hp,
    fun hp => absurd rfl hp, fun _ => ⟨rfl, rfl, rfl⟩, by show 0#8 ∈ caCodes; decide⟩
  ee := ⟨trivial, fun hp => absurd rfl hp, fun hp => absurd rfl hp, fun hp => absurd rfl hp,
    fun _ => ⟨rfl, rfl, rfl, rfl⟩, by show 0#8 ∈ eeCodes; decide⟩

end Sys2Proof.Machine
end

