-- ==== Sys2Proof/Laws/LogUnits.lean ====
section
/-! SUPPORT. Laws/LogUnits.lean: correct rounding. What rounding a multiple of a power of two, and rounding a cell,
deliver is nearest to the number; so a value on which both ends of an enclosure agree is nearest to what it encloses.
Nearest values are monotone in the number, and where no tie can arise they are the only nearest ones
(spec/42_estimate.md rule R196). -/

namespace Sys2Proof.Machine.Log

open Sys2Proof.Safety

/-! ### Nearest values -/

theorem realOf_le_iff (a b : F64) : realOf a ≤ realOf b ↔ Fp.orderKey a ≤ Fp.orderKey b := by
  rw [realOf, realOf, div_le_div_iff_of_pos_right (by positivity), Int.cast_le, Fp.scaled_le_iff]

/-- Nearest values are monotone in the number they are nearest to. -/
theorem nearest_mono {a b : F64} {x y : ℝ} (ha : Nearest a x) (hb : Nearest b y) (h : x < y) : fle a b := by
  refine ⟨Fp.isNaN_of_isFinite ha.1, Fp.isNaN_of_isFinite hb.1, (realOf_le_iff a b).1 ?_⟩
  have h1 := ha.2 b hb.1
  have h2 := hb.2 a ha.1
  by_contra hc
  rcases abs_cases (realOf a - x) with ⟨e1, _⟩ | ⟨e1, _⟩ <;> rcases abs_cases (realOf b - x) with ⟨e2, _⟩ | ⟨e2, _⟩ <;>
    rcases abs_cases (realOf b - y) with ⟨e3, _⟩ | ⟨e3, _⟩ <;> rcases abs_cases (realOf a - y) with ⟨e4, _⟩ | ⟨e4, _⟩ <;>
    linarith

/-- A value nearest to two numbers is nearest to every number between them. -/
theorem nearest_between {a : F64} {x y z : ℝ} (hx : Nearest a x) (hy : Nearest a y) (h1 : x ≤ z) (h2 : z ≤ y) :
    Nearest a z := by
  refine ⟨hx.1, fun b hb => ?_⟩
  have h3 := hx.2 b hb
  have h4 := hy.2 b hb
  by_contra hc
  rcases abs_cases (realOf a - x) with ⟨e1, _⟩ | ⟨e1, _⟩ <;> rcases abs_cases (realOf b - x) with ⟨e2, _⟩ | ⟨e2, _⟩ <;>
    rcases abs_cases (realOf b - y) with ⟨e3, _⟩ | ⟨e3, _⟩ <;> rcases abs_cases (realOf a - y) with ⟨e4, _⟩ | ⟨e4, _⟩ <;>
    rcases abs_cases (realOf a - z) with ⟨e5, _⟩ | ⟨e5, _⟩ <;> rcases abs_cases (realOf b - z) with ⟨e6, _⟩ | ⟨e6, _⟩ <;>
    linarith

/-- Where the number is not midway between two values, the nearest value is the only one. -/
theorem onlyNearest_of_nearest {a : F64} {x : ℝ} (h : Nearest a x) (hx : ∀ c : ℤ, (2 ^ 1074 : Nat) * x ≠ c / 2) :
    OnlyNearest a x := by
  refine ⟨h.1, fun b hb hne => lt_of_le_of_ne (h.2 b hb) fun he => ?_⟩
  refine hx (Fp.scaled a + Fp.scaled b) ?_
  have hB : ((2 ^ 1074 : Nat) : ℝ) = 2 ^ 1074 := by push_cast; rfl
  have hB0 : (0 : ℝ) < 2 ^ 1074 := by positivity
  rw [hB]
  have ea : realOf a * 2 ^ 1074 = Fp.scaled a := div_mul_cancel₀ _ hB0.ne'
  have eb : realOf b * 2 ^ 1074 = Fp.scaled b := div_mul_cancel₀ _ hB0.ne'
  generalize (2 : ℝ) ^ 1074 = B at *
  have hmid : x = (realOf a + realOf b) / 2 := by
    rcases abs_eq_abs.1 he with h | h
    · exact absurd (by linarith) hne
    · linarith
  push_cast
  rw [← ea, ← eb, hmid]
  ring

/-- A value equal to the number is the only nearest one. -/
theorem onlyNearest_of_eq {a : F64} {x : ℝ} (hf : Fp.isFinite a = true) (h : realOf a = x) : OnlyNearest a x := by
  refine ⟨hf, fun b _ hne => ?_⟩
  rw [h, sub_self, abs_zero]
  exact abs_pos.2 (sub_ne_zero.2 (h ▸ hne))

/-! ### Rounding a multiple of 2^-1074 -/

/-- Below 2^1090 units, that is, below 2^16, rounding stays finite. -/
theorem encodeWide_lt {k : Nat} (h : k ≤ 2 ^ 1090) : Fp.encodeWide k < Fp.infMag :=
  lt_of_le_of_lt (Fp.encodeWide_mono h) (by decide +kernel)

/-- The value of a sign and a number of units. -/
def ofUnits (d : Int) : F64 := Fp.ofScaled (decide (d < 0)) d.natAbs

theorem magnitude_ofUnits {d : Int} (h : d.natAbs ≤ 2 ^ 1090) :
    Fp.magnitude (ofUnits d) = Fp.encodeWide d.natAbs := by
  rw [ofUnits, Fp.magnitude_ofScaled, Fp.encodeMag_eq, min_eq_left (encodeWide_lt h).le]

theorem isFinite_ofUnits {d : Int} (h : d.natAbs ≤ 2 ^ 1090) : Fp.isFinite (ofUnits d) = true := by
  rw [Fp.isFinite, magnitude_ofUnits h, decide_eq_true_eq]
  exact encodeWide_lt h

theorem scaled_ofUnits {d : Int} (h : d.natAbs ≤ 2 ^ 1090) :
    Fp.scaled (ofUnits d) = if d < 0 then -(Fp.decodeMag (Fp.encodeWide d.natAbs) : Int)
      else (Fp.decodeMag (Fp.encodeWide d.natAbs) : Int) := by
  rw [Fp.scaled, magnitude_ofUnits h, ofUnits, Fp.negative_ofScaled]
  simp only [decide_eq_true_eq]

/-- Rounding is nearest, counted in units. -/
theorem scaled_ofUnits_nearest {d : Int} (h : d.natAbs ≤ 2 ^ 1090) (z : F64) :
    |Fp.scaled (ofUnits d) - d| ≤ |Fp.scaled z - d| := by
  have hn := Fp.encodeWide_nearest d.natAbs (Fp.magnitude z)
  have h0 := Fp.encodeWide_nearest d.natAbs 0
  rw [Fp.decodeMag_zero] at h0
  rw [scaled_ofUnits h, Fp.scaled]
  generalize Fp.decodeMag (Fp.encodeWide d.natAbs) = R at *
  generalize Fp.decodeMag (Fp.magnitude z) = Z at *
  simp only [abs_le, le_abs] at *
  split <;> split <;> omega

theorem nearest_ofUnits {d : Int} (h : d.natAbs ≤ 2 ^ 1090) {x : ℝ} (hx : x * 2 ^ 1074 = d) :
    Nearest (ofUnits d) x := by
  refine ⟨isFinite_ofUnits h, fun z _ => ?_⟩
  have hB0 : (0 : ℝ) < 2 ^ 1074 := by positivity
  have key : ∀ a : F64, |realOf a - x| * 2 ^ 1074 = |((Fp.scaled a - d : Int) : ℝ)| := by
    intro a
    have ea : realOf a * 2 ^ 1074 = Fp.scaled a := div_mul_cancel₀ _ hB0.ne'
    generalize (2 : ℝ) ^ 1074 = B at *
    rw [Int.cast_sub, ← ea, ← hx, ← sub_mul, abs_mul, abs_of_pos hB0]
  refine le_of_mul_le_mul_right ?_ hB0
  rw [key, key]
  exact_mod_cast scaled_ofUnits_nearest h z

/-- The value that rounding a multiple of `2^-bits` delivers is nearest to it. -/
theorem nearest_roundDyadic {bits : Nat} (hb : bits ≤ 1074) {n : Int} (h : n.natAbs ≤ 2 ^ (bits + 16)) {x : ℝ}
    (hx : 2 ^ bits * x = n) : Nearest (roundDyadic bits n) x := by
  have e : roundDyadic bits n = ofUnits (n * 2 ^ (1074 - bits)) := by
    have hp : (0 : Int) < 2 ^ (1074 - bits) := by positivity
    rw [roundDyadic, ofUnits, Int.natAbs_mul, Int.natAbs_pow]
    congr 1
    rw [decide_eq_decide, mul_neg_iff]
    constructor
    · exact fun h => Or.inr ⟨h, hp⟩
    · rintro (⟨-, h⟩ | ⟨h, -⟩)
      · omega
      · exact h
  rw [e]
  refine nearest_ofUnits ?_ ?_
  · rw [Int.natAbs_mul, Int.natAbs_pow, show (1090 : Nat) = (bits + 16) + (1074 - bits) by omega, Nat.pow_add]
    exact Nat.mul_le_mul_right _ h
  · rw [Int.cast_mul, ← hx, show (1074 : Nat) = bits + (1074 - bits) by omega, pow_add, Nat.add_sub_cancel_left]
    push_cast
    ring

/-! ### Rounding a cell -/

/-- A magnitude of at least `2^(52+s)` units is a multiple of `2^s`. -/
theorem dvd_scaled {a : F64} {s : Nat} (h : 2 ^ (52 + s) ≤ |Fp.scaled a|) : (2 ^ s : Int) ∣ Fp.scaled a := by
  have hm : ((2 ^ (52 + s) : Nat) : Int) ≤ (Fp.decodeMag (Fp.magnitude a) : Int) := by
    rw [Fp.scaled] at h
    push_cast
    split at h
    · rwa [abs_neg, Nat.abs_cast] at h
    · rwa [Nat.abs_cast] at h
  have hd : ((2 ^ s : Nat) : Int) ∣ (Fp.decodeMag (Fp.magnitude a) : Int) :=
    Int.natCast_dvd_natCast.2 (Fp.dvd_decodeMag (by exact_mod_cast hm))
  rw [Fp.scaled]
  push_cast at hd
  split
  · exact (dvd_neg).2 hd
  · exact hd

/-- The odd end of a cell. -/
def oddEnd (c : Int) : Int := if c % 2 = 0 then c + 1 else c

theorem roundCell_eq (c : Int) : roundCell c = ofUnits (oddEnd c) := rfl

/-- The value that rounding a cell delivers is nearest to every number in the cell, where values are multiples of 4
units. -/
theorem nearest_roundCell {c : Int} (hlow : 2 ^ 56 ≤ |c|) (hhigh : |c| ≤ 2 ^ 1089) {x : ℝ}
    (h1 : (c : ℝ) < x * 2 ^ 1074) (h2 : x * 2 ^ 1074 < c + 1) : Nearest (roundCell c) x := by
  have hB0 : (0 : ℝ) < 2 ^ 1074 := by positivity
  have ho : oddEnd c % 2 = 1 ∧ (oddEnd c = c ∨ oddEnd c = c + 1) := by
    rw [oddEnd]; split <;> omega
  have hbig : (oddEnd c).natAbs ≤ 2 ^ 1090 := by
    have : (2 : Int) ^ 1090 = 2 * 2 ^ 1089 := by rw [← pow_succ']
    have hone : (1 : Int) ≤ 2 ^ 1089 := one_le_pow₀ (by norm_num)
    zify
    rw [this]
    generalize (2 : Int) ^ 1089 = P at *
    rcases ho.2 with h | h <;> rw [h] <;> simp only [abs_le] at * <;> omega
  rw [roundCell_eq]
  refine ⟨isFinite_ofUnits hbig, fun z hz => ?_⟩
  have hself := scaled_ofUnits_nearest hbig
  by_contra hc
  rw [not_le] at hc
  -- Counted in units, `y` is the value delivered and `v` the one that is nearer.
  have ey : realOf (ofUnits (oddEnd c)) * 2 ^ 1074 = Fp.scaled (ofUnits (oddEnd c)) := div_mul_cancel₀ _ hB0.ne'
  have ev : realOf z * 2 ^ 1074 = Fp.scaled z := div_mul_cancel₀ _ hB0.ne'
  have hnear : |(Fp.scaled z : ℝ) - x * 2 ^ 1074| < |(Fp.scaled (ofUnits (oddEnd c)) : ℝ) - x * 2 ^ 1074| := by
    rw [← ey, ← ev, ← sub_mul, ← sub_mul, abs_mul, abs_mul]
    exact mul_lt_mul_of_pos_right hc (abs_pos.2 hB0.ne')
  have hv := hself z
  have hpos := hself (ofUnits (2 ^ 55))
  have hneg := hself (ofUnits (-2 ^ 55))
  rw [show Fp.scaled (ofUnits (2 ^ 55)) = 2 ^ 55 by decide +kernel] at hpos
  rw [show Fp.scaled (ofUnits (-2 ^ 55)) = -2 ^ 55 by decide +kernel] at hneg
  have dy : 2 ^ (52 + 2) ≤ |Fp.scaled (ofUnits (oddEnd c))| → (2 ^ 2 : Int) ∣ Fp.scaled (ofUnits (oddEnd c)) := dvd_scaled
  have dv : 2 ^ (52 + 2) ≤ |Fp.scaled z| → (2 ^ 2 : Int) ∣ Fp.scaled z := dvd_scaled
  generalize x * 2 ^ 1074 = X at *
  generalize Fp.scaled (ofUnits (oddEnd c)) = y at *
  generalize Fp.scaled z = v at *
  generalize oddEnd c = o at *
  clear ey ev hc hhigh hbig hself
  -- The number is strictly nearer to `v` than to `y`, the odd end is not.
  have hside : (v < y ∧ 2 * c < y + v) ∨ (y < v ∧ y + v < 2 * (c + 1)) := by
    have hX : ((v : ℝ) < y ∧ 2 * X < y + v) ∨ ((y : ℝ) < v ∧ y + v < 2 * X) := by
      rcases abs_cases ((v : ℝ) - X) with ⟨e1, _⟩ | ⟨e1, _⟩ <;> rcases abs_cases ((y : ℝ) - X) with ⟨e2, _⟩ | ⟨e2, _⟩ <;>
        first
          | exact Or.inl ⟨by linarith, by linarith⟩
          | exact Or.inr ⟨by linarith, by linarith⟩
    rcases hX with ⟨g1, g2⟩ | ⟨g1, g2⟩
    · refine Or.inl ⟨by exact_mod_cast g1, ?_⟩
      have : ((2 * c : Int) : ℝ) < ((y + v : Int) : ℝ) := by push_cast; linarith
      exact_mod_cast this
    · refine Or.inr ⟨by exact_mod_cast g1, ?_⟩
      have : ((y + v : Int) : ℝ) < ((2 * (c + 1) : Int) : ℝ) := by push_cast; linarith
      exact_mod_cast this
  have hfar : |v - c| < |y - c| + 2 := by
    have : ((|v - c| : Int) : ℝ) < ((|y - c| + 2 : Int) : ℝ) := by
      push_cast
      have t1 : |(v : ℝ) - c| ≤ |(v : ℝ) - X| + |X - c| := abs_sub_le _ _ _
      have t2 : |(y : ℝ) - X| ≤ |(y : ℝ) - c| + |c - X| := abs_sub_le _ _ _
      have t3 : |X - c| < 1 := by rw [abs_lt]; constructor <;> linarith
      rw [abs_sub_comm (c : ℝ) X] at t2
      linarith
    exact_mod_cast this
  norm_num at dy dv
  have hy : (4 : Int) ∣ y := by
    apply dy
    simp only [abs_le, le_abs, abs_lt, lt_abs] at *
    omega
  have hvd : (4 : Int) ∣ v := by
    apply dv
    simp only [abs_le, le_abs, abs_lt, lt_abs] at *
    omega
  clear dy dv hpos hneg hnear hfar
  simp only [abs_le, le_abs] at *
  omega

/-! ### Rounding what the enclosures close in on -/

/-- A number that an enclosure holds lies in the cell that the enclosure lies in. -/
theorem mem_openCell {bits : Nat} {r : Int × Int} {c : Int} {x : ℝ} (h : openCell bits r = some c)
    (h1 : (r.1 : ℝ) ≤ 2 ^ bits * x) (h2 : 2 ^ bits * x ≤ r.2) : (c : ℝ) < x * 2 ^ 1074 ∧ x * 2 ^ 1074 < c + 1 := by
  rw [openCell] at h
  generalize hd : r.1 * 2 ^ 1074 / 2 ^ bits = d at h
  clear hd
  split at h
  · next hc =>
    obtain rfl := Option.some.inj h
    have hB0 : (0 : ℝ) < 2 ^ 1074 := by positivity
    have hP0 : (0 : ℝ) < 2 ^ bits := by positivity
    have c1 : ((d * 2 ^ bits : Int) : ℝ) < ((r.1 * 2 ^ 1074 : Int) : ℝ) := by exact_mod_cast hc.1
    have c2 : ((r.2 * 2 ^ 1074 : Int) : ℝ) < (((d + 1) * 2 ^ bits : Int) : ℝ) := by exact_mod_cast hc.2
    push_cast at c1 c2
    generalize (2 : ℝ) ^ 1074 = B at *
    constructor
    · refine lt_of_mul_lt_mul_right ?_ hP0.le
      calc (d : ℝ) * 2 ^ bits < r.1 * B := c1
        _ ≤ 2 ^ bits * x * B := mul_le_mul_of_nonneg_right h1 hB0.le
        _ = x * B * 2 ^ bits := by ring
    · refine lt_of_mul_lt_mul_right ?_ hP0.le
      calc x * B * 2 ^ bits = 2 ^ bits * x * B := by ring
        _ ≤ r.2 * B := mul_le_mul_of_nonneg_right h2 hB0.le
        _ < (d + 1) * 2 ^ bits := c2
  · exact absurd h (by simp)

/-- The two ways in which a number is rounded. -/
theorem correctlyRounded_cases (bits : Nat → Nat) (r : Nat → Int × Int)
    (h : ¬ RoundsAlike (bits firstPrecision) (r firstPrecision) → ∃ n, (openCell (bits n) (r n)).isSome = true) :
    RoundsAlike (bits firstPrecision) (r firstPrecision) ∧
        correctlyRounded bits r h = roundDyadic (bits firstPrecision) (r firstPrecision).1 ∨
      ¬ RoundsAlike (bits firstPrecision) (r firstPrecision) ∧
        ∃ n c, openCell (bits n) (r n) = some c ∧ correctlyRounded bits r h = roundCell c := by
  rw [correctlyRounded]
  split
  · next he => exact Or.inl ⟨he, rfl⟩
  · next he => exact Or.inr ⟨he, _, _, (Option.some_get _).symm, rfl⟩

/-- What is delivered is nearest to the number that the enclosures hold, where that number is neither too large nor,
unless the first enclosure settles it, too small for binary64. -/
theorem nearest_correctlyRounded {bits : Nat → Nat} {r : Nat → Int × Int}
    {h : ¬ RoundsAlike (bits firstPrecision) (r firstPrecision) → ∃ n, (openCell (bits n) (r n)).isSome = true} {x : ℝ}
    (hb : bits firstPrecision ≤ 1074) (h1 : ∀ n, ((r n).1 : ℝ) ≤ 2 ^ bits n * x)
    (h2 : ∀ n, 2 ^ bits n * x ≤ ((r n).2 : ℝ))
    (s1 : (r firstPrecision).1.natAbs ≤ 2 ^ (bits firstPrecision + 16))
    (s2 : (r firstPrecision).2.natAbs ≤ 2 ^ (bits firstPrecision + 16)) (hx : |x| ≤ 2 ^ 15)
    (hsmall : ¬ RoundsAlike (bits firstPrecision) (r firstPrecision) → 1 / 2 ^ 54 ≤ |x|) :
    Nearest (correctlyRounded bits r h) x := by
  have hP0 : (0 : ℝ) < 2 ^ bits firstPrecision := by positivity
  rcases correctlyRounded_cases bits r h with ⟨he, e⟩ | ⟨he, n, c, hc, e⟩
  · rw [e]
    have hi := nearest_roundDyadic hb s2 (mul_div_cancel₀ _ hP0.ne')
    rw [← show roundDyadic _ _ = roundDyadic _ _ from he] at hi
    refine nearest_between (nearest_roundDyadic hb s1 (mul_div_cancel₀ _ hP0.ne')) hi ?_ ?_
    · rw [div_le_iff₀ hP0, mul_comm]; exact h1 _
    · rw [le_div_iff₀ hP0, mul_comm]; exact h2 _
  · rw [e]
    obtain ⟨c1, c2⟩ := mem_openCell hc (h1 n) (h2 n)
    have habs : |x * 2 ^ 1074| = |x| * 2 ^ 1074 := by rw [abs_mul, abs_of_pos (a := (2 : ℝ) ^ 1074) (by positivity)]
    have hcx : |(c : ℝ) - x * 2 ^ 1074| < 1 := by rw [abs_lt]; constructor <;> linarith
    have t1 := abs_sub_abs_le_abs_sub (c : ℝ) (x * 2 ^ 1074)
    have t2 := abs_sub_abs_le_abs_sub (x * 2 ^ 1074) (c : ℝ)
    rw [abs_sub_comm, habs] at t2
    rw [habs] at t1
    refine nearest_roundCell ?_ ?_ c1 c2
    · have low : 1 / 2 ^ 54 * (2 : ℝ) ^ 1074 ≤ |x| * 2 ^ 1074 := mul_le_mul_of_nonneg_right (hsmall he) (by positivity)
      have e1 : (2 : ℝ) ^ 57 ≤ 1 / 2 ^ 54 * 2 ^ 1074 := by
        rw [one_div, inv_mul_eq_div, le_div_iff₀ (by positivity), ← pow_add]
        exact pow_le_pow_right₀ one_le_two (by norm_num)
      have : ((2 ^ 56 : Int) : ℝ) ≤ ((|c| : Int) : ℝ) := by
        push_cast
        generalize (2 : ℝ) ^ 1074 = B at *
        norm_num at *
        linarith
      exact_mod_cast this
    · have high : |x| * 2 ^ 1074 ≤ 2 ^ 1089 := by
        rw [show (2 : ℝ) ^ 1089 = 2 ^ 15 * 2 ^ 1074 by rw [← pow_add]]
        exact mul_le_mul_of_nonneg_right hx (by positivity)
      have : ((|c| : Int) : ℝ) < ((2 ^ 1089 + 1 : Int) : ℝ) := by
        push_cast
        generalize (2 : ℝ) ^ 1074 = B at *
        generalize (2 : ℝ) ^ 1089 = C at *
        linarith
      exact Int.lt_add_one_iff.1 (by exact_mod_cast this)

/-! ### The units -/

@[simp] theorem logUnits_log2 : logUnits.log2 = log2Unit := rfl
@[simp] theorem logUnits_ln : logUnits.ln = lnUnit := rfl

theorem realOf_eq_unitsIn {x : F64} (h : inDomain x = true) : realOf x = (unitsIn x : ℝ) / ((2 ^ 1074 : Nat) : ℝ) := by
  simp only [inDomain, Bool.and_eq_true, Bool.not_eq_true'] at h
  rw [realOf, Fp.scaled, h.1.2, unitsIn]
  push_cast
  simp

/-- Values other than 1 keep a distance from 1. -/
theorem unitsIn_gap {x : F64} (hne : unitsIn x ≠ 2 ^ 1074) :
    unitsIn x + 2 ^ 1021 ≤ 2 ^ 1074 ∨ 2 ^ 1074 + 2 ^ 1022 ≤ unitsIn x := by
  have one : Fp.decodeMag 0x3FF0000000000000 = 2 ^ 1074 := by decide +kernel
  have below : Fp.decodeMag 0x3FEFFFFFFFFFFFFF + 2 ^ 1021 = 2 ^ 1074 := by decide +kernel
  have above : Fp.decodeMag 0x3FF0000000000001 = 2 ^ 1074 + 2 ^ 1022 := by decide +kernel
  rw [unitsIn] at *
  rcases Nat.lt_trichotomy (Fp.magnitude x) 0x3FF0000000000000 with h | h | h
  · left
    rw [← below]
    exact Nat.add_le_add_right (Fp.decodeMag_le.2 (by omega)) _
  · exact absurd (h ▸ one) hne
  · right
    rw [← above]
    exact Fp.decodeMag_le.2 (by omega)

theorem unitsIn_lt {x : F64} (h : inDomain x = true) : unitsIn x < 2 ^ 2098 := by
  simp only [inDomain, Fp.isFinite, Bool.and_eq_true, decide_eq_true_eq] at h
  have top : Fp.decodeMag Fp.infMag = 2 ^ 2098 := by decide +kernel
  rw [unitsIn, ← top]
  exact Fp.decodeMag_lt.2 h.1.1

/-- The natural logarithm of a value other than 1 is not tiny. -/
theorem log_large {x : F64} (h : inDomain x = true) (hne : unitsIn x ≠ 2 ^ 1074) :
    1 / 2 ^ 54 ≤ |Real.log (unitsIn x) - 1074 * Real.log 2| := by
  have hk : (0 : ℝ) < unitsIn x := by exact_mod_cast unitsIn_pos h
  have hB : (0 : ℝ) < ((2 ^ 1074 : Nat) : ℝ) := by exact_mod_cast Nat.two_pow_pos _
  have e : (1074 : ℝ) * Real.log 2 = Real.log ((2 ^ 1074 : Nat) : ℝ) := by
    rw [Nat.cast_pow, Real.log_pow]; norm_num
  rw [e, ← Real.log_div hk.ne' hB.ne']
  have hq : 0 < (unitsIn x : ℝ) / ((2 ^ 1074 : Nat) : ℝ) := div_pos hk hB
  have p1 : (((2 ^ 1021 : Nat) : ℝ)) = ((2 ^ 1074 : Nat) : ℝ) / 2 ^ 53 := by
    rw [eq_div_iff (by positivity)]; push_cast; rw [← pow_add]
  have p2 : (((2 ^ 1022 : Nat) : ℝ)) = ((2 ^ 1074 : Nat) : ℝ) / 2 ^ 52 := by
    rw [eq_div_iff (by positivity)]; push_cast; rw [← pow_add]
  rcases unitsIn_gap hne with hg | hg
  · have hg' : (unitsIn x : ℝ) + ((2 ^ 1021 : Nat) : ℝ) ≤ ((2 ^ 1074 : Nat) : ℝ) := by exact_mod_cast hg
    rw [p1] at hg'
    generalize ((2 ^ 1074 : Nat) : ℝ) = B at *
    have h1 : (unitsIn x : ℝ) / B ≤ 1 - 1 / 2 ^ 53 := by
      rw [div_le_iff₀ hB]; linarith
    have h2 := Real.log_le_sub_one_of_pos hq
    have h3 : (1 : ℝ) / 2 ^ 54 ≤ 1 / 2 ^ 53 := by norm_num
    exact le_trans (by linarith) (neg_le_abs _)
  · have hg' : ((2 ^ 1074 : Nat) : ℝ) + ((2 ^ 1022 : Nat) : ℝ) ≤ (unitsIn x : ℝ) := by exact_mod_cast hg
    rw [p2] at hg'
    generalize ((2 ^ 1074 : Nat) : ℝ) = B at *
    have h1 : 1 + 1 / 2 ^ 52 ≤ (unitsIn x : ℝ) / B := by
      rw [le_div_iff₀ hB]; linarith
    have h2 := Real.one_sub_inv_le_log_of_pos hq
    have h3 : ((unitsIn x : ℝ) / B)⁻¹ ≤ (1 + 1 / 2 ^ 52)⁻¹ := inv_anti₀ (by positivity) h1
    have h4 : ((1 : ℝ) + 1 / 2 ^ 52)⁻¹ ≤ 1 - 1 / 2 ^ 54 := by norm_num
    exact le_trans (by linarith) (le_abs_self _)

/-- No logarithm is larger than 1074. -/
theorem logb_small {x : F64} (h : inDomain x = true) : |Real.logb 2 (unitsIn x) - 1074| ≤ 1074 := by
  have hk : (1 : ℝ) ≤ unitsIn x := by exact_mod_cast unitsIn_pos h
  have low := Real.logb_nonneg one_lt_two hk
  have high : Real.logb 2 (unitsIn x) ≤ 2098 := by
    rw [Real.logb_le_iff_le_rpow one_lt_two (by linarith)]
    have : (unitsIn x : ℝ) ≤ ((2 ^ 2098 : Nat) : ℝ) := by exact_mod_cast (unitsIn_lt h).le
    refine this.trans_eq ?_
    rw [Nat.cast_pow, ← Real.rpow_natCast]
    norm_num
  rw [abs_le]
  constructor <;> linarith

/-- An integer near a number below 1074 times `P` is below `2^16` times `P`. -/
theorem natAbs_le_of_near {n : Int} {x : ℝ} {P : Nat} (hP : 0 < P) (hx : |x| ≤ 1074)
    (h : |(n : ℝ) - P * x| ≤ 1074 * P) : n.natAbs ≤ P * 2 ^ 16 := by
  have hP0 : (0 : ℝ) < P := by exact_mod_cast hP
  have e : |(P : ℝ) * x| = P * |x| := by rw [abs_mul, abs_of_pos hP0]
  have t1 := abs_sub_abs_le_abs_sub (n : ℝ) (P * x)
  have : |(n : ℝ)| ≤ ((P * 2 ^ 16 : Nat) : ℝ) := by
    push_cast
    nlinarith
  have h2 : ((n.natAbs : Nat) : ℝ) = |(n : ℝ)| := by rw [Nat.cast_natAbs, Int.cast_abs]
  rw [← h2] at this
  exact_mod_cast this

/-- LOG2 is nearest to the binary logarithm, at every positive finite value. -/
theorem nearest_log2Unit {x : F64} (h : inDomain x = true) :
    Nearest (log2Unit x) (Real.logb 2 (unitsIn x) - 1074) := by
  have hk := unitsIn_pos h
  have hs := logb_small h
  obtain ⟨e1, e2, e3, e4⟩ := log2Enclosure_spec firstPrecision hk
  have e3' : ((log2Enclosure firstPrecision (unitsIn x)).2 : ℝ) ≤ (log2Enclosure firstPrecision (unitsIn x)).1 + 2 := by
    exact_mod_cast e3
  have cast : ((2 ^ firstPrecision : Nat) : ℝ) = 2 ^ firstPrecision := by push_cast; rfl
  have hP : (1 : ℝ) ≤ 2 ^ firstPrecision := one_le_pow₀ one_le_two
  rw [log2Unit, dif_pos h]
  refine nearest_correctlyRounded (by decide) (fun n => (log2Enclosure_spec n hk).1)
    (fun n => (log2Enclosure_spec n hk).2.1) ?_ ?_ (hs.trans (by norm_num)) (fun hu => ?_)
  · rw [Nat.pow_add]
    refine natAbs_le_of_near (Nat.two_pow_pos _) hs ?_
    rw [cast, abs_le]; constructor <;> linarith
  · rw [Nat.pow_add]
    refine natAbs_le_of_near (Nat.two_pow_pos _) hs ?_
    rw [cast, abs_le]; constructor <;> linarith
  · have hne : unitsIn x ≠ 2 ^ 1074 := by
      intro h1
      exact hu (by rw [h1, log2Enclosure_two_pow]; rfl)
    refine (log_large h hne).trans ?_
    have hl : Real.log (unitsIn x) - 1074 * Real.log 2 = (Real.logb 2 (unitsIn x) - 1074) * Real.log 2 := by
      rw [Real.logb, sub_mul, div_mul_cancel₀ _ (Real.log_pos one_lt_two).ne']
    rw [hl, abs_mul]
    refine mul_le_of_le_one_right (abs_nonneg _) ?_
    rw [abs_of_pos (Real.log_pos one_lt_two)]
    exact Real.log_two_lt_d9.le.trans (by norm_num)

/-- LN is nearest to the natural logarithm, at every positive finite value. -/
theorem nearest_lnUnit {x : F64} (h : inDomain x = true) :
    Nearest (lnUnit x) (Real.log (unitsIn x) - 1074 * Real.log 2) := by
  have hk := unitsIn_pos h
  have hl2 : Real.log 2 ≤ 1 := Real.log_two_lt_d9.le.trans (by norm_num)
  have hl : Real.log (unitsIn x) - 1074 * Real.log 2 = (Real.logb 2 (unitsIn x) - 1074) * Real.log 2 := by
    rw [Real.logb, sub_mul, div_mul_cancel₀ _ (Real.log_pos one_lt_two).ne']
  have hs : |Real.log (unitsIn x) - 1074 * Real.log 2| ≤ 1074 := by
    rw [hl, abs_mul, abs_of_pos (Real.log_pos one_lt_two)]
    exact (mul_le_of_le_one_right (abs_nonneg _) hl2).trans (logb_small h)
  obtain ⟨e1, e2, e3⟩ := lnEnclosure_spec firstPrecision hk
  have e3' : ((lnEnclosure firstPrecision (unitsIn x)).2 : ℝ) ≤
      (lnEnclosure firstPrecision (unitsIn x)).1 + 2 ^ (2 * firstPrecision) := by
    refine e3.trans (add_le_add_right ?_ _)
    rw [two_mul, pow_add]
    refine mul_le_mul_of_nonneg_left ?_ (by positivity)
    have hn : ((firstPrecision : Nat) : ℝ) = 160 := by norm_num [firstPrecision]
    have hp : (2 : ℝ) ^ 30 ≤ 2 ^ firstPrecision := pow_le_pow_right₀ one_le_two (by decide)
    rw [hn]
    refine le_trans ?_ hp
    have := logb_small h
    nlinarith
  have cast : ((2 ^ (2 * firstPrecision) : Nat) : ℝ) = 2 ^ (2 * firstPrecision) := by push_cast; rfl
  have hP : (1 : ℝ) ≤ 2 ^ (2 * firstPrecision) := one_le_pow₀ one_le_two
  rw [lnUnit, dif_pos h]
  refine nearest_correctlyRounded (by decide) (fun n => (lnEnclosure_spec n hk).1)
    (fun n => (lnEnclosure_spec n hk).2.1) ?_ ?_ (hs.trans (by norm_num)) (fun hu => log_large h fun h1 => ?_)
  · rw [Nat.pow_add]
    refine natAbs_le_of_near (Nat.two_pow_pos _) hs ?_
    rw [cast, abs_le]; constructor <;> linarith
  · rw [Nat.pow_add]
    refine natAbs_le_of_near (Nat.two_pow_pos _) hs ?_
    rw [cast, abs_le]; constructor <;> linarith
  · exact hu (by rw [lnEnclosure_one h1]; rfl)

/-! ### The integers the block converts -/

theorem inDomain_toF64 {k : Nat} (hk : 1 ≤ k) (h : k < 2 ^ 53) : inDomain (Fp.toF64 k) = true := by
  have hm : 0 < Fp.magnitude (Fp.toF64 k) := by
    rw [← Fp.decodeMag_lt, Fp.decodeMag_toF64 h]; exact Nat.mul_pos hk (Nat.two_pow_pos _)
  simp only [inDomain, Fp.isFinite_toF64 h, Fp.negative_toF64, Bool.not_false, Bool.and_self, Bool.true_and,
    decide_eq_true_eq]
  exact hm

theorem unitsIn_toF64 {k : Nat} (h : k < 2 ^ 53) : unitsIn (Fp.toF64 k) = k * 2 ^ 1074 := Fp.decodeMag_toF64 h

/-- The units at 1: the enclosures are exact there. -/
theorem log2Unit_one : log2Unit (Fp.toF64 1) = 0#64 := by decide +kernel
theorem lnUnit_one : lnUnit (Fp.toF64 1) = 0#64 := by decide +kernel

theorem logb_unitsIn_toF64 {k : Nat} (hk : 1 ≤ k) (h : k < 2 ^ 53) :
    Real.logb 2 (unitsIn (Fp.toF64 k)) - 1074 = Real.logb 2 k := by
  have hk0 : (k : ℝ) ≠ 0 := by exact_mod_cast (show k ≠ 0 by omega)
  rw [unitsIn_toF64 h, Nat.cast_mul, Nat.cast_pow, Real.logb_mul hk0 (by positivity), Real.logb_pow, Nat.cast_two,
    Real.logb_self_eq_one one_lt_two]
  norm_num

theorem log_unitsIn_toF64 {k : Nat} (hk : 1 ≤ k) (h : k < 2 ^ 53) :
    Real.log (unitsIn (Fp.toF64 k)) - 1074 * Real.log 2 = Real.log k := by
  have hk0 : (k : ℝ) ≠ 0 := by exact_mod_cast (show k ≠ 0 by omega)
  rw [unitsIn_toF64 h, Nat.cast_mul, Nat.cast_pow, Real.log_mul hk0 (by positivity), Real.log_pow, Nat.cast_two]
  norm_num

end Sys2Proof.Machine.Log
end

