-- ==== Sys2Proof/Laws/PerInstr.lean ====
section
/-! SUPPORT. Laws/PerInstr.lean: what holds of every command word as syntax, one lemma per constructor of Instr
(spec/30_encoding.md rules R111 to R114). -/

namespace Sys2Proof.Laws.EncodedWord

/-- The word of a command has RSVD = 0 and its own OP, is legal, and stands for that command and no other. -/
def Statement (i : Instr) : Prop :=
  i.wellFormed = true ∧ rsvdField (encodeWord i) = 0#28 ∧ opField (encodeWord i) = opcode i ∧
    decodeWord (encodeWord i) = .ok i ∧ ∀ j, encodeWord j = encodeWord i → j = i

theorem nop : Statement .nop := by refine ⟨rfl, rfl, rfl, rfl, fun j => ?_⟩; cases j <;> decide
theorem assign : Statement .assign := by refine ⟨rfl, rfl, rfl, rfl, fun j => ?_⟩; cases j <;> decide
theorem estimate : Statement .estimate := by refine ⟨rfl, rfl, rfl, rfl, fun j => ?_⟩; cases j <;> decide

end Sys2Proof.Laws.EncodedWord
end

