-- ==== Sys2Proof/Laws/Progress.lean ====
section
/-! SUPPORT. Laws/Progress.lean: what a piece of an engine's work does to its STATUS bits (spec/10_state.md rule R26),
that it does not stop once the inputs are written (spec/70_reset_and_hazards.md rule R281), and what CA's scratch holds
between two pieces (spec/41_assign.md rules R153 to R157). -/

namespace Sys2Proof.Machine

open Sys2Proof.Safety

/-! ### STATUS bits -/

/-- What a piece of work of a busy engine does to its STATUS bits: while the engine stays busy DONE and ERR stay as
they are, and when it becomes idle DONE is set and ERR at most set (R137, R236). -/
structure FlagsGoOn (busy done err done' err' : Bool) : Prop where
  goesOn : busy = true → done' = done ∧ err' = err
  ends : busy = false → done' = true ∧ (err' = err ∨ err' = true)

/-- The same, said of an engine before and after. -/
def EngineFlags (e : Engine) (s t : State) : Prop :=
  FlagsGoOn (t.busy e) (doneBit s e) (errBit s e) (doneBit t e) (errBit t e)

theorem flags_setCaPhase (s : State) {p : CaPhase} (h : p ≠ .idle) : EngineFlags .ca s (s.setCaPhase p) :=
  ⟨fun _ => ⟨rfl, rfl⟩, fun hb => absurd hb (by simp [h])⟩

theorem flags_finish (e : Engine) (s : State) : EngineFlags e s (s.finish e) := by
  cases e <;> exact ⟨nofun, fun _ => ⟨rfl, .inl rfl⟩⟩

theorem flags_raise (e : Engine) (c : ErrCode) (ix : Word) (v : BitVec 64) (s : State) :
    EngineFlags e s (s.raise e c ix v) := by
  cases e <;> exact ⟨nofun, fun _ => ⟨rfl, .inr rfl⟩⟩

theorem flags_enterEmit (i : Nat) (s : State) : EngineFlags .ca s (enterEmit i s) := by
  rw [enterEmit]; split
  · exact flags_setCaPhase s nofun
  · exact flags_finish .ca s

theorem flags_enterBase (L : Nat) (s : State) : EngineFlags .ca s (enterBase L s) := by
  rw [enterBase]; split
  · exact flags_setCaPhase s nofun
  · exact flags_enterEmit 0 s

theorem flags_enterTally (i : Nat) (s : State) : EngineFlags .ca s (enterTally i s) := by
  rw [enterTally]; split <;> exact flags_setCaPhase s nofun

theorem flags_enterClear (L : Nat) (s : State) : EngineFlags .ca s (enterClear L s) := by
  rw [enterClear]; split
  · exact flags_setCaPhase s nofun
  · exact flags_enterTally 0 s

theorem caTick_flags {s t : State} (hb : s.busy .ca = true) (h : caTick s = .next t) : EngineFlags .ca s t := by
  cases hp : s.ca.phase with
  | idle => simp [hp] at hb
  | check =>
    simp only [caTick, hp] at h; cases h
    rw [caCheck]; split
    · exact flags_raise .ca _ _ _ s
    · split
      · exact flags_raise .ca _ _ _ s
      · exact flags_enterClear 0 s
  | clear L => simp only [caTick, hp] at h; cases h; exact flags_enterClear _ _
  | tally i =>
    simp only [caTick, hp, caTally] at h
    split at h
    · cases h
    · split at h <;> cases h
      · exact flags_raise .ca _ _ _ s
      · exact flags_enterTally _ _
  | exclude => simp only [caTick, hp] at h; cases h; exact flags_enterBase _ _
  | base L => simp only [caTick, hp] at h; cases h; exact flags_enterBase _ _
  | emit i =>
    simp only [caTick, hp, caEmit] at h
    split at h
    · cases h
    · split at h <;> cases h <;> exact flags_enterEmit _ _

theorem flags_setEePhase (s : State) {p : EePhase} (h : p ≠ .idle) : EngineFlags .ee s (s.setEePhase p) :=
  ⟨fun _ => ⟨rfl, rfl⟩, fun hb => absurd hb (by simp [h])⟩

theorem flags_enterSum (i : Nat) (s : State) : EngineFlags .ee s (enterSum i s) := by
  rw [enterSum]; split <;> exact flags_setEePhase s nofun

theorem flags_enterCost (i : Nat) (s : State) : EngineFlags .ee s (enterCost i s) := by
  rw [enterCost]; split
  · exact flags_setEePhase s nofun
  · exact flags_finish .ee s

theorem eeTick_flags {u : LogUnits} {s t : State} (hb : s.busy .ee = true) (h : eeTick u s = .next t) :
    EngineFlags .ee s t := by
  cases hp : s.ee.phase with
  | idle => simp [hp] at hb
  | check =>
    simp only [eeTick, hp] at h; cases h
    rw [eeCheck]; split
    · exact flags_raise .ee _ _ _ _
    · split
      · exact flags_raise .ee _ _ _ _
      · exact flags_enterSum _ _
  | sum i =>
    simp only [eeTick, hp, eeSum] at h
    split at h <;> cases h
    exact flags_enterSum _ _
  | log => simp only [eeTick, hp] at h; cases h; exact flags_enterCost _ _
  | cost i =>
    simp only [eeTick, hp, eeCost] at h
    split at h
    · cases h
    · split at h <;> cases h
      · exact flags_raise .ee _ _ _ _
      · exact flags_enterCost _ _

/-- A piece of work of a busy engine and its STATUS bits (R26, R137). -/
theorem engineTick_flags {u : LogUnits} {e : Engine} {s t : State} (hb : s.busy e = true)
    (h : engineTick u e s = .next t) : EngineFlags e s t := by
  cases e
  · exact caTick_flags hb h
  · exact eeTick_flags hb h

/-- The completion step of a busy engine ends with DONE set and ERR at most set (R137). -/
theorem completeEngine_flags {u : LogUnits} {e : Engine} {s t : State} (hb : s.busy e = true)
    (h : completeEngine u e s = .next t) :
    t.busy e = false ∧ doneBit t e = true ∧ (errBit t e = errBit s e ∨ errBit t e = true) := by
  have key := completeEngine_keeps (u := u) (e := e) (P := fun r => (r.busy e = true ∧ errBit r e = errBit s e) ∨
      (r.busy e = false ∧ doneBit r e = true ∧ (errBit r e = errBit s e ∨ errBit r e = true)))
    (fun r r' hr hrb htick => by
      have hf := engineTick_flags hrb htick
      have he : errBit r e = errBit s e := by
        rcases hr with hr | hr
        · exact hr.2
        · rw [hrb] at hr; cases hr.1
      cases hb' : r'.busy e
      · obtain ⟨h1, h2⟩ := hf.ends hb'
        exact .inr ⟨rfl, h1, h2.imp (·.trans he) id⟩
      · exact .inl ⟨rfl, (hf.goesOn hb').2.trans he⟩) (.inl ⟨hb, rfl⟩) h
  have hi := completeEngine_idle h
  rcases key with k | k
  · rw [hi] at k; cases k.1
  · exact k

/-! ### Nothing stops a command whose inputs are written -/

theorem caTick_next {s : State} (h : CaOk s.params s.ca)
    (hw : ∀ i, i < s.ca.latchN.toNat → i < s.params.nMax → s.readLen i ≠ none) : ∃ t, caTick s = .next t := by
  have hin := h.inBounds
  have read : ∀ i, s.ca.latchN.toNat ≤ s.params.nMax → i < s.ca.latchN.toNat → ∃ l, s.readLen i = some l :=
    fun i hn hi => Option.ne_none_iff_exists'.1 (hw i hi (by omega))
  cases hp : s.ca.phase <;> rw [hp] at hin <;> simp only [caTick, hp, caTally, caEmit] <;> try exact ⟨_, rfl⟩
  case tally i =>
    obtain ⟨l, hl⟩ := read i hin.1 hin.2.2
    simp only [hl]; split <;> exact ⟨_, rfl⟩
  case emit i =>
    obtain ⟨l, hl⟩ := read i hin.1 hin.2.2
    simp only [hl]; split <;> exact ⟨_, rfl⟩

theorem eeTick_next {u : LogUnits} {s : State} (h : EeOk s.params s.ee)
    (hw : ∀ i, i < s.ee.latchN.toNat → i < s.params.nMax → s.readCnt i ≠ none) : ∃ t, eeTick u s = .next t := by
  have hin := h.inBounds
  have read : ∀ i, s.ee.latchN.toNat ≤ s.params.nMax → i < s.ee.latchN.toNat → ∃ c, s.readCnt i = some c :=
    fun i hn hi => Option.ne_none_iff_exists'.1 (hw i hi (by omega))
  cases hp : s.ee.phase <;> rw [hp] at hin <;> simp only [eeTick, hp, eeSum, eeCost] <;> try exact ⟨_, rfl⟩
  case sum i =>
    obtain ⟨c, hc⟩ := read i hin.1 hin.2
    simp only [hc]; exact ⟨_, rfl⟩
  case cost i =>
    obtain ⟨c, hc⟩ := read i hin.1 hin.2
    simp only [hc]; split <;> exact ⟨_, rfl⟩

/-- A piece of work answers a next state when the inputs of its engine are written (R281). -/
theorem engineTick_next {u : LogUnits} {e : Engine} {s : State} (h : StateInv s) (hw : InputsWritten s) :
    ∃ t, engineTick u e s = .next t := by
  cases e
  · cases hb : s.busy .ca
    · exact ⟨s, by simp only [engineTick, caTick, show s.ca.phase = .idle by simpa using hb]⟩
    · exact caTick_next h.ca (hw.1 hb)
  · cases hb : s.busy .ee
    · exact ⟨s, by simp only [engineTick, eeTick, show s.ee.phase = .idle by simpa using hb]⟩
    · exact eeTick_next h.ee (hw.2 hb)

/-! ### CA's scratch -/

/-- What the scratch of a running CA holds, by its position: the tables of R153 to R157, modulo 2^32. -/
def CaScratch (lens : Nat → Word) (s : State) : Prop :=
  let n := s.ca.latchN.toNat
  let m := s.ca.latchMaxbits.toNat
  match s.ca.phase with
  | .idle => True
  | .check => True
  | .clear L => ∀ j, j < L → tableRead s.ca.blCount j = 0
  | .tally i => ∀ j, j ≤ m → tableRead s.ca.blCount j = BitVec.ofNat 32 (lengthCount lens j i)
  | .exclude => ∀ j, j ≤ m → tableRead s.ca.blCount j = BitVec.ofNat 32 (lengthCount lens j n)
  | .base L => (∀ j, j ≤ m → tableRead s.ca.blCount j = BitVec.ofNat 32 (tierCount lens n j)) ∧
      s.ca.code = BitVec.ofNat 32 (tierBase lens n (L - 1)) ∧
      ∀ j, 1 ≤ j → j < L → tableRead s.ca.nextCode j = BitVec.ofNat 32 (tierBase lens n j)
  | .emit i => s.ca.code = BitVec.ofNat 32 (tierBase lens n m) ∧
      ∀ j, 1 ≤ j → j ≤ m → tableRead s.ca.nextCode j = BitVec.ofNat 32 (tierBase lens n j + lengthCount lens j i)

theorem caScratch_idle {lens : Nat → Word} {s : State} (h : s.ca.phase = .idle) : CaScratch lens s := by
  simp only [CaScratch, h]

theorem caScratch_enterEmit {lens : Nat → Word} {s : State} {i : Nat}
    (hcode : s.ca.code = BitVec.ofNat 32 (tierBase lens s.ca.latchN.toNat s.ca.latchMaxbits.toNat))
    (hnc : ∀ j, 1 ≤ j → j ≤ s.ca.latchMaxbits.toNat →
      tableRead s.ca.nextCode j = BitVec.ofNat 32 (tierBase lens s.ca.latchN.toNat j + lengthCount lens j i)) :
    CaScratch lens (enterEmit i s) := by
  rw [enterEmit]; split
  · exact ⟨hcode, hnc⟩
  · exact caScratch_idle rfl

theorem caScratch_enterBase {lens : Nat → Word} {s : State} {L : Nat} (h1 : 1 ≤ L)
    (hL : L ≤ s.ca.latchMaxbits.toNat + 1)
    (hbl : ∀ j, j ≤ s.ca.latchMaxbits.toNat →
      tableRead s.ca.blCount j = BitVec.ofNat 32 (tierCount lens s.ca.latchN.toNat j))
    (hcode : s.ca.code = BitVec.ofNat 32 (tierBase lens s.ca.latchN.toNat (L - 1)))
    (hnc : ∀ j, 1 ≤ j → j < L →
      tableRead s.ca.nextCode j = BitVec.ofNat 32 (tierBase lens s.ca.latchN.toNat j)) :
    CaScratch lens (enterBase L s) := by
  rw [enterBase]; split
  · exact ⟨hbl, hcode, hnc⟩
  · next h =>
    obtain rfl : L = s.ca.latchMaxbits.toNat + 1 := by omega
    exact caScratch_enterEmit hcode (fun j hj hm => by
      rw [hnc j hj (by omega)]; simp [lengthCount])

theorem caScratch_enterTally {lens : Nat → Word} {s : State} {i : Nat} (hi : i ≤ s.ca.latchN.toNat)
    (hbl : ∀ j, j ≤ s.ca.latchMaxbits.toNat →
      tableRead s.ca.blCount j = BitVec.ofNat 32 (lengthCount lens j i)) :
    CaScratch lens (enterTally i s) := by
  rw [enterTally]; split
  · exact hbl
  · next h =>
    obtain rfl : i = s.ca.latchN.toNat := by omega
    exact hbl

theorem caScratch_enterClear {lens : Nat → Word} {s : State} {L : Nat} (hL : L ≤ s.ca.latchMaxbits.toNat + 1)
    (hbl : ∀ j, j < L → tableRead s.ca.blCount j = 0) : CaScratch lens (enterClear L s) := by
  rw [enterClear]; split
  · exact hbl
  · exact caScratch_enterTally (Nat.zero_le _) (fun j hj => by simp [lengthCount, hbl j (by omega)])

/-- A piece of CA's work takes the scratch on to its next position, when the lengths are `lens` and legal. -/
theorem caScratch_tick {lens : Nat → Word} {s t : State} (hok : CaOk s.params s.ca)
    (hr : ∀ j, j < s.ca.latchN.toNat → s.readLen j = some (lens j))
    (hl : ∀ j, j < s.ca.latchN.toNat → (lens j).toNat ≤ s.ca.latchMaxbits.toNat)
    (hs : CaScratch lens s) (h : caTick s = .next t) : CaScratch lens t := by
  have hin := hok.inBounds
  have hbl := hok.blCountLength
  have hnc := hok.nextCodeLength
  cases hp : s.ca.phase with
  | idle => simp only [caTick, hp] at h; cases h; exact hs
  | check =>
    simp only [caTick, hp] at h; cases h
    rw [caCheck]; split
    · exact caScratch_idle rfl
    · split
      · exact caScratch_idle rfl
      · exact caScratch_enterClear (Nat.zero_le _) (fun j hj => absurd hj (Nat.not_lt_zero j))
  | clear L =>
    rw [hp] at hin
    simp only [CaScratch, hp] at hs
    simp only [caTick, hp] at h; cases h
    refine caScratch_enterClear (Nat.succ_le_succ hin.2.2) (fun j hj => ?_)
    show tableRead (tableWrite s.ca.blCount L 0) j = 0
    rw [tableRead_tableWrite (by have := hin.2; omega)]
    split
    · rfl
    · exact hs j (by omega)
  | tally i =>
    rw [hp] at hin
    simp only [CaScratch, hp] at hs
    have hlen : s.ca.latchMaxbits.toNat < s.ca.blCount.length := by have := hin.2.1; omega
    rw [tally_step hp (hr i hin.2.2) (hl i hin.2.2)] at h; cases h
    exact caScratch_enterTally hin.2.2 (tally_counts hlen (hl i hin.2.2) hs)
  | exclude =>
    rw [hp] at hin
    simp only [CaScratch, hp] at hs
    simp only [caTick, hp] at h; cases h
    refine caScratch_enterBase le_rfl (Nat.le_add_left _ _) (fun j hj => ?_) rfl (fun j hj h1 => by omega)
    show tableRead (tableWrite s.ca.blCount 0 0) j = BitVec.ofNat 32 (tierCount lens s.ca.latchN.toNat j)
    rw [tableRead_tableWrite (by omega), tierCount]
    split
    · rfl
    · exact hs j hj
  | base L =>
    rw [hp] at hin
    simp only [CaScratch, hp] at hs
    obtain ⟨hb, hc, hn⟩ := hs
    have hlen : L < s.ca.nextCode.length := by have := hin.2; omega
    have hnew := base_code (L := L) (lens := lens) (n := s.ca.latchN.toNat) hin.2.2.1 hc
      (hb (L - 1) (by have := hin.2.2; omega))
    simp only [caTick, hp] at h; cases h
    rw [caBase, hnew]
    exact caScratch_enterBase (Nat.le_add_left _ _) (Nat.succ_le_succ hin.2.2.2) hb rfl (base_nextCode hlen hn)
  | emit i =>
    rw [hp] at hin
    simp only [CaScratch, hp] at hs
    obtain ⟨hc, hn⟩ := hs
    by_cases h0 : lens i = 0
    · rw [emit_step_zero hp (by rw [hr i hin.2.2, h0])] at h; cases h
      exact caScratch_enterEmit hc (fun j hj hm => by
        rw [lengthCount_succ, if_neg (by rw [h0]; simp; omega), Nat.add_zero]; exact hn j hj hm)
    · rw [emit_step hp (hr i hin.2.2) h0] at h; cases h
      have hlen : (lens i).toNat < s.ca.nextCode.length := by have := hin.2.1; have := hl i hin.2.2; omega
      exact caScratch_enterEmit hc (emit_nextCode hlen hn (hl i hin.2.2))

end Sys2Proof.Machine
end

