-- ==== Sys2Proof/Tests/Slice0.lean ====
section
/-! SUPPORT. Tests/Slice0.lean: tests of the model against values written out in spec/ (spec/95_test_vectors.md and the
rules named in each comment), and a concrete state or operands for the hypotheses of every statement. -/

-- One declaration at a time: each kernel evaluation below otherwise holds a thread of its own.
set_option Elab.async false

namespace Sys2Proof.Tests

open Sys2Proof.Machine Sys2Proof.Safety

/-! ### Small states -/

/-- A result is a next state. -/
def isNext : Result → Bool
  | .next _ => true
  | _ => false

/-- The next state of a result, if it is one. -/
def after : Result → State
  | .next s => s
  | _ => State.reset

theorem eq_next_after {r : Result} (h : isNext r = true) : r = .next (after r) := by
  cases r <;> first | rfl | cases h

/-- Words written from a list, one at each address. -/
def memOf (ws : List (Nat × Word)) : Memory := ws.foldl (fun m w => m.writeWord w.1 w.2) []

/-- Both engines idle, the operand registers and the memory as given. -/
def idle (m : Memory) (n maxbits en : Word) : State :=
  { State.reset with
    mem := m
    ca := { State.reset.ca with regN := n, regMaxbits := maxbits }
    ee := { State.reset.ee with regN := en } }

theorem memOk_nil : MemOk Config.defaultParams [] := ⟨List.Pairwise.nil, fun _ h => absurd rfl h, fun _ _ _ => by simp⟩

theorem memOk_memOf : ∀ ws : List (Nat × Word), (∀ w ∈ ws, ArrayWord Config.defaultParams w.1) →
    MemOk Config.defaultParams (memOf ws) := by
  have step : ∀ (ws : List (Nat × Word)) (m : Memory), MemOk Config.defaultParams m →
      (∀ w ∈ ws, ArrayWord Config.defaultParams w.1) →
      MemOk Config.defaultParams (ws.foldl (fun m w => m.writeWord w.1 w.2) m) := by
    intro ws
    induction ws with
    | nil => exact fun m h _ => h
    | cons w ws ih =>
      exact fun m h hw => ih _ (memOk_writeWord h (hw w (by simp)) _) (fun v hv => hw v (by simp [hv]))
  exact fun ws h => step ws [] memOk_nil h

theorem stateInv_idle {m : Memory} (h : MemOk Config.defaultParams m) (n maxbits en : Word) :
    StateInv (idle m n maxbits en) where
  params := rfl
  mem := h
  ca := ⟨List.length_replicate, List.length_replicate, trivial, fun hp => absurd rfl hp, fun hp => absurd rfl hp,
    fun hp => absurd rfl hp, fun _ => ⟨rfl, rfl, rfl⟩, by show 0#8 ∈ caCodes; decide⟩
  ee := ⟨trivial, fun hp => absurd rfl hp, fun hp => absurd rfl hp, fun hp => absurd rfl hp,
    fun _ => ⟨rfl, rfl, rfl, rfl⟩, by show 0#8 ∈ eeCodes; decide⟩

theorem stateInv_accept {s : State} (h : StateInv s) (e : Engine) : StateInv (s.accept e) := by
  cases e
  · exact ⟨h.params, h.mem, caOk_accept (s := s) h.ca, h.ee⟩
  · exact ⟨h.params, h.mem, h.ca, eeOk_accept _⟩

/-- LEN = [2,1,3,3] (V-A1) and CNT = [3,1] (V-E6). -/
def inputs : List (Nat × Word) :=
  [(lenAddr 0, 2), (lenAddr 1, 1), (lenAddr 2, 3), (lenAddr 3, 3), (cntAddr 0, 3), (cntAddr 1, 1)]

theorem memOk_inputs : MemOk Config.defaultParams (memOf inputs) := by
  refine memOk_memOf _ (fun w hw => ?_)
  simp only [inputs, List.mem_cons, List.not_mem_nil, or_false] at hw
  rcases hw with rfl | rfl | rfl | rfl | rfl | rfl
  · exact arrayWord_len (i := 0) (by decide)
  · exact arrayWord_len (i := 1) (by decide)
  · exact arrayWord_len (i := 2) (by decide)
  · exact arrayWord_len (i := 3) (by decide)
  · exact arrayWord_cnt (i := 0) (by decide)
  · exact arrayWord_cnt (i := 1) (by decide)

/-- The operands of V-A1 and V-E6. -/
def ready : State := idle (memOf inputs) 4 3 2

theorem stateInv_ready : StateInv ready := stateInv_idle memOk_inputs 4 3 2

/-- Both engines busy with them. -/
def busyBoth : State := (ready.accept .ca).accept .ee

theorem stateInv_busyBoth : StateInv busyBoth := stateInv_accept (stateInv_accept stateInv_ready .ca) .ee

def lens : Nat → Word := fun i => [2, 1, 3, 3].getD i 0
def cnts : Nat → Word := fun i => [3, 1].getD i 0

theorem assignReady_ready : AssignReady ready lens := ⟨rfl, by decide, by decide, by decide⟩
theorem estimateReady_ready : EstimateReady ready cnts := ⟨rfl, by decide, by decide, by decide⟩

/-- Logarithm units that answer +0 for every argument: they have P1, P2 and P3. -/
def zeroUnits : LogUnits := { log2 := fun _ => 0#64, ln := fun _ => 0#64 }

/-- The state with a host program and the host's turn. -/
def withHost (s : State) (p : List HostOp) : State := { s with program := p, schedule := [.host] }

/-! ### Well-formedness refuses ill-formed terms -/

-- R82: misaligned, and sub-word. R7: parameters out of range.
theorem test_wellFormed_misaligned : HostOp.wellFormed (.rd 0x001#15 4) = false := by decide
theorem test_wellFormed_subword : HostOp.wellFormed (.wr 0x008#15 1 0) = false := by decide
theorem test_wellFormed_poll : HostOp.wellFormed (.poll 0x00E#15 0 0) = false := by decide
theorem test_wellFormed_aligned : HostOp.wellFormed (.wr 0x008#15 4 0) = true := by decide
theorem test_wellFormed_params :
    Params.wellFormed { nMax := 0, maxbitsMax := 20, eps := Config.eps } = false ∧
    Params.wellFormed { nMax := 1025, maxbitsMax := 20, eps := Config.eps } = false ∧
    Params.wellFormed { nMax := 1024, maxbitsMax := 0, eps := Config.eps } = false ∧
    Params.wellFormed { nMax := 1024, maxbitsMax := 32, eps := Config.eps } = false ∧
    Params.wellFormed { nMax := 1024, maxbitsMax := 31, eps := 0x3EE4F8B588E368F0#64 } = false ∧
    Params.wellFormed { nMax := 1024, maxbitsMax := 31, eps := Config.eps } = true := by decide

/-! ### Decoding: R111, R112, R113, V-C6 to V-C10 -/

-- The words of the R112 table, bit 31 on the left, RSVD then OP.
theorem test_decode_nop : decodeWord 0b00000000000000000000000000000000#32 = .ok .nop := by decide
theorem test_decode_assign : decodeWord 0b00000000000000000000000000000001#32 = .ok .assign := by decide
theorem test_decode_estimate : decodeWord 0b00000000000000000000000000000010#32 = .ok .estimate := by decide
theorem test_decode_illegal :
    decodeWord 0x00000003#32 = .error .reservedOp ∧ decodeWord 0x0000000F#32 = .error .reservedOp ∧
    decodeWord 0x00000010#32 = .error .reservedBits ∧ decodeWord 0x00000011#32 = .error .reservedBits ∧
    decodeWord 0xFFFFFFFF#32 = .error .reservedBits ∧ decode [0x01, 0x00, 0x00] = .error .truncated := by decide
theorem test_decodeTableWord :
    decodeTableWord 32 0 = some .nop ∧ decodeTableWord 32 1 = some .assign ∧
    decodeTableWord 32 2 = some .estimate ∧ decodeTableWord 32 17 = none := by decide

/-! ### Commands -/

-- V-C5.
theorem test_nop_step : (after (step (State.reset.withFetchWord 32 0))).statusWord = 0x000#32 := by decide +kernel
-- V-C9: RSVD set, OP = ASSIGN.
theorem test_illegal_step :
    (after (step (State.reset.withFetchWord 32 0x11))).statusWord = 0x100#32 := by decide +kernel
-- V-A1.
theorem test_assign_codes :
    let r := after (runCommand logUnits .assign .ca ready)
    r.statusWord = 0x002#32 ∧ (List.range 4).map r.readSym = [some 2, some 0, some 6, some 7] := by decide +kernel
-- V-A27: no partial result.
theorem test_assign_error :
    let s := idle (memOf (inputs ++ [(symAddr 0, 0xAAAAAAAA#32)])) 4 2 0
    let r := after (runCommand logUnits .assign .ca s)
    r.statusWord = 0x006#32 ∧ r.ca.errCode = 0x01#8 ∧ r.ca.errIndex = 2 ∧ r.ca.errValue = 3 ∧
      r.readSym 0 = some 0xAAAAAAAA#32 := by decide +kernel
-- V-E6.
theorem test_estimate_costs :
    let r := after (runCommand logUnits .estimate .ee ready)
    r.statusWord = 0x020#32 ∧ r.readBitlen 0 = some 0x3FDA8FF971810A60#64 ∧
      r.readBitlen 1 = some 0x4000000000000000#64 := by decide +kernel
-- V-R6: N_ZERO.
theorem test_estimate_error :
    let r := after (runCommand logUnits .estimate .ee State.reset)
    r.statusWord = 0x060#32 ∧ r.ee.errCode = 0x06#8 := by decide +kernel

/-! ### The bus -/

-- V-C20.
theorem test_status_clear :
    (after (busWrite 0x00C#15 0x22#32
      { State.reset with
        ca := { State.reset.ca with done := true, err := true }
        ee := { State.reset.ee with done := true, err := true }
        bus := ⟨true, true, true⟩ })).statusWord = 0x744#32 := by decide +kernel
-- V-C25.
theorem test_bitlen_halves :
    (after (busWrite 0x4004#15 0x01234567#32 (after (busWrite 0x4000#15 0x89ABCDEF#32 State.reset)))).readBitlen 0 =
      some 0x0123456789ABCDEF#64 := by decide +kernel
-- V-C13: legality before busy.
theorem test_illegal_while_busy :
    (after (busWrite 0x008#15 3#32 busyBoth)).statusWord = 0x111#32 := by decide +kernel
-- V-R3: a reset abandons the outputs of a running ASSIGN and keeps its inputs.
theorem test_reset_abandons :
    let s := ({ idle (memOf (inputs ++ [(symAddr 0, 5)])) 4 3 2 with schedule := [.rst] } : State).accept .ca
    let r := after (step s)
    r.statusWord = 0x000#32 ∧ r.readSym 0 = none ∧ r.readLen 0 = some 2 := by decide +kernel

/-! ### Numbers -/

-- V-K2, V-K3, V-K5, V-K6, V-K7, V-K11: the clamp and the checks.
theorem test_clamp :
    clampCost Config.eps 0x8000000000000000#64 = 0x8000000000000000#64 ∧ clampCost Config.eps 0xBEB0C6F7A0B5ED8D#64 = 0#64 ∧
    clampCost Config.eps 0xBEE4F8B588E368F0#64 = 0#64 ∧ clampCost Config.eps 0xBEE4F8B588E368F1#64 = 0xBEE4F8B588E368F1#64 := by decide
theorem test_costError :
    costError 0x8000000000000000#64 = none ∧ costError 0xBEE4F8B588E368F1#64 = some .costNegative ∧
    costError 0xFFF0000000000000#64 = some .costNonfinite ∧
    costError 0x7FF8000000000000#64 = some .costNonfinite := by decide
-- R7: EPS is nearest to 1e-5: as a multiple of 2^-1074 it is off by at most half a unit in its last place, 2^1004.
theorem test_eps_nearest :
    (100000 * Fp.scaled Config.eps - 2 ^ 1074).natAbs ≤ 100000 * 2 ^ 1004 := by decide +kernel
-- V-E14, V-E9, V-E15: LOG2 and LN under the default units.
theorem test_log2 : logUnits.log2 (Fp.toF64 8589934590) = 0x40407FFFFFFF4756#64 := by decide +kernel
theorem test_ln :
    logUnits.ln (Fp.toF64 2) = 0x3FE62E42FEFA39EF#64 ∧ logUnits.ln (Fp.toF64 1024) = 0x401BB9D3BEB8C86B#64 := by
  decide +kernel

/-! ### Host programs: R116 to R118 -/

theorem test_runAssign_expands :
    (HostLine.runAssign 4 3).expand =
      [.wr 0x020#15 4 4, .wr 0x024#15 4 3, .wr 0x008#15 4 1, .poll 0x00C#15 2 2] := by decide
theorem test_host_line :
    HostText.lineOf ["WR".toList, "BITLEN[2].HI".toList, "0x1".toList] = some (.wr (.bitlenHi 2) 1) := by
  decide +kernel
-- R117, and the lines of spec/95_test_vectors.md: with the arrow and without.
theorem test_host_rd :
    HostText.lineOf ["RD".toList, "STATUS".toList, "->".toList, "t".toList] = some (.rd (.reg .status)) ∧
    HostText.lineOf ["RD".toList, "STATUS".toList] = some (.rd (.reg .status)) ∧
    HostText.lineOf ["RD64".toList, "BITLEN[0]".toList] = some (.rd64 0) ∧
    HostText.lineOf ["RD".toList, "STATUS".toList, "->".toList] = none := by decide +kernel

/-! ### Hypotheses that hold somewhere: one theorem for each statement that has any -/

/-- SYM[4] and the high half of BITLEN[2] are written too, above the `n` of each engine. -/
def outputs : State :=
  ((idle (memOf (inputs ++ [(symAddr 4, 9), (bitlenHalfAddr 2 true, 7)])) 4 3 2).accept .ca).accept .ee

/-- Units that make the first cost of `cnts`, whose sum is 4, the value `v` minus `w`. -/
def unitsOf (v w : F64) : LogUnits :=
  { log2 := fun x => if x = Fp.toF64 4 then v else w, ln := fun _ => v }

theorem realOf_lt {a b : F64} (h : Fp.scaled a < Fp.scaled b) : realOf a < realOf b :=
  div_lt_div_of_pos_right (by exact_mod_cast h) (by positivity)

theorem test_witness_LegalCommandWords : ¬ ∃ i, decodeWord 0x00000003#32 = .ok i := by
  rintro ⟨i, h⟩; cases i <;> exact absurd h (by decide)
theorem test_witness_OpcodeTableDecodes : ∀ r ∈ opcodeTable, 0x00000003#32 &&& r.mask ≠ r.matchBits := by decide
theorem test_witness_DecodeEncodeAgree : Instr.wellFormed .estimate = true := rfl
theorem test_witness_StepRunsCommandWord :
    (withHost busyBoth [.wr 0x008#15 4 1, .rd 0x00C#15 4]).nextTurn = .host ∧
    (withHost busyBoth [.wr 0x008#15 4 1, .rd 0x00C#15 4]).program = .wr 0x008#15 4 1 :: [.rd 0x00C#15 4] ∧
    decode (wordBytes 1#32) = .ok (.assign, []) ∧ decode (wordBytes 0xFFFFFFFF#32) = .error .reservedBits ∧
    2 < 2 ^ 32 ∧ decodeTableWord 32 2 = some .estimate := by
  refine ⟨rfl, rfl, ?_⟩; decide
/-- What such a state's coming host line finds. -/
def lineTaken (s : State) : State := { s with program := s.program.tail, schedule := s.schedule.tail, rdata := none }

theorem test_witness_StepRunsCommandWord_lines :
    (withHost ready [.wr 0x1FFC#15 4 7]).nextTurn = .host ∧ (0x1FFC#15 : BusAddr).toNat % 4 = 0 ∧
    (withHost ready [.rd 0x1004#15 4]).nextTurn = .host ∧ (0x1004#15 : BusAddr).toNat % 4 = 0 ∧
    busRead 0x1004#15 (lineTaken (withHost ready [.rd 0x1004#15 4])) =
      .ok (1, lineTaken (withHost ready [.rd 0x1004#15 4])) ∧
    busRead 0x1010#15 (lineTaken (withHost ready [.rd 0x1010#15 4])) = .error (.unwrittenEntry 0x1010) ∧
    (withHost ready []).nextTurn = .host ∧ (withHost ready []).program = [] := by
  refine ⟨rfl, by decide, rfl, by decide, ?_, ?_, rfl, rfl⟩ <;> decide +kernel
theorem test_witness_StepRunsCommandWord_engines :
    ({ busyBoth with schedule := [.advance .ca] } : State).nextTurn = .advance .ca ∧
    ({ busyBoth with schedule := [] } : State).nextTurn = .complete .ca := ⟨rfl, rfl⟩
theorem test_witness_NopHasNoEffect :
    (0x00000010#32).extractLsb' 0 4 = 0x0#4 ∧ (0x00000010#32).extractLsb' 4 28 ≠ 0#28 := by decide
theorem test_witness_AssignAccepted : ready.statusWord.getLsbD 0 = false := by decide +kernel
theorem test_witness_EstimateAccepted : ready.statusWord.getLsbD 4 = false := by decide +kernel
theorem test_witness_BusyCommandDropped :
    busyBoth.statusWord.getLsbD 0 = true ∧ busyBoth.statusWord.getLsbD 4 = true := by decide +kernel
theorem test_witness_ResetRegisters : ({ busyBoth with schedule := [.rst] } : State).nextTurn = .rst ∧
    Reg.status ≠ .id ∧ Reg.status ≠ .cfg := by refine ⟨rfl, ?_⟩; decide
theorem test_witness_ResetMemories :
    busyBoth.params.nMax ≤ 1024 ∧ busyBoth.busy .ca = true ∧ 3 < busyBoth.ca.latchN.toNat ∧
    3 < busyBoth.params.nMax ∧ busyBoth.readLen 3 = some 3 ∧ (3 : Word) ≠ 0 ∧ busyBoth.busy .ee = true ∧
    1 < busyBoth.ee.latchN.toNat ∧ 1 < busyBoth.params.nMax := by decide +kernel
theorem test_witness_ResetMemories_kept :
    (¬ ∃ i, busyBoth.busy .ca = true ∧ i < busyBoth.ca.latchN.toNat ∧ i < busyBoth.params.nMax ∧
      busyBoth.readLen i ≠ some 0 ∧ symAddr i ≤ 0x2010 ∧ 0x2010 < symAddr i + 4) ∧
    ¬ ∃ i, busyBoth.busy .ee = true ∧ i < busyBoth.ee.latchN.toNat ∧ i < busyBoth.params.nMax ∧
      bitlenAddr i ≤ 0x2010 ∧ 0x2010 < bitlenAddr i + 8 := by
  have e : busyBoth.ca.latchN.toNat = 4 := rfl
  constructor
  · rintro ⟨i, -, h1, -, -, h2, h3⟩
    rw [e] at h1; simp only [symAddr] at *; omega
  · rintro ⟨i, -, -, -, h1, -⟩
    simp only [bitlenAddr] at *; omega
theorem test_witness_RegisterWrites :
    (0xFFC#15 : BusAddr).toNat < 0x1000 ∧ (0xFFC#15 : BusAddr).toNat ∉ [0x008, 0x00C, 0x010, 0x020, 0x024, 0x040] ∧
    (0x000#15 : BusAddr).toNat ∉ [0x008, 0x00C, 0x010, 0x020, 0x024, 0x040] := by decide
theorem test_witness_UnmappedAndReserved :
    ready.params.nMax ≤ 1024 ∧ UnmappedAddr ready.params (0x6000#15 : BusAddr).toNat ∧
    UnmappedAddr ready.params (0x7FFC#15 : BusAddr).toNat ∧
    UnmappedAddr { nMax := 1, maxbitsMax := 20, eps := Config.eps } (0x1004#15 : BusAddr).toNat ∧
    UnmappedAddr { nMax := 1, maxbitsMax := 20, eps := Config.eps } (0x4008#15 : BusAddr).toNat ∧
    ReservedOffset (0x014#15 : BusAddr).toNat ∧ ReservedOffset (0xFFC#15 : BusAddr).toNat ∧
    0x1000 ≤ (0x5FFC#15 : BusAddr).toNat ∧ (0x5FFC#15 : BusAddr).toNat < 0x6000 := by
  simp only [UnmappedAddr, ReservedOffset, regOffsets]; decide
theorem test_witness_EntryDecode :
    Config.defaultParams.nMax ≤ 1024 ∧
    (0x1FFC#15 : BusAddr).toNat < 0x1000 + 4 * Config.defaultParams.nMax ∧
    (0x2000#15 : BusAddr).toNat < 0x2000 + 4 * Config.defaultParams.nMax ∧
    (0x3FFC#15 : BusAddr).toNat < 0x3000 + 4 * Config.defaultParams.nMax ∧
    (0x5FFC#15 : BusAddr).toNat < 0x4000 + 8 * Config.defaultParams.nMax := by decide
theorem test_witness_ArrayWrites :
    ready.params.nMax ≤ 1024 ∧ 1023 < ready.params.nMax ∧ ready.busy .ca = false ∧ ready.busy .ee = false := by
  decide +kernel
theorem test_witness_WriteWhileBusyDropped :
    busyBoth.params.nMax ≤ 1024 ∧ OwnedAddr busyBoth.params .ca (0x024#15 : BusAddr).toNat ∧
    OwnedAddr busyBoth.params .ca (0x2FFC#15 : BusAddr).toNat ∧ busyBoth.busy .ca = true ∧
    OwnedAddr busyBoth.params .ee (0x040#15 : BusAddr).toNat ∧
    OwnedAddr busyBoth.params .ee (0x5FFC#15 : BusAddr).toNat ∧ busyBoth.busy .ee = true := by
  simp only [OwnedAddr]; decide +kernel
theorem test_witness_ReadsChangeNothing :
    busRead 0x00C#15 busyBoth = .ok (busyBoth.statusWord, busyBoth) ∧
    (¬ ∃ i, decodeAddr busyBoth.params 0x00C#15 = .symEntry i ∧ busyBoth.busy .ca = true ∧
      i < busyBoth.ca.latchN.toNat) ∧
    (¬ ∃ i high, decodeAddr busyBoth.params 0x00C#15 = .bitlenHalf i high ∧ busyBoth.busy .ee = true ∧
      i < busyBoth.ee.latchN.toNat) ∧
    (0xFFC#15 : BusAddr).toNat < 0x1000 := by
  refine ⟨rfl, ?_, ?_, by decide⟩
  · rintro ⟨i, h, -⟩; exact absurd h (by simp [show decodeAddr busyBoth.params 0x00C#15 = .reg .status from rfl])
  · rintro ⟨i, b, h, -⟩; exact absurd h (by simp [show decodeAddr busyBoth.params 0x00C#15 = .reg .status from rfl])
theorem test_witness_InputReads :
    busyBoth.params.nMax ≤ 1024 ∧ 3 < busyBoth.params.nMax ∧ busyBoth.readLen 3 = some 3 ∧
    busyBoth.readCnt 1 = some 1 := by decide +kernel
theorem test_witness_OutputReads :
    outputs.params.nMax ≤ 1024 ∧ 4 < outputs.params.nMax ∧ outputs.busy .ca = true ∧
    3 < outputs.ca.latchN.toNat ∧ outputs.ca.latchN.toNat ≤ 4 ∧ outputs.readSym 4 = some 9 ∧
    outputs.busy .ee = true ∧ 1 < outputs.ee.latchN.toNat ∧ outputs.ee.latchN.toNat ≤ 2 ∧
    outputs.mem.readWord (bitlenHalfAddr 2 true) = some 7 := by decide +kernel
theorem test_witness_UnwrittenReadFaults :
    busyBoth.params.nMax ≤ 1024 ∧ 1023 < busyBoth.params.nMax ∧ busyBoth.readLen 1023 = none ∧
    busyBoth.readCnt 1023 = none ∧ busyBoth.ca.latchN.toNat ≤ 4 ∧ busyBoth.readSym 4 = none ∧
    busyBoth.ee.latchN.toNat ≤ 2 ∧ busyBoth.mem.readWord (bitlenHalfAddr 2 false) = none := by decide +kernel
theorem test_witness_OnlyTheBridgeRefuses :
    (1 ≠ 4) ∧ (0x00E#15 : BusAddr).toNat % 4 ≠ 0 ∧
    stepWith logUnits (withHost ready [.rd 0x00E#15 4]) = .refused .bridgeAccess := ⟨by decide, by decide, rfl⟩
theorem test_witness_AssignResult :
    StateInv ready ∧ AssignReady ready lens ∧ ∀ i, i < caN ready → (lens i).toNat ≤ caMaxbits ready :=
  ⟨stateInv_ready, assignReady_ready, by decide⟩
theorem test_witness_AssignResult_boundary :
    AssignReady (idle (memOf [(lenAddr 0, 20)]) 1 20 0) (fun _ => 20) ∧
    ∀ i, i < caN (idle (memOf [(lenAddr 0, 20)]) 1 20 0) →
      (20 : Word).toNat ≤ caMaxbits (idle (memOf [(lenAddr 0, 20)]) 1 20 0) :=
  ⟨⟨rfl, by decide, by decide, by decide⟩, by decide⟩
theorem test_witness_AssignErrors :
    (StateInv (idle [] 1025 3 0) ∧ (idle [] 1025 3 0).busy .ca = false ∧
      (idle [] 1025 3 0).params.nMax < caN (idle [] 1025 3 0)) ∧
    (StateInv (idle [] 1024 21 0) ∧ caN (idle [] 1024 21 0) ≤ (idle [] 1024 21 0).params.nMax ∧
      (idle [] 1024 21 0).params.maxbitsMax < caMaxbits (idle [] 1024 21 0)) ∧
    (StateInv (idle (memOf inputs) 4 2 0) ∧ 2 < caN (idle (memOf inputs) 4 2 0) ∧
      (idle (memOf inputs) 4 2 0).readLen 2 = some 3 ∧ caMaxbits (idle (memOf inputs) 4 2 0) < (3 : Word).toNat ∧
      ∀ j, j < 2 → ∃ l, (idle (memOf inputs) 4 2 0).readLen j = some l ∧
        l.toNat ≤ caMaxbits (idle (memOf inputs) 4 2 0)) := by
  refine ⟨⟨stateInv_idle memOk_nil _ _ _, rfl, by decide⟩, ⟨stateInv_idle memOk_nil _ _ _, by decide, by decide⟩,
    stateInv_idle memOk_inputs _ _ _, by decide, by decide, by decide, fun j hj => ?_⟩
  interval_cases j
  · exact ⟨2, by decide, by decide⟩
  · exact ⟨1, by decide, by decide⟩
/-- CA at work on `ready`, `k` pieces after it was accepted. -/
def working (k : Nat) : Result := andThen (exec .assign ready) (runEngine logUnits .ca k)

theorem test_witness_CodesDoNotWrap :
    StateInv ready ∧ ready.params.maxbitsMax ≤ 20 ∧ AssignReady ready lens ∧
    (∀ i, i < caN ready → (lens i).toNat ≤ caMaxbits ready) ∧ 1 ≤ 3 ∧ 3 ≤ caMaxbits ready :=
  ⟨stateInv_ready, by decide, assignReady_ready, by decide, by decide, by decide⟩
-- R156, R157 on the lengths of V-A1: where pass 2 stands before its last length, and pass 3 before its last symbol.
theorem test_witness_CodesDoNotWrap_passes :
    working 12 = .next (after (working 12)) ∧ (after (working 12)).ca.phase = .base 3 ∧
    (after (working 12)).ca.code = 2 ∧ tableRead (after (working 12)).ca.nextCode 2 = 2 ∧
    working 16 = .next (after (working 16)) ∧ (after (working 16)).ca.phase = .emit 3 ∧
    (after (working 16)).ca.code = 6 ∧ tableRead (after (working 16)).ca.nextCode 3 = 7 :=
  ⟨eq_next_after (by decide +kernel), by decide +kernel, by decide +kernel, by decide +kernel,
    eq_next_after (by decide +kernel), by decide +kernel, by decide +kernel, by decide +kernel⟩
theorem test_witness_CanonicalOrder :
    StateInv ready ∧ ready.params.maxbitsMax ≤ 20 ∧ AssignReady ready lens ∧
    (∀ i, i < caN ready → (lens i).toNat ≤ caMaxbits ready) ∧
    2 < 3 ∧ 3 < caN ready ∧ lens 2 = lens 3 ∧ lens 2 ≠ 0 :=
  ⟨stateInv_ready, by decide, assignReady_ready, by decide, by decide, by decide, by decide, by decide⟩
theorem test_witness_TierNesting :
    1 ≤ 1 ∧ 2 + 1 ≤ caMaxbits ready ∧ FirstOf lens (caN ready) 1 1 ∧ FirstOf lens (caN ready) (1 + 1) 0 ∧
    FirstOf lens (caN ready) (2 + 1) 2 := by
  simp only [FirstOf]; decide
theorem test_witness_KraftCodesDecode :
    StateInv ready ∧ AssignReady ready lens ∧ (∀ i, i < caN ready → (lens i).toNat ≤ caMaxbits ready) ∧
    Kraft lens (caN ready) :=
  ⟨stateInv_ready, assignReady_ready, by decide, by
    simp only [Kraft]; decide +kernel⟩
theorem test_witness_AssignEmptyCases :
    (StateInv (idle [] 0 20 0) ∧ (idle [] 0 20 0).busy .ca = false ∧
      caMaxbits (idle [] 0 20 0) ≤ (idle [] 0 20 0).params.maxbitsMax ∧ caN (idle [] 0 20 0) = 0) ∧
    (caMaxbits (idle (memOf [(lenAddr 0, 0), (lenAddr 1, 1)]) 2 0 0) = 0 ∧
      caN (idle (memOf [(lenAddr 0, 0), (lenAddr 1, 1)]) 2 0 0) ≤ 1024 ∧
      (idle (memOf [(lenAddr 0, 0), (lenAddr 1, 1)]) 2 0 0).readLen 1 = some 1 ∧
      ∀ j, j < 1 → (idle (memOf [(lenAddr 0, 0), (lenAddr 1, 1)]) 2 0 0).readLen j = some 0) ∧
    ∀ i, i < caN (idle (memOf [(lenAddr 0, 0), (lenAddr 1, 0)]) 2 3 0) →
      (idle (memOf [(lenAddr 0, 0), (lenAddr 1, 0)]) 2 3 0).readLen i = some 0 :=
  ⟨⟨stateInv_idle memOk_nil _ _ _, rfl, by decide, by decide⟩, by decide, by decide⟩
theorem test_witness_UnwrittenInputFaults :
    StateInv (idle (memOf inputs) 5 3 3) ∧ (idle (memOf inputs) 5 3 3).busy .ca = false ∧
    caN (idle (memOf inputs) 5 3 3) ≤ 1024 ∧ caMaxbits (idle (memOf inputs) 5 3 3) ≤ 20 ∧
    4 < caN (idle (memOf inputs) 5 3 3) ∧ (idle (memOf inputs) 5 3 3).readLen 4 = none ∧
    (∀ j, j < 4 → ∃ l, (idle (memOf inputs) 5 3 3).readLen j = some l ∧ l.toNat ≤ 3) ∧
    (idle (memOf inputs) 5 3 3).busy .ee = false ∧ 2 < eeN (idle (memOf inputs) 5 3 3) ∧
    (idle (memOf inputs) 5 3 3).readCnt 2 = none ∧ ∀ j, j < 2 → (idle (memOf inputs) 5 3 3).readCnt j ≠ none := by
  refine ⟨stateInv_idle memOk_inputs _ _ _, rfl, by decide, by decide, by decide, by decide, fun j hj => ?_, rfl,
    by decide, by decide, by decide⟩
  interval_cases j
  · exact ⟨2, by decide, by decide⟩
  · exact ⟨1, by decide, by decide⟩
  · exact ⟨3, by decide, by decide⟩
  · exact ⟨3, by decide, by decide⟩
theorem test_witness_EstimateResult :
    StateInv ready ∧ EstimateReady ready cnts ∧
    ∀ i, i < eeN ready → costError (symbolCost logUnits Config.eps cnts (eeN ready) i) = none :=
  ⟨stateInv_ready, estimateReady_ready, by decide +kernel⟩
theorem test_witness_EstimateErrors :
    (StateInv (idle [] 0 0 1025) ∧ (idle [] 0 0 1025).busy .ee = false ∧ 1024 < eeN (idle [] 0 0 1025)) ∧
    eeN (idle [] 0 0 0) = 0 ∧
    (EstimateReady ready cnts ∧ 1 < eeN ready ∧
      (∀ j, j < 1 → costError (symbolCost (unitsOf 0#64 0#64) Config.eps cnts (eeN ready) j) = none)) ∧
    Fp.isFinite (symbolCost (unitsOf 0x7FF0000000000000#64 0#64) Config.eps cnts (eeN ready) 0) = false ∧
    (Fp.isFinite (symbolCost (unitsOf 0#64 0x3FF0000000000000#64) Config.eps cnts (eeN ready) 0) = true ∧
      Fp.flt (symbolCost (unitsOf 0#64 0x3FF0000000000000#64) Config.eps cnts (eeN ready) 0) 0#64 = true) :=
  ⟨⟨stateInv_idle memOk_nil _ _ _, rfl, by decide⟩, by decide,
    ⟨estimateReady_ready, by decide, by decide +kernel⟩, by decide +kernel, by decide +kernel⟩
theorem test_witness_ClampWindow :
    Fp.isFinite 0xBEE4F8B588E368F0#64 = true ∧ realOf (Fp.negate Config.eps) < realOf 0xBEE4F8B588E368F0#64 ∧
    realOf 0xBEE4F8B588E368F0#64 < realOf 0#64 :=
  ⟨by decide, realOf_lt (by decide +kernel), realOf_lt (by decide +kernel)⟩
theorem test_witness_ClampWindow_eps :
    Fp.isFinite Config.eps = true ∧ -realOf Config.eps = realOf (Fp.negate Config.eps) ∧ realOf 0#64 = 0 := by
  have e : Fp.scaled (Fp.negate Config.eps) = -Fp.scaled Config.eps := by decide +kernel
  have z : Fp.scaled 0#64 = 0 := by decide
  refine ⟨by decide, ?_, ?_⟩
  · rw [realOf, realOf, e]; push_cast; ring
  · rw [realOf, z]; simp
theorem test_witness_ClampWindow_outside :
    ¬ (Fp.isFinite 0xFFF0000000000000#64 = true ∧ -realOf Config.eps < realOf 0xFFF0000000000000#64 ∧
      realOf 0xFFF0000000000000#64 < 0) := fun h => absurd h.1 (by decide)
theorem test_witness_CostChecks :
    Fp.isFinite 0x7FF0000000000000#64 = false ∧ Fp.isFinite 0x8000000000000001#64 = true ∧
    realOf 0x8000000000000001#64 < realOf 0#64 ∧ Fp.isFinite 0x8000000000000000#64 = true ∧
    (0 : ℝ) ≤ realOf 0x8000000000000000#64 :=
  ⟨by decide, by decide, realOf_lt (by decide), by decide, by
    rw [realOf, show Fp.scaled 0x8000000000000000#64 = 0 by decide]; simp⟩
theorem test_witness_ConversionsExact : 2 ^ 53 - 1 < 2 ^ 53 ∧ StateInv ready ∧ EstimateReady ready cnts :=
  ⟨by decide, stateInv_ready, estimateReady_ready⟩
theorem test_witness_ConformingUnitsNeverErr :
    P1 zeroUnits ∧ P2 zeroUnits ∧ P3 zeroUnits ∧ StateInv ready ∧ EstimateReady ready cnts :=
  ⟨⟨rfl, rfl⟩, fun _ _ _ _ _ => ⟨⟨rfl, rfl, le_rfl⟩, rfl, rfl, le_rfl⟩, fun _ _ _ => ⟨rfl, rfl⟩, stateInv_ready,
    estimateReady_ready⟩
theorem test_witness_MonotonicCost :
    P2 zeroUnits ∧ StateInv ready ∧ EstimateReady ready cnts ∧
    runCommand zeroUnits .estimate .ee ready = .next (after (runCommand zeroUnits .estimate .ee ready)) ∧
    (after (runCommand zeroUnits .estimate .ee ready)).ee.err = false ∧ 0 < eeN ready ∧ 1 < eeN ready ∧
    (cnts 1).toNat < (cnts 0).toNat ∧ 0 < (cnts 1).toNat :=
  ⟨test_witness_ConformingUnitsNeverErr.2.1, stateInv_ready, estimateReady_ready,
    eq_next_after (by decide +kernel), by decide +kernel, by decide, by decide, by decide, by decide⟩
theorem test_witness_ZeroCountCostsAsOne :
    1 ≤ 2 ∧ 2 ≤ 1024 ∧ 0 < countSum (fun i => [0, 1].getD i 0) 2 ∧ [(0 : Word), 1].getD 0 0 = 0 ∧
    [(0 : Word), 1].getD 1 0 = 1 ∧ countSum (fun _ => 0) 2 = 0 := by
  simp only [countSum]; decide
theorem test_witness_SingleCountCostsZero :
    2 ≤ 1024 ∧ 1 < 2 ∧ (∀ i, i < 2 → ([(0 : Word), 7].getD i 0 = 0 ↔ i ≠ 1)) ∧ 0 < 1 := by decide
theorem test_witness_SubtractionRounds :
    Fp.isFinite 0x4340000000000000#64 = true ∧ Fp.isFinite 0xBFF0000000000000#64 = true ∧
    Fp.fsub 0x4340000000000000#64 0xBFF0000000000000#64 = 0x4340000000000000#64 ∧
    Fp.isFinite 0x4340000000000001#64 = true := by decide +kernel
theorem test_witness_SubtractionRounds_tie :
    realOf 0x4340000000000001#64 ≠ realOf 0x4340000000000000#64 ∧
    |realOf 0x4340000000000001#64 - (realOf 0x4340000000000000#64 - realOf 0xBFF0000000000000#64)| =
      |realOf 0x4340000000000000#64 - (realOf 0x4340000000000000#64 - realOf 0xBFF0000000000000#64)| := by
  have hp : (0 : ℝ) < 2 ^ 1074 := by positivity
  have e : ∀ (a : F64) (k : ℤ), Fp.scaled a = k * 2 ^ 1074 → realOf a = k := by
    intro a k h
    rw [realOf, h]; push_cast; exact mul_div_cancel_right₀ _ hp.ne'
  rw [e 0x4340000000000001#64 (2 ^ 53 + 2) (by decide +kernel), e 0x4340000000000000#64 (2 ^ 53) (by decide +kernel),
    e 0xBFF0000000000000#64 (-1) (by decide +kernel)]
  constructor
  · norm_num
  · norm_num
theorem test_witness_LittleEndianBytes : 3 < 4 ∧ 7 < 8 := by decide
theorem test_witness_Log2OfPowersExact : 41 < 42 := by decide
theorem test_witness_DefaultUnitsNearest :
    Fp.isFinite 0x0000000000000001#64 = true ∧ 0 < realOf 0x0000000000000001#64 ∧
    Fp.isFinite 0x7FEFFFFFFFFFFFFF#64 = true ∧ 0 < realOf 0x7FEFFFFFFFFFFFFF#64 := by
  refine ⟨by decide, div_pos ?_ (by positivity), by decide, div_pos ?_ (by positivity)⟩
  · exact_mod_cast (by decide +kernel : (0 : ℤ) < Fp.scaled 0x0000000000000001#64)
  · exact_mod_cast (by decide +kernel : (0 : ℤ) < Fp.scaled 0x7FEFFFFFFFFFFFFF#64)
theorem test_witness_CompletionPublishes :
    StateInv busyBoth ∧ busyBoth.busy .ca = true ∧ busyBoth.busy .ee = true ∧
    engineTick logUnits .ca busyBoth = .next (after (engineTick logUnits .ca busyBoth)) ∧
    completeEngine logUnits .ca busyBoth = .next (after (completeEngine logUnits .ca busyBoth)) ∧
    engineTick logUnits .ee busyBoth = .next (after (engineTick logUnits .ee busyBoth)) ∧
    completeEngine logUnits .ee busyBoth = .next (after (completeEngine logUnits .ee busyBoth)) :=
  ⟨stateInv_busyBoth, rfl, rfl, eq_next_after (by decide +kernel), eq_next_after (by decide +kernel),
    eq_next_after (by decide +kernel), eq_next_after (by decide +kernel)⟩
theorem test_witness_EnginesIndependent :
    StateInv busyBoth ∧
    completeEngine logUnits .ca busyBoth = .next (after (completeEngine logUnits .ca busyBoth)) ∧
    completeEngine logUnits .ee busyBoth = .next (after (completeEngine logUnits .ee busyBoth)) :=
  ⟨stateInv_busyBoth, eq_next_after (by decide +kernel), eq_next_after (by decide +kernel)⟩
theorem test_witness_EngineWorkInvisible :
    (after (engineTick logUnits .ca busyBoth)).busy .ca = true ∧
    (after (engineTick logUnits .ee busyBoth)).busy .ee = true ∧
    hostOp (.rd 0x2004#15 4) busyBoth = .next (after (hostOp (.rd 0x2004#15 4) busyBoth)) ∧
    hostOp (.wr 0x1004#15 4 9) busyBoth = .next (after (hostOp (.wr 0x1004#15 4 9) busyBoth)) :=
  ⟨by decide +kernel, by decide +kernel, eq_next_after (by decide +kernel), eq_next_after (by decide +kernel)⟩
theorem test_witness_EngineFrame :
    ready.busy .ca = false ∧ ready.busy .ee = false ∧
    exec .assign ready = .next (after (exec .assign ready)) ∧
    exec .estimate ready = .next (after (exec .estimate ready)) ∧
    ∀ i, i < busyBoth.ca.latchN.toNat → symAddr i + 4 ≤ 0x2010 :=
  ⟨rfl, rfl, eq_next_after (by decide +kernel), eq_next_after (by decide +kernel), by decide⟩
theorem test_witness_ResultsDependOnInputs :
    StateInv ready ∧ StateInv (idle (memOf inputs) 4 3 2) ∧
    runCommand logUnits .assign .ca ready = .next (after (runCommand logUnits .assign .ca ready)) ∧
    (after (runCommand logUnits .assign .ca ready)).ca.err = false ∧
    runCommand logUnits .estimate .ee ready = .next (after (runCommand logUnits .estimate .ee ready)) ∧
    (after (runCommand logUnits .estimate .ee ready)).ee.err = false :=
  ⟨stateInv_ready, stateInv_ready, eq_next_after (by decide +kernel), by decide +kernel,
    eq_next_after (by decide +kernel), by decide +kernel⟩

/-- Both engines have completed, and the host clears the DONE bits, or STATUS has all three global bits and the host
clears them. -/
def finished (w : Word) : State :=
  withHost { State.reset with
    ca := { State.reset.ca with done := true }, ee := { State.reset.ee with done := true }
    bus := ⟨true, true, true⟩ } [.wr 0x00C#15 4 w]

/-- Both engines have completed with an error. -/
def failed (p : List HostOp) : State :=
  withHost { State.reset with
    ca := { State.reset.ca with done := true, err := true }
    ee := { State.reset.ee with done := true, err := true } } p

theorem test_witness_BusyOrDone :
    stepWith logUnits (finished 0x22) = .next (after (stepWith logUnits (finished 0x22))) ∧
    (finished 0x22).ca.done = true ∧ (finished 0x22).ee.done = true ∧
    (after (stepWith logUnits (finished 0x22))).statusWord &&& 0x33 = 0 :=
  ⟨eq_next_after (by decide +kernel), rfl, rfl, by decide +kernel⟩
theorem test_witness_BusyOrDone_started :
    exec .assign ready = .next (after (exec .assign ready)) ∧
    exec .estimate ready = .next (after (exec .estimate ready)) ∧
    stepWith logUnits (failed [.wr 0x008#15 4 1]) = .next (after (stepWith logUnits (failed [.wr 0x008#15 4 1]))) ∧
    (failed [.wr 0x008#15 4 1]).statusWord = 0x066#32 ∧
    (after (stepWith logUnits (failed [.wr 0x008#15 4 1]))).statusWord = 0x061#32 :=
  ⟨eq_next_after (by decide +kernel), eq_next_after (by decide +kernel), eq_next_after (by decide +kernel),
    by decide +kernel, by decide +kernel⟩
theorem test_witness_BusyOrDone_completed :
    let s : State := { (idle [] 1025 0 0).accept .ca with schedule := [] }
    stepWith logUnits s = .next (after (stepWith logUnits s)) ∧ s.statusWord = 0x001#32 ∧
    (after (stepWith logUnits s)).statusWord = 0x006#32 :=
  ⟨eq_next_after (by decide +kernel), by decide +kernel, by decide +kernel⟩
theorem test_witness_BusyOrDone_cleared :
    (after (stepWith logUnits (failed [.wr 0x00C#15 4 0x44]))).statusWord = 0x022#32 ∧
    stepWith logUnits { failed [] with schedule := [.rst] } =
      .next (after (stepWith logUnits { failed [] with schedule := [.rst] })) ∧
    (after (stepWith logUnits { failed [] with schedule := [.rst] })).statusWord = 0x000#32 :=
  ⟨by decide +kernel, eq_next_after (by decide +kernel), by decide +kernel⟩
theorem test_witness_GlobalStatusBits :
    (after (stepWith logUnits (withHost busyBoth [.wr 0x008#15 4 3]))).bus.illCmd = true ∧
    (after (stepWith logUnits (withHost busyBoth [.wr 0x1000#15 4 3]))).bus.wrDrop = true ∧
    (after (stepWith logUnits (withHost busyBoth [.wr 0x008#15 4 2]))).bus.cmdDrop = true ∧
    busyBoth.bus = ⟨false, false, false⟩ ∧ (finished 0x700).bus = ⟨true, true, true⟩ ∧
    (after (stepWith logUnits (finished 0x700))).bus = ⟨false, false, false⟩ := by decide +kernel
theorem test_witness_CommandsTerminate :
    (∀ i, i < busyBoth.ca.latchN.toNat → busyBoth.readLen i ≠ none) ∧
    ∀ i, i < busyBoth.ee.latchN.toNat → busyBoth.readCnt i ≠ none := by decide
/-- Both engines run the commands of `ready`, and the host polls for a DONE bit under a schedule of turns. -/
def polling (bit : Word) (turns : List Turn) : State :=
  { busyBoth with program := [.poll 0x00C#15 bit bit, .rd 0x00C#15 4], schedule := turns }

theorem stateInv_polling (bit : Word) (turns : List Turn) : StateInv (polling bit turns) :=
  ⟨stateInv_busyBoth.params, stateInv_busyBoth.mem, stateInv_busyBoth.ca, stateInv_busyBoth.ee⟩

theorem test_witness_PollEnds :
    (0x00C#15 : BusAddr).toNat % 4 = 0 ∧ busRead 0x00C#15 busyBoth = .ok (busyBoth.statusWord, busyBoth) ∧
    busyBoth.statusWord &&& 0x2 ≠ 0x2 ∧ busyBoth.statusWord &&& 0x1 = 0x1 := by
  refine ⟨by decide, rfl, ?_⟩; decide +kernel
theorem test_witness_PollEnds_done :
    StateInv (polling 0x20 [.host, .advance .ee, .host]) ∧
    Turn.rst ∉ (polling 0x20 [.host, .advance .ee, .host]).schedule ∧
    InputsWritten (polling 0x20 [.host, .advance .ee, .host]) ∧
    (polling 0x20 [.host, .advance .ee, .host]).busy .ee = true ∧
    (polling 0x20 [.host, .advance .ee, .host]).busy .ca = true ∧
    (polling 0x20 [.host, .advance .ee, .host]).program =
      .poll 0x00C#15 (1#32 <<< doneIndex .ee) (1#32 <<< doneIndex .ee) :: [.rd 0x00C#15 4] :=
  ⟨stateInv_polling _ _, by decide, ⟨fun _ => by decide, fun _ => by decide⟩, rfl, rfl, rfl⟩
-- R284: both engines busy and no turn left: each completes, and the POLL of EE_DONE is over in the third step.
theorem test_witness_PollEnds_bound :
    stepsWith logUnits 2 (polling 0x20 []) = .next (after (stepsWith logUnits 2 (polling 0x20 []))) ∧
    (after (stepsWith logUnits 2 (polling 0x20 []))).program.length = 2 ∧
    stepsWith logUnits 3 (polling 0x20 []) = .next (after (stepsWith logUnits 3 (polling 0x20 []))) ∧
    (after (stepsWith logUnits 3 (polling 0x20 []))).program = [.rd 0x00C#15 4] ∧
    doneBit (after (stepsWith logUnits 3 (polling 0x20 []))) .ee = true :=
  ⟨eq_next_after (by decide +kernel), by decide +kernel, eq_next_after (by decide +kernel), by decide +kernel,
    by decide +kernel⟩
theorem test_witness_HostLinesExpand : 1023 < 1024 := by decide
theorem test_witness_InvKept :
    StateInv busyBoth ∧ stepWith logUnits busyBoth = .next (after (stepWith logUnits busyBoth)) :=
  ⟨stateInv_busyBoth, eq_next_after (by decide +kernel)⟩

end Sys2Proof.Tests
end

/-!
PROOFS. The family of spec/00_scope.md: every step keeps the invariant of Safety.lean (InvKept).
-/
namespace Sys2Proof.Proofs.Scope

open Sys2Proof.Machine Sys2Proof.Safety

/-! ### The invariant speaks of four fields -/

/-- A state that agrees with one that meets the invariant on the parameters, the memory and both engines meets it. -/
theorem stateInv_congr {s t : State} (h : StateInv s) (hp : t.params = s.params) (hm : t.mem = s.mem)
    (hc : t.ca = s.ca) (he : t.ee = s.ee) : StateInv t where
  params := by rw [hp]; exact h.params
  mem := by rw [hp, hm]; exact h.mem
  ca := by rw [hp, hc]; exact h.ca
  ee := by rw [hp, he]; exact h.ee

theorem stateInv_beginTurn {s : State} (h : StateInv s) : StateInv s.beginTurn := stateInv_congr h rfl rfl rfl rfl

/-! ### Engine turns -/

theorem onlyCa_params {s t : State} (h : OnlyCa s t) : t.params = s.params := by rw [h.rest]

theorem onlyCa_ee {s t : State} (h : OnlyCa s t) : t.ee = s.ee := by rw [h.rest]

theorem onlyEe_params {s t : State} (h : OnlyEe s t) : t.params = s.params := by rw [h.rest]

theorem onlyEe_ca {s t : State} (h : OnlyEe s t) : t.ca = s.ca := by rw [h.rest]

/-- The one entry that a piece of CA's work may write is a mapped one. -/
theorem memOk_caTick {s t : State} (h : StateInv s) (ht : caTick s = .next t) : MemOk s.params t.mem := by
  have hin := h.ca.inBounds
  rcases (caTick_spec ht).2 with hm | ⟨i, l, w, hp, -, -, hm⟩
  · rw [hm]; exact h.mem
  · rw [hp] at hin
    obtain ⟨hn, -, hi⟩ := hin
    rw [hm]; exact memOk_writeSym h.mem (hi.trans_le hn) w

/-- What a piece of EE's work writes or forgets is mapped entries, whole ones. -/
theorem memOk_eeTick {u : LogUnits} {s t : State} (h : StateInv s) (ht : eeTick u s = .next t) :
    MemOk s.params t.mem := by
  have hin := h.ee.inBounds
  rcases (eeTick_spec ht).2 with hm | ⟨i, v, hp, hm⟩ | ⟨-, -, hm⟩
  · rw [hm]; exact h.mem
  · rw [hp] at hin
    obtain ⟨hn, hi⟩ := hin
    rw [hm]; exact memOk_writeBitlen h.mem (hi.trans_le hn) v
  · rw [hm]; exact memOk_forgetBitlen h.mem _

theorem stateInv_caTick {s t : State} (h : StateInv s) (hb : s.busy .ca = true) (ht : caTick s = .next t) :
    StateInv t := by
  have ho := (caTick_spec ht).1
  have hp := onlyCa_params ho
  refine ⟨?_, ?_, ?_, ?_⟩
  · rw [hp]; exact h.params
  · rw [hp]; exact memOk_caTick h ht
  · rw [hp]; exact caOk_tick h.ca (by simpa using hb) ht
  · rw [hp, onlyCa_ee ho]; exact h.ee

theorem stateInv_eeTick {u : LogUnits} {s t : State} (h : StateInv s) (hb : s.busy .ee = true)
    (ht : eeTick u s = .next t) : StateInv t := by
  have ho := (eeTick_spec ht).1
  have hp := onlyEe_params ho
  refine ⟨?_, ?_, ?_, ?_⟩
  · rw [hp]; exact h.params
  · rw [hp]; exact memOk_eeTick h ht
  · rw [hp, onlyEe_ca ho]; exact h.ca
  · rw [hp]; exact eeOk_tick h.ee (by simpa using hb) ht

/-- A piece of work of a busy engine keeps the invariant. -/
theorem stateInv_busyTick {u : LogUnits} {e : Engine} {s t : State} (h : StateInv s) (hb : s.busy e = true)
    (ht : engineTick u e s = .next t) : StateInv t := by
  cases e
  · exact stateInv_caTick h hb ht
  · exact stateInv_eeTick h hb ht

/-- An idle engine holds its state (R248). -/
theorem engineTick_of_idle {u : LogUnits} {e : Engine} {s : State} (hb : s.busy e = false) :
    engineTick u e s = .next s := by
  cases e
  · simp only [engineTick, caTick, show s.ca.phase = .idle by simpa using hb]
  · simp only [engineTick, eeTick, show s.ee.phase = .idle by simpa using hb]

theorem stateInv_engineTick {u : LogUnits} {e : Engine} {s t : State} (h : StateInv s)
    (ht : engineTick u e s = .next t) : StateInv t := by
  cases hb : s.busy e
  · rw [engineTick_of_idle hb] at ht; cases ht; exact h
  · exact stateInv_busyTick h hb ht

theorem stateInv_runEngine {u : LogUnits} {e : Engine} {k : Nat} {s t : State} (h : StateInv s)
    (ht : runEngine u e k s = .next t) : StateInv t :=
  runEngine_keeps (fun _ _ h hb ht => stateInv_busyTick h hb ht) h ht

/-! ### The host's turn -/

theorem stateInv_busWrite {a : BusAddr} {w : Word} {s t : State} (h : StateInv s) (ht : busWrite a w s = .next t) :
    StateInv t := by
  obtain ⟨r, hr, heff⟩ := busWrite_effect a w s
  obtain rfl : r = t := by rw [hr] at ht; cases ht; rfl
  have hp : r.params = s.params := by rw [heff.frame]
  refine ⟨?_, ?_, ?_, ?_⟩ <;> rw [hp]
  · exact h.params
  · exact heff.memOk h.mem
  · exact heff.caOk h.ca
  · exact heff.eeOk h.ee

/-- A read changes none of what the invariant speaks of (R75). -/
theorem stateInv_busRead {a : BusAddr} {w : Word} {s t : State} (h : StateInv s) (ht : busRead a s = .ok (w, t)) :
    StateInv t := by
  rcases busRead_spec ht with rfl | rfl
  · exact h
  · exact stateInv_congr h rfl rfl rfl rfl

theorem stateInv_hostOp {op : HostOp} {s t : State} (h : StateInv s) (ht : hostOp op s = .next t) : StateInv t := by
  cases op with
  | wr a size w =>
    simp only [hostOp] at ht
    split at ht
    · exact stateInv_busWrite h ht
    · cases ht
  | rd a size =>
    simp only [hostOp] at ht
    split at ht
    · split at ht
      · cases ht
      · next hr => cases ht; exact stateInv_congr (stateInv_busRead h hr) rfl rfl rfl rfl
    · cases ht
  | poll a mask value =>
    simp only [hostOp] at ht
    split at ht
    · split at ht
      · cases ht
      · next hr => split at ht <;> cases ht <;> exact stateInv_congr (stateInv_busRead h hr) rfl rfl rfl rfl
    · cases ht

theorem stateInv_hostTurn {s t : State} (h : StateInv s) (ht : hostTurn s = .next t) : StateInv t := by
  rw [hostTurn] at ht
  split at ht
  · cases ht; exact h
  · next rest _ => exact stateInv_hostOp (s := { s with program := rest }) (stateInv_congr h rfl rfl rfl rfl) ht

/-! ### Every turn -/

theorem stateInv_takeTurn {u : LogUnits} {turn : Turn} {s t : State} (h : StateInv s)
    (ht : takeTurn u turn s = .next t) : StateInv t := by
  cases turn with
  | host => exact stateInv_hostTurn h ht
  | advance e => exact stateInv_engineTick h ht
  | complete e => exact stateInv_runEngine h ht
  | rst => cases ht; exact inv_applyReset h

/-- Settles O60: a turn of the host, a piece of work, a completion and a reset each keep the invariant. -/
theorem invKept : Obligations.InvKept := by
  intro u s t h ht
  exact stateInv_takeTurn (stateInv_beginTurn h) ht

end Sys2Proof.Proofs.Scope

/-!
PROOFS. The family of spec/00_scope.md: at the default parameters no code of ASSIGN wraps (CodesDoNotWrap, R8).
-/
namespace Sys2Proof.Proofs.Scope

open Sys2Proof.Machine Sys2Proof.Safety

/-! ### The recurrence without a modulus -/

/-- Every symbol is counted in at most one tier. -/
theorem sum_lengthCount_le (lens : Nat → Word) (L k : Nat) : ∑ j ∈ Finset.range L, lengthCount lens j k ≤ k := by
  induction k with
  | zero => simp [lengthCount]
  | succ k ih =>
    simp only [lengthCount_succ, Finset.sum_add_distrib, Finset.sum_ite_eq]
    split <;> omega

theorem tierCount_le_lengthCount (lens : Nat → Word) (n L : Nat) : tierCount lens n L ≤ lengthCount lens L n := by
  rw [tierCount]; split <;> omega

theorem lengthCount_le (lens : Nat → Word) (L k : Nat) : lengthCount lens L k ≤ k := Nat.count_le _

theorem tierCount_le (lens : Nat → Word) (n L : Nat) : tierCount lens n L ≤ n :=
  (tierCount_le_lengthCount lens n L).trans (lengthCount_le lens L n)

/-- A tier's base code is at most all symbols of the tiers below it, each shifted from tier 1 on. -/
theorem tierBase_le_sum (lens : Nat → Word) (n L : Nat) :
    tierBase lens n L ≤ 2 ^ (L - 1) * ∑ j ∈ Finset.range L, tierCount lens n j := by
  induction L with
  | zero => simp [tierBase]
  | succ L ih =>
    rw [tierBase, Finset.sum_range_succ, Nat.add_sub_cancel]
    rcases Nat.eq_zero_or_pos L with rfl | hL
    · simp [tierBase, tierCount]
    · have hpow : 2 ^ L = 2 * 2 ^ (L - 1) := by rw [← Nat.pow_succ']; congr 1; omega
      have hone : tierCount lens n L ≤ 2 ^ (L - 1) * tierCount lens n L :=
        Nat.le_mul_of_pos_left _ (Nat.two_pow_pos _)
      rw [hpow, Nat.mul_assoc, Nat.mul_add (2 ^ (L - 1))]
      omega

theorem tierBase_le (lens : Nat → Word) (n L : Nat) : tierBase lens n L ≤ 2 ^ (L - 1) * n :=
  (tierBase_le_sum lens n L).trans <| Nat.mul_le_mul_left _ <|
    (Finset.sum_le_sum fun j _ => tierCount_le_lengthCount lens n j).trans (sum_lengthCount_le lens L n)

/-- The bound of R8. -/
theorem tierBound_lt {n L : Nat} (hn : n ≤ 1024) (hL : L ≤ 20) : 2 ^ (L - 1) * n + n < 2 ^ 32 := by
  have h : 2 ^ (L - 1) ≤ 2 ^ 19 := Nat.pow_le_pow_right two_pos (by omega)
  have := Nat.mul_le_mul h hn
  omega

/-- A base code plus as many codes as there are symbols stays below 2^32. -/
theorem tierBase_add_lt {lens : Nat → Word} {n L c : Nat} (hn : n ≤ 1024) (hL : L ≤ 20) (hc : c ≤ n) :
    tierBase lens n L + c < 2 ^ 32 :=
  (Nat.add_le_add (tierBase_le lens n L) hc).trans_lt (tierBound_lt hn hL)

theorem tierBase_lt {lens : Nat → Word} {n L : Nat} (hn : n ≤ 1024) (hL : L ≤ 20) : tierBase lens n L < 2 ^ 32 :=
  tierBase_add_lt (c := 0) hn hL (Nat.zero_le n)

theorem toNat_of_eq_ofNat {w : Word} {k : Nat} (h : w = BitVec.ofNat 32 k) (hk : k < 2 ^ 32) : w.toNat = k := by
  rw [h, BitVec.toNat_ofNat, Nat.mod_eq_of_lt hk]

/-! ### CA while it runs -/

/-- The parameters are legal (R7). -/
theorem nMax_le {s : State} (h : StateInv s) : s.params.nMax ≤ 1024 := by
  have hp := h.params
  simp only [Params.wellFormed, Bool.and_eq_true, decide_eq_true_eq] at hp
  omega

theorem exec_assign_idle {s : State} (h : s.busy .ca = false) : exec .assign s = .next (s.accept .ca) := by
  rw [exec, execAssign, h]; rfl

theorem stateInv_acceptCa {s : State} (h : StateInv s) : StateInv (s.accept .ca) :=
  ⟨h.params, h.mem, caOk_accept (s := s) h.ca, h.ee⟩

/-- What holds while CA runs an ASSIGN of legal lengths `lens` with operands `n` and `m`: the lengths are not
overwritten, and the scratch follows them. -/
structure Assigning (lens : Nat → Word) (n m : Nat) (s : State) : Prop where
  inv : StateInv s
  latchN : s.ca.latchN.toNat = n
  latchMaxbits : s.ca.latchMaxbits.toNat = m
  written : ∀ i, i < n → s.readLen i = some (lens i)
  legal : ∀ i, i < n → (lens i).toNat ≤ m
  scratch : CaScratch lens s

theorem assigning_accept {s : State} {lens : Nat → Word} (h : StateInv s) (hr : AssignReady s lens)
    (hl : ∀ i, i < caN s → (lens i).toNat ≤ caMaxbits s) :
    Assigning lens (caN s) (caMaxbits s) (s.accept .ca) where
  inv := stateInv_acceptCa h
  latchN := rfl
  latchMaxbits := rfl
  written := hr.written
  legal := hl
  scratch := trivial

/-- A piece of CA's work overwrites no length (R85). -/
theorem readLen_caTick {s t : State} (ht : caTick s = .next t) {j : Nat} (hj : j < 1024) :
    t.readLen j = s.readLen j := by
  rcases (caTick_spec ht).2 with hm | ⟨i, l, w, -, -, -, hm⟩
  · rw [State.readLen, hm, State.readLen]
  · rw [State.readLen, hm]; exact readLen_writeSym (s := s) hj

theorem Assigning.tick {lens : Nat → Word} {n m : Nat} {s t : State} (hn : n ≤ 1024) (h : Assigning lens n m s)
    (hb : s.busy .ca = true) (ht : caTick s = .next t) : Assigning lens n m t where
  inv := stateInv_caTick h.inv hb ht
  latchN := by rw [(caTick_spec ht).1.latchN]; exact h.latchN
  latchMaxbits := by rw [(caTick_spec ht).1.latchMaxbits]; exact h.latchMaxbits
  written i hi := (readLen_caTick ht (by omega)).trans (h.written i hi)
  legal := h.legal
  scratch := caScratch_tick h.inv.ca (by rw [h.latchN]; exact h.written)
    (by rw [h.latchN, h.latchMaxbits]; exact h.legal) h.scratch ht

/-- In pass 2 the scratch holds the numbers of the recurrence. -/
theorem Assigning.base_toNat {lens : Nat → Word} {n m L : Nat} {s : State} (hn : n ≤ 1024) (hm : m ≤ 20)
    (h : Assigning lens n m s) (hp : s.ca.phase = .base L) :
    (∀ j, j ≤ m → (tableRead s.ca.blCount j).toNat = tierCount lens n j) ∧
      s.ca.code.toNat = tierBase lens n (L - 1) ∧
      ∀ j, 1 ≤ j → j < L → (tableRead s.ca.nextCode j).toNat = tierBase lens n j := by
  have hin := h.inv.ca.inBounds
  have hs := h.scratch
  simp only [hp, CaPhase.InBounds, CaScratch, h.latchN, h.latchMaxbits] at hin hs
  obtain ⟨-, -, -, hL⟩ := hin
  obtain ⟨hbl, hcode, hnc⟩ := hs
  refine ⟨fun j hj => ?_, ?_, fun j h1 hj => ?_⟩
  · exact toNat_of_eq_ofNat (hbl j hj) (by have := tierCount_le lens n j; omega)
  · exact toNat_of_eq_ofNat hcode (tierBase_lt hn (by omega))
  · exact toNat_of_eq_ofNat (hnc j h1 hj) (tierBase_lt hn (by omega))

/-- In pass 3 the scratch holds the numbers of the recurrence. -/
theorem Assigning.emit_toNat {lens : Nat → Word} {n m i : Nat} {s : State} (hn : n ≤ 1024) (hm : m ≤ 20)
    (h : Assigning lens n m s) (hp : s.ca.phase = .emit i) :
    s.ca.code.toNat = tierBase lens n m ∧
      ∀ j, 1 ≤ j → j ≤ m → (tableRead s.ca.nextCode j).toNat = tierBase lens n j + lengthCount lens j i := by
  have hin := h.inv.ca.inBounds
  have hs := h.scratch
  simp only [hp, CaPhase.InBounds, CaScratch, h.latchN, h.latchMaxbits] at hin hs
  obtain ⟨-, -, hi⟩ := hin
  obtain ⟨hcode, hnc⟩ := hs
  refine ⟨toNat_of_eq_ofNat hcode (tierBase_lt hn hm), fun j h1 hj => ?_⟩
  exact toNat_of_eq_ofNat (hnc j h1 hj) (tierBase_add_lt hn (by omega) ((lengthCount_le lens _ i).trans hi.le))

/-! ### The whole command -/

/-- An ASSIGN of legal lengths succeeds and writes the codes (R150 to R161), for all parameters modulo 2^32. -/
theorem runCommand_assign {u : LogUnits} {s : State} {lens : Nat → Word} (h : StateInv s) (hr : AssignReady s lens)
    (hl : ∀ i, i < caN s → (lens i).toNat ≤ caMaxbits s) :
    ∃ r, runCommand u .assign .ca s = .next r ∧ CaSucceeded s r ∧ EmittedFrom lens (caN s) 0 s.mem r.mem := by
  obtain ⟨m', hemit, hrun⟩ := complete_assign (u := u) (s := s.accept .ca) (lens := lens) rfl hr.nFits
    (nMax_le (stateInv_acceptCa h)) hr.maxbitsFits h.ca.blCountLength h.ca.nextCodeLength hr.written hl
  refine ⟨{ (s.accept .ca).finish .ca with mem := m' }, ?_, ⟨rfl, rfl, rfl, rfl, rfl, rfl, rfl, rfl, rfl⟩, hemit⟩
  rw [runCommand, exec_assign_idle hr.idle, andThen_next, hrun]

/-- At the default parameters the code of a symbol is the number of the recurrence. -/
theorem symbolCode_lt {lens : Nat → Word} {n i : Nat} (hn : n ≤ 1024) (hi : i < n) (hl : (lens i).toNat ≤ 20) :
    symbolCode lens n i < 2 ^ 32 := tierBase_add_lt hn hl ((lengthCount_le lens _ i).trans hi.le)

/-- Settles O30: the recurrence is bounded by `2^(L-1) * n + n`, and the scratch and the codes, which follow it modulo
2^32, are below 2^32. -/
theorem codesDoNotWrap : Obligations.CodesDoNotWrap := by
  intro u s lens h hM hr hl
  have hn : caN s ≤ 1024 := hr.nFits.trans (nMax_le h)
  have hm : caMaxbits s ≤ 20 := hr.maxbitsFits.trans hM
  refine ⟨fun L _ hL => ⟨?_, tierBound_lt hn (hL.trans hm)⟩, fun k t ht => ?_, ?_⟩
  · exact Nat.add_le_add (tierBase_le lens _ L) (tierCount_le lens _ L)
  · rw [exec_assign_idle hr.idle, andThen_next] at ht
    have ha : Assigning lens (caN s) (caMaxbits s) t :=
      runEngine_keeps (fun _ _ ha hb ht => ha.tick hn hb ht) (assigning_accept h hr hl) ht
    exact ⟨fun L hp => ha.base_toNat hn hm hp, fun i hp => ha.emit_toNat hn hm hp⟩
  · obtain ⟨r, hrun, hok, hemit⟩ := runCommand_assign (u := u) h hr hl
    refine ⟨r, hrun, hok, fun i hi h0 => ⟨_, hemit.codes i (Nat.zero_le i) hi h0, ?_⟩⟩
    exact toNat_of_eq_ofNat rfl (symbolCode_lt hn hi ((hl i hi).trans hm))

end Sys2Proof.Proofs.Scope

/-!
PROOFS. The family of spec/00_scope.md: a difference is rounded to nearest, ties to even (SubtractionRounds, R15).
-/
namespace Sys2Proof.Proofs.Scope

open Sys2Proof.Machine Sys2Proof.Machine.Fp Sys2Proof.Safety

/-! ### Ties of a magnitude -/

/-- A number midway between two integers is rounded to the even one. -/
theorem roundShift_even_of_tie {k s : Nat} (h : 2 * k + 2 ^ s = 2 * (roundShift k s * 2 ^ s) ∨
    2 * k = 2 * (roundShift k s * 2 ^ s) + 2 ^ s) : roundShift k s % 2 = 0 := by
  have hr := Nat.mod_lt k (Nat.two_pow_pos s)
  have hd := Nat.div_add_mod' k (2 ^ s)
  simp only [roundShift] at h ⊢
  split at h
  · next hc => rw [if_pos hc]; rw [Nat.add_mul] at h; omega
  · next hc => rw [if_neg hc]; omega

/-- Two multiples of `P` as far from `k`, one of them within half of `P`, are neighbours with `k` midway. -/
theorem midway_of_multiples {k q z P : Nat} (h1 : 2 * k ≤ 2 * (q * P) + P) (h2 : 2 * (q * P) ≤ 2 * k + P)
    (hne : z ≠ q) (h : z * P + q * P = 2 * k) : 2 * k + P = 2 * (q * P) ∨ 2 * k = 2 * (q * P) + P := by
  rcases Nat.lt_or_gt_of_ne hne with hlt | hlt
  · have := Nat.mul_le_mul_right P hlt
    rw [Nat.succ_eq_add_one, Nat.add_mul] at this
    omega
  · have := Nat.mul_le_mul_right P hlt
    rw [Nat.succ_eq_add_one, Nat.add_mul] at this
    omega

/-- Where `k` is midway between the value it is rounded to and another one, the encoding of the former is even. -/
theorem encodeWide_even_of_tie {k m : Nat} (hne : decodeMag m ≠ decodeMag (encodeWide k))
    (h : decodeMag m + decodeMag (encodeWide k) = 2 * k) : encodeWide k % 2 = 0 := by
  rw [decodeMag_encodeWide] at h hne
  rcases Nat.lt_or_ge k (2 ^ 52) with hk | hk
  · rw [shift_small (by omega), roundShift_zero] at h hne
    omega
  · obtain ⟨hlow, -⟩ := shift_range k hk
    obtain ⟨hq, -⟩ := roundShift_range k hk
    obtain ⟨n1, n2⟩ := roundShift_near k (Nat.log2 k - 52)
    have hparity : encodeWide k % 2 = roundShift k (Nat.log2 k - 52) % 2 := by rw [encodeWide]; omega
    -- The other value has at least the exponent of `k`, so it is a multiple of the same power of two.
    have hm : 2 ^ 52 * 2 ^ (Nat.log2 k - 52) ≤ decodeMag m := by
      rcases Nat.lt_or_eq_of_le hq with hq | hq
      · have := Nat.mul_le_mul_right (2 ^ (Nat.log2 k - 52)) hq
        rw [Nat.succ_eq_add_one, Nat.add_mul] at this
        omega
      · rw [← hq] at h; omega
    obtain ⟨z, hz⟩ := dvd_decodeMag (m := m) (s := Nat.log2 k - 52) (by rw [Nat.pow_add]; exact hm)
    rw [hz, Nat.mul_comm] at h hne
    rw [hparity]
    exact roundShift_even_of_tie (midway_of_multiples n1 n2 (fun e => hne (by rw [e])) h)

/-! ### Rounding a signed number of units -/

/-- The value that `d` units of 2^-1074 are rounded to. -/
theorem magnitude_ofUnits_of_isFinite {d : Int} (h : isFinite (Log.ofUnits d) = true) :
    magnitude (Log.ofUnits d) = encodeWide d.natAbs := by
  rw [isFinite, decide_eq_true_eq] at h
  rw [Log.ofUnits, magnitude_ofScaled, encodeMag_eq] at h ⊢
  omega

theorem scaled_ofUnits_of_isFinite {d : Int} (h : isFinite (Log.ofUnits d) = true) :
    scaled (Log.ofUnits d) = if d < 0 then -(decodeMag (encodeWide d.natAbs) : Int)
      else (decodeMag (encodeWide d.natAbs) : Int) := by
  rw [scaled, magnitude_ofUnits_of_isFinite h, Log.ofUnits, negative_ofScaled]
  simp only [decide_eq_true_eq]

/-- A finite rounding is nearest, counted in units. -/
theorem scaled_ofUnits_near {d : Int} (h : isFinite (Log.ofUnits d) = true) (z : F64) :
    |scaled (Log.ofUnits d) - d| ≤ |scaled z - d| := by
  have hn := encodeWide_nearest d.natAbs (magnitude z)
  have h0 := encodeWide_nearest d.natAbs 0
  rw [decodeMag_zero] at h0
  rw [scaled_ofUnits_of_isFinite h, scaled]
  generalize decodeMag (encodeWide d.natAbs) = R at *
  generalize decodeMag (magnitude z) = Z at *
  simp only [abs_le, le_abs] at *
  split <;> split <;> omega

/-- Rounding at most doubles a magnitude, since 0 is a value. -/
theorem decodeMag_encodeWide_le (k : Nat) : decodeMag (encodeWide k) ≤ 2 * k := by
  have h := encodeWide_nearest k 0
  rw [decodeMag_zero] at h
  simp only [abs_le, le_abs] at h
  omega

/-- Two distinct values as near to `d` units, one of them delivered: their magnitudes are as far from that of `d`. -/
theorem magnitudes_of_tie {d : Int} (h : isFinite (Log.ofUnits d) = true) {z : F64}
    (hne : scaled z ≠ scaled (Log.ofUnits d)) (hsum : scaled z + scaled (Log.ofUnits d) = 2 * d) :
    decodeMag (magnitude z) ≠ decodeMag (encodeWide d.natAbs) ∧
      decodeMag (magnitude z) + decodeMag (encodeWide d.natAbs) = 2 * d.natAbs := by
  have hle := decodeMag_encodeWide_le d.natAbs
  rw [scaled_ofUnits_of_isFinite h, scaled] at hsum hne
  revert hsum hne
  split <;> split <;> omega

/-- The last bit of an encoding is that of its magnitude. -/
theorem getLsbD_zero_eq (a : F64) : a.getLsbD 0 = decide (magnitude a % 2 = 1) := by
  rw [BitVec.getLsbD, Nat.testBit_zero, magnitude, Nat.mod_mod_of_dvd _ (by norm_num)]

/-- Where another value is as near to `d` units, the value delivered has an even significand. -/
theorem ofUnits_even_of_tie {d : Int} (h : isFinite (Log.ofUnits d) = true) {z : F64}
    (hne : scaled z ≠ scaled (Log.ofUnits d)) (htie : |scaled z - d| = |scaled (Log.ofUnits d) - d|) :
    (Log.ofUnits d).getLsbD 0 = false := by
  have hsum : scaled z + scaled (Log.ofUnits d) = 2 * d := by
    rcases abs_eq_abs.1 htie with e | e
    · exact absurd (by omega) hne
    · omega
  obtain ⟨hm, hk⟩ := magnitudes_of_tie h hne hsum
  have heven := encodeWide_even_of_tie hm hk
  rw [getLsbD_zero_eq, magnitude_ofUnits_of_isFinite h, heven]
  rfl

/-! ### Subtraction -/

/-- A finite difference is the exact one, or the exact one rounded. -/
theorem fsub_cases {a b : F64} (ha : isFinite a = true) (hb : isFinite b = true) :
    scaled a - scaled b = 0 ∧ scaled (fsub a b) = 0 ∨ fsub a b = Log.ofUnits (scaled a - scaled b) := by
  rw [fsub, isNaN_of_isFinite ha, isNaN_of_isFinite hb, isInf_of_isFinite ha, isInf_of_isFinite hb]
  simp only [Bool.or_self, Bool.false_eq_true, if_false]
  split
  · next hd =>
    refine .inl ⟨hd, ?_⟩
    split <;> decide
  · exact .inr rfl

/-- A finite difference is nearest to the exact one, counted in units. -/
theorem scaled_fsub_near {a b : F64} (ha : isFinite a = true) (hb : isFinite b = true)
    (hf : isFinite (fsub a b) = true) (z : F64) :
    |scaled (fsub a b) - (scaled a - scaled b)| ≤ |scaled z - (scaled a - scaled b)| := by
  rcases fsub_cases ha hb with ⟨hd, h0⟩ | he
  · rw [h0, hd, sub_zero, abs_zero]; exact abs_nonneg _
  · rw [he] at hf ⊢; exact scaled_ofUnits_near hf z

theorem fsub_even_of_tie {a b : F64} (ha : isFinite a = true) (hb : isFinite b = true)
    (hf : isFinite (fsub a b) = true) {z : F64} (hne : scaled z ≠ scaled (fsub a b))
    (htie : |scaled z - (scaled a - scaled b)| = |scaled (fsub a b) - (scaled a - scaled b)|) :
    (fsub a b).getLsbD 0 = false := by
  rcases fsub_cases ha hb with ⟨hd, h0⟩ | he
  · rw [h0, hd, sub_zero, sub_zero, abs_zero, abs_eq_zero] at htie
    exact absurd (htie.trans h0.symm) hne
  · rw [he] at hf hne htie ⊢; exact ofUnits_even_of_tie hf hne htie

/-- A distance from a difference, counted in units. -/
theorem abs_realOf_sub (z a b : F64) :
    |realOf z - (realOf a - realOf b)| = ((|scaled z - (scaled a - scaled b)| : Int) : ℝ) / 2 ^ 1074 := by
  rw [realOf, realOf, realOf, ← sub_div, ← sub_div, abs_div, abs_of_pos (a := (2 : ℝ) ^ 1074) (by positivity)]
  push_cast
  rfl

theorem scaled_ne_of_realOf_ne {a b : F64} (h : realOf a ≠ realOf b) : scaled a ≠ scaled b :=
  fun e => h (by rw [realOf, realOf, e])

/-- Settles O45: rounding magnitudes is nearest, and where `k` units are midway between two values the shifted
significand is the even one; the sign of the difference carries over. -/
theorem subtractionRounds : Obligations.SubtractionRounds := by
  intro a b ha hb hf
  have hpos : (0 : ℝ) < 2 ^ 1074 := by positivity
  refine ⟨⟨hf, fun z _ => ?_⟩, fun z _ hne htie => ?_⟩
  · rw [abs_realOf_sub, abs_realOf_sub, div_le_div_iff_of_pos_right hpos, Int.cast_le]
    exact scaled_fsub_near ha hb hf z
  · rw [abs_realOf_sub, abs_realOf_sub, div_left_inj' hpos.ne', Int.cast_inj] at htie
    exact fsub_even_of_tie ha hb hf (scaled_ne_of_realOf_ne hne) htie

end Sys2Proof.Proofs.Scope

/-!
PROOFS. The family of spec/00_scope.md: the default logarithm units are correctly rounded at every positive finite
value (DefaultUnitsNearest, R7 and R196). A logarithm is an integer, which is a value, or it is irrational, so that it
is midway between no two values.
-/
namespace Sys2Proof.Proofs.Scope

open Sys2Proof.Machine Sys2Proof.Machine.Log Sys2Proof.Safety

/-! ### The logarithm of a value -/

theorem inDomain_of_pos {x : F64} (hf : Fp.isFinite x = true) (h : 0 < realOf x) : inDomain x = true := by
  have hs : 0 < Fp.scaled x := by
    rw [realOf, div_pos_iff_of_pos_right (by positivity)] at h
    exact_mod_cast h
  rw [Fp.scaled] at hs
  split at hs
  · omega
  · next hn =>
    have hm : 0 < Fp.magnitude x := by
      rw [← Fp.decodeMag_lt, Fp.decodeMag_zero]; omega
    simp [inDomain, hf, hn, hm]

theorem logb_realOf {x : F64} (h : inDomain x = true) :
    Real.logb 2 (realOf x) = Real.logb 2 (unitsIn x) - 1074 := by
  have hk : (unitsIn x : ℝ) ≠ 0 := by exact_mod_cast (unitsIn_pos h).ne'
  rw [realOf_eq_unitsIn h, Nat.cast_pow, Real.logb_div hk (by positivity), Real.logb_pow, Nat.cast_two,
    Real.logb_self_eq_one one_lt_two]
  norm_num

theorem log_realOf {x : F64} (h : inDomain x = true) :
    Real.log (realOf x) = Real.log (unitsIn x) - 1074 * Real.log 2 := by
  have hk : (unitsIn x : ℝ) ≠ 0 := by exact_mod_cast (unitsIn_pos h).ne'
  rw [realOf_eq_unitsIn h, Nat.cast_pow, Real.log_div hk (by positivity), Real.log_pow, Nat.cast_two]
  norm_num

/-! ### Numbers that are values -/

/-- An integer below 2^53 is encoded exactly. -/
theorem scaled_ofScaled_int {d : Int} (h : d.natAbs < 2 ^ 53) :
    Fp.scaled (Fp.ofScaled (decide (d < 0)) (d.natAbs * 2 ^ 1074)) = d * 2 ^ 1074 := by
  have hm : Fp.decodeMag (Fp.encodeMag (d.natAbs * 2 ^ 1074)) = d.natAbs * 2 ^ 1074 := by
    rw [← Fp.magnitude_ofScaled false]; exact Fp.decodeMag_toF64 h
  rw [Fp.scaled, Fp.magnitude_ofScaled, Fp.negative_ofScaled, hm]
  push_cast
  simp only [decide_eq_true_eq]
  split
  · next hd => rw [abs_of_neg hd]; ring
  · next hd => rw [abs_of_nonneg (not_lt.1 hd)]

theorem exists_realOf_eq_int {d : Int} (h : d.natAbs < 2 ^ 53) : ∃ z, Fp.isFinite z = true ∧ realOf z = d := by
  refine ⟨Fp.ofScaled (decide (d < 0)) (d.natAbs * 2 ^ 1074), ?_, ?_⟩
  · have hf := Fp.isFinite_toF64 h
    rw [Fp.toF64, Fp.isFinite, Fp.magnitude_ofScaled] at hf
    rw [Fp.isFinite, Fp.magnitude_ofScaled, hf]
  · rw [realOf, scaled_ofScaled_int h]
    push_cast
    exact mul_div_cancel_right₀ _ (by positivity)

/-- A value nearest to a number that is itself a value is the only nearest one. -/
theorem onlyNearest_of_exists {y : F64} {x : ℝ} (h : Nearest y x) (hx : ∃ z, Fp.isFinite z = true ∧ realOf z = x) :
    OnlyNearest y x := by
  obtain ⟨z, hz, rfl⟩ := hx
  refine onlyNearest_of_eq h.1 ?_
  have hd := h.2 z hz
  rw [sub_self, abs_zero] at hd
  exact sub_eq_zero.1 (abs_nonpos_iff.1 hd)

/-! ### The units -/

/-- Doubling a multiple: what is no multiple of half a unit. -/
theorem ne_half_of_double_ne {M : Nat} {x : ℝ} {c : Int} (h : ((2 * M : Nat) : ℝ) * x ≠ c) : (M : ℝ) * x ≠ c / 2 := by
  intro e
  refine h ?_
  push_cast
  linarith

/-- LOG2 delivers the only nearest value: the binary logarithm of a power of two is an integer, every other one is
irrational. -/
theorem onlyNearest_log2Unit {x : F64} (h : inDomain x = true) :
    OnlyNearest (log2Unit x) (Real.logb 2 (realOf x)) := by
  have hnear := nearest_log2Unit h
  rw [logb_realOf h]
  by_cases hp : ∃ e, unitsIn x = 2 ^ e
  · obtain ⟨e, he⟩ := hp
    have hlt := unitsIn_lt h
    rw [he, Nat.pow_lt_pow_iff_right one_lt_two] at hlt
    refine onlyNearest_of_exists hnear ?_
    obtain ⟨z, hz, hv⟩ := exists_realOf_eq_int (d := (e : Int) - 1074) (by omega)
    refine ⟨z, hz, ?_⟩
    rw [hv, he, Nat.cast_pow, Real.logb_pow, Nat.cast_two, Real.logb_self_eq_one one_lt_two]
    push_cast
    ring
  · refine onlyNearest_of_nearest hnear fun c => ne_half_of_double_ne fun hc => ?_
    generalize hM : 2 * 2 ^ 1074 = M at hc
    have hM0 : 0 < M := hM ▸ by positivity
    refine mul_logb_ne (unitsIn_pos h) hM0 (not_exists.1 hp) (c + M * 1074) ?_
    push_cast
    linarith

/-- LN delivers the only nearest value: the natural logarithm of 1 is 0, every other one is irrational. -/
theorem onlyNearest_lnUnit {x : F64} (h : inDomain x = true) : OnlyNearest (lnUnit x) (Real.log (realOf x)) := by
  have hnear := nearest_lnUnit h
  have hB : (1074 : ℝ) * Real.log 2 = Real.log ((2 ^ 1074 : Nat) : ℝ) := by
    rw [Nat.cast_pow, Real.log_pow]; norm_num
  rw [log_realOf h]
  rw [hB] at hnear ⊢
  by_cases h1 : unitsIn x = 2 ^ 1074
  · refine onlyNearest_of_exists hnear ?_
    rw [h1, sub_self]
    simpa using exists_realOf_eq_int (d := 0) (by norm_num)
  · refine onlyNearest_of_nearest hnear fun c => ne_half_of_double_ne fun hc => ?_
    have hM0 : 0 < 2 * 2 ^ 1074 := by positivity
    generalize 2 ^ 1074 = B at *
    exact mul_log_ne (unitsIn_pos h) (by omega) hM0 h1 c hc

/-- Settles O47: the units are nearest, and no logarithm is midway between two values. -/
theorem defaultUnitsNearest : Obligations.DefaultUnitsNearest := by
  intro x hf hx
  have h := inDomain_of_pos hf hx
  exact ⟨onlyNearest_log2Unit h, onlyNearest_lnUnit h⟩

end Sys2Proof.Proofs.Scope

/-!
PROOFS. The family of spec/10_state.md: what a host transaction does at each address, and the register map with STATUS
and IRQ_EN (RegisterReads, StatusFields, StatusWriteClears, IrqEnableAndLine, UnmappedAndReserved,
UnwrittenReadFaults, InvAtReset).
-/
namespace Sys2Proof.Proofs.Registers

open Sys2Proof.Machine Sys2Proof.Safety

/-! ### The register region -/

theorem regAt_of_ge {a : Nat} (h : 0x54 ≤ a) : regAt a = none := by
  simp [regAt, show ∀ b, b < 0x54 → a ≠ b by omega]

/-- No two registers share an offset: `regAt` inverts `Reg.offset`, over the offsets below 0x54 by evaluation. -/
theorem regAt_eq_some {a : Nat} {r : Reg} (h : regAt a = some r) : a = r.offset := by
  have table : ∀ b < 0x54, ∀ q ∈ regAt b, b = q.offset := by decide
  rcases Nat.lt_or_ge a 0x54 with ha | ha
  · exact table a ha r h
  · rw [regAt_of_ge ha] at h; cases h

theorem offset_mem_regOffsets (r : Reg) : r.offset ∈ regOffsets := by cases r <;> decide

theorem regAt_of_not_mem {a : Nat} (h : a ∉ regOffsets) : regAt a = none := by
  rw [Option.eq_none_iff_forall_ne_some]
  rintro r hr
  exact h (regAt_eq_some hr ▸ offset_mem_regOffsets r)

/-- Below 0x1000 an address names the register at its offset (R22) or is reserved (R38). -/
theorem decodeAddr_of_lt {p : Params} {a : BusAddr} (h : a.toNat < 0x1000) :
    decodeAddr p a = (regAt a.toNat).elim .reserved .reg := by
  simp only [decodeAddr, if_pos h]
  cases regAt a.toNat <;> rfl

theorem decodeAddr_of_reserved {p : Params} {a : BusAddr} (h : ReservedOffset a.toNat) :
    decodeAddr p a = .reserved := by
  obtain ⟨hlt, hnot⟩ := h
  rw [decodeAddr_of_lt hlt, regAt_of_not_mem hnot]
  rfl

/-! ### The array regions -/

theorem mappedEntry_of_lt {p : Params} {i : Nat} {t : Target} (h : i < p.nMax) : mappedEntry p i t = t := if_pos h

theorem mappedEntry_of_ge {p : Params} {i : Nat} {t : Target} (h : p.nMax ≤ i) : mappedEntry p i t = .unmapped :=
  if_neg (by omega)

theorem decodeAddr_lenRegion {p : Params} {a : BusAddr} (h1 : 0x1000 ≤ a.toNat) (h2 : a.toNat < 0x2000) :
    decodeAddr p a = mappedEntry p ((a.toNat - 0x1000) / 4) (.lenEntry ((a.toNat - 0x1000) / 4)) := by
  simp only [decodeAddr, Nat.shiftRight_eq_div_pow]
  rw [if_neg (by omega), if_pos h2]

theorem decodeAddr_symRegion {p : Params} {a : BusAddr} (h1 : 0x2000 ≤ a.toNat) (h2 : a.toNat < 0x3000) :
    decodeAddr p a = mappedEntry p ((a.toNat - 0x2000) / 4) (.symEntry ((a.toNat - 0x2000) / 4)) := by
  simp only [decodeAddr, Nat.shiftRight_eq_div_pow]
  rw [if_neg (by omega), if_neg (by omega), if_pos h2]

theorem decodeAddr_cntRegion {p : Params} {a : BusAddr} (h1 : 0x3000 ≤ a.toNat) (h2 : a.toNat < 0x4000) :
    decodeAddr p a = mappedEntry p ((a.toNat - 0x3000) / 4) (.cntEntry ((a.toNat - 0x3000) / 4)) := by
  simp only [decodeAddr, Nat.shiftRight_eq_div_pow]
  rw [if_neg (by omega), if_neg (by omega), if_neg (by omega), if_pos h2]

theorem decodeAddr_bitlenRegion {p : Params} {a : BusAddr} (h1 : 0x4000 ≤ a.toNat) (h2 : a.toNat < 0x6000) :
    decodeAddr p a =
      mappedEntry p ((a.toNat - 0x4000) / 8) (.bitlenHalf ((a.toNat - 0x4000) / 8) (a.getLsbD 2)) := by
  simp only [decodeAddr, Nat.shiftRight_eq_div_pow]
  rw [if_neg (by omega), if_neg (by omega), if_neg (by omega), if_neg (by omega), if_pos h2]

theorem decodeAddr_highRegion {p : Params} {a : BusAddr} (h : 0x6000 ≤ a.toNat) : decodeAddr p a = .unmapped := by
  simp only [decodeAddr]
  rw [if_neg (by omega), if_neg (by omega), if_neg (by omega), if_neg (by omega), if_neg (by omega)]

theorem decodeAddr_of_unmapped {p : Params} {a : BusAddr} (hN : p.nMax ≤ 1024) (h : UnmappedAddr p a.toNat) :
    decodeAddr p a = .unmapped := by
  rcases h with ⟨h1, -⟩ | ⟨h1, h2⟩ | ⟨h1, h2⟩ | ⟨h1, h2⟩ | ⟨h1, h2⟩
  · exact decodeAddr_highRegion h1
  · rw [decodeAddr_lenRegion (by omega) h2, mappedEntry_of_ge (by omega)]
  · rw [decodeAddr_symRegion (by omega) h2, mappedEntry_of_ge (by omega)]
  · rw [decodeAddr_cntRegion (by omega) h2, mappedEntry_of_ge (by omega)]
  · rw [decodeAddr_bitlenRegion (by omega) h2, mappedEntry_of_ge (by omega)]

/-- With N_MAX = 1024 each array fills its region (R73). -/
theorem decodeAddr_ne_unmapped {p : Params} {a : BusAddr} (hN : p.nMax = 1024) (h1 : 0x1000 ≤ a.toNat)
    (h2 : a.toNat < 0x6000) : decodeAddr p a ≠ .unmapped := by
  by_cases hl : a.toNat < 0x2000
  · rw [decodeAddr_lenRegion h1 hl, mappedEntry_of_lt (by omega)]; nofun
  by_cases hs : a.toNat < 0x3000
  · rw [decodeAddr_symRegion (by omega) hs, mappedEntry_of_lt (by omega)]; nofun
  by_cases hc : a.toNat < 0x4000
  · rw [decodeAddr_cntRegion (by omega) hc, mappedEntry_of_lt (by omega)]; nofun
  · rw [decodeAddr_bitlenRegion (by omega) h2, mappedEntry_of_lt (by omega)]; nofun

/-- The address map R71 with the entry decode R72, region by region. -/
theorem decodeAddr_regions (p : Params) (a : BusAddr) :
    (a.toNat < 0x1000 ∧ decodeAddr p a = (regAt a.toNat).elim .reserved .reg) ∨
    (0x1000 ≤ a.toNat ∧
      decodeAddr p a = mappedEntry p ((a.toNat - 0x1000) / 4) (.lenEntry ((a.toNat - 0x1000) / 4))) ∨
    (0x2000 ≤ a.toNat ∧
      decodeAddr p a = mappedEntry p ((a.toNat - 0x2000) / 4) (.symEntry ((a.toNat - 0x2000) / 4))) ∨
    (0x3000 ≤ a.toNat ∧
      decodeAddr p a = mappedEntry p ((a.toNat - 0x3000) / 4) (.cntEntry ((a.toNat - 0x3000) / 4))) ∨
    (0x4000 ≤ a.toNat ∧ decodeAddr p a =
      mappedEntry p ((a.toNat - 0x4000) / 8) (.bitlenHalf ((a.toNat - 0x4000) / 8) (a.getLsbD 2))) ∨
    decodeAddr p a = .unmapped := by
  by_cases h1 : a.toNat < 0x1000
  · exact .inl ⟨h1, decodeAddr_of_lt h1⟩
  by_cases h2 : a.toNat < 0x2000
  · exact .inr (.inl ⟨by omega, decodeAddr_lenRegion (by omega) h2⟩)
  by_cases h3 : a.toNat < 0x3000
  · exact .inr (.inr (.inl ⟨by omega, decodeAddr_symRegion (by omega) h3⟩))
  by_cases h4 : a.toNat < 0x4000
  · exact .inr (.inr (.inr (.inl ⟨by omega, decodeAddr_cntRegion (by omega) h4⟩)))
  by_cases h5 : a.toNat < 0x6000
  · exact .inr (.inr (.inr (.inr (.inl ⟨by omega, decodeAddr_bitlenRegion (by omega) h5⟩))))
  · exact .inr (.inr (.inr (.inr (.inr (decodeAddr_highRegion (by omega))))))

/-- What an engine owns has one of its addresses (R49). -/
theorem ownedAddr_of_owner {p : Params} {a : BusAddr} {e : Engine} (h : (decodeAddr p a).owner = some e) :
    OwnedAddr p e a.toNat := by
  have mapped : ∀ {i t}, (mappedEntry p i t).owner = some e → i < p.nMax ∧ t.owner = some e := by
    intro i t ho
    rw [mappedEntry] at ho
    split at ho
    · next hi => exact ⟨hi, ho⟩
    · cases ho
  rcases decodeAddr_regions p a with ⟨-, hd⟩ | ⟨h1, hd⟩ | ⟨h1, hd⟩ | ⟨h1, hd⟩ | ⟨h1, hd⟩ | hd <;> rw [hd] at h
  · cases hr : regAt a.toNat with
    | none => rw [hr] at h; cases h
    | some r =>
      rw [hr] at h
      rw [regAt_eq_some hr]
      cases r <;> cases h <;> simp [OwnedAddr, Reg.offset]
  · obtain ⟨hi, ho⟩ := mapped h
    cases ho
    exact .inr (.inr (.inl (by omega)))
  · obtain ⟨hi, ho⟩ := mapped h
    cases ho
    exact .inr (.inr (.inr (by omega)))
  · obtain ⟨hi, ho⟩ := mapped h
    cases ho
    exact .inr (.inl (by omega))
  · obtain ⟨hi, ho⟩ := mapped h
    cases ho
    exact .inr (.inr (by omega))
  · cases h

/-- Only a register's own offset names it (R22). -/
theorem eq_offset_of_decodeAddr {p : Params} {a : BusAddr} {r : Reg} (h : decodeAddr p a = .reg r) :
    a = BitVec.ofNat 15 r.offset := by
  have mapped : ∀ {i t}, mappedEntry p i t = .reg r → t = .reg r := by
    intro i t ht
    rw [mappedEntry] at ht
    split at ht
    · exact ht
    · cases ht
  rcases decodeAddr_regions p a with ⟨-, hd⟩ | ⟨-, hd⟩ | ⟨-, hd⟩ | ⟨-, hd⟩ | ⟨-, hd⟩ | hd <;> rw [hd] at h
  · cases hr : regAt a.toNat with
    | none => rw [hr] at h; cases h
    | some q =>
      rw [hr] at h
      cases h
      rw [← regAt_eq_some hr, BitVec.ofNat_toNat, BitVec.setWidth_eq]
  · cases mapped h
  · cases mapped h
  · cases mapped h
  · cases mapped h
  · cases h

/-! ### Host reads and writes by what the address names -/

theorem busRead_reg (r : Reg) (s : State) : busRead (BitVec.ofNat 15 r.offset) s = .ok (readReg r s, s) := by
  rw [busRead, decodeAddr_reg]

/-- A register without an owner, or whose owner is idle, takes a write (R76, R78). -/
theorem busWrite_reg {r : Reg} {s : State} (h : s.locked (.reg r) = false) (w : Word) :
    busWrite (BitVec.ofNat 15 r.offset) w s = writeReg r w s := by
  simp only [busWrite, decodeAddr_reg, h, Bool.false_eq_true, if_false, writeTarget]

/-- Where nothing is mapped a read gives 0 and a write does nothing (R38, R74). -/
theorem bus_of_unbacked {s : State} {a : BusAddr}
    (h : decodeAddr s.params a = .unmapped ∨ decodeAddr s.params a = .reserved) :
    busRead a s = .ok (0#32, s) ∧ ∀ w, busWrite a w s = .next s := by
  rcases h with h | h
  · exact ⟨by rw [busRead, h]; rfl, fun w => by simp only [busWrite, h]; rfl⟩
  · exact ⟨by rw [busRead, h]; rfl, fun w => by simp only [busWrite, h]; rfl⟩

/-- Settles O18: each such address decodes to no register and no entry. -/
theorem unmappedAndReserved : Obligations.UnmappedAndReserved := by
  refine ⟨fun s a hN h => bus_of_unbacked ?_, fun a h1 h2 => decodeAddr_ne_unmapped rfl h1 h2⟩
  exact h.imp (decodeAddr_of_unmapped hN) decodeAddr_of_reserved

/-! ### STATUS, bit by bit -/

/-- The flag at each place of STATUS (R26); every other place is reserved and reads 0. -/
def statusBit (s : State) : Nat → Bool
  | 0 => s.busy .ca
  | 1 => s.ca.done
  | 2 => s.ca.err
  | 4 => s.busy .ee
  | 5 => s.ee.done
  | 6 => s.ee.err
  | 8 => s.bus.illCmd
  | 9 => s.bus.wrDrop
  | 10 => s.bus.cmdDrop
  | _ => false

theorem getLsbD_statusWord (s : State) (k : Nat) : s.statusWord.getLsbD k = statusBit s k := by
  refine (BitVec.getLsbD_append (x := 0#21) (y := _ ++ _)).trans ?_
  simp only [BitVec.getLsbD_append, BitVec.getLsbD_ofBool]
  rcases Nat.lt_or_ge k 11 with hk | hk
  · interval_cases k <;> simp [statusBit]
  · obtain ⟨j, rfl⟩ := Nat.exists_eq_add_of_le' hk
    simp [statusBit]

/-- Settles O14: `getLsbD_statusWord` at each place. -/
theorem statusFields : Obligations.StatusFields := by
  intro s
  simp only [getLsbD_statusWord]
  refine ⟨rfl, rfl, rfl, rfl, rfl, rfl, rfl, rfl, rfl, fun k hk => ?_⟩
  rcases hk with rfl | rfl | hk
  · rfl
  · rfl
  · obtain ⟨j, rfl⟩ := Nat.exists_eq_add_of_le' hk
    rfl

theorem busy_clearStatus (w : Word) (s : State) (e : Engine) : (s.clearStatus w).busy e = s.busy e := by
  cases e <;> rfl

/-- The mask 0x766 holds the places of the RW1C bits (R26, R27), so a place is kept where it is no such bit or where
the written bit is 0. -/
theorem statusBit_clearStatus (w : Word) (s : State) (k : Nat) :
    statusBit (s.clearStatus w) k = (statusBit s k && !(w.getLsbD k && (0x766#32).getLsbD k)) := by
  rcases Nat.lt_or_ge k 11 with hk | hk
  · interval_cases k <;> simp [statusBit, busy_clearStatus, -busy_ca, -busy_ee]
  · obtain ⟨j, rfl⟩ := Nat.exists_eq_add_of_le' hk
    simp [statusBit]

theorem statusWord_clearStatus (w : Word) (s : State) :
    (s.clearStatus w).statusWord = s.statusWord &&& ~~~(w &&& 0x00000766#32) := by
  apply BitVec.eq_of_getLsbD_eq
  intro k hk
  rw [getLsbD_statusWord, statusBit_clearStatus, ← getLsbD_statusWord]
  simp [hk]

/-- Settles O15: no engine owns STATUS, so the write is `clearStatus` in every state. -/
theorem statusWriteClears : Obligations.StatusWriteClears := by
  intro s w
  exact ⟨⟨s.clearStatus w, busWrite_reg (r := .status) rfl w, statusWord_clearStatus w s, rfl⟩,
    busRead_reg .status s⟩

/-! ### The register map -/

theorem setWidth_eq_zero_append {n : Nat} (m : Nat) (x : BitVec n) : x.setWidth (m + n) = 0#m ++ x := by
  apply BitVec.eq_of_toNat_eq
  simp [Nat.mod_eq_of_lt (x.isLt.trans_le (Nat.pow_le_pow_right Nat.two_pos (Nat.le_add_left n m)))]

/-- Settles O13: `busRead_reg` at each offset of the map. -/
theorem registerReads : Obligations.RegisterReads := by
  refine ⟨fun s => ?_, busRead_reg .cfg State.reset⟩
  have hcfg : cfgWord s.params = 0x01#8 ++ BitVec.ofNat 8 s.params.maxbitsMax ++ BitVec.ofNat 16 s.params.nMax := by
    rw [BitVec.append_assoc]; rfl
  refine ⟨busRead_reg .id s, hcfg ▸ busRead_reg .cfg s, busRead_reg .cmd s, busRead_reg .status s, ?_,
    busRead_reg .caN s, busRead_reg .caMaxbits s, ?_, busRead_reg .caErrIndex s, busRead_reg .caErrValue s,
    busRead_reg .eeN s, ?_, busRead_reg .eeErrIndex s, busRead_reg .eeErrValueLo s, busRead_reg .eeErrValueHi s⟩
  · exact setWidth_eq_zero_append 29 s.irqEn ▸ busRead_reg .irqEn s
  · exact setWidth_eq_zero_append 24 s.ca.errCode ▸ busRead_reg .caErrCode s
  · exact setWidth_eq_zero_append 24 s.ee.errCode ▸ busRead_reg .eeErrCode s

/-- Settles O16: no engine owns IRQ_EN, and the line's sources are the places of STATUS. -/
theorem irqEnableAndLine : Obligations.IrqEnableAndLine := by
  intro s w
  refine ⟨busWrite_reg (r := .irqEn) rfl w, ?_, ?_⟩
  · exact setWidth_eq_zero_append 29 (w.extractLsb' 0 3) ▸ busRead_reg .irqEn (s.writeIrqEn w)
  · simp only [getLsbD_statusWord]
    rfl

/-! ### Host lines -/

theorem portAccess_word {a : BusAddr} (h : a.toNat % 4 = 0) : portAccess a 4 = true := by simp [portAccess, h]

theorem hostOp_wr {a : BusAddr} (h : a.toNat % 4 = 0) (w : Word) (s : State) :
    hostOp (.wr a 4 w) s = busWrite a w s := if_pos (portAccess_word h)

theorem hostOp_rd_ok {a : BusAddr} {w : Word} {s t : State} (h : a.toNat % 4 = 0) (hr : busRead a s = .ok (w, t)) :
    hostOp (.rd a 4) s = .next { t.deliver w with received := w :: t.received } := by
  simp only [hostOp, HostOp.wellFormed, portAccess_word h, if_true, hr]

theorem hostOp_rd_error {a : BusAddr} {f : Fault} {s : State} (h : a.toNat % 4 = 0) (hr : busRead a s = .error f) :
    hostOp (.rd a 4) s = .fault f := by
  simp only [hostOp, HostOp.wellFormed, portAccess_word h, if_true, hr]

/-! ### Unwritten entries -/

theorem readStored_none {x : Nat} {s : State} (h : s.mem.readWord x = none) :
    readStored x s = .error (.unwrittenEntry x) := by rw [readStored, h]

theorem readOutput_stored {e : Engine} {i x : Nat} {s : State} (h : s.busy e = false ∨ s.latchedN e ≤ i) :
    readOutput e i x s = readStored x s := by
  rw [readOutput, if_neg]
  rcases h with h | h
  · simp [h]
  · simp [Nat.not_lt.2 h]

/-- A read of the word at an array address faults where the memory holds none there (R44). -/
theorem hostOp_rd_unwritten {x : Nat} {p : Params} {s : State} (hN : p.nMax ≤ 1024) (hx : ArrayWord p x)
    (hr : busRead (BitVec.ofNat 15 x) s = readStored x s) (h : s.mem.readWord x = none) :
    hostOp (.rd (BitVec.ofNat 15 x) 4) s = .fault (.unwrittenEntry x) := by
  have hlt : x < 0x8000 := by
    rcases hx.inArrays 0 (by omega) with h | h | h | h <;>
      simp only [lenAddr, symAddr, cntAddr, bitlenAddr] at h <;> omega
  exact hostOp_rd_error (by rw [toNat_ofNat_addr hlt, hx.aligned]) (by rw [hr, readStored_none h])

/-- Settles O25: each entry's address decodes to it, and its read is the stored word's. -/
theorem unwrittenReadFaults : Obligations.UnwrittenReadFaults := by
  intro s i high hN hi
  refine ⟨fun h => ?_, fun h => ?_, fun hb h => ?_, fun hb h => ?_⟩
  · exact hostOp_rd_unwritten (x := lenAddr i) hN (arrayWord_len hi) (by rw [busRead, decodeAddr_len hN hi]) h
  · exact hostOp_rd_unwritten (x := cntAddr i) hN (arrayWord_cnt hi) (by rw [busRead, decodeAddr_cnt hN hi]) h
  · refine hostOp_rd_unwritten (x := symAddr i) hN (arrayWord_sym hi) ?_ h
    simp only [busRead, decodeAddr_sym hN hi]
    exact readOutput_stored hb
  · refine hostOp_rd_unwritten hN (arrayWord_bitlen hi high) ?_ h
    simp only [busRead, decodeAddr_bitlen hN hi high]
    exact readOutput_stored hb

/-! ### After power-up -/

theorem memOk_nil (p : Params) : MemOk p [] where
  canonical := List.Pairwise.nil
  inArrays := fun _ h => absurd rfl h
  wholeWords := fun _ _ _ => iff_of_true rfl rfl

theorem caOk_reset (p : Params) : CaOk p (CaUnit.reset p) where
  blCountLength := List.length_replicate
  nextCodeLength := List.length_replicate
  inBounds := trivial
  latched := fun hp => absurd rfl hp
  quiet := fun hp => absurd rfl hp
  cleared := fun hp => absurd rfl hp
  recorded := fun _ => ⟨rfl, rfl, rfl⟩
  known := by show 0#8 ∈ caCodes; decide

theorem eeOk_reset (p : Params) : EeOk p EeUnit.reset where
  inBounds := trivial
  latched := fun hp => absurd rfl hp
  quiet := fun hp => absurd rfl hp
  cleared := fun hp => absurd rfl hp
  recorded := fun _ => ⟨rfl, rfl, rfl, rfl⟩
  known := by show 0#8 ∈ eeCodes; decide

/-- Settles O59: no entry is written and both engines are idle without an error. -/
theorem invAtReset : Obligations.InvAtReset where
  params := by decide
  mem := memOk_nil _
  ca := caOk_reset _
  ee := eeOk_reset _

end Sys2Proof.Proofs.Registers

/-!
PROOFS. The family of spec/10_state.md: what a step can do (StepRunsCommandWord), and who sets and clears the global
bits of STATUS (GlobalStatusBits).
-/
namespace Sys2Proof.Proofs.Steps

open Sys2Proof.Machine Sys2Proof.Safety Sys2Proof.Proofs.Registers

/-! ### Command words -/

theorem rsvdField_append_opField (w : Word) : rsvdField w ++ opField w = w :=
  BitVec.extractLsb'_append_extractLsb' (len := 4)

/-- A word decodes to a command only if it is that command's word (R111 to R113). -/
theorem eq_encodeWord_of_decodeWord {w : Word} {i : Instr} (h : decodeWord w = .ok i) : w = encodeWord i := by
  have key : rsvdField w = 0#28 ∧ opField w = opcode i := by
    unfold decodeWord at h
    split_ifs at h with hr h0 h1 h2 <;> cases h
    · exact ⟨hr, h0⟩
    · exact ⟨hr, h1⟩
    · exact ⟨hr, h2⟩
  obtain ⟨hr, ho⟩ := key
  rw [encodeWord, ← hr, ← ho, rsvdField_append_opField]

/-- The byte decoder reads the bytes of one word as `decodeWord` reads the word (R81, R110). -/
theorem decode_wordBytes (w : Word) : decode (wordBytes w) = (decodeWord w).map (·, []) := by
  rw [wordBytes, decode, Memory.bytesWord_wordBytes]

theorem decodeWord_of_decode {w : Word} {i : Instr} {rest : List Byte} (h : decode (wordBytes w) = .ok (i, rest)) :
    decodeWord w = .ok i := by
  rw [decode_wordBytes] at h
  cases hd : decodeWord w with
  | ok j => rw [hd] at h; cases h; rfl
  | error e => rw [hd] at h; cases h

theorem decodeWord_of_decode_error {w : Word} {e : DecodeError} (h : decode (wordBytes w) = .error e) :
    decodeWord w = .error e := by
  rw [decode_wordBytes] at h
  cases hd : decodeWord w with
  | ok j => rw [hd] at h; cases h
  | error e' => rw [hd] at h; cases h; rfl

theorem busWrite_cmd (w : Word) (s : State) : busWrite 0x008#15 w s = dispatchCmd w s :=
  busWrite_reg (r := .cmd) rfl w

theorem busWrite_cmd_ok {w : Word} {i : Instr} (h : decodeWord w = .ok i) (s : State) :
    busWrite 0x008#15 w s = exec i s := by rw [busWrite_cmd, dispatchCmd, h]

theorem busWrite_cmd_error {w : Word} {e : DecodeError} (h : decodeWord w = .error e) (s : State) :
    busWrite 0x008#15 w s = .next s.setIllCmd := by rw [busWrite_cmd, dispatchCmd, h]

/-! ### What a step runs -/

theorem stepWith_of_nextTurn {u : LogUnits} {s : State} {turn : Turn} (h : s.nextTurn = turn) :
    stepWith u s = takeTurn u turn s.beginTurn := by rw [stepWith, h]

/-- The state in which the host performs the first line of its program: the line and the turn are used up. -/
def lineState (s : State) (rest : List HostOp) : State := { s.beginTurn with program := rest }

/-- The host's step performs its first line. -/
theorem stepWith_line {u : LogUnits} {s : State} {op : HostOp} {rest : List HostOp} (ht : s.nextTurn = .host)
    (hp : s.program = op :: rest) : stepWith u s = hostOp op (lineState s rest) := by
  rw [stepWith_of_nextTurn ht, takeTurn, hostTurn, State.beginTurn_program, hp]
  rfl

theorem stepWith_noLine {u : LogUnits} {s : State} (ht : s.nextTurn = .host) (hp : s.program = []) :
    stepWith u s = .next s.beginTurn := by
  rw [stepWith_of_nextTurn ht, takeTurn, hostTurn, State.beginTurn_program, hp]

theorem stepWith_wr {u : LogUnits} {s : State} {a : BusAddr} {w : Word} {rest : List HostOp}
    (ht : s.nextTurn = .host) (ha : a.toNat % 4 = 0) (hp : s.program = .wr a 4 w :: rest) :
    stepWith u s = busWrite a w (lineState s rest) := by
  rw [stepWith_line ht hp, hostOp_wr ha]

/-- A command word written to CMD is the command (R130). -/
theorem stepWith_command {u : LogUnits} {s : State} {w : Word} {i : Instr} {rest : List HostOp}
    (ht : s.nextTurn = .host) (hp : s.program = .wr 0x008#15 4 w :: rest) (hw : decodeWord w = .ok i) :
    stepWith u s = exec i (lineState s rest) := by
  rw [stepWith_wr ht (by decide) hp, busWrite_cmd_ok hw]

/-- A read leaves the words received as they are, so an `RD` line adds its own to them. -/
theorem busRead_received {a : BusAddr} {w : Word} {s t : State} (h : busRead a s = .ok (w, t)) :
    t.received = s.received := by
  rcases busRead_spec h with rfl | rfl <;> rfl

theorem decodeTableWord_eq_some {nbits w : Nat} {i : Instr} (h : decodeTableWord nbits w = some i) :
    decodeWord (tableWord nbits w) = .ok i := by
  rw [decodeTableWord] at h
  split at h
  · next hd => cases h; exact decodeWord_of_decode hd
  · cases h

/-- Settles O5: the host's line by its kind, the other turns by definition, and `withFetchWord` as a line to CMD. -/
theorem stepRunsCommandWord : Obligations.StepRunsCommandWord := by
  refine ⟨fun s op rest ht hp => ⟨?_, ?_, ?_, ?_⟩, fun s => ⟨?_, ?_, ?_⟩, fun s w i _ hi => ?_⟩
  · rintro w i rfl hw
    exact stepWith_command ht hp (decodeWord_of_decode hw)
  · rintro w e rfl hw
    exact (stepWith_wr ht (by decide) hp).trans (busWrite_cmd_error (decodeWord_of_decode_error hw) _)
  · rintro a w ha rfl
    exact stepWith_wr ht ha hp
  · rintro a ha rfl
    exact ⟨fun w t hr => ⟨(stepWith_line ht hp).trans (hostOp_rd_ok ha hr), (busRead_received hr).trans rfl⟩,
      fun f hr => (stepWith_line ht hp).trans (hostOp_rd_error ha hr)⟩
  · exact stepWith_noLine
  · exact fun e => stepWith_of_nextTurn
  · exact fun e => stepWith_of_nextTurn
  · exact stepWith_command (s := s.withFetchWord 32 w) rfl rfl (decodeTableWord_eq_some hi)

/-! ### What a step can do -/

/-- Everything a step that answers `t` can be, with what the host's line or the engine did. -/
inductive StepEffect (u : LogUnits) (s t : State) : Prop
  /-- A reset (R270). -/
  | reset (ht : s.nextTurn = .rst) (h : t = s.beginTurn.applyReset)
  /-- A piece of an engine's work, or all that remains of it (R47, R137). -/
  | engine (e : Engine) (ht : s.nextTurn = .advance e ∨ s.nextTurn = .complete e) (k : Nat)
    (h : runEngine u e k s.beginTurn = .next t)
  /-- A host write (R76 to R78). -/
  | write (ht : s.nextTurn = .host) {a : BusAddr} {w : Word} {rest : List HostOp}
    (hp : s.program = .wr a 4 w :: rest) (h : WriteEffect a w (lineState s rest) t)
  /-- A host read, or a host without a line: the block keeps its state (R75). -/
  | quiet (ht : s.nextTurn = .host)
    (h : t = { s with
      program := t.program, schedule := t.schedule, rdata := t.rdata, received := t.received
      busDraws := t.busDraws })

theorem runEngine_one {u : LogUnits} {e : Engine} (s : State) : runEngine u e 1 s = engineTick u e s := by
  cases hb : s.busy e
  · rw [runEngine_of_idle hb, Scope.engineTick_of_idle hb]
  · rw [runEngine, if_pos hb]
    cases engineTick u e s <;> rfl

/-- A line that the bridge takes is a write, or a read that keeps the block's state. -/
theorem hostOp_effect {op : HostOp} {s t : State} (h : hostOp op s = .next t) :
    (∃ a w, op = .wr a 4 w ∧ WriteEffect a w s t) ∨
    t = { s with program := t.program, rdata := t.rdata, received := t.received, busDraws := t.busDraws } := by
  cases op with
  | wr a size w =>
    simp only [hostOp] at h
    split at h
    · next hwf =>
      obtain ⟨rfl, -⟩ : size = 4 ∧ a.toNat % 4 = 0 := by simpa [HostOp.wellFormed, portAccess] using hwf
      obtain ⟨r, hr, heff⟩ := busWrite_effect a w s
      obtain rfl : r = t := by simpa [hr] using h
      exact .inl ⟨a, w, rfl, heff⟩
    · cases h
  | rd a size =>
    right
    simp only [hostOp] at h
    split at h
    · split at h
      · cases h
      · next hr => cases h; rcases busRead_spec hr with rfl | rfl <;> rfl
    · cases h
  | poll a mask value =>
    right
    simp only [hostOp] at h
    split at h
    · split at h
      · cases h
      · next hr => rcases busRead_spec hr with rfl | rfl <;> split at h <;> cases h <;> rfl
    · cases h

theorem stepWith_effect {u : LogUnits} {s t : State} (h : stepWith u s = .next t) : StepEffect u s t := by
  cases ht : s.nextTurn with
  | host =>
    cases hp : s.program with
    | nil =>
      rw [stepWith_noLine ht hp] at h
      cases h
      exact .quiet ht rfl
    | cons op rest =>
      rw [stepWith_line ht hp] at h
      rcases hostOp_effect h with ⟨a, w, rfl, heff⟩ | hq
      · exact .write ht hp heff
      · refine .quiet ht ?_
        rw [hq]
        rfl
  | advance e =>
    rw [stepWith_of_nextTurn ht] at h
    exact .engine e (.inl ht) 1 ((runEngine_one _).trans h)
  | complete e =>
    rw [stepWith_of_nextTurn ht] at h
    exact .engine e (.inr ht) _ h
  | rst =>
    rw [stepWith_of_nextTurn ht] at h
    cases h
    exact .reset ht rfl

/-! ### The global bits of STATUS -/

/-- No engine touches the global bits (R26, R138). -/
theorem engineTick_bus {u : LogUnits} {e : Engine} {s t : State} (h : engineTick u e s = .next t) :
    t.bus = s.bus := by
  cases e
  · rw [(caTick_spec h).1.rest]
  · rw [(eeTick_spec h).1.rest]

theorem runEngine_bus {u : LogUnits} {e : Engine} {k : Nat} {s t : State} (h : runEngine u e k s = .next t) :
    t.bus = s.bus :=
  runEngine_keeps (P := fun r => r.bus = s.bus) (fun _ _ hr _ ht => (engineTick_bus ht).trans hr) rfl h

theorem eq_commandWord_of_decodeWord {w : Word} {e : Engine} (h : decodeWord w = .ok (engineCommand e)) :
    w = commandWord e := by
  rw [eq_encodeWord_of_decodeWord h]
  cases e <;> rfl

/-- All the ways in which a step leaves the global bits at `b` (R26, R78, R132, R135, R271). -/
inductive GlobalEffect (s : State) (b : BusFlags) : Prop
  | kept (h : b = s.bus)
  | reset (ht : s.nextTurn = .rst) (h : b = ⟨false, false, false⟩)
  | illegal {w : Word} {rest : List HostOp} (ht : s.nextTurn = .host) (hp : s.program = .wr 0x008#15 4 w :: rest)
    (hw : ∀ i, decodeWord w ≠ .ok i) (h : b = { s.bus with illCmd := true })
  | dropped {a : BusAddr} {w : Word} {rest : List HostOp} (e : Engine) (ht : s.nextTurn = .host)
    (hp : s.program = .wr a 4 w :: rest) (ha : OwnedAddr s.params e a.toNat) (hb : s.busy e = true)
    (h : b = { s.bus with wrDrop := true })
  | cmdDropped {w : Word} {rest : List HostOp} (e : Engine) (ht : s.nextTurn = .host)
    (hp : s.program = .wr 0x008#15 4 w :: rest) (hw : w = commandWord e) (hb : s.busy e = true)
    (h : b = { s.bus with cmdDrop := true })
  | status {w : Word} {rest : List HostOp} (ht : s.nextTurn = .host) (hp : s.program = .wr 0x00C#15 4 w :: rest)
    (h : b = ⟨s.bus.illCmd && !w.getLsbD 8, s.bus.wrDrop && !w.getLsbD 9, s.bus.cmdDrop && !w.getLsbD 10⟩)

theorem globalEffect_write {s t : State} {a : BusAddr} {w : Word} {rest : List HostOp} (ht : s.nextTurn = .host)
    (hp : s.program = .wr a 4 w :: rest) (h : WriteEffect a w (lineState s rest) t) : GlobalEffect s t.bus := by
  cases h with
  | dropped e ha hb => exact .dropped e ht hp (ownedAddr_of_owner ha) (by cases e <;> exact hb) rfl
  | illegal ha hw => exact .illegal ht (eq_offset_of_decodeAddr ha ▸ hp) hw rfl
  | cmdDropped e ha hw hb =>
    exact .cmdDropped e ht (eq_offset_of_decodeAddr ha ▸ hp) (eq_commandWord_of_decodeWord hw)
      (by cases e <;> exact hb) rfl
  | accepted e => cases e <;> exact .kept rfl
  | status ha => exact .status ht (eq_offset_of_decodeAddr ha ▸ hp) rfl
  | ignored | irqEn | caN | caMaxbits | eeN | stored => exact .kept rfl

theorem stepWith_globalEffect {u : LogUnits} {s t : State} (h : stepWith u s = .next t) : GlobalEffect s t.bus := by
  cases stepWith_effect h with
  | reset ht h => exact .reset ht (by rw [h]; rfl)
  | engine e _ k h => exact .kept ((runEngine_bus h).trans rfl)
  | write ht hp h => exact globalEffect_write ht hp h
  | quiet _ h => exact .kept (by rw [h])

/-- Settles O55: of the ways in which a step leaves the global bits, one sets each and two clear. -/
theorem globalStatusBits : Obligations.GlobalStatusBits := by
  intro u s t _ h
  have heff := stepWith_globalEffect h
  refine ⟨fun h0 h1 => ?_, fun h0 h1 => ?_, fun h0 h1 => ?_, fun hc => ?_⟩
  · cases heff with
    | illegal ht hp hw => exact ⟨ht, _, _, hp, hw⟩
    | kept h | reset _ h | dropped _ _ _ _ _ h | cmdDropped _ _ _ _ _ h | status _ _ h => simp [h, h0] at h1
  · cases heff with
    | dropped e ht hp ha hb => exact ⟨ht, _, _, _, e, hp, ha, hb⟩
    | kept h | reset _ h | illegal _ _ _ h | cmdDropped _ _ _ _ _ h | status _ _ h => simp [h, h0] at h1
  · cases heff with
    | cmdDropped e ht hp hw hb =>
      refine ⟨ht, _, _, hp, ?_⟩
      cases e
      · exact .inl ⟨hw, hb⟩
      · exact .inr ⟨hw, hb⟩
    | kept h | reset _ h | illegal _ _ _ h | dropped _ _ _ _ _ h | status _ _ h => simp [h, h0] at h1
  · cases heff with
    | reset ht => exact .inl ht
    | status ht hp h =>
      rw [h]
      exact .inr ⟨ht, _, _, hp, fun h0 h1 => by simpa [h0] using h1, fun h0 h1 => by simpa [h0] using h1,
        fun h0 h1 => by simpa [h0] using h1⟩
    | kept h | illegal _ _ _ h | dropped _ _ _ _ _ h | cmdDropped _ _ _ _ _ h => simp [h] at hc

end Sys2Proof.Proofs.Steps

/-!
PROOFS. The family of spec/20_memory.md: what a host access to a register or an array entry does (RegisterWrites,
EntryDecode, ArrayWrites, WriteWhileBusyDropped, ReadsChangeNothing, InputReads, OutputReads, OnlyTheBridgeRefuses,
LittleEndianBytes).
-/
namespace Sys2Proof.Proofs.HostAccess

open Sys2Proof.Machine Sys2Proof.Safety Sys2Proof.Proofs.Registers Sys2Proof.Proofs.Steps

/-! ### Bytes -/

/-- Byte `k` of a word just written (R81). -/
theorem lookup_writeWord_byte (m : Memory) (a : Nat) (w : Word) {k : Nat} (hk : k < 4) :
    (m.writeWord a w).lookup (a + k) = some (w.extractLsb' (8 * k) 8) := by
  rw [Memory.lookup_writeWord]
  interval_cases k <;> simp

theorem extractLsb'_extractLsb' {n : Nat} (v : BitVec n) (start : Nat) {i len m : Nat} (h : i + len ≤ m) :
    (v.extractLsb' start m).extractLsb' i len = v.extractLsb' (start + i) len := by
  ext k hk
  simp [show i + k < m by omega, Nat.add_assoc]

/-- Byte `k` of a 64-bit entry just written: of its low word, or of its high word at the address 4 above (R81). -/
theorem lookup_writeDword_byte (m : Memory) (a : Nat) (v : BitVec 64) {k : Nat} (hk : k < 8) :
    (m.writeDword a v).lookup (a + k) = some (v.extractLsb' (8 * k) 8) := by
  rw [Memory.writeDword]
  rcases Nat.lt_or_ge k 4 with h | h
  · rw [Memory.lookup_writeWord_of_outside (by omega), lookup_writeWord_byte _ _ _ h,
      extractLsb'_extractLsb' v 0 (by omega), Nat.zero_add]
  · obtain ⟨j, rfl⟩ := Nat.exists_eq_add_of_le h
    rw [← Nat.add_assoc, lookup_writeWord_byte _ _ _ (by omega),
      extractLsb'_extractLsb' v 32 (by omega), Nat.mul_add]

/-- Settles O27: the bytes of a word, and those of the two words of a BITLEN entry. -/
theorem littleEndianBytes : Obligations.LittleEndianBytes :=
  ⟨fun m a w _ hk => lookup_writeWord_byte m a w hk, fun s i v _ hk => lookup_writeDword_byte s.mem (bitlenAddr i) v hk⟩

/-! ### Array words -/

/-- Settles O19: each region decodes by its offset, and an offset below the array's end names an entry that exists. -/
theorem entryDecode : Obligations.EntryDecode := by
  intro p a hN
  refine ⟨fun h1 h2 => ?_, fun h1 h2 => ?_, fun h1 h2 => ?_, fun h1 h2 => ?_⟩
  · rw [decodeAddr_lenRegion h1 (by omega), mappedEntry_of_lt (by omega)]
  · rw [decodeAddr_symRegion h1 (by omega), mappedEntry_of_lt (by omega)]
  · rw [decodeAddr_cntRegion h1 (by omega), mappedEntry_of_lt (by omega)]
  · rw [decodeAddr_bitlenRegion h1 (by omega), mappedEntry_of_lt (by omega)]

/-- Target `t` is an array word that exists, kept at byte address `x`, of an array that engine `e` owns (R49, R71 to
R73). -/
inductive ArrayTarget (p : Params) : Engine → Target → Nat → Prop
  | len {i : Nat} (h : i < p.nMax) : ArrayTarget p .ca (.lenEntry i) (lenAddr i)
  | sym {i : Nat} (h : i < p.nMax) : ArrayTarget p .ca (.symEntry i) (symAddr i)
  | cnt {i : Nat} (h : i < p.nMax) : ArrayTarget p .ee (.cntEntry i) (cntAddr i)
  | bitlen {i : Nat} (h : i < p.nMax) (high : Bool) : ArrayTarget p .ee (.bitlenHalf i high) (bitlenHalfAddr i high)

/-- An address names a register, an array word that exists, or nothing. -/
theorem decodeAddr_cases (p : Params) (a : BusAddr) :
    (∃ r, decodeAddr p a = .reg r) ∨ (decodeAddr p a = .unmapped ∨ decodeAddr p a = .reserved) ∨
      ∃ e x, ArrayTarget p e (decodeAddr p a) x := by
  cases hd : decodeAddr p a with
  | reg r => exact .inl ⟨r, rfl⟩
  | reserved => exact .inr (.inl (.inr rfl))
  | unmapped => exact .inr (.inl (.inl rfl))
  | lenEntry i => exact .inr (.inr ⟨_, _, .len (decodeAddr_index (.inl hd))⟩)
  | symEntry i => exact .inr (.inr ⟨_, _, .sym (decodeAddr_index (.inr (.inl hd)))⟩)
  | cntEntry i => exact .inr (.inr ⟨_, _, .cnt (decodeAddr_index (.inr (.inr (.inl hd))))⟩)
  | bitlenHalf i b => exact .inr (.inr ⟨_, _, .bitlen (decodeAddr_index (.inr (.inr (.inr ⟨b, hd⟩)))) b⟩)

theorem ArrayTarget.owner {p : Params} {e : Engine} {t : Target} {x : Nat} (h : ArrayTarget p e t x) :
    t.owner = some e := by cases h <;> rfl

/-- CNT begins where SYM's region ends (R71). -/
theorem ArrayTarget.le_of_ca {p : Params} {T : Target} {x : Nat} (h : ArrayTarget p .ca T x)
    (hN : p.nMax ≤ 1024) : lenAddr 0 ≤ x ∧ x + 4 ≤ cntAddr 0 := by
  cases h <;> simp only [lenAddr, symAddr, cntAddr] <;> omega

theorem ArrayTarget.le_of_ee {p : Params} {T : Target} {x : Nat} (h : ArrayTarget p .ee T x) : cntAddr 0 ≤ x := by
  cases h <;> simp only [cntAddr, bitlenHalfAddr, bitlenAddr] <;> omega

theorem locked_of_owner {s : State} {t : Target} {e : Engine} (h : t.owner = some e) : s.locked t = s.busy e := by
  rw [State.locked, h]

/-- The busy lock (R78). -/
theorem busWrite_locked {s : State} {a : BusAddr} {e : Engine} (h : (decodeAddr s.params a).owner = some e)
    (hb : s.busy e = true) (w : Word) : busWrite a w s = .next s.setWrDrop := by
  simp only [busWrite, locked_of_owner h, hb, if_true]

/-- A write to an array word of an idle engine stores it (R77). -/
theorem busWrite_stored {s : State} {a : BusAddr} {e : Engine} {x : Nat}
    (h : ArrayTarget s.params e (decodeAddr s.params a) x) (hb : s.busy e = false) (w : Word) :
    busWrite a w s = .next (storeWord x w s) := by
  simp only [busWrite, locked_of_owner h.owner, hb, Bool.false_eq_true, if_false]
  generalize decodeAddr s.params a = t at h
  cases h <;> rfl

/-- The same, as the state it leaves: the word reads back, and nothing else changes. -/
theorem busWrite_entry {s : State} {a : BusAddr} {e : Engine} {x : Nat}
    (h : ArrayTarget s.params e (decodeAddr s.params a) x) (hb : s.busy e = false) (w : Word) :
    ∃ t, busWrite a w s = .next t ∧ t.mem.readWord x = some w ∧ t = { s with mem := t.mem } ∧
      KeepsOutside x 4 s.mem t.mem :=
  ⟨storeWord x w s, busWrite_stored h hb w, Memory.readWord_writeWord _ _ w, rfl,
    fun _ hy => Memory.lookup_writeWord_of_outside hy⟩

theorem readWord_of_keepsOutside {m m' : Memory} {x y : Nat} (h : KeepsOutside x 4 m m')
    (hy : y + 4 ≤ x ∨ x + 4 ≤ y) : m'.readWord y = m.readWord y :=
  Memory.readWord_congr (fun k hk => h (y + k) (by omega))

/-- Settles O20: each entry's address decodes to it, the write stores the word there, and the halves of a BITLEN
entry do not overlap. -/
theorem arrayWrites : Obligations.ArrayWrites := by
  intro s w i hN hi
  have half : ∀ high, s.busy .ee = false → ∃ t, busWrite (BitVec.ofNat 15 (bitlenHalfAddr i high)) w s = .next t ∧
      t.mem.readWord (bitlenHalfAddr i high) = some w ∧ t = { s with mem := t.mem } ∧
      KeepsOutside (bitlenHalfAddr i high) 4 s.mem t.mem := fun high hb =>
    busWrite_entry (decodeAddr_bitlen hN hi high ▸ .bitlen hi high) hb w
  refine ⟨fun hb => ⟨?_, ?_⟩, fun hb => ⟨?_, ?_, ?_⟩⟩
  · exact busWrite_entry (a := BitVec.ofNat 15 (lenAddr i)) (decodeAddr_len hN hi ▸ .len hi) hb w
  · exact busWrite_entry (a := BitVec.ofNat 15 (symAddr i)) (decodeAddr_sym hN hi ▸ .sym hi) hb w
  · exact busWrite_entry (a := BitVec.ofNat 15 (cntAddr i)) (decodeAddr_cnt hN hi ▸ .cnt hi) hb w
  · obtain ⟨t, ht, hr, hrest, hk⟩ := half false hb
    exact ⟨t, ht, hr, readWord_of_keepsOutside hk (.inr le_rfl), hrest, hk⟩
  · obtain ⟨t, ht, hr, hrest, hk⟩ := half true hb
    exact ⟨t, ht, hr, readWord_of_keepsOutside hk (.inl le_rfl), hrest, hk⟩

/-- What has one of an engine's addresses is owned by it (R49); the converse is `ownedAddr_of_owner`. -/
theorem owner_of_ownedAddr {p : Params} {e : Engine} {a : BusAddr} (hN : p.nMax ≤ 1024)
    (h : OwnedAddr p e a.toNat) : (decodeAddr p a).owner = some e := by
  obtain ⟨hlen, hsym, hcnt, hbitlen⟩ := entryDecode p a hN
  have reg : ∀ r : Reg, a.toNat = r.offset → decodeAddr p a = .reg r := by
    intro r hr
    rw [← decodeAddr_reg p r, ← hr, BitVec.ofNat_toNat, BitVec.setWidth_eq]
  cases e with
  | ca =>
    rcases h with h | h | ⟨h1, h2⟩ | ⟨h1, h2⟩
    · rw [reg .caN h]; rfl
    · rw [reg .caMaxbits h]; rfl
    · rw [hlen h1 h2]; rfl
    · rw [hsym h1 h2]; rfl
  | ee =>
    rcases h with h | ⟨h1, h2⟩ | ⟨h1, h2⟩
    · rw [reg .eeN h]; rfl
    · rw [hcnt h1 h2]; rfl
    · rw [hbitlen h1 h2]; rfl

/-- Settles O21: the address decodes to a target of the busy engine, which the lock drops. -/
theorem writeWhileBusyDropped : Obligations.WriteWhileBusyDropped := by
  intro s e a w hN ha hb
  exact busWrite_locked (owner_of_ownedAddr hN ha) hb w

/-! ### Register writes -/

theorem regAt_eq_none_or (a : Nat) : regAt a = none ∨ ∃ r, regAt a = some r ∧ a = r.offset := by
  cases h : regAt a with
  | none => exact .inl rfl
  | some r => exact .inr ⟨r, rfl, regAt_eq_some h⟩

/-- The register offsets that take no write (R38, R76). -/
theorem busWrite_ignored {s : State} {a : BusAddr} (w : Word) (h : a.toNat < 0x1000)
    (hn : a.toNat ∉ [0x008, 0x00C, 0x010, 0x020, 0x024, 0x040]) : busWrite a w s = .next s := by
  rcases regAt_eq_none_or a.toNat with hr | ⟨r, hr, ha⟩
  · exact (bus_of_unbacked (.inr (by rw [decodeAddr_of_lt h, hr]; rfl))).2 w
  · rw [ha] at hn
    simp only [busWrite, decodeAddr_of_lt h, hr]
    cases r
    case cmd | status | irqEn | caN | caMaxbits | eeN => exact absurd hn (by decide)
    all_goals rfl

/-- An operand register stores the word, or drops it while its engine is busy (R76, R78). -/
theorem busWrite_operand {r : Reg} {e : Engine} (h : (Target.reg r).owner = some e) (w : Word) (s : State) :
    busWrite (BitVec.ofNat 15 r.offset) w s = if s.busy e then .next s.setWrDrop else writeReg r w s := by
  simp only [busWrite, decodeAddr_reg, locked_of_owner h, writeTarget]

/-- Settles O17: the writable registers by their rules, every other offset by `busWrite_ignored`. -/
theorem registerWrites : Obligations.RegisterWrites := by
  intro s w
  exact ⟨busWrite_cmd w s,
    ⟨_, busWrite_reg (r := .status) rfl w, statusWord_clearStatus w s⟩,
    ⟨_, busWrite_reg (r := .irqEn) rfl w, setWidth_eq_zero_append 29 (w.extractLsb' 0 3)⟩,
    busWrite_operand (r := .caN) rfl w s, busWrite_operand (r := .caMaxbits) rfl w s,
    busWrite_operand (r := .eeN) rfl w s, fun _ => busWrite_ignored w⟩

/-! ### Reads -/

theorem readStored_some {x : Nat} {w : Word} {s : State} (h : s.mem.readWord x = some w) :
    readStored x s = .ok (w, s) := by rw [readStored, h]

theorem readStored_state {x : Nat} {w : Word} {s t : State} (h : readStored x s = .ok (w, t)) : t = s := by
  rw [readStored] at h
  split at h <;> cases h
  rfl

theorem readOutput_drawn {e : Engine} {i x : Nat} {s : State} (hb : s.busy e = true) (hi : i < s.latchedN e) :
    readOutput e i x s = .ok (drawBusyRead s) := by
  rw [readOutput, if_pos (by simp only [hb, hi, decide_true, Bool.and_self])]

theorem readOutput_state {e : Engine} {i x : Nat} {w : Word} {s t : State}
    (hn : ¬ (s.busy e = true ∧ i < s.latchedN e)) (h : readOutput e i x s = .ok (w, t)) : t = s := by
  rw [readOutput_stored] at h
  · exact readStored_state h
  · cases hb : s.busy e
    · exact .inl rfl
    · exact .inr (Nat.not_lt.1 fun hi => hn ⟨hb, hi⟩)

/-- A read that draws no free value leaves the state as it is (R75, R79, R80). -/
theorem busRead_state {a : BusAddr} {w : Word} {s t : State}
    (hsym : ¬ ∃ i, decodeAddr s.params a = .symEntry i ∧ s.busy .ca = true ∧ i < s.ca.latchN.toNat)
    (hbit : ¬ ∃ i high, decodeAddr s.params a = .bitlenHalf i high ∧ s.busy .ee = true ∧ i < s.ee.latchN.toNat)
    (h : busRead a s = .ok (w, t)) : t = s := by
  rw [busRead] at h
  cases hd : decodeAddr s.params a with
  | reg | reserved | unmapped => rw [hd] at h; cases h; rfl
  | lenEntry | cntEntry => rw [hd] at h; exact readStored_state h
  | symEntry i => rw [hd] at h; exact readOutput_state (fun hi => hsym ⟨i, hd, hi⟩) h
  | bitlenHalf i high => rw [hd] at h; exact readOutput_state (fun hi => hbit ⟨i, high, hd, hi⟩) h

theorem busRead_of_lt {a : BusAddr} {s : State} (h : a.toNat < 0x1000) : ∃ w, busRead a s = .ok (w, s) := by
  simp only [busRead, decodeAddr_of_lt h]
  cases regAt a.toNat with
  | none => exact ⟨_, rfl⟩
  | some r => exact ⟨_, rfl⟩

/-- Settles O22: a read draws at most one free value, and only where `readOutput` does. -/
theorem readsChangeNothing : Obligations.ReadsChangeNothing := by
  refine ⟨fun s t a w h => ⟨?_, fun hsym hbit => ?_⟩, fun s a => busRead_of_lt⟩
  · rcases busRead_spec h with rfl | rfl <;> rfl
  · obtain rfl := busRead_state hsym hbit h
    exact ⟨rfl, h⟩

/-- Settles O23: an input entry is read where it is stored, whatever its engine does. -/
theorem inputReads : Obligations.InputReads := by
  intro s i w hN hi
  have hlen : busRead (BitVec.ofNat 15 (lenAddr i)) s = readStored (lenAddr i) s := by
    rw [busRead, decodeAddr_len hN hi]
  have hcnt : busRead (BitVec.ofNat 15 (cntAddr i)) s = readStored (cntAddr i) s := by
    rw [busRead, decodeAddr_cnt hN hi]
  exact ⟨fun h => hlen.trans (readStored_some h), fun h => hcnt.trans (readStored_some h)⟩

/-- Settles O24: an output entry's read is `readOutput`, with its two cases. -/
theorem outputReads : Obligations.OutputReads := by
  intro s i high w hN hi
  have hsym : busRead (BitVec.ofNat 15 (symAddr i)) s = readOutput .ca i (symAddr i) s := by
    rw [busRead, decodeAddr_sym hN hi]
  have hbit : busRead (BitVec.ofNat 15 (bitlenHalfAddr i high)) s = readOutput .ee i (bitlenHalfAddr i high) s := by
    rw [busRead, decodeAddr_bitlen hN hi]
  refine ⟨fun hb hl => hsym.trans (readOutput_drawn hb hl), fun hb hr => hsym.trans ?_,
    fun hb hl => hbit.trans (readOutput_drawn hb hl), fun hb hr => hbit.trans ?_⟩
  · exact (readOutput_stored hb).trans (readStored_some hr)
  · exact (readOutput_stored hb).trans (readStored_some hr)

/-! ### The bridge -/

theorem portAccess_eq_false {a : BusAddr} {size : Nat} (h : size ≠ 4 ∨ a.toNat % 4 ≠ 0) :
    portAccess a size = false := by
  rcases h with h | h <;> simp [portAccess, h]

/-- A line that the port cannot express (R82). -/
theorem hostOp_refused {op : HostOp} {s : State} (h : op.wellFormed = false) :
    hostOp op s = .refused .bridgeAccess := if_neg (by simp [h])

/-- The only lines refused are those. -/
theorem refusal_of_hostOp {op : HostOp} {s : State} {r : Refusal} (h : hostOp op s = .refused r) :
    r = .bridgeAccess ∧ op.wellFormed = false := by
  cases hw : op.wellFormed
  · rw [hostOp_refused hw] at h; cases h; exact ⟨rfl, rfl⟩
  · exfalso
    cases op with
    | wr a size w =>
      obtain ⟨t, ht, -⟩ := busWrite_effect a w s
      simp only [hostOp, hw, if_true, ht] at h
      cases h
    | rd a size =>
      simp only [hostOp, hw, if_true] at h
      split at h <;> cases h
    | poll a mask value =>
      simp only [hostOp, hw, if_true] at h
      split at h
      · cases h
      · split at h <;> cases h

/-- A piece of work faults or goes on; it is never refused. -/
theorem engineTick_ne_refused (u : LogUnits) (e : Engine) (s : State) (r : Refusal) :
    engineTick u e s ≠ .refused r := by
  cases e with
  | ca =>
    cases hp : s.ca.phase with
    | idle | check | clear | exclude | base => simp only [engineTick, caTick, hp]; nofun
    | tally i =>
      simp only [engineTick, caTick, hp, caTally]
      split
      · nofun
      · split <;> nofun
    | emit i =>
      simp only [engineTick, caTick, hp, caEmit]
      split
      · nofun
      · split <;> nofun
  | ee =>
    cases hp : s.ee.phase with
    | idle | check | log => simp only [engineTick, eeTick, hp]; nofun
    | sum i =>
      simp only [engineTick, eeTick, hp, eeSum]
      split <;> nofun
    | cost i =>
      simp only [engineTick, eeTick, hp, eeCost]
      split
      · nofun
      · split <;> nofun

theorem runEngine_ne_refused (u : LogUnits) (e : Engine) (k : Nat) (s : State) (r : Refusal) :
    runEngine u e k s ≠ .refused r := by
  induction k generalizing s with
  | zero => nofun
  | succ k ih =>
    rw [runEngine]
    split
    · cases ht : engineTick u e s with
      | next t => exact ih t
      | fault f => nofun
      | refused q => exact absurd ht (engineTick_ne_refused u e s q)
    · nofun

/-- Settles O26: of the turns only the host's can be refused, and of its lines only those the port cannot express. -/
theorem onlyTheBridgeRefuses : Obligations.OnlyTheBridgeRefuses := by
  refine ⟨fun s a size w h => ?_, fun s a mask value h => ?_, fun u s r h => ?_⟩
  · exact ⟨hostOp_refused (portAccess_eq_false h), hostOp_refused (portAccess_eq_false h)⟩
  · exact hostOp_refused (portAccess_eq_false (.inr h))
  · cases ht : s.nextTurn with
    | host =>
      cases hp : s.program with
      | nil => rw [stepWith_noLine ht hp] at h; cases h
      | cons op rest =>
        rw [stepWith_line ht hp] at h
        obtain ⟨hr, hw⟩ := refusal_of_hostOp h
        exact ⟨hr, rfl, op, rest, rfl, hw⟩
    | advance e =>
      rw [stepWith_of_nextTurn ht] at h
      exact absurd h (engineTick_ne_refused u e _ r)
    | complete e =>
      rw [stepWith_of_nextTurn ht] at h
      exact absurd h (runEngine_ne_refused u e _ _ r)
    | rst => rw [stepWith_of_nextTurn ht] at h; cases h

end Sys2Proof.Proofs.HostAccess

/-!
PROOFS. The family of spec/20_memory.md: an engine's work seen from the bus and from the other engine
(CompletionPublishes, EngineWorkInvisible, EnginesIndependent). Work of an engine is a function of its own unit, the
parameters and its input entries; what it does to the rest of the state is an edit of its output bytes. So it
commutes with whatever leaves those alone.
-/
namespace Sys2Proof.Proofs.Interleaving

open Sys2Proof.Machine Sys2Proof.Safety Sys2Proof.Proofs.Scope Sys2Proof.Proofs.Registers Sys2Proof.Proofs.Steps
  Sys2Proof.Proofs.HostAccess

/-! ### Edits of the memory -/

/-- A change of the memory that acts byte by byte, and only on the addresses `A`. -/
structure MemEdit (A : Nat → Prop) (f : Memory → Memory) : Prop where
  wf : ∀ {m : Memory}, m.wf → (f m).wf
  outside : ∀ (m : Memory) {x : Nat}, ¬ A x → (f m).lookup x = m.lookup x
  bytewise : ∀ {m m' : Memory} {x : Nat}, m.lookup x = m'.lookup x → (f m).lookup x = (f m').lookup x

theorem memEdit_id (A : Nat → Prop) : MemEdit A id := ⟨id, fun _ _ _ => rfl, id⟩

theorem MemEdit.comp {A : Nat → Prop} {f g : Memory → Memory} (hf : MemEdit A f) (hg : MemEdit A g) :
    MemEdit A (f ∘ g) where
  wf h := hf.wf (hg.wf h)
  outside m _ hx := (hf.outside (g m) hx).trans (hg.outside m hx)
  bytewise h := hf.bytewise (hg.bytewise h)

theorem MemEdit.mono {A B : Nat → Prop} {f : Memory → Memory} (hf : MemEdit A f) (hAB : ∀ x, A x → B x) :
    MemEdit B f :=
  ⟨hf.wf, fun m x hx => hf.outside m (fun ha => hx (hAB x ha)), hf.bytewise⟩

/-- Edits of different bytes commute. -/
theorem MemEdit.comm {A B : Nat → Prop} {f g : Memory → Memory} (hf : MemEdit A f) (hg : MemEdit B g)
    (hd : ∀ x, A x → ¬ B x) {m : Memory} (hm : m.wf) : f (g m) = g (f m) := by
  refine Memory.ext_of_lookup (hf.wf (hg.wf hm)) (hg.wf (hf.wf hm)) (fun x => ?_)
  by_cases ha : A x
  · rw [hg.outside _ (hd x ha), hf.bytewise (hg.outside m (hd x ha))]
  · rw [hf.outside _ ha, hg.bytewise (hf.outside m ha)]

/-- The bytes of the word at `x`. -/
def WordByte (x y : Nat) : Prop := x ≤ y ∧ y < x + 4

theorem memEdit_writeWord (x : Nat) (w : Word) : MemEdit (WordByte x) (fun m => m.writeWord x w) where
  wf h := Memory.wf_writeWord h x w
  outside _ y hy := Memory.lookup_writeWord_of_outside (by simp only [WordByte] at hy; omega)
  bytewise h := by rw [Memory.lookup_writeWord, Memory.lookup_writeWord, h]

theorem memEdit_forget (p : Nat → Bool) : MemEdit (fun x => p x = true) (fun m => m.forget p) where
  wf h := Memory.wf_forget h p
  outside _ x hx := by rw [Memory.lookup_forget, if_neg hx]
  bytewise h := by rw [Memory.lookup_forget, Memory.lookup_forget, h]

/-- A word that an edit does not touch reads as before. -/
theorem MemEdit.readWord {A : Nat → Prop} {f : Memory → Memory} (hf : MemEdit A f) {x : Nat}
    (hx : ∀ y, WordByte x y → ¬ A y) (m : Memory) : (f m).readWord x = m.readWord x :=
  Memory.readWord_congr (fun k hk => hf.outside m (hx _ ⟨by omega, by omega⟩))

/-! ### An engine's bytes -/

/-- The bytes of the first `n` output entries of an engine (R41, R43). -/
def OutputByte (e : Engine) (n x : Nat) : Prop :=
  match e with
  | .ca => symAddr 0 ≤ x ∧ x < symAddr n
  | .ee => bitlenAddr 0 ≤ x ∧ x < bitlenAddr n

/-- The bytes of the first `n` input entries of an engine (R40, R42). -/
def InputByte (e : Engine) (n x : Nat) : Prop :=
  match e with
  | .ca => lenAddr 0 ≤ x ∧ x < lenAddr n
  | .ee => cntAddr 0 ≤ x ∧ x < cntAddr n

theorem memEdit_writeSym {i n : Nat} (hi : i < n) (w : Word) :
    MemEdit (OutputByte .ca n) (fun m => m.writeWord (symAddr i) w) :=
  (memEdit_writeWord _ w).mono (fun x hx => by simp only [WordByte, OutputByte, symAddr] at *; omega)

theorem memEdit_writeBitlen {i n : Nat} (hi : i < n) (v : F64) :
    MemEdit (OutputByte .ee n) (fun m => m.writeDword (bitlenAddr i) v) :=
  ((memEdit_writeWord _ (v.extractLsb' 32 32)).mono
      (fun x hx => by simp only [WordByte, OutputByte, bitlenAddr] at *; omega)).comp
    ((memEdit_writeWord _ (v.extractLsb' 0 32)).mono
      (fun x hx => by simp only [WordByte, OutputByte, bitlenAddr] at *; omega))

theorem memEdit_forgetBitlen (n : Nat) : MemEdit (OutputByte .ee n) (fun m => m.forget (inBitlen n)) :=
  (memEdit_forget _).mono (fun x hx => by simpa [inBitlen, OutputByte] using hx)

/-- No engine writes an input entry (R85). -/
theorem not_outputByte_of_inputByte {e e' : Engine} {n k x : Nat} (hN : n ≤ 1024) (hk : k ≤ 1024)
    (h : InputByte e n x) : ¬ OutputByte e' k x := by
  cases e <;> cases e' <;> simp only [InputByte, OutputByte, lenAddr, symAddr, cntAddr, bitlenAddr] at * <;> omega

theorem outputSpan_le (s : State) (e : Engine) : s.outputSpan e ≤ s.params.nMax := Nat.min_le_right _ _

/-- The arrays of the two engines are apart (R49, R71). -/
theorem not_outputByte_other {n k x : Nat} (hn : n ≤ 1024) (h : OutputByte .ca n x) : ¬ OutputByte .ee k x := by
  simp only [OutputByte, symAddr, bitlenAddr] at *
  omega

/-- A word of one engine's arrays holds no byte of the other's: CNT begins where SYM's region ends. -/
theorem ArrayTarget.apart {p : Params} {e e' : Engine} {T : Target} {x y n : Nat} (h : ArrayTarget p e' T x)
    (hN : p.nMax ≤ 1024) (hn : n ≤ 1024) (hne : e' ≠ e) (hy : WordByte x y) :
    ¬ OutputByte e n y ∧ ¬ InputByte e n y := by
  obtain ⟨h1, h2⟩ := hy
  cases e <;> cases e'
  · exact absurd rfl hne
  · have := h.le_of_ee
    simp only [OutputByte, InputByte, lenAddr, symAddr, cntAddr] at *
    omega
  · have := h.le_of_ca hN
    simp only [OutputByte, InputByte, bitlenAddr, lenAddr, cntAddr] at *
    omega
  · exact absurd rfl hne

/-! ### Work of a unit -/

/-- `t` holds the unit of engine `e` as `s` does. -/
def SameUnit (e : Engine) (s t : State) : Prop :=
  match e with
  | .ca => t.ca = s.ca
  | .ee => t.ee = s.ee

theorem SameUnit.ca {s t : State} (h : SameUnit .ca s t) : t.ca = s.ca := h

theorem SameUnit.ee {s t : State} (h : SameUnit .ee s t) : t.ee = s.ee := h

theorem SameUnit.busy {e : Engine} {s t : State} (h : SameUnit e s t) : t.busy e = s.busy e := by
  cases e
  · rw [busy_ca, busy_ca, h.ca]
  · rw [busy_ee, busy_ee, h.ee]

theorem SameUnit.latchedN {e : Engine} {s t : State} (h : SameUnit e s t) : t.latchedN e = s.latchedN e := by
  cases e
  · rw [State.latchedN, State.latchedN, h.ca]
  · rw [State.latchedN, State.latchedN, h.ee]

/-- `s` with the unit of engine `e` taken from `t`. -/
def withUnit (e : Engine) (t s : State) : State :=
  match e with
  | .ca => { s with ca := t.ca }
  | .ee => { s with ee := t.ee }

theorem withUnit_of_same {e : Engine} {s s' : State} (h : SameUnit e s s') : withUnit e s s' = s' := by
  cases e
  · rw [withUnit, ← h.ca]
  · rw [withUnit, ← h.ee]

/-- The memory is changed by `f`. -/
def editMem (f : Memory → Memory) (s : State) : State := { s with mem := f s.mem }

/-- CA_ERR_CODE or EE_ERR_CODE. -/
def errCodeOf (s : State) : Engine → BitVec 8
  | .ca => s.ca.errCode
  | .ee => s.ee.errCode

/-- `F` reads the parameters and the unit of `e` and changes that unit only; it records no error code without ERR. -/
structure UnitWork (e : Engine) (F : State → State) : Prop where
  acts : ∀ {s s' : State}, s'.params = s.params → SameUnit e s s' → F s' = withUnit e (F s) s'
  recorded : ∀ s : State, errCodeOf (F s) e = errCodeOf s e ∨ errBit (F s) e = true

theorem UnitWork.ite {e : Engine} {F G : State → State} {c : State → Prop} [DecidablePred c]
    (hc : ∀ {s s' : State}, s'.params = s.params → SameUnit e s s' → (c s' ↔ c s)) (hF : UnitWork e F)
    (hG : UnitWork e G) : UnitWork e (fun s => if c s then F s else G s) where
  acts {s s'} hp hu := by
    by_cases h : c s
    · rw [if_pos h, if_pos ((hc hp hu).2 h)]; exact hF.acts hp hu
    · rw [if_neg h, if_neg (fun h' => h ((hc hp hu).1 h'))]; exact hG.acts hp hu
  recorded s := by
    by_cases h : c s
    · rw [if_pos h]; exact hF.recorded s
    · rw [if_neg h]; exact hG.recorded s

theorem unitWork_id {e : Engine} : UnitWork e id where
  acts _ hu := (withUnit_of_same hu).symm
  recorded _ := .inl rfl

theorem unitWork_setCaPhase (p : CaPhase) : UnitWork .ca (State.setCaPhase p) where
  acts _ hu := by simp only [State.setCaPhase, withUnit, hu.ca]
  recorded _ := .inl rfl

theorem unitWork_setEePhase (p : EePhase) : UnitWork .ee (State.setEePhase p) where
  acts _ hu := by simp only [State.setEePhase, withUnit, hu.ee]
  recorded _ := .inl rfl

theorem unitWork_finish (e : Engine) : UnitWork e (State.finish e) where
  acts hp hu := by
    cases e
    · simp only [State.finish, State.openScratch, withUnit, hp, hu.ca]
    · simp only [State.finish, State.openScratch, withUnit, hu.ee]
  recorded _ := by cases e <;> exact .inl rfl

theorem unitWork_raise (e : Engine) (c : ErrCode) (ix : Word) (v : BitVec 64) : UnitWork e (State.raise e c ix v) where
  acts hp hu := by
    cases e
    · simp only [State.raise, State.recordError, State.finish, State.openScratch, withUnit, hp, hu.ca]
    · simp only [State.raise, State.recordError, State.finish, State.openScratch, withUnit, hu.ee]
  recorded _ := by cases e <;> exact .inr rfl

/-- Work after an update of CA's unit that leaves the error code. -/
theorem UnitWork.afterCa {F : State → State} (hF : UnitWork .ca F) {φ : CaUnit → CaUnit}
    (hφ : ∀ c, (φ c).errCode = c.errCode) : UnitWork .ca (fun s => F { s with ca := φ s.ca }) where
  acts {s s'} hp hu := by
    rw [hF.acts (s := { s with ca := φ s.ca }) (s' := { s' with ca := φ s'.ca }) hp (congrArg φ hu)]
    rfl
  recorded s := (hF.recorded _).imp (fun h => h.trans (hφ s.ca)) id

/-- Work after an update of EE's unit that leaves the error code. -/
theorem UnitWork.afterEe {F : State → State} (hF : UnitWork .ee F) {φ : EeUnit → EeUnit}
    (hφ : ∀ c, (φ c).errCode = c.errCode) : UnitWork .ee (fun s => F { s with ee := φ s.ee }) where
  acts {s s'} hp hu := by
    rw [hF.acts (s := { s with ee := φ s.ee }) (s' := { s' with ee := φ s'.ee }) hp (congrArg φ hu)]
    rfl
  recorded s := (hF.recorded _).imp (fun h => h.trans (hφ s.ee)) id

theorem unitWork_enterEmit (i : Nat) : UnitWork .ca (enterEmit i) :=
  .ite (c := fun s => i < s.ca.latchN.toNat) (fun _ hu => by rw [hu.ca])
    (unitWork_setCaPhase _) (unitWork_finish _)

theorem unitWork_enterBase (L : Nat) : UnitWork .ca (enterBase L) :=
  .ite (c := fun s => L ≤ s.ca.latchMaxbits.toNat) (fun _ hu => by rw [hu.ca])
    (unitWork_setCaPhase _) (unitWork_enterEmit 0)

theorem unitWork_enterTally (i : Nat) : UnitWork .ca (enterTally i) :=
  .ite (c := fun s => i < s.ca.latchN.toNat) (fun _ hu => by rw [hu.ca])
    (unitWork_setCaPhase _) (unitWork_setCaPhase _)

theorem unitWork_enterClear (L : Nat) : UnitWork .ca (enterClear L) :=
  .ite (c := fun s => L ≤ s.ca.latchMaxbits.toNat) (fun _ hu => by rw [hu.ca])
    (unitWork_setCaPhase _) (unitWork_enterTally 0)

theorem unitWork_caCheck : UnitWork .ca caCheck where
  acts {s s'} hp hu := by
    rw [caCheck, caCheck, hp, hu.ca]
    split
    · exact (unitWork_raise .ca _ _ _).acts hp hu
    · split
      · exact (unitWork_raise .ca _ _ _).acts hp hu
      · exact (unitWork_enterClear 0).acts hp hu
  recorded s := by
    rw [caCheck]
    split
    · exact .inr rfl
    · split
      · exact .inr rfl
      · exact (unitWork_enterClear 0).recorded s

theorem unitWork_enterSum (i : Nat) : UnitWork .ee (enterSum i) :=
  .ite (c := fun s => i < s.ee.latchN.toNat) (fun _ hu => by rw [hu.ee]) (unitWork_setEePhase _)
    (unitWork_setEePhase _)

theorem unitWork_enterCost (i : Nat) : UnitWork .ee (enterCost i) :=
  .ite (c := fun s => i < s.ee.latchN.toNat) (fun _ hu => by rw [hu.ee]) (unitWork_setEePhase _)
    (unitWork_finish .ee)

/-! ### A piece of work -/

/-- `s'` holds all that the work of engine `e` depends on as `s` does: its unit, the parameters and its input entries
(R139). -/
structure Agrees (e : Engine) (s s' : State) : Prop where
  params : s'.params = s.params
  unit : SameUnit e s s'
  inputs : ∀ x, InputByte e s.params.nMax x → s'.mem.lookup x = s.mem.lookup x

theorem Agrees.refl (e : Engine) (s : State) : Agrees e s s := ⟨rfl, by cases e <;> rfl, fun _ _ => rfl⟩

theorem Agrees.readLen {s s' : State} (h : Agrees .ca s s') {i : Nat} (hi : i < s.params.nMax) :
    s'.readLen i = s.readLen i :=
  Memory.readWord_congr (fun k hk => h.inputs _ (by simp only [InputByte, lenAddr]; omega))

theorem Agrees.readCnt {s s' : State} (h : Agrees .ee s s') {i : Nat} (hi : i < s.params.nMax) :
    s'.readCnt i = s.readCnt i :=
  Memory.readWord_congr (fun k hk => h.inputs _ (by simp only [InputByte, cntAddr]; omega))

/-- Engine work `R` that takes `s` to `t` makes the same of the unit of `e` in every state that agrees with `s`, and
edits the output bytes by `f`. -/
structure Transfers (e : Engine) (R : State → Result) (s t : State) (f : Memory → Memory) : Prop where
  edit : MemEdit (OutputByte e (s.outputSpan e)) f
  acts : ∀ {s' : State}, Agrees e s s' → R s' = .next (editMem f (withUnit e t s'))

/-- The same of a piece of work, with what it records. -/
structure Piece (u : LogUnits) (e : Engine) (s t : State) (f : Memory → Memory) : Prop
    extends Transfers e (engineTick u e) s t f where
  recorded : errCodeOf t e = errCodeOf s e ∨ errBit t e = true

/-- A piece of work that edits the memory and then works on the unit. -/
theorem UnitWork.piece {u : LogUnits} {e : Engine} {F : State → State} (hF : UnitWork e F) {s : State}
    {f : Memory → Memory} (hf : MemEdit (OutputByte e (s.outputSpan e)) f)
    (h : ∀ {s'}, Agrees e s s' → engineTick u e s' = .next (F (editMem f s'))) :
    Piece u e s (F (editMem f s)) f where
  edit := hf
  acts {s'} hs := by
    rw [h hs, hF.acts (s := editMem f s) (s' := editMem f s') hs.params (by cases e <;> exact hs.unit)]
    cases e <;> rfl
  recorded := by
    refine (hF.recorded _).imp (fun h => h.trans ?_) id
    cases e <;> rfl

theorem UnitWork.exists_piece {u : LogUnits} {e : Engine} {F : State → State} (hF : UnitWork e F) {s t : State}
    {f : Memory → Memory} (hf : MemEdit (OutputByte e (s.outputSpan e)) f) (ht : engineTick u e s = .next t)
    (h : ∀ {s'}, Agrees e s s' → engineTick u e s' = .next (F (editMem f s'))) : ∃ f, Piece u e s t f := by
  obtain rfl : F (editMem f s) = t := by simpa [ht] using (h (.refl e s)).symm
  exact ⟨f, hF.piece hf h⟩

/-- A piece of work on the unit alone. -/
theorem UnitWork.exists_piece_id {u : LogUnits} {e : Engine} {F : State → State} (hF : UnitWork e F) {s t : State}
    (ht : engineTick u e s = .next t) (h : ∀ {s'}, Agrees e s s' → engineTick u e s' = .next (F s')) :
    ∃ f, Piece u e s t f := hF.exists_piece (memEdit_id _) ht h

/-! ### CA's pieces -/

theorem caTally_piece {u : LogUnits} {s t : State} {i : Nat} (hp : s.ca.phase = .tally i) (hi : i < s.params.nMax)
    (ht : engineTick u .ca s = .next t) : ∃ f, Piece u .ca s t f := by
  have tick : ∀ {s'}, Agrees .ca s s' → engineTick u .ca s' = caTally i s' := fun hs => by
    simp only [engineTick, caTick, hs.unit.ca, hp]
  cases hl : s.readLen i with
  | none => rw [tick (.refl _ s), caTally, hl] at ht; cases ht
  | some l =>
    by_cases hm : s.ca.latchMaxbits < l
    · exact (unitWork_raise .ca .lenGtMaxbits (BitVec.ofNat 32 i) (l.setWidth 64)).exists_piece_id ht (fun hs => by
        simp only [tick hs, caTally, hs.readLen hi, hl, hs.unit.ca, if_pos hm])
    · exact ((unitWork_enterTally (i + 1)).afterCa
        (φ := fun c => { c with blCount := tableWrite c.blCount l.toNat (tableRead c.blCount l.toNat + 1) })
        (fun _ => rfl)).exists_piece_id ht (fun hs => by
          simp only [tick hs, caTally, hs.readLen hi, hl, hs.unit.ca, if_neg hm])

theorem caEmit_piece {u : LogUnits} {s t : State} {i : Nat} (hp : s.ca.phase = .emit i)
    (hi : i < s.outputSpan .ca) (ht : engineTick u .ca s = .next t) : ∃ f, Piece u .ca s t f := by
  have tick : ∀ {s'}, Agrees .ca s s' → engineTick u .ca s' = caEmit i s' := fun hs => by
    simp only [engineTick, caTick, hs.unit.ca, hp]
  have hiN := hi.trans_le (outputSpan_le s .ca)
  cases hl : s.readLen i with
  | none => rw [tick (.refl _ s), caEmit, hl] at ht; cases ht
  | some l =>
    by_cases h0 : l = 0
    · exact (unitWork_enterEmit (i + 1)).exists_piece_id ht (fun hs => by
        simp only [tick hs, caEmit, hs.readLen hiN, hl, if_pos h0])
    · exact ((unitWork_enterEmit (i + 1)).afterCa (φ := fun c => { c with
          nextCode := tableWrite c.nextCode l.toNat (tableRead c.nextCode l.toNat + 1) })
        (fun _ => rfl)).exists_piece (memEdit_writeSym hi (tableRead s.ca.nextCode l.toNat)) ht (fun hs => by
          simp only [tick hs, caEmit, hs.readLen hiN, hl, if_neg h0, State.writeSym, editMem, hs.unit.ca])

theorem caTick_piece {u : LogUnits} {s t : State} (h : StateInv s) (ht : engineTick u .ca s = .next t) :
    ∃ f, Piece u .ca s t f := by
  have hin := h.ca.inBounds
  cases hp : s.ca.phase with
  | idle =>
    exact unitWork_id.exists_piece_id ht (fun hs => by simp only [engineTick, caTick, hs.unit.ca, hp, id])
  | check =>
    exact unitWork_caCheck.exists_piece_id ht (fun hs => by simp only [engineTick, caTick, hs.unit.ca, hp])
  | clear L =>
    exact ((unitWork_enterClear (L + 1)).afterCa (φ := fun c => { c with blCount := tableWrite c.blCount L 0 })
      (fun _ => rfl)).exists_piece_id ht (fun hs => by simp only [engineTick, caTick, hs.unit.ca, hp, caClear])
  | tally i =>
    rw [hp] at hin
    obtain ⟨hn, -, hi⟩ := hin
    exact caTally_piece hp (hi.trans_le hn) ht
  | exclude =>
    exact ((unitWork_enterBase 1).afterCa (φ := fun c => { c with blCount := tableWrite c.blCount 0 0, code := 0 })
      (fun _ => rfl)).exists_piece_id ht (fun hs => by simp only [engineTick, caTick, hs.unit.ca, hp, caExclude])
  | base L =>
    exact ((unitWork_enterBase (L + 1)).afterCa (φ := fun c => { c with
        code := (c.code + tableRead c.blCount (L - 1)) <<< 1
        nextCode := tableWrite c.nextCode L ((c.code + tableRead c.blCount (L - 1)) <<< 1) })
      (fun _ => rfl)).exists_piece_id ht (fun hs => by simp only [engineTick, caTick, hs.unit.ca, hp, caBase])
  | emit i =>
    rw [hp] at hin
    obtain ⟨hn, -, hi⟩ := hin
    exact caEmit_piece hp (lt_min hi (hi.trans_le hn)) ht

/-! ### EE's pieces -/

/-- An error of EE records it and forgets the outputs (R201, R236). -/
theorem raiseEe_piece {u : LogUnits} {s t : State} (c : ErrCode) (ix : Word) (v : BitVec 64) {φ : EeUnit → EeUnit}
    (hφ : ∀ ee, (φ ee).errCode = ee.errCode) (ht : engineTick u .ee s = .next t)
    (hl : (φ s.ee).latchN = s.ee.latchN)
    (h : ∀ {s'}, Agrees .ee s s' → engineTick u .ee s' = .next (raiseEe c ix v { s' with ee := φ s'.ee })) :
    ∃ f, Piece u .ee s t f := by
  refine ((unitWork_raise .ee c ix v).afterEe hφ).exists_piece (memEdit_forgetBitlen (s.outputSpan .ee)) ht
    (fun hs => ?_)
  have hspan : State.outputSpan { s with ee := φ s.ee } .ee = s.outputSpan .ee := by
    simp only [State.outputSpan, State.latchedN, hl]
  rw [h hs, raiseEe, ← hspan]
  simp only [State.outputSpan, State.latchedN, hs.unit.ee, hs.params, editMem]

theorem eeSum_piece {u : LogUnits} {s t : State} {i : Nat} (hp : s.ee.phase = .sum i) (hi : i < s.params.nMax)
    (ht : engineTick u .ee s = .next t) : ∃ f, Piece u .ee s t f := by
  have tick : ∀ {s'}, Agrees .ee s s' → engineTick u .ee s' = eeSum i s' := fun hs => by
    simp only [engineTick, eeTick, hs.unit.ee, hp]
  cases hc : s.readCnt i with
  | none => rw [tick (.refl _ s), eeSum, hc] at ht; cases ht
  | some c =>
    exact ((unitWork_enterSum (i + 1)).afterEe (φ := fun ee => { ee with sum := ee.sum + c.setWidth 64 })
      (fun _ => rfl)).exists_piece_id ht (fun hs => by simp only [tick hs, eeSum, hs.readCnt hi, hc])

theorem eeCost_piece {u : LogUnits} {s t : State} {i : Nat} (hp : s.ee.phase = .cost i)
    (hi : i < s.outputSpan .ee) (ht : engineTick u .ee s = .next t) : ∃ f, Piece u .ee s t f := by
  have tick : ∀ {s'}, Agrees .ee s s' → engineTick u .ee s' = eeCost u i s' := fun hs => by
    simp only [engineTick, eeTick, hs.unit.ee, hp]
  have hiN := hi.trans_le (outputSpan_le s .ee)
  cases hc : s.readCnt i with
  | none => rw [tick (.refl _ s), eeCost, hc] at ht; cases ht
  | some c =>
    cases he : costError (clampCost s.params.eps (rawCost u s.ee.log2sum c)) with
    | some err =>
      exact raiseEe_piece err (BitVec.ofNat 32 i) (clampCost s.params.eps (rawCost u s.ee.log2sum c))
        (φ := fun ee => { ee with v := clampCost s.params.eps (rawCost u s.ee.log2sum c) }) (fun _ => rfl) ht rfl
        (fun hs => by simp only [tick hs, eeCost, hs.readCnt hiN, hc, hs.unit.ee, hs.params, he])
    | none =>
      exact ((unitWork_enterCost (i + 1)).afterEe
        (φ := fun ee => { ee with v := clampCost s.params.eps (rawCost u s.ee.log2sum c) }) (fun _ => rfl)).exists_piece
        (memEdit_writeBitlen hi (clampCost s.params.eps (rawCost u s.ee.log2sum c))) ht (fun hs => by
          simp only [tick hs, eeCost, hs.readCnt hiN, hc, hs.unit.ee, hs.params, he, State.writeBitlen, editMem])

theorem eeCheck_piece {u : LogUnits} {s t : State} (hp : s.ee.phase = .check) (ht : engineTick u .ee s = .next t) :
    ∃ f, Piece u .ee s t f := by
  have tick : ∀ {s'}, Agrees .ee s s' → engineTick u .ee s' = .next (eeCheck s') := fun hs => by
    simp only [engineTick, eeTick, hs.unit.ee, hp]
  by_cases hn : s.params.nMax < s.ee.latchN.toNat
  · have hcheck : ∀ {s'}, Agrees .ee s s' → eeCheck s' = raiseEe .nCapacity 0 (s.ee.latchN.setWidth 64) s' :=
      fun hs => by rw [eeCheck, hs.params, hs.unit.ee, if_pos hn]
    exact raiseEe_piece _ _ _ (φ := id) (fun _ => rfl) ht rfl (fun hs => (tick hs).trans (congrArg _ (hcheck hs)))
  · by_cases h0 : s.ee.latchN = 0
    · have hcheck : ∀ {s'}, Agrees .ee s s' → eeCheck s' = raiseEe .nZero 0 0 s' :=
        fun hs => by rw [eeCheck, hs.params, hs.unit.ee, if_neg hn, if_pos h0]
      exact raiseEe_piece _ _ _ (φ := id) (fun _ => rfl) ht rfl (fun hs => (tick hs).trans (congrArg _ (hcheck hs)))
    · exact ((unitWork_enterSum 0).afterEe (φ := fun ee => { ee with sum := 0 }) (fun _ => rfl)).exists_piece_id ht
        (fun hs => by simp only [tick hs, eeCheck, hs.unit.ee, hs.params, if_neg hn, if_neg h0])

theorem eeTick_piece {u : LogUnits} {s t : State} (h : StateInv s) (ht : engineTick u .ee s = .next t) :
    ∃ f, Piece u .ee s t f := by
  have hin := h.ee.inBounds
  cases hp : s.ee.phase with
  | idle =>
    exact unitWork_id.exists_piece_id ht (fun hs => by simp only [engineTick, eeTick, hs.unit.ee, hp, id])
  | check => exact eeCheck_piece hp ht
  | sum i =>
    rw [hp] at hin
    obtain ⟨hn, hi⟩ := hin
    exact eeSum_piece hp (hi.trans_le hn) ht
  | log =>
    exact ((unitWork_enterCost 0).afterEe (φ := fun ee => { ee with log2sum := baseCost u ee.latchN ee.sum })
      (fun _ => rfl)).exists_piece_id ht (fun hs => by simp only [engineTick, eeTick, hs.unit.ee, hp, eeLog])
  | cost i =>
    rw [hp] at hin
    obtain ⟨hn, hi⟩ := hin
    exact eeCost_piece hp (lt_min hi (hi.trans_le hn)) ht

/-- A piece of work makes the same of its engine's unit wherever that unit, the parameters and the engine's input
entries are the same (R139). -/
theorem engineTick_piece {u : LogUnits} {e : Engine} {s t : State} (h : StateInv s)
    (ht : engineTick u e s = .next t) : ∃ f, Piece u e s t f := by
  cases e
  · exact caTick_piece h ht
  · exact eeTick_piece h ht

/-! ### DONE and ERR -/

/-- A busy engine has DONE, ERR and its error code clear (R133, R134). -/
theorem busy_quiet {e : Engine} {s : State} (h : StateInv s) (hb : s.busy e = true) :
    doneBit s e = false ∧ errBit s e = false ∧ errCodeOf s e = 0#8 := by
  cases e with
  | ca =>
    have hr := caOk_runs h.ca (by simpa using hb)
    exact ⟨hr.quiet.1, hr.quiet.2, hr.cleared⟩
  | ee =>
    have hr := eeOk_runs h.ee (by simpa using hb)
    exact ⟨hr.quiet.1, hr.quiet.2, hr.cleared⟩

/-- ERR stands for a recorded code (R236). -/
theorem errCodeOf_ne_zero {e : Engine} {s : State} (h : StateInv s) (he : errBit s e = true) :
    errCodeOf s e ≠ 0#8 := by
  intro h0
  cases e with
  | ca => exact absurd he (by simp [errBit, (h.ca.recorded h0).1])
  | ee => exact absurd he (by simp [errBit, (h.ee.recorded h0).1])

/-- A busy engine completes with a code only together with ERR: each piece of work records both or neither. -/
theorem completeEngine_errCode {u : LogUnits} {e : Engine} {s t : State} (h : StateInv s) (hb : s.busy e = true)
    (ht : completeEngine u e s = .next t) : StateInv t ∧ (errCodeOf t e = 0#8 ∨ errBit t e = true) := by
  refine completeEngine_keeps (P := fun r => StateInv r ∧ (errCodeOf r e = 0#8 ∨ errBit r e = true))
    (fun r r' hr hrb htick => ?_) ⟨h, .inl (busy_quiet h hb).2.2⟩ ht
  obtain ⟨f, hf⟩ := engineTick_piece hr.1 htick
  exact ⟨stateInv_busyTick hr.1 hrb htick, hf.recorded.imp (fun hc => hc.trans (busy_quiet hr.1 hrb).2.2) id⟩

theorem engineTick_publishes {u : LogUnits} {e : Engine} {s t : State} (h : StateInv s) (hb : s.busy e = true)
    (ht : engineTick u e s = .next t) : t.busy e = true ↔ doneBit t e = false := by
  have hf := engineTick_flags hb ht
  cases ht' : t.busy e
  · simp [(hf.ends ht').1]
  · simp [(hf.goesOn ht').1, (busy_quiet h hb).1]

theorem completeEngine_publishes {u : LogUnits} {e : Engine} {s t : State} (h : StateInv s) (hb : s.busy e = true)
    (ht : completeEngine u e s = .next t) :
    t.busy e = false ∧ doneBit t e = true ∧ (errBit t e = true ↔ errCodeOf t e ≠ 0#8) := by
  obtain ⟨hidle, hdone, -⟩ := completeEngine_flags hb ht
  obtain ⟨hinv, hcode⟩ := completeEngine_errCode h hb ht
  exact ⟨hidle, hdone, errCodeOf_ne_zero hinv, fun hne => hcode.resolve_left hne⟩

/-- Settles O49: a piece of work sets DONE as the engine becomes idle, and ERR with the code it records. -/
theorem completionPublishes : Obligations.CompletionPublishes := by
  intro u s t h
  exact ⟨fun hb => ⟨engineTick_publishes (e := .ca) h hb, completeEngine_publishes (e := .ca) h hb⟩,
    fun hb => ⟨engineTick_publishes (e := .ee) h hb, completeEngine_publishes (e := .ee) h hb⟩⟩

/-! ### Whole runs -/

theorem Transfers.eq {e : Engine} {R : State → Result} {s t : State} {f : Memory → Memory}
    (h : Transfers e R s t f) (ht : R s = .next t) : t = editMem f (withUnit e t s) := by
  have := h.acts (.refl e s)
  rw [ht] at this
  exact Host.Outcome.next.inj this

theorem editMem_params {e : Engine} (f : Memory → Memory) (t s : State) :
    (editMem f (withUnit e t s)).params = s.params := by cases e <;> rfl

theorem editMem_mem {e : Engine} (f : Memory → Memory) (t s : State) :
    (editMem f (withUnit e t s)).mem = f s.mem := by cases e <;> rfl

theorem engineTick_latchedN {u : LogUnits} {e : Engine} {s t : State} (ht : engineTick u e s = .next t) :
    t.latchedN e = s.latchedN e := by
  cases e
  · exact congrArg BitVec.toNat (caTick_spec ht).1.latchN
  · exact congrArg BitVec.toNat (eeTick_spec ht).1.latchN

theorem engineTick_params {u : LogUnits} {e : Engine} {s t : State} (ht : engineTick u e s = .next t) :
    t.params = s.params := by
  cases e
  · exact onlyCa_params (caTick_spec ht).1
  · exact onlyEe_params (eeTick_spec ht).1

/-- After the same work, states that agreed still do. -/
theorem Agrees.after {e : Engine} {A : Nat → Prop} {s s' r : State} {f : Memory → Memory} (hs : Agrees e s s')
    (hf : MemEdit A f) (hr : r = editMem f (withUnit e r s)) : Agrees e r (editMem f (withUnit e r s')) := by
  have hp : r.params = s.params := by rw [hr, editMem_params]
  have hm : r.mem = f s.mem := by rw [hr, editMem_mem]
  refine ⟨by rw [editMem_params, hp, hs.params], by cases e <;> rfl, fun x hx => ?_⟩
  rw [editMem_mem, hm]
  exact hf.bytewise (hs.inputs x (hp ▸ hx))

theorem transfers_next {e : Engine} {R : State → Result} {s : State} (h : ∀ {s'}, Agrees e s s' → R s' = .next s') :
    Transfers e R s s id where
  edit := memEdit_id _
  acts hs := by rw [h hs, withUnit_of_same hs.unit]; rfl

/-- A run of an engine transfers as a piece of its work does. -/
theorem runEngine_transfers {u : LogUnits} {e : Engine} {k : Nat} {s t : State} (h : StateInv s)
    (ht : runEngine u e k s = .next t) : ∃ f, Transfers e (runEngine u e k) s t f := by
  induction k generalizing s with
  | zero =>
    cases ht
    exact ⟨id, transfers_next (fun _ => rfl)⟩
  | succ k ih =>
    by_cases hb : s.busy e = true
    · rw [runEngine, if_pos hb] at ht
      obtain ⟨r, hr, hrt⟩ := andThen_eq_next.1 ht
      obtain ⟨f, hf⟩ := engineTick_piece h hr
      obtain ⟨g, hg⟩ := ih (stateInv_busyTick h hb hr) hrt
      have hspan : r.outputSpan e = s.outputSpan e := by
        rw [State.outputSpan, State.outputSpan, engineTick_latchedN hr, engineTick_params hr]
      refine ⟨g ∘ f, (hspan ▸ hg.edit).comp hf.edit, fun {s'} hs => ?_⟩
      rw [runEngine, SameUnit.busy hs.unit, if_pos hb, hf.acts hs, andThen_next, hg.acts (hs.after hf.edit (hf.eq hr))]
      cases e <;> rfl
    · rw [Bool.not_eq_true] at hb
      rw [runEngine_of_idle hb] at ht
      cases ht
      exact ⟨id, transfers_next (fun hs => runEngine_of_idle ((SameUnit.busy hs.unit).trans hb) _)⟩

theorem Agrees.work {e : Engine} {s s' : State} (h : Agrees e s s') : engineWork e s' = engineWork e s := by
  cases e
  · simp only [engineWork, caWork, h.unit.ca]
  · simp only [engineWork, eeWork, h.unit.ee]

theorem completeEngine_transfers {u : LogUnits} {e : Engine} {s t : State} (h : StateInv s)
    (ht : completeEngine u e s = .next t) : ∃ f, Transfers e (completeEngine u e) s t f := by
  obtain ⟨f, hf⟩ := runEngine_transfers h ht
  exact ⟨f, hf.edit, fun hs => by rw [completeEngine, hs.work]; exact hf.acts hs⟩

/-! ### Two engines -/

/-- What one engine does leaves all that the other's work depends on. -/
theorem agrees_other {e e' : Engine} {s : State} {f : Memory → Memory} (hN : s.params.nMax ≤ 1024)
    (hf : MemEdit (OutputByte e (s.outputSpan e)) f) (hne : e' ≠ e) (t : State) :
    Agrees e' s (editMem f (withUnit e t s)) where
  params := editMem_params f t s
  unit := by
    cases e <;> cases e'
    · exact absurd rfl hne
    · rfl
    · rfl
    · exact absurd rfl hne
  inputs x hx := by
    rw [editMem_mem]
    exact hf.outside _ (not_outputByte_of_inputByte hN ((outputSpan_le s e).trans hN) hx)

theorem edits_comm {s : State} {f g : Memory → Memory} (h : f (g s.mem) = g (f s.mem)) (a b : State) :
    editMem f (withUnit .ca a (editMem g (withUnit .ee b s))) =
      editMem g (withUnit .ee b (editMem f (withUnit .ca a s))) := by
  simp only [editMem, withUnit, h]

/-- Settles O51: each completion works on its own unit, reads what the other does not write and edits other bytes. -/
theorem enginesIndependent : Obligations.EnginesIndependent := by
  intro u s a b h ha hb
  obtain ⟨f, hf⟩ := completeEngine_transfers h ha
  obtain ⟨g, hg⟩ := completeEngine_transfers h hb
  have hN := nMax_le h
  have ea := hf.eq ha
  have eb := hg.eq hb
  have hcomm : f (g s.mem) = g (f s.mem) :=
    hf.edit.comm hg.edit (fun _ => not_outputByte_other ((outputSpan_le s .ca).trans hN)) h.mem.canonical
  have hab : editMem f (withUnit .ca a b) = editMem g (withUnit .ee b a) :=
    calc editMem f (withUnit .ca a b)
      _ = editMem f (withUnit .ca a (editMem g (withUnit .ee b s))) := congrArg (editMem f <| withUnit .ca a ·) eb
      _ = editMem g (withUnit .ee b (editMem f (withUnit .ca a s))) := edits_comm hcomm a b
      _ = editMem g (withUnit .ee b a) := congrArg (editMem g <| withUnit .ee b ·) ea.symm
  refine ⟨editMem g (withUnit .ee b a), hg.acts ?_, hab ▸ hf.acts ?_, rfl, rfl⟩
  · rw [ea]; exact agrees_other hN hf.edit (by decide) a
  · rw [eb]; exact agrees_other hN hg.edit (by decide) b

/-! ### Work hidden from the bus -/

/-- A piece of work, with its edit `f`, before and after which engine `e` is busy. -/
structure Hidden (u : LogUnits) (e : Engine) (s t : State) (f : Memory → Memory) : Prop where
  inv : StateInv s
  busy : s.busy e = true
  tick : engineTick u e s = .next t
  busyAfter : t.busy e = true
  piece : Piece u e s t f

section
variable {u : LogUnits} {e : Engine} {s t : State} {f : Memory → Memory}

theorem Hidden.invAfter (H : Hidden u e s t f) : StateInv t := stateInv_busyTick H.inv H.busy H.tick

theorem Hidden.eq (H : Hidden u e s t f) : t = editMem f (withUnit e t s) := H.piece.eq H.tick

theorem Hidden.params (H : Hidden u e s t f) : t.params = s.params := engineTick_params H.tick

theorem Hidden.mem (H : Hidden u e s t f) : t.mem = f s.mem := by rw [H.eq, editMem_mem]

theorem Hidden.nMax_le (H : Hidden u e s t f) : s.params.nMax ≤ 1024 := Scope.nMax_le H.inv

/-- The other engine is not touched. -/
theorem Hidden.other (H : Hidden u e s t f) {e' : Engine} (hne : e' ≠ e) : SameUnit e' s t :=
  H.eq ▸ (agrees_other H.nMax_le H.piece.edit hne t).unit

theorem Hidden.busy_eq (H : Hidden u e s t f) (e' : Engine) : t.busy e' = s.busy e' := by
  by_cases hne : e' = e
  · rw [hne, H.busy, H.busyAfter]
  · exact SameUnit.busy (H.other hne)

theorem Hidden.latchedN_eq (H : Hidden u e s t f) (e' : Engine) : t.latchedN e' = s.latchedN e' := by
  by_cases hne : e' = e
  · rw [hne]; exact engineTick_latchedN H.tick
  · exact SameUnit.latchedN (H.other hne)

theorem Hidden.locked_eq (H : Hidden u e s t f) (T : Target) : t.locked T = s.locked T := by
  simp only [State.locked, H.busy_eq]

/-- What an idle engine owns is the other's. -/
theorem Hidden.ne_of_idle (H : Hidden u e s t f) {e' : Engine} (h : s.busy e' = false) : e' ≠ e := by
  rintro rfl
  rw [H.busy] at h
  cases h

/-! ### What the bus does around it -/

/-- Operation `G` gives the same before and after the hidden work, up to that work, and leaves what it depends on. -/
structure Passes (e : Engine) (s t : State) (f : Memory → Memory) (G : State → State) : Prop where
  eq : G t = editMem f (withUnit e t (G s))
  agrees : Agrees e s (G s)

theorem Hidden.passes (H : Hidden u e s t f) {G : State → State}
    (hG : G (editMem f (withUnit e t s)) = editMem f (withUnit e t (G s))) (ha : Agrees e s (G s)) :
    Passes e s t f G := ⟨(congrArg G H.eq).trans hG, ha⟩

/-- Operation `K` neither reads nor changes the engines' units and the memory, and keeps the parameters. For an
operation on other fields each clause holds by definition. -/
structure Outer (K : State → State) : Prop where
  ca : ∀ (r : State) (c : CaUnit) (m : Memory), K { r with ca := c, mem := m } = { K r with ca := c, mem := m } := by
    exact fun _ _ _ => rfl
  ee : ∀ (r : State) (c : EeUnit) (m : Memory), K { r with ee := c, mem := m } = { K r with ee := c, mem := m } := by
    exact fun _ _ _ => rfl
  params : ∀ r : State, (K r).params = r.params := by exact fun _ => rfl

theorem Outer.mem_ca {K : State → State} (hK : Outer K) (r : State) : (K r).mem = r.mem ∧ (K r).ca = r.ca := by
  have h : K r = { K r with ca := r.ca, mem := r.mem } := hK.ca r r.ca r.mem
  exact ⟨(congrArg State.mem h).trans rfl, (congrArg State.ca h).trans rfl⟩

theorem Outer.keeps_ee {K : State → State} (hK : Outer K) (r : State) : (K r).ee = r.ee := by
  have h : K r = { K r with ee := r.ee, mem := r.mem } := hK.ee r r.ee r.mem
  exact (congrArg State.ee h).trans rfl

theorem Outer.comm {K : State → State} (hK : Outer K) (r : State) :
    K (editMem f (withUnit e t r)) = editMem f (withUnit e t (K r)) := by
  have hm := (hK.mem_ca r).1
  cases e
  · exact (hK.ca r t.ca (f r.mem)).trans (by rw [← hm]; rfl)
  · exact (hK.ee r t.ee (f r.mem)).trans (by rw [← hm]; rfl)

theorem Outer.agrees {K : State → State} (hK : Outer K) (r : State) : Agrees e r (K r) where
  params := hK.params r
  unit := by
    cases e
    · exact (hK.mem_ca r).2
    · exact hK.keeps_ee r
  inputs x _ := by rw [(hK.mem_ca r).1]

theorem Hidden.passes_outer (H : Hidden u e s t f) {K : State → State} (hK : Outer K) : Passes e s t f K :=
  H.passes (hK.comm s) (hK.agrees s)

theorem Outer.comp {K L : State → State} (hK : Outer K) (hL : Outer L) : Outer (fun r => K (L r)) where
  ca r c m := by rw [hL.ca, hK.ca]
  ee r c m := by rw [hL.ee, hK.ee]
  params r := (hK.params _).trans (hL.params r)

/-! ### Host writes -/

/-- The bus operation `R` passes the hidden work, whatever it does. -/
def LinePasses (e : Engine) (s t : State) (f : Memory → Memory) (R : State → Result) : Prop :=
  ∃ G, R s = .next (G s) ∧ R t = .next (G t) ∧ Passes e s t f G

theorem Hidden.passes_accept (H : Hidden u e s t f) {e' : Engine} (hne : e' ≠ e) :
    Passes e s t f (State.accept e') := by
  cases e <;> cases e'
  · exact absurd rfl hne
  · exact H.passes rfl ⟨rfl, rfl, fun _ _ => rfl⟩
  · exact H.passes rfl ⟨rfl, rfl, fun _ _ => rfl⟩
  · exact absurd rfl hne

theorem exec_engineCommand (e : Engine) (s : State) :
    exec (engineCommand e) s = if s.busy e then .next s.setCmdDrop else .next (s.accept e) := by cases e <;> rfl

theorem Hidden.linePasses_exec (H : Hidden u e s t f) (e' : Engine) : LinePasses e s t f (exec (engineCommand e')) := by
  cases hb : s.busy e'
  · exact ⟨State.accept e', by rw [exec_engineCommand, hb]; rfl, by rw [exec_engineCommand, H.busy_eq, hb]; rfl,
      H.passes_accept (H.ne_of_idle hb)⟩
  · exact ⟨State.setCmdDrop, by rw [exec_engineCommand, hb]; rfl, by rw [exec_engineCommand, H.busy_eq, hb]; rfl,
      H.passes_outer {}⟩

theorem Hidden.passes_id (H : Hidden u e s t f) : Passes e s t f id :=
  H.passes_outer {}

theorem Hidden.linePasses_dispatchCmd (H : Hidden u e s t f) (w : Word) : LinePasses e s t f (dispatchCmd w) := by
  cases hd : decodeWord w with
  | error err =>
    exact ⟨State.setIllCmd, by rw [dispatchCmd, hd], by rw [dispatchCmd, hd],
      H.passes_outer {}⟩
  | ok i =>
    have hi : dispatchCmd w = exec i := by funext r; rw [dispatchCmd, hd]
    rw [hi]
    cases i with
    | nop => exact ⟨id, rfl, rfl, H.passes_id⟩
    | assign => exact H.linePasses_exec .ca
    | estimate => exact H.linePasses_exec .ee

/-- A STATUS write finds DONE and ERR of a busy engine clear (R27, R133). -/
theorem sameUnit_clearStatus (h : StateInv s) (hb : s.busy e = true) (w : Word) : SameUnit e s (s.clearStatus w) := by
  obtain ⟨hd, he, -⟩ := busy_quiet h hb
  cases e with
  | ca =>
    have hd' : (s.ca.done && !w.getLsbD 1) = s.ca.done := by rw [show s.ca.done = false from hd]; rfl
    have he' : (s.ca.err && !w.getLsbD 2) = s.ca.err := by rw [show s.ca.err = false from he]; rfl
    show ({ s.ca with done := _, err := _ } : CaUnit) = s.ca
    rw [hd', he']
  | ee =>
    have hd' : (s.ee.done && !w.getLsbD 5) = s.ee.done := by rw [show s.ee.done = false from hd]; rfl
    have he' : (s.ee.err && !w.getLsbD 6) = s.ee.err := by rw [show s.ee.err = false from he]; rfl
    show ({ s.ee with done := _, err := _ } : EeUnit) = s.ee
    rw [hd', he']

theorem Hidden.passes_clearStatus (H : Hidden u e s t f) (w : Word) : Passes e s t f (State.clearStatus w) where
  eq :=
    calc t.clearStatus w
      _ = withUnit e t (t.clearStatus w) := (withUnit_of_same (sameUnit_clearStatus H.invAfter H.busyAfter w)).symm
      _ = withUnit e t ((editMem f (withUnit e t s)).clearStatus w) :=
        congrArg (fun r => withUnit e t (State.clearStatus w r)) H.eq
      _ = editMem f (withUnit e t (s.clearStatus w)) := by cases e <;> rfl
  agrees := ⟨rfl, sameUnit_clearStatus H.inv H.busy w, fun _ _ => rfl⟩

theorem Hidden.linePasses_writeReg (H : Hidden u e s t f) {r : Reg} (hl : s.locked (.reg r) = false) (w : Word) :
    LinePasses e s t f (writeReg r w) := by
  cases r
  case cmd => exact H.linePasses_dispatchCmd w
  case status => exact ⟨State.clearStatus w, rfl, rfl, H.passes_clearStatus w⟩
  case irqEn =>
    exact ⟨State.writeIrqEn w, rfl, rfl, H.passes_outer {}⟩
  case caN =>
    cases e
    · exact absurd rfl (H.ne_of_idle (e' := .ca) hl)
    · exact ⟨fun r => { r with ca := { r.ca with regN := w } }, rfl, rfl, H.passes rfl ⟨rfl, rfl, fun _ _ => rfl⟩⟩
  case caMaxbits =>
    cases e
    · exact absurd rfl (H.ne_of_idle (e' := .ca) hl)
    · exact ⟨fun r => { r with ca := { r.ca with regMaxbits := w } }, rfl, rfl, H.passes rfl ⟨rfl, rfl, fun _ _ => rfl⟩⟩
  case eeN =>
    cases e
    · exact ⟨fun r => { r with ee := { r.ee with regN := w } }, rfl, rfl, H.passes rfl ⟨rfl, rfl, fun _ _ => rfl⟩⟩
    · exact absurd rfl (H.ne_of_idle (e' := .ee) hl)
  all_goals exact ⟨id, rfl, rfl, H.passes_id⟩

/-- A word of the idle engine's arrays is stored: the hidden work edits other bytes, and reads others. -/
theorem Hidden.passes_storeWord (H : Hidden u e s t f) {e' : Engine} {T : Target} {x : Nat}
    (hx : ArrayTarget s.params e' T x) (hne : e' ≠ e) (w : Word) : Passes e s t f (storeWord x w) := by
  have hapart := fun n hn y (hy : WordByte x y) => ArrayTarget.apart (n := n) hx H.nMax_le hn hne hy
  have hcomm : (f s.mem).writeWord x w = f (s.mem.writeWord x w) :=
    (memEdit_writeWord x w).comm H.piece.edit
      (fun y hy => (hapart _ ((outputSpan_le s e).trans H.nMax_le) y hy).1) H.inv.mem.canonical
  refine H.passes ?_ ⟨rfl, by cases e <;> rfl, fun y hy => ?_⟩
  · cases e <;> simp only [storeWord, editMem, withUnit, hcomm]
  · exact (memEdit_writeWord x w).outside s.mem (fun hw => (hapart _ H.nMax_le y hw).2 hy)

theorem Hidden.linePasses_busWrite (H : Hidden u e s t f) (a : BusAddr) (w : Word) :
    LinePasses e s t f (busWrite a w) := by
  have hd : decodeAddr t.params a = decodeAddr s.params a := by rw [H.params]
  cases hl : s.locked (decodeAddr s.params a)
  · have hw : ∀ r : State, decodeAddr r.params a = decodeAddr s.params a → r.locked (decodeAddr s.params a) = false →
        busWrite a w r = writeTarget (decodeAddr s.params a) w r := fun r h1 h2 => by
      simp only [busWrite, h1, h2, Bool.false_eq_true, if_false]
    have key : LinePasses e s t f (writeTarget (decodeAddr s.params a) w) := by
      rcases decodeAddr_cases s.params a with ⟨r, hr⟩ | hn | ⟨e', x, hx⟩
      · rw [hr] at hl ⊢
        exact H.linePasses_writeReg hl w
      · refine ⟨id, ?_, ?_, H.passes_id⟩ <;> rcases hn with hn | hn <;> rw [hn] <;> rfl
      · rw [locked_of_owner hx.owner] at hl
        have hG := H.passes_storeWord hx (H.ne_of_idle hl) w
        generalize decodeAddr s.params a = T at hx
        cases hx <;> exact ⟨_, rfl, rfl, hG⟩
    obtain ⟨G, h1, h2, hG⟩ := key
    exact ⟨G, (hw s rfl hl).trans h1, (hw t hd ((H.locked_eq _).trans hl)).trans h2, hG⟩
  · refine ⟨State.setWrDrop, ?_, ?_, H.passes_outer {}⟩
    · simp only [busWrite, hl, if_true]
    · simp only [busWrite, hd, H.locked_eq, hl, if_true]

/-! ### Host reads -/

theorem Hidden.readReg_eq (H : Hidden u e s t f) (r : Reg) : readReg r t = readReg r s := by
  have hbus : t.bus = s.bus := engineTick_bus H.tick
  have hirq : t.irqEn = s.irqEn := by rw [H.eq]; cases e <;> rfl
  have hbusy := H.busy_eq
  cases e with
  | ca =>
    have hee : t.ee = s.ee := H.other (e' := .ee) (by decide)
    have hs := caOk_runs H.inv.ca (by simpa using H.busy)
    have ht := caOk_runs H.invAfter.ca (by simpa using H.busyAfter)
    have ho := (caTick_spec H.tick).1
    cases r <;> simp only [readReg, State.statusWord, State.irqEnWord, H.params, hbus, hirq, hbusy, hee,
      hs.quiet, ht.quiet, hs.cleared, ht.cleared, hs.recorded, ht.recorded, ho.regN, ho.regMaxbits]
  | ee =>
    have hca : t.ca = s.ca := H.other (e' := .ca) (by decide)
    have hs := eeOk_runs H.inv.ee (by simpa using H.busy)
    have ht := eeOk_runs H.invAfter.ee (by simpa using H.busyAfter)
    have ho := (eeTick_spec H.tick).1
    cases r <;> simp only [readReg, State.statusWord, State.irqEnWord, H.params, hbus, hirq, hbusy, hca,
      hs.quiet, ht.quiet, hs.cleared, ht.cleared, hs.recorded, ht.recorded, ho.regN]

/-- A host read that the hidden work cannot influence: `K` is what it draws. -/
def ReadPasses (s t : State) (R : State → Except Fault (Word × State)) : Prop :=
  ∀ {w r}, R s = .ok (w, r) → ∃ K, Outer K ∧ r = K s ∧ R t = .ok (w, K t)

/-- A word with no output byte of the engine below its `n` reads as before. -/
theorem Hidden.readPasses_readStored (H : Hidden u e s t f) {x : Nat}
    (hx : ∀ y, WordByte x y → ¬ OutputByte e (s.outputSpan e) y) : ReadPasses s t (readStored x) := by
  intro w r h
  have ht : t.mem.readWord x = s.mem.readWord x := by rw [H.mem, H.piece.edit.readWord hx]
  cases hw : s.mem.readWord x with
  | none => rw [readStored_none hw] at h; cases h
  | some v =>
    rw [readStored_some hw] at h
    cases h
    exact ⟨id, {}, rfl, readStored_some (ht.trans hw)⟩

/-- Below `n` of a busy engine the word is drawn, elsewhere it is a stored one that the work does not write (R80). -/
theorem Hidden.readPasses_readOutput (H : Hidden u e s t f) {e' : Engine} {i x : Nat}
    (hx : s.busy e' = false ∨ s.latchedN e' ≤ i → ∀ y, WordByte x y → ¬ OutputByte e (s.outputSpan e) y) :
    ReadPasses s t (readOutput e' i x) := by
  intro w r h
  by_cases hn : s.busy e' = false ∨ s.latchedN e' ≤ i
  · have hn' : t.busy e' = false ∨ t.latchedN e' ≤ i := by rwa [H.busy_eq, H.latchedN_eq]
    rw [readOutput_stored hn] at h
    rw [readOutput_stored hn']
    exact H.readPasses_readStored (hx hn) h
  · simp only [not_or, Bool.not_eq_false, not_le] at hn
    obtain ⟨hb, hi⟩ := hn
    have hdraws : t.busDraws = s.busDraws := by rw [H.eq]; cases e <;> rfl
    rw [readOutput_drawn hb hi] at h
    cases h
    refine ⟨fun r => (drawBusyRead r).2, {}, rfl, ?_⟩
    rw [readOutput_drawn ((H.busy_eq e').trans hb) (H.latchedN_eq e' ▸ hi)]
    simp only [drawBusyRead, hdraws]

theorem not_outputByte_sym {i n y : Nat} (hi : i < 1024) (hn : e = .ca → n ≤ i) (hy : WordByte (symAddr i) y) :
    ¬ OutputByte e n y := by
  cases e
  · have := hn rfl
    simp only [WordByte, OutputByte, symAddr] at *
    omega
  · simp only [WordByte, OutputByte, symAddr, bitlenAddr] at *
    omega

theorem not_outputByte_bitlen {i n y : Nat} {high : Bool} (hn' : n ≤ 1024) (hn : e = .ee → n ≤ i)
    (hy : WordByte (bitlenHalfAddr i high) y) : ¬ OutputByte e n y := by
  cases e
  · simp only [WordByte, OutputByte, symAddr, bitlenHalfAddr, bitlenAddr] at *
    omega
  · have := hn rfl
    simp only [WordByte, OutputByte, bitlenHalfAddr, bitlenAddr] at *
    omega

/-- An output word whose read is not drawn lies above the outputs of a busy engine. -/
theorem Hidden.span_le (H : Hidden u e s t f) {e' : Engine} {i : Nat} (h : s.busy e' = false ∨ s.latchedN e' ≤ i)
    (he : e = e') : s.outputSpan e ≤ i := by
  subst he
  rcases h with h | h
  · exact absurd rfl (H.ne_of_idle h)
  · exact (Nat.min_le_left _ _).trans h

theorem Hidden.readPasses_busRead (H : Hidden u e s t f) (a : BusAddr) : ReadPasses s t (busRead a) := by
  have hd : decodeAddr t.params a = decodeAddr s.params a := by rw [H.params]
  have hN := H.nMax_le
  have hspan := (outputSpan_le s e).trans hN
  intro w r h
  rcases decodeAddr_cases s.params a with ⟨q, hq⟩ | hn | ⟨e', x, hx⟩
  · rw [busRead, hq] at h
    cases h
    refine ⟨id, {}, rfl, ?_⟩
    rw [busRead, hd, hq, ← H.readReg_eq q]
    rfl
  · rw [(bus_of_unbacked hn).1] at h
    cases h
    exact ⟨id, {}, rfl, (bus_of_unbacked (hd ▸ hn)).1⟩
  · rw [busRead] at h ⊢
    rw [hd]
    generalize decodeAddr s.params a = T at hx h ⊢
    cases hx with
    | @len i hi =>
      exact H.readPasses_readStored (fun y hy => not_outputByte_of_inputByte (e := .ca) hN hspan
        (by simp only [WordByte, InputByte, lenAddr] at *; omega)) h
    | @cnt i hi =>
      exact H.readPasses_readStored (fun y hy => not_outputByte_of_inputByte (e := .ee) hN hspan
        (by simp only [WordByte, InputByte, cntAddr] at *; omega)) h
    | sym hi =>
      exact H.readPasses_readOutput (fun hn y hy => not_outputByte_sym (hi.trans_le hN) (H.span_le hn) hy) h
    | bitlen hi high =>
      exact H.readPasses_readOutput (fun hn y hy => not_outputByte_bitlen hspan (H.span_le hn) hy) h

/-! ### Host lines -/

theorem Hidden.passes_hostOp (H : Hidden u e s t f) {op : HostOp} {h : State} (hs : hostOp op s = .next h) :
    ∃ G, h = G s ∧ hostOp op t = .next (G t) ∧ Passes e s t f G := by
  cases hw : op.wellFormed
  · rw [hostOp_refused hw] at hs; cases hs
  cases op with
  | wr a size w =>
    simp only [hostOp, hw, if_true] at hs ⊢
    obtain ⟨G, h1, h2, hG⟩ := H.linePasses_busWrite a w
    exact ⟨G, Host.Outcome.next.inj (hs.symm.trans h1), h2, hG⟩
  | rd a size =>
    simp only [hostOp, hw, if_true] at hs ⊢
    split at hs
    · cases hs
    · next w r hr =>
      cases hs
      obtain ⟨K, hK, rfl, ht⟩ := H.readPasses_busRead a hr
      refine ⟨fun r => { (K r).deliver w with received := w :: (K r).received }, rfl, by rw [ht], H.passes_outer ?_⟩
      exact Outer.comp (K := fun r => { r.deliver w with received := w :: r.received })
        {} hK
  | poll a mask value =>
    simp only [hostOp, hw, if_true] at hs ⊢
    split at hs
    · cases hs
    · next w r hr =>
      obtain ⟨K, hK, rfl, ht⟩ := H.readPasses_busRead a hr
      by_cases hm : w &&& mask = value
      · rw [if_pos hm] at hs
        cases hs
        refine ⟨fun r => (K r).deliver w, rfl, by simp only [ht, if_pos hm], H.passes_outer ?_⟩
        exact Outer.comp (K := State.deliver w) {} hK
      · rw [if_neg hm] at hs
        cases hs
        refine ⟨fun r => { (K r).deliver w with program := .poll a mask value :: (K r).program }, rfl,
          by simp only [ht, if_neg hm], H.passes_outer ?_⟩
        exact Outer.comp (K := fun r => { r.deliver w with program := .poll a mask value :: r.program })
          {} hK

end

/-- Settles O50: the line is one operation before and after the hidden work, and leaves what that work depends on. -/
theorem engineWorkInvisible : Obligations.EngineWorkInvisible := by
  intro u e op s t h hinv hb ht hb' hh
  obtain ⟨f, hf⟩ := engineTick_piece hinv ht
  obtain ⟨G, rfl, hG, hpass⟩ := Hidden.passes_hostOp ⟨hinv, hb, ht, hb', hf⟩ hh
  exact ⟨G t, hG, by rw [hpass.eq]; exact hf.acts hpass.agrees⟩

end Sys2Proof.Proofs.Interleaving

/-!
PROOFS. The family of spec/30_encoding.md: command words and the host's lines (DecodeEncodeAgree, LegalCommandWords,
OpcodeTableDecodes, SpecWordsDecode, HostLinesExpand). A word decodes to a command exactly when it is that command's
word; each statement about words is read off that.
-/
namespace Sys2Proof.Proofs.Encoding

open Sys2Proof.Machine Sys2Proof.Proofs.Steps

/-! ### Words -/

theorem decodeWord_encodeWord (i : Instr) : decodeWord (encodeWord i) = .ok i := by cases i <;> rfl

/-- The decoder and the encoder over words (R111 to R113). -/
theorem decodeWord_eq_ok_iff {w : Word} {i : Instr} : decodeWord w = .ok i ↔ w = encodeWord i := by
  constructor
  · exact eq_encodeWord_of_decodeWord
  · rintro rfl
    exact decodeWord_encodeWord i

theorem eq_encodeWord_iff_fields {w : Word} {i : Instr} :
    w = encodeWord i ↔ rsvdField w = 0#28 ∧ opField w = opcode i := by
  constructor
  · rintro rfl
    cases i <;> exact ⟨rfl, rfl⟩
  · rintro ⟨hr, ho⟩
    rw [encodeWord, ← hr, ← ho, rsvdField_append_opField]

theorem exists_instr {P : Instr → Prop} : (∃ i, P i) ↔ P .nop ∨ P .assign ∨ P .estimate := by
  constructor
  · rintro ⟨i, h⟩
    cases i
    · exact .inl h
    · exact .inr (.inl h)
    · exact .inr (.inr h)
  · rintro (h | h | h) <;> exact ⟨_, h⟩

/-! ### Bytes -/

/-- The bytes of the word of four bytes; `Memory.bytesWord_wordBytes` is the other way round (R81). -/
theorem wordBytes_bytesWord (b0 b1 b2 b3 : Byte) : wordBytes (bytesWord b0 b1 b2 b3) = [b0, b1, b2, b3] := by
  have lowest {n : Nat} (hi : BitVec n) (b : Byte) : (hi ++ b).extractLsb' 0 8 = b := by
    rw [BitVec.extractLsb'_append_eq_of_add_le le_rfl, BitVec.extractLsb'_eq_self]
  have above {n : Nat} (k : Nat) (hi : BitVec n) (b : Byte) :
      (hi ++ b).extractLsb' (k + 8) 8 = hi.extractLsb' k 8 :=
    BitVec.extractLsb'_append_eq_of_le (Nat.le_add_left 8 k)
  have byte1 : (b3 ++ b2 ++ b1 ++ b0).extractLsb' 8 8 = b1 := by rw [above 0, lowest]
  have byte2 : (b3 ++ b2 ++ b1 ++ b0).extractLsb' 16 8 = b2 := by rw [above 8, above 0, lowest]
  have byte3 : (b3 ++ b2 ++ b1 ++ b0).extractLsb' 24 8 = b3 := by
    rw [above 16, above 8, above 0, BitVec.extractLsb'_eq_self]
  rw [wordBytes, bytesWord, lowest, byte1, byte2, byte3]

theorem decode_wordBytes_append (w : Word) (rest : List Byte) :
    decode (wordBytes w ++ rest) = (decodeWord w).map (·, rest) := by
  show (decodeWord (bytesWord _ _ _ _)).map (·, rest) = _
  rw [Memory.bytesWord_wordBytes]

theorem decode_encode_append (i : Instr) (rest : List Byte) : decode (encode i ++ rest) = .ok (i, rest) := by
  rw [encode, decode_wordBytes_append, decodeWord_encodeWord]
  rfl

/-- Bytes that decode to a command begin with that command's bytes. -/
theorem eq_encode_append_of_decode {bytes rest : List Byte} {i : Instr} (h : decode bytes = .ok (i, rest)) :
    bytes = encode i ++ rest := by
  unfold decode at h
  split at h
  · next b0 b1 b2 b3 tail =>
    cases hw : decodeWord (bytesWord b0 b1 b2 b3) with
    | error e => rw [hw] at h; cases h
    | ok j =>
      rw [hw] at h
      cases h
      rw [encode, ← eq_encodeWord_of_decodeWord hw, wordBytes_bytesWord]
      rfl
  · cases h

/-- Settles O3: the bytes of a word and the word of four bytes are inverse, and so are `decodeWord` and
`encodeWord`. -/
theorem decodeEncodeAgree : Obligations.DecodeEncodeAgree := by
  intro i bytes rest _
  constructor
  · exact eq_encode_append_of_decode
  · rintro rfl
    exact decode_encode_append i rest

/-! ### Legal words -/

theorem legal_iff_fields (w : Word) :
    (∃ i, decodeWord w = .ok i) ↔ rsvdField w = 0#28 ∧ (opField w = 0x0#4 ∨ opField w = 0x1#4 ∨ opField w = 0x2#4) := by
  simp only [decodeWord_eq_ok_iff, eq_encodeWord_iff_fields, exists_and_left, exists_instr, opcode]

theorem legal_iff_word (w : Word) : (∃ i, decodeWord w = .ok i) ↔ w = 0#32 ∨ w = 1#32 ∨ w = 2#32 := by
  simp only [decodeWord_eq_ok_iff, exists_instr]
  exact Iff.rfl

theorem exists_error_of_not_legal {w : Word} (h : ¬ ∃ i, decodeWord w = .ok i) : ∃ e, decodeWord w = .error e := by
  cases hd : decodeWord w with
  | ok i => exact absurd ⟨i, hd⟩ h
  | error e => exact ⟨e, rfl⟩

/-- Settles O1: the legal words are the three that `encodeWord` gives, and a word with an error is written to CMD as
`setIllCmd`. -/
theorem legalCommandWords : Obligations.LegalCommandWords := by
  intro w
  refine ⟨legal_iff_fields w, legal_iff_word w, fun h s => ?_⟩
  obtain ⟨e, he⟩ := exists_error_of_not_legal h
  exact busWrite_cmd_error he s

/-! ### The opcode table -/

/-- The table's row of a command. -/
def rowOf (i : Instr) : OpcodeRow := ⟨i, encodeWord i, 0xFFFFFFFF#32⟩

theorem mem_opcodeTable_iff {r : OpcodeRow} : r ∈ opcodeTable ↔ ∃ i, r = rowOf i := by
  have table : opcodeTable = [rowOf .nop, rowOf .assign, rowOf .estimate] := rfl
  simp [table, exists_instr]

/-- A row compares all 32 bits, so it selects its command's word only (R115). -/
theorem rowOf_selects_iff {i : Instr} {w : Word} : w &&& (rowOf i).mask = (rowOf i).matchBits ↔ w = encodeWord i := by
  show w &&& BitVec.allOnes 32 = encodeWord i ↔ _
  rw [BitVec.and_allOnes]

/-- Settles O2: the row of a command selects its word, which is the one that decodes to it. -/
theorem opcodeTableDecodes : Obligations.OpcodeTableDecodes := by
  have selected : ∀ (w : Word) (i : Instr),
      decodeWord w = .ok i ↔ ∃ r ∈ opcodeTable, r.instr = i ∧ w &&& r.mask = r.matchBits := by
    intro w i
    rw [decodeWord_eq_ok_iff, ← rowOf_selects_iff]
    constructor
    · exact fun h => ⟨rowOf i, mem_opcodeTable_iff.2 ⟨i, rfl⟩, rfl, h⟩
    · rintro ⟨r, hr, rfl, h⟩
      obtain ⟨j, rfl⟩ := mem_opcodeTable_iff.1 hr
      exact h
  refine ⟨fun r hr => ?_, fun w => ⟨selected w, fun h => exists_error_of_not_legal ?_⟩⟩
  · obtain ⟨i, rfl⟩ := mem_opcodeTable_iff.1 hr
    rfl
  · rintro ⟨i, hi⟩
    obtain ⟨r, hr, -, hsel⟩ := (selected w i).1 hi
    exact h r hr hsel

/-- Settles O4: each word by evaluation of the decoder. -/
theorem specWordsDecode : Obligations.SpecWordsDecode := ⟨rfl, rfl, rfl, rfl, rfl, rfl⟩

/-! ### Host lines -/

/-- Settles O58: each expansion by definition, the halves of a BITLEN entry at its address and 4 above. -/
theorem hostLinesExpand : Obligations.HostLinesExpand :=
  ⟨fun _ _ => ⟨rfl, rfl⟩, rfl, rfl, rfl, fun _ _ => rfl, fun _ => rfl, rfl, fun _ _ _ => rfl, fun _ _ => rfl⟩

end Sys2Proof.Proofs.Encoding

/-!
PROOFS. The family of spec/30_encoding.md: the POLL line of a host program (PollEnds). While the POLL waits in front
the host writes nothing, so only the engines change the block; the turns left and the busy engines bound its reads.
-/
namespace Sys2Proof.Proofs.Polling

open Sys2Proof.Machine Sys2Proof.Safety Sys2Proof.Proofs.Scope Sys2Proof.Proofs.Registers Sys2Proof.Proofs.Steps
  Sys2Proof.Proofs.Interleaving

/-! ### One read -/

theorem hostOp_poll_again {s t : State} {a : BusAddr} {mask value w : Word} (ha : a.toNat % 4 = 0)
    (hr : busRead a s = .ok (w, t)) (hw : w &&& mask ≠ value) :
    hostOp (.poll a mask value) s = .next { t with rdata := some w, program := .poll a mask value :: t.program } := by
  simp only [hostOp, HostOp.wellFormed, portAccess_word ha, hr, if_true, if_neg hw]
  rfl

theorem hostOp_poll_over {s t : State} {a : BusAddr} {mask value w : Word} (ha : a.toNat % 4 = 0)
    (hr : busRead a s = .ok (w, t)) (hw : w &&& mask = value) :
    hostOp (.poll a mask value) s = .next { t with rdata := some w } := by
  simp only [hostOp, HostOp.wellFormed, portAccess_word ha, hr, if_true, if_pos hw]
  rfl

/-- The POLL of an engine's DONE bit (R118). -/
def pollDone (e : Engine) : HostOp := .poll 0x00C#15 (1#32 <<< doneIndex e) (1#32 <<< doneIndex e)

theorem getLsbD_statusWord_done (s : State) (e : Engine) : s.statusWord.getLsbD (doneIndex e) = doneBit s e := by
  rw [getLsbD_statusWord]
  cases e <;> rfl

/-- The POLL's condition is the DONE bit. -/
theorem statusWord_and_done_iff (s : State) (e : Engine) :
    s.statusWord &&& (1#32 <<< doneIndex e) = 1#32 <<< doneIndex e ↔ doneBit s e = true := by
  have bit : s.statusWord &&& (1#32 <<< doneIndex e) = if doneBit s e then 1#32 <<< doneIndex e else 0#32 := by
    rw [← getLsbD_statusWord_done]
    exact BitVec.and_twoPow _ _
  rw [bit]
  cases doneBit s e
  · cases e <;> decide
  · exact iff_of_true rfl rfl

/-! ### Inputs stay written -/

/-- Whatever leaves the parameters, the latched lengths and the input bytes, and starts no command, leaves the inputs
of the running commands written. -/
theorem inputsWritten_congr {s t : State} (h : InputsWritten s) (hp : t.params = s.params)
    (hb : ∀ e, t.busy e = true → s.busy e = true) (hn : ∀ e, t.latchedN e = s.latchedN e)
    (hm : ∀ e x, InputByte e s.params.nMax x → t.mem.lookup x = s.mem.lookup x) : InputsWritten t := by
  obtain ⟨hca, hee⟩ := h
  have readLen : ∀ i, i < s.params.nMax → t.readLen i = s.readLen i := fun i hi =>
    Memory.readWord_congr (fun k hk => hm .ca _ (by simp only [InputByte, lenAddr]; omega))
  have readCnt : ∀ i, i < s.params.nMax → t.readCnt i = s.readCnt i := fun i hi =>
    Memory.readWord_congr (fun k hk => hm .ee _ (by simp only [InputByte, cntAddr]; omega))
  constructor <;> rw [hp]
  · intro hbt i hi hiN
    rw [readLen i hiN]
    exact hca (hb .ca hbt) i (hi.trans_eq (hn .ca)) hiN
  · intro hbt i hi hiN
    rw [readCnt i hiN]
    exact hee (hb .ee hbt) i (hi.trans_eq (hn .ee)) hiN

theorem engineTick_sameUnit {u : LogUnits} {e e' : Engine} {s t : State} (ht : engineTick u e s = .next t)
    (hne : e' ≠ e) : SameUnit e' s t := by
  cases e <;> cases e'
  · exact absurd rfl hne
  · exact onlyCa_ee (caTick_spec ht).1
  · exact onlyEe_ca (eeTick_spec ht).1
  · exact absurd rfl hne

/-- Engine work makes no engine busy. -/
theorem busy_of_engineTick {u : LogUnits} {e e' : Engine} {s t : State} (ht : engineTick u e s = .next t)
    (hb : t.busy e' = true) : s.busy e' = true := by
  by_cases hne : e' = e
  · rw [hne] at hb ⊢
    cases hs : s.busy e
    · rw [engineTick_of_idle hs] at ht
      cases ht
      exact hs.symm.trans hb
    · rfl
  · rw [← SameUnit.busy (engineTick_sameUnit ht hne)]
    exact hb

theorem latchedN_of_engineTick {u : LogUnits} {e : Engine} {s t : State} (ht : engineTick u e s = .next t)
    (e' : Engine) : t.latchedN e' = s.latchedN e' := by
  by_cases hne : e' = e
  · rw [hne]; exact engineTick_latchedN ht
  · exact SameUnit.latchedN (engineTick_sameUnit ht hne)

/-- An engine edits output bytes only, and no input byte is one (R85). -/
theorem inputsWritten_engineTick {u : LogUnits} {e : Engine} {s t : State} (h : StateInv s) (hw : InputsWritten s)
    (ht : engineTick u e s = .next t) : InputsWritten t := by
  refine inputsWritten_congr hw (engineTick_params ht) (fun _ => busy_of_engineTick ht) (latchedN_of_engineTick ht)
    (fun e' x hx => ?_)
  obtain ⟨f, hf⟩ := engineTick_piece h ht
  have hN := nMax_le h
  rw [hf.eq ht, editMem_mem]
  exact hf.edit.outside _ (not_outputByte_of_inputByte hN ((outputSpan_le s e).trans hN) hx)

/-! ### While the POLL waits -/

/-- The POLL of `e`'s DONE bit is the host's next line, of a command that runs or is over, no reset comes, and the
inputs of the running commands are written. -/
structure Waiting (e : Engine) (rest : List HostOp) (s : State) : Prop where
  inv : StateInv s
  noReset : Turn.rst ∉ s.schedule
  inputs : InputsWritten s
  live : s.busy e = true ∨ doneBit s e = true
  line : s.program = pollDone e :: rest

theorem Waiting.beginTurn {e : Engine} {rest : List HostOp} {s : State} (h : Waiting e rest s) :
    Waiting e rest s.beginTurn where
  inv := stateInv_beginTurn h.inv
  noReset hr := h.noReset (List.mem_of_mem_tail hr)
  inputs := h.inputs
  live := by cases e <;> exact h.live
  line := h.line

/-- From `s` to `t` the POLL goes on waiting, no turn is used up and no engine becomes busy. -/
structure GoesOn (e : Engine) (rest : List HostOp) (s t : State) : Prop where
  waits : Waiting e rest t
  schedule : t.schedule = s.schedule
  busy : ∀ e', t.busy e' = true → s.busy e' = true

theorem engineTick_outside {u : LogUnits} {e : Engine} {s t : State} (ht : engineTick u e s = .next t) :
    t.schedule = s.schedule ∧ t.program = s.program := by
  cases e
  · rw [(caTick_spec ht).1.rest]; exact ⟨rfl, rfl⟩
  · rw [(eeTick_spec ht).1.rest]; exact ⟨rfl, rfl⟩

/-- An engine that works stays live: it goes on, or is over with DONE set (R137). -/
theorem live_engineTick {u : LogUnits} {e e' : Engine} {s t : State} (hl : s.busy e = true ∨ doneBit s e = true)
    (hb : s.busy e' = true) (ht : engineTick u e' s = .next t) : t.busy e = true ∨ doneBit t e = true := by
  by_cases hne : e = e'
  · subst hne
    cases ht' : t.busy e
    · exact .inr ((engineTick_flags hb ht).ends ht').1
    · exact .inl rfl
  · have same := engineTick_sameUnit ht hne
    refine hl.imp (fun h => (SameUnit.busy same).trans h) (fun h => ?_)
    cases e
    · simpa only [doneBit, same.ca] using h
    · simpa only [doneBit, same.ee] using h

theorem Waiting.busyTick {u : LogUnits} {e e' : Engine} {rest : List HostOp} {s t : State} (h : Waiting e rest s)
    (hb : s.busy e' = true) (ht : engineTick u e' s = .next t) : GoesOn e rest s t := by
  obtain ⟨hsched, hprog⟩ := engineTick_outside ht
  exact {
    waits := {
      inv := stateInv_busyTick h.inv hb ht
      noReset := hsched ▸ h.noReset
      inputs := inputsWritten_engineTick h.inv h.inputs ht
      live := live_engineTick h.live hb ht
      line := hprog.trans h.line }
    schedule := hsched
    busy := fun _ => busy_of_engineTick ht }

/-- A run of an engine whose inputs are written does not stop (R281), and the POLL goes on waiting. -/
theorem Waiting.runEngine {u : LogUnits} {e : Engine} {rest : List HostOp} {s : State} (h : Waiting e rest s)
    (e' : Engine) (k : Nat) : ∃ t, runEngine u e' k s = .next t ∧ GoesOn e rest s t := by
  induction k generalizing s with
  | zero => exact ⟨s, rfl, h, rfl, fun _ => id⟩
  | succ k ih =>
    cases hb : s.busy e'
    · exact ⟨s, runEngine_of_idle hb _, h, rfl, fun _ => id⟩
    · obtain ⟨r, hr⟩ := engineTick_next (u := u) (e := e') h.inv h.inputs
      have hsr := h.busyTick hb hr
      obtain ⟨t, ht, hrt⟩ := ih hsr.waits
      refine ⟨t, ?_, hrt.waits, hrt.schedule.trans hsr.schedule, fun e'' hb'' => hsr.busy e'' (hrt.busy e'' hb'')⟩
      rw [Machine.runEngine, if_pos hb, hr, andThen_next, ht]

/-! ### A step -/

/-- The POLL is over, with DONE set. -/
def Over (e : Engine) (rest : List HostOp) (t : State) : Prop := t.program = rest ∧ doneBit t e = true

/-- The host's turn reads STATUS: with DONE set the POLL is over, else it goes on waiting. -/
theorem Waiting.step_host {u : LogUnits} {e : Engine} {rest : List HostOp} {s : State} (h : Waiting e rest s)
    (ht : s.nextTurn = .host) :
    ∃ t, stepWith u s = .next t ∧ (Over e rest t ∨ GoesOn e rest s.beginTurn t ∧ doneBit s e = false) := by
  have hr := busRead_reg .status (lineState s rest)
  have hdone : doneBit (lineState s rest) e = doneBit s e := by cases e <;> rfl
  have hcond := statusWord_and_done_iff (lineState s rest) e
  rw [stepWith_line ht h.line]
  cases hd : doneBit s e with
  | true =>
    rw [hd] at hdone
    refine ⟨_, hostOp_poll_over (by decide) hr (hcond.2 hdone), .inl ⟨rfl, ?_⟩⟩
    cases e <;> exact hdone
  | false =>
    rw [hd] at hdone
    refine ⟨_, hostOp_poll_again (by decide) hr (fun hc => ?_), .inr ⟨?_, rfl⟩⟩
    · exact Bool.false_ne_true (hdone.symm.trans (hcond.1 hc))
    · have hw := h.beginTurn
      refine ⟨⟨stateInv_congr hw.inv rfl rfl rfl rfl, hw.noReset, hw.inputs, ?_, rfl⟩, rfl, fun e' => ?_⟩
      · cases e <;> exact hw.live
      · cases e' <;> exact id

/-- A turn is the schedule's, or the completion of a busy engine, or the host's while both engines are idle
(R284). -/
theorem nextTurn_cases (s : State) :
    s.nextTurn ∈ s.schedule ∨ (∃ e, s.nextTurn = .complete e ∧ s.busy e = true) ∨
      s.nextTurn = .host ∧ ∀ e, s.busy e = false := by
  rw [State.nextTurn]
  split
  · next hs => rw [hs]; exact .inl List.mem_cons_self
  · refine .inr ?_
    cases hca : s.busy .ca
    · cases hee : s.busy .ee
      · exact .inr ⟨rfl, fun e => by cases e <;> assumption⟩
      · exact .inl ⟨.ee, rfl, hee⟩
    · exact .inl ⟨.ca, rfl, hca⟩

/-- The turns left, the busy engines and the POLL's last read: a bound on the steps that a waiting POLL takes. -/
def stepsLeft (s : State) : Nat := s.schedule.length + (s.busy .ca).toNat + (s.busy .ee).toNat + 1

theorem stepsLeft_le (s : State) : stepsLeft s ≤ s.schedule.length + 3 := by
  have hca := (s.busy .ca).toNat_le
  have hee := (s.busy .ee).toNat_le
  rw [stepsLeft]
  omega

/-- A step that uses up a turn of the schedule or ends the work of a busy engine leaves fewer steps. -/
theorem GoesOn.stepsLeft_lt {e : Engine} {rest : List HostOp} {s t : State} (h : GoesOn e rest s.beginTurn t)
    (hu : s.nextTurn ∈ s.schedule ∨ ∃ e', s.busy e' = true ∧ t.busy e' = false) : stepsLeft t < stepsLeft s := by
  have hle : ∀ e', (t.busy e').toNat ≤ (s.busy e').toNat := fun e' =>
    Bool.toNat_le_toNat fun hb => by cases e' <;> exact h.busy _ hb
  have hca := hle .ca
  have hee := hle .ee
  have hlen : t.schedule.length = s.schedule.length - 1 := by
    rw [h.schedule, State.beginTurn_schedule, List.length_tail]
  rw [stepsLeft, stepsLeft]
  rcases hu with hmem | ⟨e', hs, ht⟩
  · have hpos := List.length_pos_of_mem hmem
    omega
  · have hlt : (t.busy e').toNat < (s.busy e').toNat := by rw [hs, ht]; decide
    cases e' <;> omega

/-- Each step of a waiting POLL ends it or leaves fewer steps. -/
theorem Waiting.step {u : LogUnits} {e : Engine} {rest : List HostOp} {s : State} (h : Waiting e rest s) :
    ∃ t, stepWith u s = .next t ∧ (Over e rest t ∨ Waiting e rest t ∧ stepsLeft t < stepsLeft s) := by
  have hcases := nextTurn_cases s
  cases ht : s.nextTurn with
  | host =>
    obtain ⟨t, hst, hover | ⟨hgo, hd⟩⟩ := h.step_host (u := u) ht
    · exact ⟨t, hst, .inl hover⟩
    · have hbusy : s.busy e = true := by simpa [hd] using h.live
      have hturn : s.nextTurn ∈ s.schedule ∨ ∀ e, s.busy e = false := by simpa [ht] using hcases
      exact ⟨t, hst, .inr ⟨hgo.waits, hgo.stepsLeft_lt (hturn.imp id fun hidle => by simp [hidle e] at hbusy)⟩⟩
  | advance e' =>
    obtain ⟨t, hrun, hgo⟩ := h.beginTurn.runEngine (u := u) e' 1
    have hturn : s.nextTurn ∈ s.schedule := by simpa [ht] using hcases
    have hst : stepWith u s = .next t := (stepWith_of_nextTurn ht).trans ((runEngine_one _).symm.trans hrun)
    exact ⟨t, hst, .inr ⟨hgo.waits, hgo.stepsLeft_lt (.inl hturn)⟩⟩
  | complete e' =>
    obtain ⟨t, hrun, hgo⟩ := h.beginTurn.runEngine (u := u) e' (engineWork e' s.beginTurn)
    have hturn : s.nextTurn ∈ s.schedule ∨ s.busy e' = true := by simpa [ht] using hcases
    have hst : stepWith u s = .next t := (stepWith_of_nextTurn ht).trans hrun
    exact ⟨t, hst, .inr ⟨hgo.waits, hgo.stepsLeft_lt (hturn.imp id fun hb => ⟨e', hb, completeEngine_idle hrun⟩)⟩⟩
  | rst =>
    have hturn : Turn.rst ∈ s.schedule := by simpa [ht] using hcases
    exact absurd hturn h.noReset

/-- A waiting POLL ends within the steps left. -/
theorem Waiting.ends {u : LogUnits} {e : Engine} {rest : List HostOp} {n : Nat} {s : State} (h : Waiting e rest s)
    (hn : stepsLeft s ≤ n) : ∃ k r, k ≤ n ∧ stepsWith u k s = .next r ∧ Over e rest r := by
  induction n generalizing s with
  | zero => exact absurd hn (Nat.not_succ_le_zero _)
  | succ n ih =>
    obtain ⟨t, hst, hover | ⟨hwait, hlt⟩⟩ := h.step (u := u)
    · exact ⟨1, t, Nat.le_add_left 1 n, by rw [stepsWith, hst]; rfl, hover⟩
    · obtain ⟨k, r, hk, hr, hover⟩ := ih hwait (by omega)
      exact ⟨k + 1, r, Nat.succ_le_succ hk, by rw [stepsWith, hst, andThen_next, hr], hover⟩

/-- Settles O57: a POLL turn by its condition; and a waiting POLL has at most `stepsLeft` steps, which each step that
does not end it lowers. -/
theorem pollEnds : Obligations.PollEnds := by
  refine ⟨fun s t a mask value w ha hr => ⟨hostOp_poll_again ha hr, hostOp_poll_over ha hr⟩, ?_⟩
  intro u s e rest hinv hsched hinputs hlive hline
  have hwait : Waiting e rest s := ⟨hinv, hsched, hinputs, hlive, hline⟩
  exact hwait.ends (stepsLeft_le s)

end Sys2Proof.Proofs.Polling

/-!
PROOFS. The family of spec/40_command.md: a command word written to CMD (NopHasNoEffect, CommandDispatch,
AssignAccepted, EstimateAccepted, BusyCommandDropped).
-/
namespace Sys2Proof.Proofs.Commands

open Sys2Proof.Machine Sys2Proof.Safety Sys2Proof.Proofs.Registers Sys2Proof.Proofs.Steps
  Sys2Proof.Proofs.Interleaving Sys2Proof.Proofs.Encoding

/-! ### Dispatch -/

theorem exec_engineCommand_busy {e : Engine} {s : State} (h : s.busy e = true) :
    exec (engineCommand e) s = .next s.setCmdDrop := by rw [exec_engineCommand, if_pos h]

theorem exec_engineCommand_idle {e : Engine} {s : State} (h : s.busy e = false) :
    exec (engineCommand e) s = .next (s.accept e) := by rw [exec_engineCommand, h]; rfl

/-- A word with a reserved bit is no command, whatever its OP (R113). -/
theorem decodeWord_of_rsvdField_ne {w : Word} (h : rsvdField w ≠ 0#28) : decodeWord w = .error .reservedBits := if_neg h

/-- Settles O6: NOP's word decodes to `nop`, whose meaning is `skip`; with a reserved bit the word decodes to none. -/
theorem nopHasNoEffect : Obligations.NopHasNoEffect := by
  intro s
  exact ⟨rfl, busWrite_cmd_ok (i := .nop) rfl s,
    fun w _ hr => busWrite_cmd_error (decodeWord_of_rsvdField_ne hr) s⟩

/-- The legal opcodes are those up to 2 (R112). -/
theorem opcode_le_iff : ∀ o : BitVec 4, ¬ 0x2#4 < o ↔ o = 0x0#4 ∨ o = 0x1#4 ∨ o = 0x2#4 := by decide

theorem legal_iff_not_reserved (w : Word) :
    (∃ i, decodeWord w = .ok i) ↔ ¬ (w.extractLsb' 4 28 ≠ 0#28 ∨ 0x2#4 < w.extractLsb' 0 4) := by
  rw [legal_iff_fields, not_or, not_not, opcode_le_iff]
  rfl

/-- Settles O7: an illegal word sets ILL_CMD without a look at the engines; a legal one is one of three words. -/
theorem commandDispatch : Obligations.CommandDispatch := by
  intro s w
  by_cases h : ∃ i, decodeWord w = .ok i
  · rw [if_neg ((legal_iff_not_reserved w).1 h)]
    obtain ⟨i, hi⟩ := h
    obtain rfl := eq_encodeWord_of_decodeWord hi
    rw [busWrite_cmd_ok hi, getLsbD_statusWord, getLsbD_statusWord]
    cases i with
    | nop => rfl
    | assign => exact exec_engineCommand .ca s
    | estimate => exact exec_engineCommand .ee s
  · rw [if_pos (not_not.1 (fun hw => h ((legal_iff_not_reserved w).2 hw)))]
    obtain ⟨e, he⟩ := exists_error_of_not_legal h
    exact busWrite_cmd_error he s

/-- Settles O10: bits 0 and 4 of STATUS are the BUSY bits on which the command is dropped. -/
theorem busyCommandDropped : Obligations.BusyCommandDropped := by
  intro s
  rw [getLsbD_statusWord, getLsbD_statusWord]
  exact ⟨exec_engineCommand_busy (e := .ca), exec_engineCommand_busy (e := .ee)⟩

/-! ### Acceptance -/

/-- DONE and ERR of an engine in STATUS (R26). -/
def doneErrMask : Engine → Word
  | .ca => 0x00000006#32
  | .ee => 0x00000060#32

/-- BUSY of an engine in STATUS (R26). -/
def busyMask : Engine → Word
  | .ca => 0x00000001#32
  | .ee => 0x00000010#32

theorem statusBit_accept (e : Engine) (s : State) (k : Nat) :
    statusBit (s.accept e) k = ((statusBit s k && !(doneErrMask e).getLsbD k) || (busyMask e).getLsbD k) := by
  rcases Nat.lt_or_ge k 11 with hk | hk
  · cases e <;> interval_cases k <;> simp [statusBit, State.accept, doneErrMask, busyMask]
  · obtain ⟨j, rfl⟩ := Nat.exists_eq_add_of_le' hk
    have low : (busyMask e).toNat < 2 ^ (j + 11) :=
      lt_of_lt_of_le (b := 2 ^ 11) (by cases e <;> decide) (Nat.pow_le_pow_right two_pos (Nat.le_add_left 11 j))
    simp [statusBit, BitVec.getLsbD, Nat.testBit_lt_two_pow low]

/-- Acceptance clears DONE and ERR of its engine, sets BUSY, and leaves the rest of STATUS (R133, R134). -/
theorem statusWord_accept (e : Engine) (s : State) :
    (s.accept e).statusWord = (s.statusWord &&& ~~~doneErrMask e) ||| busyMask e := by
  apply BitVec.eq_of_getLsbD_eq
  intro k hk
  rw [getLsbD_statusWord, statusBit_accept, ← getLsbD_statusWord]
  simp [hk]

/-- Settles O8: an idle CA accepts, and `statusWord_accept` for CA. -/
theorem assignAccepted : Obligations.AssignAccepted := by
  intro s h
  rw [getLsbD_statusWord] at h
  exact ⟨s.accept .ca, exec_engineCommand_idle (e := .ca) h, rfl, statusWord_accept .ca s⟩

/-- Settles O9: an idle EE accepts, and `statusWord_accept` for EE. -/
theorem estimateAccepted : Obligations.EstimateAccepted := by
  intro s h
  rw [getLsbD_statusWord] at h
  exact ⟨s.accept .ee, exec_engineCommand_idle (e := .ee) h, rfl, statusWord_accept .ee s⟩

end Sys2Proof.Proofs.Commands

/-!
PROOFS. The family of spec/40_command.md: an engine from acceptance to completion (BusyOrDone, CommandsTerminate,
EngineFrame).
-/
namespace Sys2Proof.Proofs.EngineRuns

open Sys2Proof.Machine Sys2Proof.Safety Sys2Proof.Proofs.Scope Sys2Proof.Proofs.Registers Sys2Proof.Proofs.Steps
  Sys2Proof.Proofs.Interleaving Sys2Proof.Proofs.Polling Sys2Proof.Proofs.Commands

/-! ### BUSY, DONE and ERR of an engine in a run -/

/-- A run of a busy engine does to its STATUS bits what a piece of its work does. -/
theorem runEngine_flags {u : LogUnits} {e : Engine} {k : Nat} {s t : State} (hb : s.busy e = true)
    (ht : runEngine u e k s = .next t) : EngineFlags e s t := by
  refine runEngine_keeps (P := EngineFlags e s) (fun r r' hr hrb hrr' => ?_) ⟨fun _ => ⟨rfl, rfl⟩, by simp [hb]⟩ ht
  obtain ⟨hdone, herr⟩ := hr.goesOn hrb
  have hf : FlagsGoOn _ (doneBit r e) (errBit r e) _ _ := engineTick_flags hrb hrr'
  rwa [hdone, herr] at hf

theorem runEngine_sameUnit {u : LogUnits} {e e' : Engine} {k : Nat} {s t : State} (hne : e' ≠ e)
    (ht : runEngine u e k s = .next t) : SameUnit e' s t := by
  refine runEngine_keeps (P := SameUnit e' s) (fun r r' hr _ hrr' => ?_) (by cases e' <;> rfl) ht
  have hr' := engineTick_sameUnit hrr' hne
  cases e'
  · exact hr'.ca.trans hr.ca
  · exact hr'.ee.trans hr.ee

/-! ### Who changes BUSY, DONE and ERR in a step -/

/-- Engine `e` has BUSY, DONE and ERR as given. -/
structure ShowsFlags (e : Engine) (t : State) (busy done err : Bool) : Prop where
  busy : t.busy e = busy
  done : doneBit t e = done
  err : errBit t e = err

theorem showsFlags_of_sameUnit {e : Engine} {s t : State} (h : SameUnit e s t) :
    ShowsFlags e t (s.busy e) (doneBit s e) (errBit s e) := by
  cases e
  · exact ⟨SameUnit.busy h, congrArg CaUnit.done h.ca, congrArg CaUnit.err h.ca⟩
  · exact ⟨SameUnit.busy h, congrArg EeUnit.done h.ee, congrArg EeUnit.err h.ee⟩

/-- All the ways in which a step leaves BUSY, DONE and ERR of engine `e` (R26). -/
inductive FlagEffect (e : Engine) (s t : State) : Prop
  | kept (h : ShowsFlags e t (s.busy e) (doneBit s e) (errBit s e))
  | reset (hs : s.nextTurn = .rst) (h : ShowsFlags e t false false false)
  | completed (hs : EngineWorks s e) {err : Bool} (herr : err = errBit s e ∨ err = true)
    (h : ShowsFlags e t false true err)
  | accepted (hs : HostWrites s 0x008#15 (fun w => w = commandWord e)) (hb : s.busy e = false)
    (h : ShowsFlags e t true false false)
  | status {w : Word} (hs : HostWrites s 0x00C#15 (fun v => v = w))
    (h : ShowsFlags e t (s.busy e) (doneBit s e && !w.getLsbD (doneIndex e)) (errBit s e && !w.getLsbD (errIndex e)))

theorem flagEffect_engine {u : LogUnits} {e e' : Engine} {k : Nat} {s t : State}
    (hs : s.nextTurn = .advance e' ∨ s.nextTurn = .complete e') (h : runEngine u e' k s.beginTurn = .next t) :
    FlagEffect e s t := by
  have same : ∀ {e}, SameUnit e s.beginTurn t → FlagEffect e s t := fun {e} hu =>
    .kept (showsFlags_of_sameUnit (s := s) (by cases e <;> exact hu))
  by_cases hne : e = e'
  · subst hne
    cases hb : s.busy e
    · have hb' : s.beginTurn.busy e = false := by cases e <;> exact hb
      rw [runEngine_of_idle hb'] at h
      cases h
      exact same (by cases e <;> rfl)
    · have hf : EngineFlags e s t := by
        cases e <;> exact runEngine_flags (s := s.beginTurn) hb h
      cases ht : t.busy e
      · obtain ⟨hdone, herr⟩ := hf.ends ht
        exact .completed ⟨hs, hb⟩ herr ⟨ht, hdone, rfl⟩
      · obtain ⟨hdone, herr⟩ := hf.goesOn ht
        exact .kept ⟨ht.trans hb.symm, hdone, herr⟩
  · exact same (runEngine_sameUnit hne h)

theorem flagEffect_write {e : Engine} {s t : State} {a : BusAddr} {w : Word} {rest : List HostOp}
    (ht : s.nextTurn = .host) (hp : s.program = .wr a 4 w :: rest) (h : WriteEffect a w (lineState s rest) t) :
    FlagEffect e s t := by
  cases h with
  | accepted e' ha hw hb =>
    by_cases hne : e = e'
    · subst hne
      have hs : HostWrites s 0x008#15 (fun w => w = commandWord e) :=
        ⟨ht, w, rest, eq_offset_of_decodeAddr ha ▸ hp, eq_commandWord_of_decodeWord hw⟩
      cases e <;> exact .accepted hs hb ⟨rfl, rfl, rfl⟩
    · cases e <;> cases e'
      · exact absurd rfl hne
      · exact .kept ⟨rfl, rfl, rfl⟩
      · exact .kept ⟨rfl, rfl, rfl⟩
      · exact absurd rfl hne
  | status ha =>
    have hs : HostWrites s 0x00C#15 (fun v => v = w) := ⟨ht, w, rest, eq_offset_of_decodeAddr ha ▸ hp, rfl⟩
    cases e <;> exact .status hs ⟨rfl, rfl, rfl⟩
  | dropped | ignored | illegal | cmdDropped | irqEn | caN | caMaxbits | eeN | stored =>
    cases e <;> exact .kept ⟨rfl, rfl, rfl⟩

theorem stepWith_flagEffect {u : LogUnits} {s t : State} (e : Engine) (h : stepWith u s = .next t) :
    FlagEffect e s t := by
  cases stepWith_effect h with
  | reset ht h => rw [h]; exact .reset ht (by cases e <;> exact ⟨rfl, rfl, rfl⟩)
  | engine e' ht k h => exact flagEffect_engine ht h
  | write ht hp h => exact flagEffect_write ht hp h
  | quiet ht h => rw [h]; exact .kept (by cases e <;> exact ⟨rfl, rfl, rfl⟩)

/-- A command word leaves its engine busy, dropped or accepted (R133 to R136). -/
theorem busy_of_exec_engineCommand {e : Engine} {s t : State} (h : exec (engineCommand e) s = .next t) :
    t.busy e = true := by
  rw [exec_engineCommand] at h
  split at h
  · next hb => cases h; cases e <;> exact hb
  · cases h; cases e <;> rfl

theorem hostWrites_mono {s : State} {a : BusAddr} {P Q : Word → Prop} (h : HostWrites s a P) (hPQ : ∀ w, P w → Q w) :
    HostWrites s a Q := by
  obtain ⟨ht, w, rest, hp, hw⟩ := h
  exact ⟨ht, w, rest, hp, hPQ w hw⟩

/-- A STATUS write clears a bit only where it writes 1 (R27). -/
theorem written_of_cleared {b c : Bool} (h : b = true) (hc : (b && !c) = false) : c = true := by
  simpa [h] using hc

/-- Settles O54: each clause at each of the ways in which a step leaves the engine's bits. -/
theorem busyOrDone : Obligations.BusyOrDone := by
  refine ⟨fun s t => busy_of_exec_engineCommand (e := .ca), fun s t => busy_of_exec_engineCommand (e := .ee), ?_⟩
  intro u e s t h
  have contra {b : Bool} {P : Prop} (h0 : b = false) (h1 : b = true) : P := absurd (h0.symm.trans h1) Bool.false_ne_true
  cases stepWith_flagEffect e h with
  | kept h =>
    rw [h.busy, h.done, h.err]
    exact ⟨absurd, contra, flip contra, contra, flip contra, contra, flip contra⟩
  | reset hs h =>
    rw [h.busy, h.done, h.err]
    exact ⟨fun _ _ => .inl hs, nofun, fun _ _ => .inl hs, nofun, fun _ _ => .inl hs, nofun, fun _ _ => .inl hs⟩
  | completed hs herr h =>
    rw [h.busy, h.done, h.err]
    refine ⟨fun _ hn => absurd (.inr rfl) hn, nofun, fun _ _ => .inr ⟨hs, rfl⟩, fun _ _ => ⟨hs, rfl⟩, nofun,
      fun _ _ => ⟨hs, rfl, rfl⟩, fun h0 h1 => contra h1 ?_⟩
    exact herr.elim (fun he => he.trans h0) id
  | accepted hs hb h =>
    rw [h.busy, h.done, h.err]
    exact ⟨fun _ hn => absurd (.inl rfl) hn, fun _ _ => hs, nofun, nofun, fun _ _ => .inr (.inr ⟨hs, hb⟩), nofun,
      fun _ _ => .inr (.inr ⟨hs, hb⟩)⟩
  | @status w hs h =>
    have writes {i : Nat} (hi : w.getLsbD i = true) : HostWrites s 0x00C#15 (fun v => v.getLsbD i = true) :=
      hostWrites_mono hs (fun v hv => hv ▸ hi)
    rw [h.busy, h.done, h.err]
    refine ⟨fun h0 hn => ?_, contra, flip contra, fun h0 h1 => ?_, fun h0 h1 => ?_, fun h0 h1 => ?_, fun h0 h1 => ?_⟩
    · have hdone := h0.resolve_left (fun hb => hn (.inl hb))
      exact .inr (writes (written_of_cleared hdone (Bool.eq_false_iff.2 (fun hd => hn (.inr hd)))))
    · exact contra h0 (Bool.and_elim_left h1)
    · exact .inr (.inl (writes (written_of_cleared h0 h1)))
    · exact contra h0 (Bool.and_elim_left h1)
    · exact .inr (.inl (writes (written_of_cleared h0 h1)))

/-! ### Every command completes -/

/-- The input entries of engine `e` below its latched `n` are written. -/
def EngineInputs (s : State) : Engine → Prop
  | .ca => ∀ i, i < s.ca.latchN.toNat → i < s.params.nMax → s.readLen i ≠ none
  | .ee => ∀ i, i < s.ee.latchN.toNat → i < s.params.nMax → s.readCnt i ≠ none

theorem engineTick_next_of_inputs {u : LogUnits} {e : Engine} {s : State} (h : StateInv s) (hw : EngineInputs s e) :
    ∃ t, engineTick u e s = .next t := by
  cases e
  · exact caTick_next h.ca hw
  · exact eeTick_next h.ee hw

/-- No piece of an engine's work changes an input byte (R85). -/
theorem lookup_inputByte_engineTick {u : LogUnits} {e e' : Engine} {s t : State} {x : Nat} (h : StateInv s)
    (ht : engineTick u e s = .next t) (hx : InputByte e' s.params.nMax x) : t.mem.lookup x = s.mem.lookup x := by
  obtain ⟨f, hf⟩ := engineTick_piece h ht
  have hN := nMax_le h
  rw [hf.eq ht, editMem_mem]
  exact hf.edit.outside _ (not_outputByte_of_inputByte hN ((outputSpan_le s e).trans hN) hx)

theorem readLen_engineTick {u : LogUnits} {e : Engine} {s t : State} {i : Nat} (h : StateInv s)
    (ht : engineTick u e s = .next t) (hi : i < s.params.nMax) : t.readLen i = s.readLen i :=
  Memory.readWord_congr (fun k hk => lookup_inputByte_engineTick (e' := .ca) h ht
    (by simp only [InputByte, lenAddr]; omega))

theorem readCnt_engineTick {u : LogUnits} {e : Engine} {s t : State} {i : Nat} (h : StateInv s)
    (ht : engineTick u e s = .next t) (hi : i < s.params.nMax) : t.readCnt i = s.readCnt i :=
  Memory.readWord_congr (fun k hk => lookup_inputByte_engineTick (e' := .ee) h ht
    (by simp only [InputByte, cntAddr]; omega))

theorem engineInputs_engineTick {u : LogUnits} {e : Engine} {s t : State} (h : StateInv s) (hw : EngineInputs s e)
    (ht : engineTick u e s = .next t) : EngineInputs t e := by
  have hp := engineTick_params ht
  have hn := engineTick_latchedN ht
  cases e
  · intro i hi hiN
    rw [hp] at hiN
    rw [readLen_engineTick h ht hiN]
    exact hw i (hi.trans_eq hn) hiN
  · intro i hi hiN
    rw [hp] at hiN
    rw [readCnt_engineTick h ht hiN]
    exact hw i (hi.trans_eq hn) hiN

/-- A run of an engine whose inputs are written does not stop (R281). -/
theorem runEngine_next {u : LogUnits} {e : Engine} (k : Nat) {s : State} (h : StateInv s) (hw : EngineInputs s e) :
    ∃ t, runEngine u e k s = .next t := by
  induction k generalizing s with
  | zero => exact ⟨s, rfl⟩
  | succ k ih =>
    cases hb : s.busy e
    · exact ⟨s, runEngine_of_idle hb _⟩
    · obtain ⟨r, hr⟩ := engineTick_next_of_inputs (u := u) h hw
      obtain ⟨t, ht⟩ := ih (stateInv_busyTick h hb hr) (engineInputs_engineTick h hw hr)
      exact ⟨t, by rw [runEngine, if_pos hb, hr, andThen_next, ht]⟩

theorem caWork_le (s : State) : caWork s ≤ 2 * s.ca.latchN.toNat + 2 * s.ca.latchMaxbits.toNat + 4 := by
  cases hp : s.ca.phase <;> simp only [caWork, hp] <;> omega

theorem eeWork_le (s : State) : eeWork s ≤ 2 * s.ee.latchN.toNat + 3 := by
  cases hp : s.ee.phase <;> simp only [eeWork, hp] <;> omega

/-- A busy engine whose inputs are written is over after the pieces of work it has left, as after its completion
step. -/
theorem engine_completes (u : LogUnits) {e : Engine} {s : State} (h : StateInv s) (hb : s.busy e = true)
    (hw : EngineInputs s e) : ∃ r, runEngine u e (engineWork e s) s = .next r ∧ completeEngine u e s = .next r ∧
      r.busy e = false ∧ doneBit r e = true := by
  obtain ⟨r, hr⟩ := runEngine_next (u := u) (engineWork e s) h hw
  obtain ⟨hidle, hdone, -⟩ := completeEngine_flags hb hr
  exact ⟨r, hr, hr, hidle, hdone⟩

/-- Settles O56: the work left bounds the pieces of work, and it is linear in the latched operands. -/
theorem commandsTerminate : Obligations.CommandsTerminate := by
  intro u s h
  refine ⟨fun hb hw => ?_, fun hb hw => ?_⟩
  · obtain ⟨r, hr⟩ := engine_completes u (e := .ca) h hb hw
    exact ⟨caWork s, r, caWork_le s, hr⟩
  · obtain ⟨r, hr⟩ := engine_completes u (e := .ee) h hb hw
    exact ⟨eeWork s, r, eeWork_le s, hr⟩

/-! ### What a command leaves alone -/

/-- A piece of work and a completion are runs. -/
theorem exists_runEngine {u : LogUnits} {e : Engine} {s t : State}
    (h : engineTick u e s = .next t ∨ completeEngine u e s = .next t) : ∃ k, runEngine u e k s = .next t := by
  rcases h with h | h
  · exact ⟨1, (runEngine_one s).trans h⟩
  · exact ⟨_, h⟩

theorem onlyCa_runEngine {u : LogUnits} {k : Nat} {s t : State} (ht : runEngine u .ca k s = .next t) : OnlyCa s t :=
  runEngine_keeps (u := u) (e := .ca) (fun _ _ hr _ htick => (caTick_spec htick).1.after hr) (.refl s) ht

theorem onlyEe_runEngine {u : LogUnits} {k : Nat} {s t : State} (ht : runEngine u .ee k s = .next t) : OnlyEe s t :=
  runEngine_keeps (u := u) (e := .ee) (fun _ _ hr _ htick => (eeTick_spec htick).1.after hr) (.refl s) ht

/-- The byte belongs to a SYM entry that CA may write: one below `n` whose length is not known to be 0 (R157, R159). -/
def CaOutputByte (s : State) (a : Nat) : Prop :=
  ∃ i, i < s.ca.latchN.toNat ∧ i < s.params.nMax ∧ s.readLen i ≠ some 0 ∧ symAddr i ≤ a ∧ a < symAddr i + 4

/-- From `s` to `t` CA has kept its operand, the lengths and every byte that is not one of its outputs. -/
structure CaKeeps (s t : State) : Prop where
  params : t.params = s.params
  latchN : t.ca.latchN = s.ca.latchN
  lengths : ∀ i, i < s.params.nMax → t.readLen i = s.readLen i
  bytes : ∀ a, ¬ CaOutputByte s a → t.mem.lookup a = s.mem.lookup a

theorem CaKeeps.outputByte_iff {s t : State} (h : CaKeeps s t) (a : Nat) : CaOutputByte t a ↔ CaOutputByte s a := by
  simp only [CaOutputByte, h.params, h.latchN]
  refine exists_congr fun i => and_congr_right fun _ => and_congr_right fun hi => ?_
  rw [h.lengths i hi]

theorem CaKeeps.trans {s t r : State} (h : CaKeeps s t) (h' : CaKeeps t r) : CaKeeps s r where
  params := h'.params.trans h.params
  latchN := h'.latchN.trans h.latchN
  lengths i hi := (h'.lengths i (h.params ▸ hi)).trans (h.lengths i hi)
  bytes a ha := (h'.bytes a (fun hb => ha ((h.outputByte_iff a).1 hb))).trans (h.bytes a ha)

/-- Pass 3 writes the entry of a symbol below `n` that has a length. -/
theorem caKeeps_caTick {s t : State} (h : StateInv s) (ht : caTick s = .next t) : CaKeeps s t where
  params := onlyCa_params (caTick_spec ht).1
  latchN := (caTick_spec ht).1.latchN
  lengths i hi := readLen_caTick ht (hi.trans_le (nMax_le h))
  bytes a ha := by
    have hin := h.ca.inBounds
    rcases (caTick_spec ht).2 with hm | ⟨i, l, w, hp, hl, h0, hm⟩
    · rw [hm]
    · rw [hp] at hin
      obtain ⟨hn, -, hi⟩ := hin
      rw [hm]
      refine Memory.lookup_writeWord_of_outside ?_
      by_contra hout
      exact ha ⟨i, hi, hi.trans_le hn, by rw [hl]; simpa using h0, by omega, by omega⟩

theorem caKeeps_runEngine {u : LogUnits} {k : Nat} {s t : State} (h : StateInv s)
    (ht : runEngine u .ca k s = .next t) : CaKeeps s t :=
  (runEngine_keeps (P := fun r => StateInv r ∧ CaKeeps s r)
    (fun _ _ ⟨hr, hk⟩ hb htick => ⟨stateInv_caTick hr hb htick, hk.trans (caKeeps_caTick hr htick)⟩)
    ⟨h, rfl, rfl, fun _ _ => rfl, fun _ _ => rfl⟩ ht).2

/-- EE edits the bytes of its first entries only (R200, R201). -/
theorem keepsOutside_runEngine_ee {u : LogUnits} {k : Nat} {s t : State} (h : StateInv s)
    (ht : runEngine u .ee k s = .next t) :
    KeepsOutside (bitlenAddr 0) (8 * min s.ee.latchN.toNat s.params.nMax) s.mem t.mem := by
  obtain ⟨f, hf⟩ := runEngine_transfers h ht
  intro b hb
  rw [hf.eq ht, editMem_mem]
  refine hf.edit.outside _ ?_
  simp only [OutputByte, State.outputSpan, State.latchedN, bitlenAddr] at hb ⊢
  omega

theorem eq_accept_of_exec {e : Engine} {s t : State} (hb : s.busy e = false)
    (h : exec (engineCommand e) s = .next t) : t = s.accept e := by
  rw [exec_engineCommand_idle hb] at h
  exact (Host.Outcome.next.inj h).symm

/-- Settles O52: an accepted command by definition; a piece of work and a completion are runs, and of a run each piece
of work keeps the other engine, the registers and every byte that is no output. -/
theorem engineFrame : Obligations.EngineFrame := by
  refine ⟨fun s t hb ht => ?_, fun s t hb ht => ?_, fun u s t h => ⟨fun ht => ?_, fun ht => ?_⟩⟩
  · rw [eq_accept_of_exec (e := .ca) hb ht]; rfl
  · rw [eq_accept_of_exec (e := .ee) hb ht]; rfl
  · obtain ⟨k, hk⟩ := exists_runEngine ht
    have ho := onlyCa_runEngine hk
    exact ⟨ho.rest, ho.regN, ho.regMaxbits, (caKeeps_runEngine h hk).bytes⟩
  · obtain ⟨k, hk⟩ := exists_runEngine ht
    have ho := onlyEe_runEngine hk
    exact ⟨ho.rest, ho.regN, keepsOutside_runEngine_ee h hk⟩

end Sys2Proof.Proofs.EngineRuns

/-!
PROOFS. The family of spec/40_command.md: what a command makes of its inputs (ResultsDependOnInputs, R139). A command
raises one error, succeeds, or faults at an unwritten input; which of these, with what error or what outputs, follows
from its operands, its input entries and the parameters.
-/
namespace Sys2Proof.Proofs.Results

open Sys2Proof.Machine Sys2Proof.Safety Sys2Proof.Proofs.Scope Sys2Proof.Proofs.Commands

/-- Either `P` holds below `n`, or there is a first index where it does not. -/
theorem forall_or_first_not (P : Nat → Prop) (n : Nat) :
    (∀ j, j < n → P j) ∨ ∃ k, k < n ∧ ¬ P k ∧ ∀ j, j < k → P j := by
  classical
  by_cases h : ∃ k, k < n ∧ ¬ P k
  · obtain ⟨hk, hP⟩ := Nat.find_spec h
    exact .inr ⟨_, hk, hP, fun j hj => by_contra fun hPj => Nat.find_min h hj ⟨hj.trans hk, hPj⟩⟩
  · exact .inl fun j hj => by_contra fun hPj => h ⟨j, hj, hPj⟩

/-- A command of an idle engine is its completion step after acceptance. -/
theorem runCommand_accepted {u : LogUnits} {e : Engine} {s : State} (hb : s.busy e = false) :
    runCommand u (engineCommand e) e s = completeEngine u e (s.accept e) := by
  rw [runCommand, exec_engineCommand_idle hb, andThen_next]

/-! ### ASSIGN -/

/-- A tally that meets an unwritten length, with none above `maxbits` before it, faults (R154, R281). -/
theorem complete_tally_unwritten {u : LogUnits} {s : State} {lens : Nat → Word} {i k : Nat}
    (hp : s.ca.phase = .tally i) (hik : i ≤ k) (hk : k < s.ca.latchN.toNat)
    (hr : ∀ j, j < k → s.readLen j = some (lens j))
    (hl : ∀ j, j < k → (lens j).toNat ≤ s.ca.latchMaxbits.toNat) (hbad : s.readLen k = none) :
    completeEngine u .ca s = .fault (.unwrittenEntry (lenAddr k)) := by
  rcases Nat.eq_or_lt_of_le hik with rfl | hlt
  · rw [complete_ca (by simp [hp])]
    simp only [caTick, hp, caTally, hbad, andThen_fault]
  · rw [complete_ca_next (by simp [hp]) (tally_step hp (hr i hlt) (hl i hlt)), enterTally,
      if_pos (show i + 1 < s.ca.latchN.toNat by omega)]
    exact complete_tally_unwritten (lens := lens) rfl hlt hk hr hl hbad
termination_by k - i

/-- An accepted ASSIGN that passes the capacity checks and has a symbol goes on to the tally (R151 to R153). -/
theorem complete_assign_tally {u : LogUnits} {s : State} (hp : s.ca.phase = .check)
    (hn : s.ca.latchN.toNat ≤ s.params.nMax) (hm : s.ca.latchMaxbits.toNat ≤ s.params.maxbitsMax)
    (hbl : s.ca.blCount.length = s.params.maxbitsMax + 1) (h0 : 0 < s.ca.latchN.toNat) :
    ∃ bl, completeEngine u .ca s =
      completeEngine u .ca { s with ca := { s.ca with phase := .tally 0, blCount := bl } } := by
  have ht : caTick s = .next (enterClear 0 s) := by
    simp only [caTick, hp, caCheck]
    rw [if_neg (by omega), if_neg (by omega)]
  obtain ⟨bl, -, -, hbl'⟩ := complete_clear (u := u) (s := s.setCaPhase (.clear 0)) (L := 0) rfl (Nat.zero_le _)
    (by simp; omega) nofun
  refine ⟨bl, ?_⟩
  rw [complete_ca_next (by simp [hp]) ht, enterClear, if_pos (Nat.zero_le _), hbl', enterTally,
    if_pos (by simpa using h0)]
  rfl

/-- `lens` lists the first `k` lengths, none of them above `maxbits`. -/
def LegalLengths (s : State) (lens : Nat → Word) (k : Nat) : Prop :=
  ∀ j, j < k → s.readLen j = some (lens j) ∧ (lens j).toNat ≤ caMaxbits s

/-- The error that ASSIGN raises, in the order of its checks (R151, R152, R154, R234). -/
inductive AssignFails (s : State) : ErrCode → Word → BitVec 64 → Prop
  | nCapacity (hn : s.params.nMax < caN s) : AssignFails s .nCapacity 0 (s.ca.regN.setWidth 64)
  | scratchExhausted (hn : caN s ≤ s.params.nMax) (hm : s.params.maxbitsMax < caMaxbits s) :
    AssignFails s .scratchExhausted 0 (s.ca.regMaxbits.setWidth 64)
  | lenGtMaxbits {lens : Nat → Word} {k : Nat} (hn : caN s ≤ s.params.nMax)
    (hm : caMaxbits s ≤ s.params.maxbitsMax) (hk : k < caN s) (legal : LegalLengths s lens k)
    (read : s.readLen k = some (lens k)) (long : caMaxbits s < (lens k).toNat) :
    AssignFails s .lenGtMaxbits (BitVec.ofNat 32 k) ((lens k).setWidth 64)

theorem runCommand_assign_fails {u : LogUnits} {s : State} {c : ErrCode} {ix : Word} {v : BitVec 64}
    (h : StateInv s) (hb : s.busy .ca = false) (hf : AssignFails s c ix v) :
    runCommand u .assign .ca s = .next ((s.accept .ca).raise .ca c ix v) := by
  refine (runCommand_accepted (e := .ca) hb).trans ?_
  cases hf with
  | nCapacity hn => exact complete_assign_nCapacity rfl hn
  | scratchExhausted hn hm => exact complete_assign_scratch rfl hn hm
  | @lenGtMaxbits lens k hn hm hk legal read long =>
    refine complete_assign_lenError (lens := lens) rfl hn hm h.ca.blCountLength hk (fun j hj => ?_)
      (fun j hj => (legal j hj).2) long
    rcases Nat.eq_or_lt_of_le hj with rfl | hlt
    · exact read
    · exact (legal j hlt).1

/-- ASSIGN faults at an unwritten length that it reads (R281). -/
theorem runCommand_assign_unwritten {u : LogUnits} {s : State} {lens : Nat → Word} {k : Nat} (h : StateInv s)
    (hb : s.busy .ca = false) (hn : caN s ≤ s.params.nMax) (hm : caMaxbits s ≤ s.params.maxbitsMax) (hk : k < caN s)
    (legal : LegalLengths s lens k) (hbad : s.readLen k = none) :
    runCommand u .assign .ca s = .fault (.unwrittenEntry (lenAddr k)) := by
  obtain ⟨bl, hbl⟩ := complete_assign_tally (u := u) (s := s.accept .ca) rfl hn hm h.ca.blCountLength
    ((Nat.zero_le k).trans_lt hk)
  refine (runCommand_accepted (e := .ca) hb).trans (hbl.trans ?_)
  exact complete_tally_unwritten (lens := lens) rfl (Nat.zero_le k) hk (fun j hj => (legal j hj).1)
    (fun j hj => (legal j hj).2) hbad

/-- ASSIGN fails, succeeds or faults, by its inputs. -/
theorem assign_cases (u : LogUnits) {s : State} (h : StateInv s) (hb : s.busy .ca = false) :
    (∃ c ix v, AssignFails s c ix v) ∨
    (∃ lens, caN s ≤ s.params.nMax ∧ caMaxbits s ≤ s.params.maxbitsMax ∧ LegalLengths s lens (caN s)) ∨
    ∃ f, runCommand u .assign .ca s = .fault f := by
  rcases Nat.lt_or_ge s.params.nMax (caN s) with hn | hn
  · exact .inl ⟨_, _, _, .nCapacity hn⟩
  rcases Nat.lt_or_ge s.params.maxbitsMax (caMaxbits s) with hm | hm
  · exact .inl ⟨_, _, _, .scratchExhausted hn hm⟩
  rcases forall_or_first_not (fun j => s.readLen j = some ((s.readLen j).getD 0) ∧
      ((s.readLen j).getD 0).toNat ≤ caMaxbits s) (caN s) with legal | ⟨k, hk, hbad, legal⟩
  · exact .inr (.inl ⟨_, hn, hm, legal⟩)
  · cases hr : s.readLen k with
    | none => exact .inr (.inr ⟨_, runCommand_assign_unwritten h hb hn hm hk legal hr⟩)
    | some l =>
      have hread : s.readLen k = some ((s.readLen k).getD 0) := by rw [hr]; rfl
      exact .inl ⟨_, _, _, .lenGtMaxbits hn hm hk legal hread (Nat.lt_of_not_le (fun hl => hbad ⟨hread, hl⟩))⟩

/-- `t` gives ASSIGN the operands, the lengths and the parameters that `s` gives it. -/
structure SameAssign (s t : State) : Prop where
  params : t.params = s.params
  regN : t.ca.regN = s.ca.regN
  regMaxbits : t.ca.regMaxbits = s.ca.regMaxbits
  lengths : ∀ i, i < caN s → i < s.params.nMax → t.readLen i = s.readLen i

theorem SameAssign.caN_eq {s t : State} (h : SameAssign s t) : caN t = caN s := congrArg BitVec.toNat h.regN

theorem SameAssign.caMaxbits_eq {s t : State} (h : SameAssign s t) : caMaxbits t = caMaxbits s :=
  congrArg BitVec.toNat h.regMaxbits

theorem SameAssign.legal {s t : State} (h : SameAssign s t) (hn : caN s ≤ s.params.nMax) {lens : Nat → Word}
    {k : Nat} (hk : k ≤ caN s) (hl : LegalLengths s lens k) : LegalLengths t lens k := by
  intro j hj
  rw [h.lengths j (by omega) (by omega), h.caMaxbits_eq]
  exact hl j hj

theorem SameAssign.fails {s t : State} (h : SameAssign s t) {c : ErrCode} {ix : Word} {v : BitVec 64}
    (hf : AssignFails s c ix v) : AssignFails t c ix v := by
  cases hf with
  | nCapacity hn => rw [← h.regN]; exact .nCapacity (by rwa [h.params, h.caN_eq])
  | scratchExhausted hn hm =>
    rw [← h.regMaxbits]
    exact .scratchExhausted (by rwa [h.params, h.caN_eq]) (by rwa [h.params, h.caMaxbits_eq])
  | lenGtMaxbits hn hm hk legal read long =>
    refine .lenGtMaxbits ?_ ?_ ?_ (h.legal hn hk.le legal) ?_ ?_
    · rwa [h.params, h.caN_eq]
    · rwa [h.params, h.caMaxbits_eq]
    · rwa [h.caN_eq]
    · rwa [h.lengths _ hk (hk.trans_le hn)]
    · rwa [h.caMaxbits_eq]

/-- ASSIGN of legal lengths, with the codes it writes. -/
theorem runCommand_assign_legal {u : LogUnits} {s : State} {lens : Nat → Word} (h : StateInv s)
    (hb : s.busy .ca = false) (hn : caN s ≤ s.params.nMax) (hm : caMaxbits s ≤ s.params.maxbitsMax)
    (hl : LegalLengths s lens (caN s)) :
    ∃ r, runCommand u .assign .ca s = .next r ∧ CaSucceeded s r ∧ ∀ i, i < caN s → lens i ≠ 0 →
      r.readSym i = some (BitVec.ofNat 32 (symbolCode lens (caN s) i)) := by
  obtain ⟨r, hr, hok, hemit⟩ := runCommand_assign (u := u) h ⟨hb, hn, hm, fun j hj => (hl j hj).1⟩
    (fun j hj => (hl j hj).2)
  exact ⟨r, hr, hok, fun i hi h0 => hemit.codes i (Nat.zero_le i) hi h0⟩

/-- What the host reads of CA after a command. -/
structure SameCaResults (s r₁ r₂ : State) : Prop where
  err : r₁.ca.err = r₂.ca.err
  code : r₁.ca.errCode = r₂.ca.errCode
  index : r₁.ca.errIndex = r₂.ca.errIndex
  value : r₁.ca.errValue = r₂.ca.errValue
  codes : r₁.ca.err = false → ∀ i, i < caN s → s.readLen i ≠ some 0 → r₁.readSym i = r₂.readSym i

theorem SameAssign.results {u : LogUnits} {s t r₁ : State} (h : SameAssign s t) (hs : StateInv s) (ht : StateInv t)
    (hbs : s.busy .ca = false) (hbt : t.busy .ca = false) (hr : runCommand u .assign .ca s = .next r₁) :
    ∃ r₂, runCommand u .assign .ca t = .next r₂ ∧ SameCaResults s r₁ r₂ := by
  rcases assign_cases u hs hbs with ⟨c, ix, v, hf⟩ | ⟨lens, hn, hm, hl⟩ | ⟨f, hf⟩
  · rw [runCommand_assign_fails hs hbs hf] at hr
    cases hr
    exact ⟨_, runCommand_assign_fails ht hbt (h.fails hf), rfl, rfl, rfl, rfl, nofun⟩
  · obtain ⟨r, hr', hok, hcodes⟩ := runCommand_assign_legal (u := u) hs hbs hn hm hl
    obtain rfl : r = r₁ := Host.Outcome.next.inj (hr'.symm.trans hr)
    obtain ⟨r₂, hr₂, hok₂, hcodes₂⟩ := runCommand_assign_legal (u := u) (lens := lens) ht hbt
      (by rwa [h.params, h.caN_eq]) (by rwa [h.params, h.caMaxbits_eq]) (h.caN_eq ▸ h.legal hn le_rfl hl)
    rw [h.caN_eq] at hcodes₂
    refine ⟨r₂, hr₂, hok.err.trans hok₂.err.symm, hok.code.trans hok₂.code.symm, hok.index.trans hok₂.index.symm,
      hok.value.trans hok₂.value.symm, fun _ i hi h0 => ?_⟩
    have hne : lens i ≠ 0 := fun e => h0 ((hl i hi).1.trans (congrArg some e))
    exact (hcodes i hi hne).trans (hcodes₂ i hi hne).symm
  · rw [hf] at hr; cases hr

/-! ### ESTIMATE -/

/-- A sum that meets an unwritten count faults (R193, R281). -/
theorem complete_sum_unwritten {u : LogUnits} {s : State} {cnts : Nat → Word} {i k : Nat}
    (hp : s.ee.phase = .sum i) (hik : i ≤ k) (hk : k < s.ee.latchN.toNat)
    (hr : ∀ j, j < k → s.readCnt j = some (cnts j)) (hbad : s.readCnt k = none) :
    completeEngine u .ee s = .fault (.unwrittenEntry (cntAddr k)) := by
  rcases Nat.eq_or_lt_of_le hik with rfl | hlt
  · rw [completeEngine_tick (by simp [hp])]
    simp only [engineTick, eeTick, hp, eeSum, hbad, andThen_fault]
  · rw [complete_ee_next (by simp [hp]) (sum_step hp (hr i hlt)), enterSum,
      if_pos (show i + 1 < s.ee.latchN.toNat by omega)]
    exact complete_sum_unwritten (cnts := cnts) rfl hlt hk hr hbad
termination_by k - i

/-- An accepted ESTIMATE whose `n` passes the checks faults at the first unwritten count (R191 to R193). -/
theorem complete_estimate_unwritten {u : LogUnits} {s : State} {cnts : Nat → Word} {k : Nat}
    (hp : s.ee.phase = .check) (hn : s.ee.latchN.toNat ≤ s.params.nMax) (hk : k < s.ee.latchN.toNat)
    (hr : ∀ j, j < k → s.readCnt j = some (cnts j)) (hbad : s.readCnt k = none) :
    completeEngine u .ee s = .fault (.unwrittenEntry (cntAddr k)) := by
  have ht : eeTick u s = .next (enterSum 0 { s with ee := { s.ee with sum := 0 } }) := by
    simp only [eeTick, hp, eeCheck]
    rw [if_neg (by omega), if_neg (fun h => by simp [h] at hk)]
  rw [complete_ee_next (by simp [hp]) ht, enterSum, if_pos (show 0 < s.ee.latchN.toNat by omega)]
  exact complete_sum_unwritten (cnts := cnts) rfl (Nat.zero_le k) hk hr hbad

theorem stateInv_acceptEe {s : State} (h : StateInv s) : StateInv (s.accept .ee) :=
  ⟨h.params, h.mem, h.ca, eeOk_accept _⟩

/-- `cnts` lists the first `k` counts. -/
def ListsCounts (s : State) (cnts : Nat → Word) (k : Nat) : Prop := ∀ j, j < k → s.readCnt j = some (cnts j)

/-- The cost of symbol `i` of the counts `cnts` in state `s` (R197, R198). -/
def costIn (u : LogUnits) (s : State) (cnts : Nat → Word) (i : Nat) : F64 :=
  symbolCost u s.params.eps cnts (eeN s) i

/-- The error that ESTIMATE raises, in the order of its checks (R191, R192, R199, R235). -/
inductive EstimateFails (u : LogUnits) (s : State) : ErrCode → Word → BitVec 64 → Prop
  | nCapacity (hn : s.params.nMax < eeN s) : EstimateFails u s .nCapacity 0 (s.ee.regN.setWidth 64)
  | nZero (h0 : s.ee.regN = 0) : EstimateFails u s .nZero 0 0
  | cost {cnts : Nat → Word} {k : Nat} {c : ErrCode} (hn : eeN s ≤ s.params.nMax) (hk : k < eeN s)
    (written : ListsCounts s cnts (eeN s)) (ok : ∀ j, j < k → costError (costIn u s cnts j) = none)
    (bad : costError (costIn u s cnts k) = some c) :
    EstimateFails u s c (BitVec.ofNat 32 k) (costIn u s cnts k)

theorem runCommand_estimate_fails {u : LogUnits} {s : State} {c : ErrCode} {ix : Word} {v : BitVec 64}
    (h : StateInv s) (hb : s.busy .ee = false) (hf : EstimateFails u s c ix v) :
    runCommand u .estimate .ee s = .next (raiseEe c ix v (s.accept .ee)) := by
  refine (runCommand_accepted (e := .ee) hb).trans ?_
  cases hf with
  | nCapacity hn => exact complete_estimate_nCapacity rfl hn
  | nZero h0 => exact complete_estimate_nZero rfl h0
  | cost hn hk written ok bad =>
    exact complete_estimate_costError rfl hn (nMax_le (stateInv_acceptEe h)) h.mem.canonical hk written ok bad

/-- ESTIMATE faults at an unwritten count (R281). -/
theorem runCommand_estimate_unwritten {u : LogUnits} {s : State} {cnts : Nat → Word} {k : Nat}
    (hb : s.busy .ee = false) (hn : eeN s ≤ s.params.nMax) (hk : k < eeN s) (written : ListsCounts s cnts k)
    (hbad : s.readCnt k = none) : runCommand u .estimate .ee s = .fault (.unwrittenEntry (cntAddr k)) := by
  exact (runCommand_accepted (e := .ee) hb).trans (complete_estimate_unwritten rfl hn hk written hbad)

/-- ESTIMATE without a cost that is an error, with the costs it writes. -/
theorem runCommand_estimate_ok {u : LogUnits} {s : State} {cnts : Nat → Word} (h : StateInv s)
    (hb : s.busy .ee = false) (hn : eeN s ≤ s.params.nMax) (h1 : 1 ≤ eeN s) (written : ListsCounts s cnts (eeN s))
    (ok : ∀ j, j < eeN s → costError (costIn u s cnts j) = none) :
    ∃ m', runCommand u .estimate .ee s = .next { (s.accept .ee).finish .ee with mem := m' } ∧
      ∀ i, i < eeN s → m'.readDword (bitlenAddr i) = some (costIn u s cnts i) := by
  obtain ⟨m', hm, hr⟩ := complete_estimate (u := u) (s := s.accept .ee) (cnts := cnts) rfl hn
    (nMax_le (stateInv_acceptEe h)) h1 written ok
  exact ⟨m', (runCommand_accepted (e := .ee) hb).trans hr, fun i hi => hm.costs i (Nat.zero_le i) hi⟩

/-- ESTIMATE fails, succeeds or faults, by its inputs. -/
theorem estimate_cases (u : LogUnits) {s : State} (hb : s.busy .ee = false) :
    (∃ c ix v, EstimateFails u s c ix v) ∨
    (∃ cnts, eeN s ≤ s.params.nMax ∧ 1 ≤ eeN s ∧ ListsCounts s cnts (eeN s) ∧
      ∀ j, j < eeN s → costError (costIn u s cnts j) = none) ∨
    ∃ f, runCommand u .estimate .ee s = .fault f := by
  rcases Nat.lt_or_ge s.params.nMax (eeN s) with hn | hn
  · exact .inl ⟨_, _, _, .nCapacity hn⟩
  by_cases h0 : s.ee.regN = 0
  · exact .inl ⟨_, _, _, .nZero h0⟩
  rcases forall_or_first_not (fun j => s.readCnt j = some ((s.readCnt j).getD 0)) (eeN s) with
    written | ⟨k, hk, hbad, written⟩
  · rcases forall_or_first_not (fun j => costError (costIn u s (fun j => (s.readCnt j).getD 0) j) = none) (eeN s) with
      ok | ⟨k, hk, hbad, ok⟩
    · exact .inr (.inl ⟨_, hn, Nat.one_le_iff_ne_zero.2 (fun hz => h0 (BitVec.eq_of_toNat_eq hz)), written, ok⟩)
    · obtain ⟨c, hc⟩ := Option.ne_none_iff_exists'.1 hbad
      exact .inl ⟨_, _, _, .cost hn hk written ok hc⟩
  · cases hr : s.readCnt k with
    | none => exact .inr (.inr ⟨_, runCommand_estimate_unwritten hb hn hk written hr⟩)
    | some c => exact absurd (by rw [hr]; rfl) hbad

/-- `t` gives ESTIMATE the operand, the counts and the parameters that `s` gives it. -/
structure SameEstimate (s t : State) : Prop where
  params : t.params = s.params
  regN : t.ee.regN = s.ee.regN
  counts : ∀ i, i < eeN s → i < s.params.nMax → t.readCnt i = s.readCnt i

theorem SameEstimate.eeN_eq {s t : State} (h : SameEstimate s t) : eeN t = eeN s := congrArg BitVec.toNat h.regN

theorem SameEstimate.costIn_eq {s t : State} (h : SameEstimate s t) (u : LogUnits) (cnts : Nat → Word) :
    costIn u t cnts = costIn u s cnts := by
  funext i
  rw [costIn, costIn, h.params, h.eeN_eq]

theorem SameEstimate.written {s t : State} (h : SameEstimate s t) (hn : eeN s ≤ s.params.nMax)
    {cnts : Nat → Word} (hw : ListsCounts s cnts (eeN s)) : ListsCounts t cnts (eeN t) := by
  intro j hj
  rw [h.eeN_eq] at hj
  rw [h.counts j hj (hj.trans_le hn)]
  exact hw j hj

theorem SameEstimate.fails {u : LogUnits} {s t : State} (h : SameEstimate s t) {c : ErrCode} {ix : Word}
    {v : BitVec 64} (hf : EstimateFails u s c ix v) : EstimateFails u t c ix v := by
  cases hf with
  | nCapacity hn => rw [← h.regN]; exact .nCapacity (by rwa [h.params, h.eeN_eq])
  | nZero h0 => exact .nZero (h.regN.trans h0)
  | cost hn hk written ok bad =>
    rw [← h.costIn_eq] at bad ⊢
    refine .cost ?_ ?_ (h.written hn written) ?_ bad
    · rwa [h.params, h.eeN_eq]
    · rwa [h.eeN_eq]
    · rwa [h.costIn_eq]

/-- What the host reads of EE after a command. -/
structure SameEeResults (s r₁ r₂ : State) : Prop where
  err : r₁.ee.err = r₂.ee.err
  code : r₁.ee.errCode = r₂.ee.errCode
  index : r₁.ee.errIndex = r₂.ee.errIndex
  valueLo : r₁.ee.errValueLo = r₂.ee.errValueLo
  valueHi : r₁.ee.errValueHi = r₂.ee.errValueHi
  costs : r₁.ee.err = false → ∀ i, i < eeN s → r₁.readBitlen i = r₂.readBitlen i

theorem SameEstimate.results {u : LogUnits} {s t r₁ : State} (h : SameEstimate s t) (hs : StateInv s)
    (ht : StateInv t) (hbs : s.busy .ee = false) (hbt : t.busy .ee = false)
    (hr : runCommand u .estimate .ee s = .next r₁) :
    ∃ r₂, runCommand u .estimate .ee t = .next r₂ ∧ SameEeResults s r₁ r₂ := by
  rcases estimate_cases u hbs with ⟨c, ix, v, hf⟩ | ⟨cnts, hn, h1, hw, hok⟩ | ⟨f, hf⟩
  · rw [runCommand_estimate_fails hs hbs hf] at hr
    cases hr
    exact ⟨_, runCommand_estimate_fails ht hbt (h.fails hf), rfl, rfl, rfl, rfl, rfl, nofun⟩
  · obtain ⟨m₁, hr₁, hcosts₁⟩ := runCommand_estimate_ok hs hbs hn h1 hw hok
    obtain ⟨m₂, hr₂, hcosts₂⟩ := runCommand_estimate_ok (u := u) ht hbt (by rwa [h.params, h.eeN_eq])
      (by rwa [h.eeN_eq]) (h.written hn hw) (by rwa [h.eeN_eq, h.costIn_eq])
    rw [h.eeN_eq, h.costIn_eq] at hcosts₂
    rw [hr₁] at hr
    cases hr
    exact ⟨_, hr₂, rfl, rfl, rfl, rfl, rfl, fun _ i hi => (hcosts₁ i hi).trans (hcosts₂ i hi).symm⟩
  · rw [hf] at hr; cases hr

/-- Settles O53: the two states fail with the same error, or succeed with the outputs that their common inputs say. -/
theorem resultsDependOnInputs : Obligations.ResultsDependOnInputs := by
  intro u s₁ s₂ h₁ h₂ hp
  refine ⟨fun r₁ hb₁ hb₂ hN hM hL hr => ?_, fun r₁ hb₁ hb₂ hN hC hr => ?_⟩
  · have same : SameAssign s₁ s₂ := ⟨hp.symm, hN.symm, hM.symm, fun i hi hiN => (hL i hi hiN).symm⟩
    obtain ⟨r₂, hr₂, res⟩ := same.results h₁ h₂ hb₁ hb₂ hr
    exact ⟨r₂, hr₂, res.err, res.code, res.index, res.value, res.codes⟩
  · have same : SameEstimate s₁ s₂ := ⟨hp.symm, hN.symm, fun i hi hiN => (hC i hi hiN).symm⟩
    obtain ⟨r₂, hr₂, res⟩ := same.results h₁ h₂ hb₁ hb₂ hr
    exact ⟨r₂, hr₂, res.err, res.code, res.index, res.valueLo, res.valueHi, res.costs⟩

end Sys2Proof.Proofs.Results

/-!
PROOFS. The family of spec/41_assign.md: what ASSIGN leaves behind (AssignResult, AssignErrors, AssignEmptyCases).
-/
namespace Sys2Proof.Proofs.Assignment

open Sys2Proof.Machine Sys2Proof.Safety Sys2Proof.Proofs.Scope Sys2Proof.Proofs.Results

/-! ### Success -/

/-- Settles O28: an idle CA accepts, and pass 3 writes the codes and nothing else. -/
theorem assignResult : Obligations.AssignResult := by
  intro u s lens h hr hl
  obtain ⟨r, hrun, hok, hemit⟩ := runCommand_assign (u := u) h hr hl
  rw [runCommand, exec_assign_idle hr.idle, andThen_next] at hrun
  refine ⟨s.accept .ca, r, exec_assign_idle hr.idle, hrun, hok, fun i => hemit.codes i (Nat.zero_le i), fun a ha => ?_⟩
  refine hemit.others a fun j _ hj h0 => ?_
  by_contra hin
  exact ha ⟨j, hj, h0, by omega, by omega⟩

/-- Where no symbol has a length, pass 3 leaves the memory as it is (R159, R166). -/
theorem mem_eq_of_emitted_zero {lens : Nat → Word} {n i : Nat} {m m' : Memory} (hw : m.wf)
    (h : EmittedFrom lens n i m m') (h0 : ∀ j, j < n → lens j = 0) : m' = m :=
  Memory.ext_of_lookup (h.canonical hw) hw fun a => h.others a fun j _ hj hne => absurd (h0 j hj) hne

theorem assign_of_zero_lengths {u : LogUnits} {s : State} (h : StateInv s) (hb : s.busy .ca = false)
    (hn : caN s ≤ s.params.nMax) (hm : caMaxbits s ≤ s.params.maxbitsMax)
    (h0 : ∀ i, i < caN s → s.readLen i = some 0) :
    ∃ r, runCommand u .assign .ca s = .next r ∧ CaSucceeded s r ∧ r.mem = s.mem := by
  obtain ⟨r, hrun, hok, hemit⟩ := runCommand_assign (u := u) (lens := fun _ => 0) h ⟨hb, hn, hm, h0⟩
    (fun _ _ => Nat.zero_le _)
  exact ⟨r, hrun, hok, mem_eq_of_emitted_zero h.mem.canonical hemit fun _ _ => rfl⟩

/-! ### Errors -/

/-- CA after an error raised in the command it accepted in `s` (R236, R238). -/
theorem caFailed_raise_accept (s : State) (c : ErrCode) (ix : Word) (v : BitVec 64) :
    CaFailed s ((s.accept .ca).raise .ca c ix v) c.code ix (v.setWidth 32) :=
  ⟨rfl, rfl, rfl, rfl, rfl, rfl, rfl, rfl, rfl⟩

/-- CA keeps the low 32 bits of the offending value, which is a 32-bit word (R237). -/
theorem assign_failed {u : LogUnits} {s : State} {c : ErrCode} {ix w : Word} (h : StateInv s)
    (hb : s.busy .ca = false) (hf : AssignFails s c ix (w.setWidth 64)) :
    ∃ r, runCommand u .assign .ca s = .next r ∧ CaFailed s r c.code ix w := by
  have hw : (w.setWidth 64).setWidth 32 = w := by simp
  have hfail := caFailed_raise_accept s c ix (w.setWidth 64)
  rw [hw] at hfail
  exact ⟨_, runCommand_assign_fails h hb hf, hfail⟩

/-- The first length above `maxbits` is the one reported (R154). -/
theorem assign_failed_at_long_length {u : LogUnits} {s : State} {k : Nat} {l : Word} (h : StateInv s)
    (hb : s.busy .ca = false) (hn : caN s ≤ s.params.nMax) (hm : caMaxbits s ≤ s.params.maxbitsMax) (hk : k < caN s)
    (read : s.readLen k = some l) (long : caMaxbits s < l.toNat)
    (before : ∀ j, j < k → ∃ l', s.readLen j = some l' ∧ l'.toNat ≤ caMaxbits s) :
    ∃ r, runCommand u .assign .ca s = .next r ∧ CaFailed s r 0x01#8 (BitVec.ofNat 32 k) l := by
  have legal : LegalLengths s (fun j => (s.readLen j).getD 0) k := fun j hj => by
    obtain ⟨l', hr, hl⟩ := before j hj
    simpa [hr] using hl
  have hf := AssignFails.lenGtMaxbits hn hm hk legal (by simp [read]) (by simpa [read] using long)
  rw [read] at hf
  exact assign_failed h hb hf

/-- Settles O29: the three ways in which ASSIGN fails. -/
theorem assignErrors : Obligations.AssignErrors := by
  intro u s h hb
  refine ⟨fun hn => assign_failed h hb (.nCapacity hn), fun hn hm => assign_failed h hb (.scratchExhausted hn hm), ?_⟩
  exact fun hn hm k l hk read long before => assign_failed_at_long_length h hb hn hm hk read long before

/-- Settles O34: `n = 0` is a case of all lengths 0; with `maxbits = 0` a non-zero length is above it. -/
theorem assignEmptyCases : Obligations.AssignEmptyCases := by
  intro u s h hb hm
  refine ⟨fun hz => ?_, fun hz hn k l hk read hne before => ?_, fun hn h0 => assign_of_zero_lengths h hb hn hm h0⟩
  · exact assign_of_zero_lengths h hb (hz ▸ Nat.zero_le _) hm fun i hi => absurd (hz ▸ hi) (Nat.not_lt_zero i)
  · have long : caMaxbits s < l.toNat := hz ▸ BitVec.toNat_pos_of_ne_zero hne
    exact assign_failed_at_long_length h hb hn hm hk read long fun j hj => ⟨0, before j hj, Nat.zero_le _⟩

end Sys2Proof.Proofs.Assignment

/-!
PROOFS. The family of spec/41_assign.md: the codes of a tier and of the next one (CanonicalOrder, TierNesting).
-/
namespace Sys2Proof.Proofs.Assignment

open Sys2Proof.Machine Sys2Proof.Safety Sys2Proof.Proofs.Scope

/-! ### The place of a symbol in its tier -/

theorem lengthCount_eq_card (lens : Nat → Word) (i k : Nat) :
    lengthCount lens (lens i).toNat k = ((Finset.range k).filter (fun j => lens j = lens i)).card := by
  rw [lengthCount, Nat.count_eq_card_filter_range]
  simp only [BitVec.toNat_inj]

theorem lengthCount_add_card_Ico (lens : Nat → Word) {i j : Nat} (h : i ≤ j) :
    lengthCount lens (lens i).toNat j =
      lengthCount lens (lens i).toNat i + ((Finset.Ico i j).filter (fun k => lens k = lens i)).card := by
  rw [lengthCount_eq_card, lengthCount_eq_card, Finset.card_filter, Finset.card_filter, Finset.card_filter,
    Finset.sum_range_add_sum_Ico _ h]

/-- A symbol has fewer symbols of its length below it than there are (R157). -/
theorem lengthCount_lt_lengthCount {lens : Nat → Word} {n i : Nat} (hi : i < n) :
    lengthCount lens (lens i).toNat i < lengthCount lens (lens i).toNat n := Nat.count_strict_mono rfl hi

theorem tierCount_of_ne_zero (lens : Nat → Word) (n : Nat) {L : Nat} (hL : L ≠ 0) :
    tierCount lens n L = lengthCount lens L n := if_neg hL

theorem lengthCount_lt_tierCount {lens : Nat → Word} {n i : Nat} (hi : i < n) (h0 : lens i ≠ 0) :
    lengthCount lens (lens i).toNat i < tierCount lens n (lens i).toNat := by
  rw [tierCount_of_ne_zero lens n (BitVec.toNat_pos_of_ne_zero h0).ne']
  exact lengthCount_lt_lengthCount hi

theorem symbolCode_of_same_length {lens : Nat → Word} {i j : Nat} (n : Nat) (hij : i ≤ j) (h : lens i = lens j) :
    symbolCode lens n j =
      symbolCode lens n i + ((Finset.Ico i j).filter (fun k => lens k = lens i)).card := by
  rw [symbolCode, ← h, lengthCount_add_card_Ico lens hij, symbolCode, Nat.add_assoc]

/-- An ASSIGN of legal lengths whose codes do not wrap. -/
theorem runCommand_assign_toNat {u : LogUnits} {s : State} {lens : Nat → Word} (h : StateInv s)
    (hr : AssignReady s lens) (hl : ∀ i, i < caN s → (lens i).toNat ≤ caMaxbits s)
    (hlt : ∀ i, i < caN s → lens i ≠ 0 → symbolCode lens (caN s) i < 2 ^ 32) :
    ∃ r, runCommand u .assign .ca s = .next r ∧ CaSucceeded s r ∧ ∀ i, i < caN s → lens i ≠ 0 →
      ∃ c, r.readSym i = some c ∧ c.toNat = symbolCode lens (caN s) i := by
  obtain ⟨r, hrun, hok, hemit⟩ := runCommand_assign (u := u) h hr hl
  exact ⟨r, hrun, hok, fun i hi h0 =>
    ⟨_, hemit.codes i (Nat.zero_le i) hi h0, toNat_of_eq_ofNat rfl (hlt i hi h0)⟩⟩

/-- Settles O31: no code wraps, so the codes are the numbers of the recurrence, and these are consecutive. -/
theorem canonicalOrder : Obligations.CanonicalOrder := by
  intro u s lens h hM hr hl
  have hn : caN s ≤ 1024 := hr.nFits.trans (nMax_le h)
  obtain ⟨r, hrun, hok, codes⟩ := runCommand_assign_toNat (u := u) h hr hl fun i hi _ =>
    symbolCode_lt hn hi ((hl i hi).trans (hr.maxbitsFits.trans hM))
  refine ⟨r, hrun, hok, fun i j hij hj hlen h0 => ?_, fun i hi h0 => ?_⟩
  · obtain ⟨a, ha, hac⟩ := codes i (hij.trans hj) h0
    obtain ⟨b, hb, hbc⟩ := codes j hj (hlen ▸ h0)
    have hstep : b.toNat = a.toNat + ((Finset.Ico i j).filter (fun k => lens k = lens i)).card := by
      rw [hac, hbc, symbolCode_of_same_length _ hij.le hlen]
    have hmem : i ∈ (Finset.Ico i j).filter (fun k => lens k = lens i) := by simp [hij]
    exact ⟨a, b, ha, hb, hstep, hstep ▸ Nat.lt_add_of_pos_right (Finset.card_pos.2 ⟨i, hmem⟩)⟩
  · obtain ⟨c, hc, hcc⟩ := codes i hi h0
    refine ⟨c, hc, ?_, ?_⟩
    · rw [hcc, symbolCode, lengthCount_eq_card]
    · rw [hcc, symbolCode]
      exact Nat.add_lt_add_left (lengthCount_lt_tierCount hi h0) _

/-! ### From one tier to the next -/

/-- The recurrence of R156 on 32-bit words. -/
theorem ofNat_tierBase_succ (lens : Nat → Word) (n L : Nat) :
    BitVec.ofNat 32 (tierBase lens n (L + 1)) =
      (BitVec.ofNat 32 (tierBase lens n L) + BitVec.ofNat 32 (tierCount lens n L)) <<< 1 := by
  rw [← BitVec.ofNat_add, BitVec.shiftLeft_eq_mul_twoPow, tierBase, Nat.mul_comm, BitVec.ofNat_mul]
  rfl

/-- The first symbol of a tier has its base code. -/
theorem symbolCode_of_first {lens : Nat → Word} {n L i : Nat} (h : FirstOf lens n L i) :
    symbolCode lens n i = tierBase lens n L := by
  obtain ⟨-, rfl, hfirst⟩ := h
  have hnone : lengthCount lens (lens i).toNat i = 0 := Nat.count_iff_forall_not.2 hfirst
  rw [symbolCode, hnone, Nat.add_zero]

theorem ne_zero_of_first {lens : Nat → Word} {n L i : Nat} (hL : 1 ≤ L) (h : FirstOf lens n L i) : lens i ≠ 0 := by
  obtain ⟨-, rfl, -⟩ := h
  exact fun e => by simp [e] at hL

/-- Settles O32: the recurrence modulo 2^32, whose base codes are those of the first symbols. -/
theorem tierNesting : Obligations.TierNesting := by
  intro u s lens h hr hl
  obtain ⟨r, hrun, hok, hemit⟩ := runCommand_assign (u := u) h hr hl
  have baseCode {L i : Nat} (hL : 1 ≤ L) (hi : FirstOf lens (caN s) L i) :
      r.readSym i = some (BitVec.ofNat 32 (tierBase lens (caN s) L)) := by
    have ⟨hin, _, _⟩ := hi
    rw [← symbolCode_of_first hi]
    exact hemit.codes i (Nat.zero_le i) hin (ne_zero_of_first hL hi)
  refine ⟨r, hrun, hok, fun L hL _ => ⟨ofNat_tierBase_succ lens _ L, fun i j hi hj => ?_⟩⟩
  exact ⟨_, _, baseCode hL hi, baseCode (Nat.le_add_left 1 L) hj, ofNat_tierBase_succ lens _ L⟩

end Sys2Proof.Proofs.Assignment

/-!
PROOFS. The family of spec/41_assign.md: codes of lengths with the Kraft inequality decode (KraftCodesDecode, R164).
The base code of tier `L` over `2^L` is the Kraft sum of the lengths below `L`, so a tier's codes fit in `L` bits; a
code's first `k` bits lie above all codes of tier `k`, so the decoder stops at none of them before its end.
-/
namespace Sys2Proof.Proofs.Assignment

open Sys2Proof.Machine Sys2Proof.Safety Sys2Proof.Proofs.Scope

/-! ### The codes of a tier fit -/

/-- The Kraft sum of the first `n` symbols, those of length 0 or of length `L` and more left out. -/
def kraftBelow (lens : Nat → Word) (n L : Nat) : ℚ :=
  ∑ i ∈ Finset.range n, if lens i = 0 ∨ L ≤ (lens i).toNat then 0 else (1 / 2 : ℚ) ^ (lens i).toNat

theorem kraftBelow_le_one {lens : Nat → Word} {n : Nat} (h : Kraft lens n) (L : Nat) : kraftBelow lens n L ≤ 1 := by
  refine (Finset.sum_le_sum fun i _ => ?_).trans h
  by_cases h0 : lens i = 0
  · rw [if_pos (.inl h0), if_pos h0]
  · rw [if_neg h0]
    split
    · positivity
    · exact le_rfl

/-- Symbol `n` adds to the count of its own tier only, and of none with length 0 (R155). -/
theorem tierCount_succ (lens : Nat → Word) (n L : Nat) :
    tierCount lens (n + 1) L = tierCount lens n L + if lens n ≠ 0 ∧ (lens n).toNat = L then 1 else 0 := by
  have hz : lens n = 0 ↔ (lens n).toNat = 0 := BitVec.toNat_inj.symm
  rw [tierCount, tierCount, lengthCount_succ]
  split
  · next hL => rw [if_neg fun h => h.1 (hz.2 (h.2.trans hL))]
  · next hL => exact congrArg _ (if_congr ⟨fun h => ⟨fun e => hL (h.symm.trans (hz.1 e)), h⟩, And.right⟩ rfl rfl)

theorem kraftBelow_succ_symbol (lens : Nat → Word) (n L : Nat) :
    kraftBelow lens (n + 1) L = kraftBelow lens n L +
      if lens n = 0 ∨ L ≤ (lens n).toNat then 0 else (1 / 2 : ℚ) ^ (lens n).toNat := Finset.sum_range_succ _ n

/-- Tier `L` adds its symbols to the Kraft sum. -/
theorem kraftBelow_succ (lens : Nat → Word) (n L : Nat) :
    kraftBelow lens n (L + 1) = kraftBelow lens n L + tierCount lens n L * (1 / 2) ^ L := by
  induction n with
  | zero => simp [kraftBelow, tierCount, lengthCount]
  | succ n ih =>
    rw [kraftBelow_succ_symbol, kraftBelow_succ_symbol, ih, tierCount_succ, Nat.cast_add, Nat.cast_ite]
    by_cases h0 : lens n = 0
    · rw [if_pos (.inl h0), if_pos (.inl h0), if_neg fun h => h.1 h0]
      ring
    simp only [h0, false_or, ne_eq, not_false_eq_true, true_and]
    rcases lt_trichotomy (lens n).toNat L with hL | rfl | hL
    · rw [if_neg (by omega), if_neg (by omega), if_neg (by omega)]
      ring
    · rw [if_neg (by omega), if_pos le_rfl, if_pos rfl]
      ring
    · rw [if_pos (by omega), if_pos (by omega), if_neg (by omega)]
      ring

/-- The base code of a tier is the Kraft sum of the lengths below it, in units of `2^-L`. -/
theorem tierBase_eq_kraftBelow (lens : Nat → Word) (n L : Nat) :
    (tierBase lens n L : ℚ) = 2 ^ L * kraftBelow lens n L := by
  induction L with
  | zero => simp [tierBase, kraftBelow]
  | succ L ih =>
    rw [tierBase, kraftBelow_succ]
    push_cast
    rw [ih, pow_succ, one_div, inv_pow]
    field_simp

theorem tierBase_le_two_pow {lens : Nat → Word} {n : Nat} (h : Kraft lens n) (L : Nat) : tierBase lens n L ≤ 2 ^ L := by
  have hle : (tierBase lens n L : ℚ) ≤ 2 ^ L := by
    rw [tierBase_eq_kraftBelow]
    exact mul_le_of_le_one_right (by positivity) (kraftBelow_le_one h L)
  exact_mod_cast hle

/-- The codes of tier `L` end at or below `2^L`, since twice their end is the next base code. -/
theorem tierEnd_le_two_pow {lens : Nat → Word} {n : Nat} (h : Kraft lens n) (L : Nat) :
    tierBase lens n L + tierCount lens n L ≤ 2 ^ L := by
  have hnext := tierBase_le_two_pow h (L + 1)
  rw [tierBase, Nat.pow_succ] at hnext
  omega

theorem symbolCode_lt_two_pow {lens : Nat → Word} {n i : Nat} (h : Kraft lens n) (hi : i < n) (h0 : lens i ≠ 0) :
    symbolCode lens n i < 2 ^ (lens i).toNat :=
  (Nat.add_lt_add_left (lengthCount_lt_tierCount hi h0) _).trans_le (tierEnd_le_two_pow h _)

/-! ### The first bits of a code lie above the codes of their tier -/

/-- `d` bits appended to the end of tier `k` give at most the base code of tier `k + d`. -/
theorem tierEnd_mul_le_tierBase (lens : Nat → Word) (n k d : Nat) :
    (tierBase lens n k + tierCount lens n k) * 2 ^ (d + 1) ≤ tierBase lens n (k + (d + 1)) := by
  induction d with
  | zero => rw [tierBase, Nat.mul_comm]; rfl
  | succ d ih =>
    rw [← Nat.add_assoc k, tierBase, Nat.pow_succ, ← Nat.mul_assoc]
    omega

theorem tierEnd_le_firstBits {lens : Nat → Word} {n k d c : Nat} (h : tierBase lens n (k + (d + 1)) ≤ c) :
    tierBase lens n k + tierCount lens n k ≤ c / 2 ^ (d + 1) :=
  (Nat.le_div_iff_mul_le (Nat.two_pow_pos _)).2 ((tierEnd_mul_le_tierBase lens n k d).trans h)

/-! ### The symbols of a tier -/

theorem tierSymbols_succ (lens : Nat → Word) (n L : Nat) :
    tierSymbols lens (n + 1) L = tierSymbols lens n L ++ if (lens n).toNat = L then [n] else [] := by
  simp [tierSymbols, List.range_succ, List.filter_append, List.filter_singleton]

theorem length_tierSymbols (lens : Nat → Word) (n L : Nat) : (tierSymbols lens n L).length = lengthCount lens L n := by
  induction n with
  | zero => rfl
  | succ n ih => rw [tierSymbols_succ, lengthCount_succ, List.length_append, ih]; split <;> rfl

/-- A symbol stands in its tier at its place. -/
theorem getElem?_tierSymbols {lens : Nat → Word} {n i : Nat} (hi : i < n) :
    (tierSymbols lens n (lens i).toNat)[lengthCount lens (lens i).toNat i]? = some i := by
  induction n with
  | zero => exact absurd hi (Nat.not_lt_zero i)
  | succ n ih =>
    rw [tierSymbols_succ]
    rcases Nat.lt_or_eq_of_le (Nat.le_of_lt_succ hi) with hlt | rfl
    · have hplace := lengthCount_lt_lengthCount (lens := lens) hlt
      rw [← length_tierSymbols lens n] at hplace
      rw [List.getElem?_append_left hplace, ih hlt]
    · rw [if_pos rfl, ← length_tierSymbols]
      exact List.getElem?_concat_length

/-! ### The decoder -/

/-- The bits so far are the code at place `p` of tier `L + 1`. -/
theorem canonicalDecode_code {lens : Nat → Word} {n L acc p i : Nat} {b : Bool} (bits : List Bool)
    (hv : 2 * acc + b.toNat = tierBase lens n (L + 1) + p) (hp : (tierSymbols lens n (L + 1))[p]? = some i) :
    canonicalDecode lens n L acc (b :: bits) = some (i, bits) := by
  simp only [canonicalDecode, hv, Nat.le_add_right, if_true, Nat.add_sub_cancel_left, hp]

/-- The bits so far lie above the codes of tier `L + 1`. -/
theorem canonicalDecode_above {lens : Nat → Word} {n L acc : Nat} {b : Bool} (bits : List Bool)
    (hv : tierBase lens n (L + 1) + tierCount lens n (L + 1) ≤ 2 * acc + b.toNat) :
    canonicalDecode lens n L acc (b :: bits) = canonicalDecode lens n (L + 1) (2 * acc + b.toNat) bits := by
  have hnone : (tierSymbols lens n (L + 1))[2 * acc + b.toNat - tierBase lens n (L + 1)]? = none := by
    rw [List.getElem?_eq_none_iff, length_tierSymbols, ← tierCount_of_ne_zero lens n (Nat.add_one_ne_zero L)]
    omega
  simp only [canonicalDecode, hnone, ite_self]

theorem codeBits_succ (d c : Nat) : codeBits (d + 1) c = c.testBit d :: codeBits d c := by
  simp only [codeBits, List.range_succ_eq_map, List.map_cons, List.map_map, Nat.add_sub_cancel, Nat.sub_zero]
  refine congrArg _ (List.map_congr_left fun k _ => ?_)
  simp only [Function.comp, Nat.succ_eq_add_one, Nat.add_comm k 1, Nat.sub_add_eq]

/-- The next bit of a number after its bits from `d + 1` on. -/
theorem two_mul_div_add_testBit (c d : Nat) : 2 * (c / 2 ^ (d + 1)) + (c.testBit d).toNat = c / 2 ^ d := by
  rw [Nat.toNat_testBit, Nat.pow_succ, ← Nat.div_div_eq_div_mul]
  exact Nat.div_add_mod _ 2

/-- Past the first bits of a code, the decoder finds the symbol with the last `d + 1` bits. -/
theorem canonicalDecode_codeBits {lens : Nat → Word} {n i d k : Nat} (hi : i < n) (hk : k + (d + 1) = (lens i).toNat)
    (rest : List Bool) :
    canonicalDecode lens n k (symbolCode lens n i / 2 ^ (d + 1)) (codeBits (d + 1) (symbolCode lens n i) ++ rest) =
      some (i, rest) := by
  have hbit := two_mul_div_add_testBit (symbolCode lens n i) d
  rw [codeBits_succ, List.cons_append]
  induction d generalizing k with
  | zero =>
    rw [Nat.pow_zero, Nat.div_one] at hbit
    rw [Nat.zero_add] at hk
    refine canonicalDecode_code _ (hbit.trans (by rw [symbolCode, hk])) ?_
    rw [hk]
    exact getElem?_tierSymbols hi
  | succ d ih =>
    have habove : tierBase lens n (k + 1) + tierCount lens n (k + 1) ≤ symbolCode lens n i / 2 ^ (d + 1) := by
      refine tierEnd_le_firstBits ?_
      rw [show k + 1 + (d + 1) = (lens i).toNat by omega]
      exact Nat.le_add_right _ _
    rw [canonicalDecode_above _ (hbit ▸ habove), hbit, codeBits_succ]
    exact ih (by omega) (two_mul_div_add_testBit _ d)

/-- The decoder recovers a symbol from its code, whose value it starts to read from no bits. -/
theorem canonicalDecode_symbolCode {lens : Nat → Word} {n i : Nat} (h : Kraft lens n) (hi : i < n) (h0 : lens i ≠ 0)
    (rest : List Bool) :
    canonicalDecode lens n 0 0 (codeBits (lens i).toNat (symbolCode lens n i) ++ rest) = some (i, rest) := by
  obtain ⟨d, hd⟩ := Nat.exists_eq_add_of_lt (BitVec.toNat_pos_of_ne_zero h0)
  have hlt := symbolCode_lt_two_pow h hi h0
  have hdec := canonicalDecode_codeBits (lens := lens) (k := 0) (d := d) hi (by omega) rest
  rw [Nat.zero_add] at hd
  rw [hd] at hlt ⊢
  rwa [Nat.div_eq_of_lt hlt] at hdec

/-- A code that begins with another one decodes to both symbols. -/
theorem eq_of_codeBits_isPrefix {lens : Nat → Word} {n i j : Nat} (h : Kraft lens n) (hi : i < n) (hj : j < n)
    (hi0 : lens i ≠ 0) (hj0 : lens j ≠ 0)
    (hp : codeBits (lens i).toNat (symbolCode lens n i) <+: codeBits (lens j).toNat (symbolCode lens n j)) :
    i = j := by
  obtain ⟨t, ht⟩ := hp
  have hdj := canonicalDecode_symbolCode h hj hj0 []
  rw [List.append_nil, ← ht, canonicalDecode_symbolCode h hi hi0] at hdj
  exact congrArg Prod.fst (Option.some.inj hdj)

theorem maxbitsMax_le {s : State} (h : StateInv s) : s.params.maxbitsMax ≤ 31 := by
  have hp := h.params
  simp only [Params.wellFormed, Bool.and_eq_true, decide_eq_true_eq] at hp
  omega

/-- Settles O33: the codes fit their lengths, so they do not wrap, and the decoder recovers each of them; so no code
begins with another. -/
theorem kraftCodesDecode : Obligations.KraftCodesDecode := by
  intro u s lens h hr hl hK
  have hm : caMaxbits s ≤ 32 := hr.maxbitsFits.trans ((maxbitsMax_le h).trans (by decide))
  obtain ⟨r, hrun, hok, codes⟩ := runCommand_assign_toNat (u := u) h hr hl fun i hi h0 =>
    (symbolCode_lt_two_pow hK hi h0).trans_le (Nat.pow_le_pow_right two_pos ((hl i hi).trans hm))
  refine ⟨r, hrun, hok, fun i hi h0 => ?_, fun i j hi hj hij hi0 hj0 => ?_⟩
  · obtain ⟨c, hc, hcc⟩ := codes i hi h0
    refine ⟨c, hc, ?_⟩
    rw [hcc]
    exact ⟨symbolCode_lt_two_pow hK hi h0, canonicalDecode_symbolCode hK hi h0⟩
  · obtain ⟨a, ha, hac⟩ := codes i hi hi0
    obtain ⟨b, hb, hbc⟩ := codes j hj hj0
    refine ⟨a, b, ha, hb, fun hp => hij (eq_of_codeBits_isPrefix hK hi hj hi0 hj0 ?_)⟩
    rwa [hac, hbc] at hp

end Sys2Proof.Proofs.Assignment

/-!
PROOFS. The family of spec/42_estimate.md: the values of a cost (CostChecks, ClampWindow and ConversionsExact; R194,
R198, R199). The order of the encodings is the order of the real numbers, and negation changes the sign alone.
-/
namespace Sys2Proof.Proofs.Estimation

open Sys2Proof.Machine Sys2Proof.Machine.Fp Sys2Proof.Machine.Log Sys2Proof.Safety

/-! ### The order of values -/

theorem abs_orderKey (a : F64) : |orderKey a| = magnitude a := by
  rw [orderKey]
  split
  · rw [abs_neg, Nat.abs_cast]
  · exact Nat.abs_cast _

theorem isFinite_iff (a : F64) : isFinite a = true ↔ |orderKey a| < infMag := by
  rw [isFinite, decide_eq_true_eq, abs_orderKey, Nat.cast_lt]

theorem isNaN_eq_false_iff (a : F64) : isNaN a = false ↔ |orderKey a| ≤ infMag := by
  rw [isNaN, decide_eq_false_iff_not, not_lt, abs_orderKey, Nat.cast_le]

theorem flt_iff (a b : F64) : flt a b = true ↔ isNaN a = false ∧ isNaN b = false ∧ orderKey a < orderKey b := by
  simp only [flt, Bool.and_eq_true, Bool.not_eq_true', decide_eq_true_eq, and_assoc]

theorem realOf_zero : realOf 0#64 = 0 := by
  rw [realOf, show scaled 0#64 = 0 by decide, Int.cast_zero, zero_div]

theorem realOf_lt_iff (a b : F64) : realOf a < realOf b ↔ orderKey a < orderKey b := by
  rw [← not_le, realOf_le_iff, not_le]

theorem flt_iff_of_isFinite {a b : F64} (ha : isFinite a = true) (hb : isFinite b = true) :
    flt a b = true ↔ realOf a < realOf b := by
  rw [flt_iff, realOf_lt_iff]
  exact ⟨fun h => h.2.2, fun h => ⟨isNaN_of_isFinite ha, isNaN_of_isFinite hb, h⟩⟩

/-- A value strictly between two others is finite, whatever they are. -/
theorem isFinite_of_flt {a v b : F64} (ha : flt a v = true) (hb : flt v b = true) : isFinite v = true := by
  obtain ⟨na, -, hav⟩ := (flt_iff a v).1 ha
  obtain ⟨-, nb, hvb⟩ := (flt_iff v b).1 hb
  rw [isNaN_eq_false_iff, abs_le] at na nb
  rw [isFinite_iff, abs_lt]
  exact ⟨na.1.trans_lt hav, hvb.trans_le nb.2⟩

theorem flt_zero_iff {v : F64} (hv : isFinite v = true) : flt v 0#64 = true ↔ realOf v < 0 := by
  rw [flt_iff_of_isFinite hv (by decide), realOf_zero]

/-! ### The checks of a cost -/

theorem costError_of_not_isFinite {v : F64} (h : isFinite v = false) : costError v = some .costNonfinite := by
  simp only [costError, h, Bool.not_false, if_true]

theorem costError_of_isFinite {v : F64} (h : isFinite v = true) :
    costError v = if flt v 0#64 then some .costNegative else none := by
  simp only [costError, h, Bool.not_true, Bool.false_eq_true, if_false]

/-- Settles O39: for a finite value the test against +0 is the comparison with the real number 0. -/
theorem costChecks : Obligations.CostChecks := by
  intro v
  refine ⟨costError_of_not_isFinite, fun hf h => ?_, fun hf h => ?_, rfl, rfl⟩
  · rw [costError_of_isFinite hf, if_pos ((flt_zero_iff hf).2 h)]
  · rw [costError_of_isFinite hf, if_neg fun hlt => h.not_gt ((flt_zero_iff hf).1 hlt)]

/-! ### Negation -/

theorem magnitude_eq_toNat_setWidth (a : F64) : magnitude a = (a.setWidth 63).toNat := by
  rw [BitVec.toNat_setWidth, magnitude]

theorem magnitude_negate (a : F64) : magnitude (negate a) = magnitude a := by
  rw [magnitude_eq_toNat_setWidth, magnitude_eq_toNat_setWidth, negate, BitVec.setWidth_xor,
    show BitVec.setWidth 63 0x8000000000000000#64 = 0#63 by decide, BitVec.xor_zero]

theorem negative_negate (a : F64) : negative (negate a) = !negative a := by
  rw [negative, negate, BitVec.msb_xor, show BitVec.msb 0x8000000000000000#64 = true by decide, Bool.xor_true, negative]

theorem isFinite_negate (a : F64) : isFinite (negate a) = isFinite a := by rw [isFinite, magnitude_negate, isFinite]

theorem realOf_negate (a : F64) : realOf (negate a) = -realOf a := by
  have hs : scaled (negate a) = -scaled a := by
    rw [scaled, scaled, magnitude_negate, negative_negate]
    cases negative a <;> simp
  rw [realOf, realOf, hs, Int.cast_neg, neg_div]

/-! ### The clamp -/

/-- Where the clamp gives +0: strictly between -EPS and 0, in the order of the encodings (R198). -/
def InWindow (eps v : F64) : Prop := flt v 0#64 = true ∧ flt (negate eps) v = true

theorem clampCost_of_inWindow {eps v : F64} (h : InWindow eps v) : clampCost eps v = 0#64 := by
  rw [clampCost, fgt, h.1, h.2]; rfl

theorem clampCost_of_not_inWindow {eps v : F64} (h : ¬ InWindow eps v) : clampCost eps v = v := by
  rw [clampCost, fgt, if_neg]
  rwa [Bool.and_eq_true]

theorem inWindow_iff {eps : F64} (he : isFinite eps = true) (v : F64) :
    InWindow eps v ↔ isFinite v = true ∧ -realOf eps < realOf v ∧ realOf v < 0 := by
  have hne : isFinite (negate eps) = true := (isFinite_negate eps).trans he
  constructor
  · rintro ⟨h0, hlow⟩
    have hv := isFinite_of_flt hlow h0
    rw [flt_iff_of_isFinite hne hv, realOf_negate] at hlow
    exact ⟨hv, hlow, (flt_zero_iff hv).1 h0⟩
  · rintro ⟨hv, hlow, h0⟩
    exact ⟨(flt_zero_iff hv).2 h0, by rwa [flt_iff_of_isFinite hne hv, realOf_negate]⟩

/-- Settles O38: the window lies among the finite values, where it is the interval of real numbers; neither -EPS nor -0
lies in it. -/
theorem clampWindow : Obligations.ClampWindow := by
  refine ⟨fun eps v he => ⟨fun hv hlow h0 => ?_, fun hout => ?_⟩, rfl, ?_, fun eps => ?_⟩
  · exact clampCost_of_inWindow ((inWindow_iff he v).2 ⟨hv, hlow, h0⟩)
  · exact clampCost_of_not_inWindow fun h => hout ((inWindow_iff he v).1 h)
  · exact clampCost_of_not_inWindow fun h => absurd h.2 (by decide)
  · exact clampCost_of_not_inWindow fun h => absurd h.1 (by decide)

/-! ### Conversions -/

theorem realOf_toF64 {k : Nat} (h : k < 2 ^ 53) : realOf (toF64 k) = k := by
  rw [realOf, scaled_toF64 h]
  push_cast
  exact mul_div_cancel_right₀ _ (by positivity)

/-- Settles O40: at most 1024 counts of 32 bits sum to less than 2^42. -/
theorem conversionsExact : Obligations.ConversionsExact := by
  refine ⟨fun k hk => ⟨isFinite_toF64 hk, realOf_toF64 hk⟩, fun s cnts h hr => ?_⟩
  have hsum : countSum cnts (eeN s) < 2 ^ 42 := countSum_lt (hr.nFits.trans (Scope.nMax_le h))
  exact ⟨s.ee.regN.isLt.trans (by decide), hsum, hsum.trans (by decide), fun i _ => (cnts i).isLt.trans (by decide)⟩

end Sys2Proof.Proofs.Estimation

/-!
PROOFS. The family of spec/42_estimate.md: the default logarithm units at the integers the block converts
(DefaultUnitsConform and Log2OfPowersExact, R196).
-/
namespace Sys2Proof.Proofs.Estimation

open Sys2Proof.Machine Sys2Proof.Machine.Log Sys2Proof.Safety

/-! ### P1 to P3 -/

theorem nearest_log2Unit_toF64 {k : Nat} (hk : 1 ≤ k) (h : k < 2 ^ 53) :
    Nearest (log2Unit (Fp.toF64 k)) (Real.logb 2 k) :=
  logb_unitsIn_toF64 hk h ▸ nearest_log2Unit (inDomain_toF64 hk h)

theorem nearest_lnUnit_toF64 {k : Nat} (hk : 1 ≤ k) (h : k < 2 ^ 53) :
    Nearest (lnUnit (Fp.toF64 k)) (Real.log k) :=
  log_unitsIn_toF64 hk h ▸ nearest_lnUnit (inDomain_toF64 hk h)

/-- Values nearest to the images of integers under a strictly rising function rise with the integers. -/
theorem fle_of_nearest {f : Nat → F64} {g : ℝ → ℝ} (hg : StrictMonoOn g (Set.Ioi 0)) {j k : Nat} (hj : 1 ≤ j)
    (hjk : j ≤ k) (nj : Nearest (f j) (g j)) (nk : Nearest (f k) (g k)) : fle (f j) (f k) := by
  rcases Nat.eq_or_lt_of_le hjk with rfl | hlt
  · exact ⟨Fp.isNaN_of_isFinite nj.1, Fp.isNaN_of_isFinite nj.1, le_rfl⟩
  · have hj0 : (0 : ℝ) < j := by exact_mod_cast hj
    have hlt' : (j : ℝ) < k := by exact_mod_cast hlt
    exact nearest_mono nj nk (hg hj0 (hj0.trans hlt') hlt')

/-- Settles O46: the units are exact at 1, and deliver values nearest to logarithms, which are finite and rise. -/
theorem defaultUnitsConform : Obligations.DefaultUnitsConform := by
  have top {k : Nat} (h : k < 2 ^ 42) : k < 2 ^ 53 := h.trans (by decide)
  simp only [Obligations.DefaultUnitsConform, P1, P2, P3, logUnits_log2, logUnits_ln]
  refine ⟨⟨log2Unit_one, lnUnit_one⟩, fun j k hj hjk hk => ?_, fun k hk h => ?_⟩
  · have hk1 : 1 ≤ k := hj.trans hjk
    have hj53 : j < 2 ^ 53 := hjk.trans_lt (top hk)
    exact ⟨fle_of_nearest (f := fun k => log2Unit (Fp.toF64 k)) (Real.strictMonoOn_logb one_lt_two) hj hjk
        (nearest_log2Unit_toF64 hj hj53) (nearest_log2Unit_toF64 hk1 (top hk)),
      fle_of_nearest (f := fun k => lnUnit (Fp.toF64 k)) Real.strictMonoOn_log hj hjk
        (nearest_lnUnit_toF64 hj hj53) (nearest_lnUnit_toF64 hk1 (top hk))⟩
  · exact ⟨(nearest_log2Unit_toF64 hk (top h)).1, (nearest_lnUnit_toF64 hk (top h)).1⟩

/-! ### Powers of two -/

/-- Where the first enclosure is a single multiple, that multiple is what is rounded. -/
theorem correctlyRounded_of_first_eq {bits : Nat → Nat} {r : Nat → Int × Int}
    (h : ¬ RoundsAlike (bits firstPrecision) (r firstPrecision) → ∃ n, (openCell (bits n) (r n)).isSome = true)
    {c : Int} (hr : r firstPrecision = (c, c)) :
    correctlyRounded bits r h = roundDyadic (bits firstPrecision) c := by
  rw [correctlyRounded, dif_pos (by rw [hr]), hr]

/-- An integer as a multiple of `2^-bits` is rounded as the integer is converted. -/
theorem roundDyadic_mul_two_pow {bits : Nat} (hb : bits ≤ 1074) (k : Nat) :
    roundDyadic bits ((k : Int) * 2 ^ bits) = Fp.toF64 k := by
  have hneg : ¬ (k : Int) * 2 ^ bits < 0 := not_lt.2 (by positivity)
  have habs : ((k : Int) * 2 ^ bits).natAbs * 2 ^ (1074 - bits) = k * 2 ^ 1074 := by
    rw [Int.natAbs_mul, Int.natAbs_pow, Int.natAbs_natCast, Nat.mul_assoc]
    exact congrArg (k * ·) (pow_mul_pow_sub 2 hb)
  rw [roundDyadic, habs, decide_eq_false hneg, Fp.toF64]

/-- Settles O48: the enclosure of the logarithm of a power of two is the exponent alone, and rounding keeps it. -/
theorem log2OfPowersExact : Obligations.Log2OfPowersExact := by
  intro k hk
  have h53 : 2 ^ k < 2 ^ 53 := Nat.pow_lt_pow_right one_lt_two (hk.trans (by decide))
  have hr : log2Enclosure firstPrecision (unitsIn (Fp.toF64 (2 ^ k))) =
      ((k : Int) * 2 ^ firstPrecision, (k : Int) * 2 ^ firstPrecision) := by
    rw [unitsIn_toF64 h53, ← Nat.pow_add, log2Enclosure_two_pow, Nat.cast_add, Nat.cast_ofNat, add_sub_cancel_right]
  rw [logUnits_log2, log2Unit, dif_pos (inDomain_toF64 Nat.one_le_two_pow h53),
    correctlyRounded_of_first_eq (bits := fun n => n) (r := fun n => log2Enclosure n (unitsIn (Fp.toF64 (2 ^ k)))) _ hr]
  exact roundDyadic_mul_two_pow (by decide) k

end Sys2Proof.Proofs.Estimation

/-!
PROOFS. The family of spec/42_estimate.md: what ESTIMATE leaves behind (EstimateResult and EstimateErrors).
-/
namespace Sys2Proof.Proofs.Estimation

open Sys2Proof.Machine Sys2Proof.Safety Sys2Proof.Proofs.Scope Sys2Proof.Proofs.Commands Sys2Proof.Proofs.Results

/-! ### Success -/

/-- No symbol below `n` has a cost that is an error (R199). -/
def CostsPass (u : LogUnits) (s : State) (cnts : Nat → Word) : Prop :=
  ∀ i, i < eeN s → costError (symbolCost u s.params.eps cnts (eeN s) i) = none

/-- ESTIMATE without a cost that is an error succeeds and writes the costs (R190 to R202). -/
theorem runCommand_estimate_succeeds {u : LogUnits} {s : State} {cnts : Nat → Word} (h : StateInv s)
    (hr : EstimateReady s cnts) (ok : CostsPass u s cnts) :
    ∃ r, runCommand u .estimate .ee s = .next r ∧ EeSucceeded s r ∧
      CostedFrom u s.params.eps cnts (eeN s) 0 s.mem r.mem := by
  obtain ⟨m', hm, hrun⟩ := complete_estimate (u := u) (s := s.accept .ee) (cnts := cnts) rfl hr.nFits
    (nMax_le (stateInv_acceptEe h)) hr.nPositive hr.written ok
  exact ⟨{ (s.accept .ee).finish .ee with mem := m' }, (runCommand_accepted (e := .ee) hr.idle).trans hrun,
    ⟨rfl, rfl, rfl, rfl, rfl, rfl, rfl, rfl, rfl⟩, hm⟩

/-- Settles O36: an idle EE accepts, and the cost loop writes the entries below `n` and nothing else. -/
theorem estimateResult : Obligations.EstimateResult := by
  intro u s cnts h hr ok
  obtain ⟨r, hrun, hok, hm⟩ := runCommand_estimate_succeeds h hr ok
  refine ⟨s.accept .ee, r, exec_engineCommand_idle (e := .ee) hr.idle,
    (runCommand_accepted (e := .ee) hr.idle).symm.trans hrun, hok, fun i => hm.costs i (Nat.zero_le i), fun a ha => ?_⟩
  refine hm.others a ?_
  simp only [bitlenAddr] at ha ⊢
  omega

/-! ### Errors -/

theorem inBitlen_iff (n a : Nat) : inBitlen n a = true ↔ bitlenAddr 0 ≤ a ∧ a < bitlenAddr n := by
  rw [inBitlen, Bool.and_eq_true, decide_eq_true_eq, decide_eq_true_eq]

/-- Forgetting the first `n` entries keeps every other byte (R201). -/
theorem keepsOutside_forget_inBitlen (m : Memory) (n : Nat) :
    KeepsOutside (bitlenAddr 0) (8 * n) m (m.forget (inBitlen n)) := by
  intro a ha
  rw [Memory.lookup_forget, if_neg]
  rw [inBitlen_iff]
  simp only [bitlenAddr] at ha ⊢
  omega

theorem readWord_forget_inBitlen {m : Memory} {n i : Nat} (high : Bool) (hi : i < n) :
    (m.forget (inBitlen n)).readWord (bitlenHalfAddr i high) = none := by
  refine Memory.readWord_forget_of_forgotten ((inBitlen_iff _ _).2 ?_)
  simp only [bitlenHalfAddr, bitlenAddr]
  split <;> omega

/-- EE after an error raised in the command it accepted in `s` (R201, R236). -/
theorem eeFailed_raiseEe_accept (s : State) (c : ErrCode) (ix : Word) (v : BitVec 64) :
    EeFailed s (raiseEe c ix v (s.accept .ee)) c.code ix v where
  rest := rfl
  regN := rfl
  idle := rfl
  done := rfl
  err := rfl
  code := rfl
  index := rfl
  valueLo := rfl
  valueHi := rfl
  erased _ high hi hN := readWord_forget_inBitlen high (lt_min hi hN)
  kept := keepsOutside_forget_inBitlen s.mem (min (eeN s) s.params.nMax)

theorem estimate_failed {u : LogUnits} {s : State} {c : ErrCode} {ix : Word} {v : BitVec 64} (h : StateInv s)
    (hb : s.busy .ee = false) (hf : EstimateFails u s c ix v) :
    ∃ r, runCommand u .estimate .ee s = .next r ∧ EeFailed s r c.code ix v :=
  ⟨_, runCommand_estimate_fails h hb hf, eeFailed_raiseEe_accept s c ix v⟩

/-- Settles O37: the ways in which ESTIMATE fails; the first cost that is an error is the one reported, as non-finite
before it is compared with 0. -/
theorem estimateErrors : Obligations.EstimateErrors := by
  intro u s h hb
  refine ⟨fun hn => estimate_failed h hb (.nCapacity hn),
    fun h0 => estimate_failed h hb (.nZero (BitVec.eq_of_toNat_eq h0)), fun cnts k hr hk before => ?_⟩
  have failed {c : ErrCode} (bad : costError (symbolCost u s.params.eps cnts (eeN s) k) = some c) :=
    estimate_failed h hb (.cost hr.nFits hk hr.written before bad)
  exact ⟨fun hf => failed (costError_of_not_isFinite hf),
    fun hf hneg => failed (c := .costNegative) ((costError_of_isFinite hf).trans (if_pos hneg))⟩

/-- An ESTIMATE that ends without an error met no cost that is one. -/
theorem costsPass_of_no_err {u : LogUnits} {s r : State} {cnts : Nat → Word} (h : StateInv s)
    (hr : EstimateReady s cnts) (hrun : runCommand u .estimate .ee s = .next r) (herr : r.ee.err = false) :
    CostsPass u s cnts := by
  rcases forall_or_first_not (fun i => costError (symbolCost u s.params.eps cnts (eeN s) i) = none) (eeN s) with
    ok | ⟨k, hk, hbad, before⟩
  · exact ok
  · obtain ⟨c, hc⟩ := Option.ne_none_iff_exists'.1 hbad
    obtain ⟨r', hrun', hfail⟩ := estimate_failed h hr.idle (.cost hr.nFits hk hr.written before hc)
    obtain rfl : r = r' := Host.Outcome.next.inj (hrun.symm.trans hrun')
    exact absurd hfail.err (by rw [herr]; exact Bool.false_ne_true)

end Sys2Proof.Proofs.Estimation

/-!
PROOFS. The family of spec/42_estimate.md: costs under logarithm units with the properties P1 to P3
(ConformingUnitsNeverErr, MonotonicCost, ZeroCountCostsAsOne and SingleCountCostsZero; R203 to R208).
-/
namespace Sys2Proof.Proofs.Estimation

open Sys2Proof.Machine Sys2Proof.Machine.Fp Sys2Proof.Safety

/-! ### Differences -/

theorem magnitude_le_magnitude_or (p m : F64) : magnitude m ≤ magnitude (p ||| m) := by
  rw [magnitude_eq_toNat_setWidth, magnitude_eq_toNat_setWidth, BitVec.setWidth_or, BitVec.toNat_or]
  exact Nat.right_le_or

/-- A NaN is not finite, whatever its payload. -/
theorem isFinite_nanOf (p : BitVec 64) : isFinite (nanOf p) = false := by
  rw [isFinite, decide_eq_false_iff_not, not_lt, nanOf]
  split
  · exact le_trans (b := magnitude 0x7FF8000000000000#64) (by decide) (magnitude_le_magnitude_or _ _)
  · exact magnitude_le_magnitude_or p 0x7FF0000000000000#64

theorem isFinite_eq_not (a : F64) : isFinite a = !(isNaN a || isInf a) := by
  rw [Bool.eq_iff_iff, isFinite, isNaN, isInf]
  simp only [decide_eq_true_eq, Bool.not_eq_true', Bool.or_eq_false_iff, decide_eq_false_iff_not]
  omega

theorem not_isFinite_of_isInf {a : F64} (h : isInf a = true) : isFinite a = false := by
  rw [isFinite_eq_not, h, Bool.or_true, Bool.not_true]

/-- A finite difference has finite operands: every other case of subtraction delivers a NaN or an infinity. -/
theorem isFinite_of_isFinite_fsub {a b : F64} (h : isFinite (fsub a b) = true) :
    isFinite a = true ∧ isFinite b = true := by
  rw [fsub] at h
  split at h
  · simp [isFinite_nanOf] at h
  · next hn =>
    split at h
    · next ha =>
      split at h
      · simp [isFinite_nanOf] at h
      · simp [not_isFinite_of_isInf ha] at h
    · next ha =>
      split at h
      · next hb => simp [isFinite_negate, not_isFinite_of_isInf hb] at h
      · next hb =>
        rw [Bool.not_eq_true, Bool.or_eq_false_iff] at hn
        rw [isFinite_eq_not, isFinite_eq_not, hn.1, hn.2, Bool.eq_false_iff.2 ha, Bool.eq_false_iff.2 hb]
        exact ⟨rfl, rfl⟩

theorem fle_refl {a : F64} (h : isNaN a = false) : fle a a := ⟨h, h, le_rfl⟩

/-- A value between two finite ones is finite. -/
theorem isFinite_of_fle {a v b : F64} (ha : isFinite a = true) (hb : isFinite b = true) (hav : fle a v)
    (hvb : fle v b) : isFinite v = true := by
  rw [isFinite_iff, abs_lt] at ha hb ⊢
  exact ⟨ha.1.trans_le hav.2.2, hvb.2.2.trans_lt hb.2⟩

/-- Subtraction is monotone in its subtrahend (R205). -/
theorem fsub_le_fsub {a b c : F64} (ha : isFinite a = true) (hb : isFinite b = true) (hc : isFinite c = true)
    (h : fle c b) : fle (fsub a b) (fsub a c) := by
  refine ⟨not_isNaN_fsub ha hb, not_isNaN_fsub ha hc, ?_⟩
  rw [orderKey_fsub ha hb, orderKey_fsub ha hc]
  exact signedKey_mono (Int.sub_le_sub_left ((scaled_le_iff c b).2 h.2.2) _)

/-- A difference of `a` and a value between 0 and `a` lies between 0 and `a` (R204). -/
theorem fsub_between {a b : F64} (ha : isFinite a = true) (hb : isFinite b = true) (h0 : fle 0#64 b) (h : fle b a) :
    fle 0#64 (fsub a b) ∧ fle (fsub a b) a := by
  have low := fsub_le_fsub ha ha hb h
  have high := fsub_le_fsub ha hb (by decide) h0
  rw [fsub_self ha] at low
  rw [fsub_zero ha] at high
  exact ⟨low, high⟩

/-- `fsub(x, +0) = x` for every `x` that is no NaN (R203, R207). -/
theorem fsub_zero_of_not_isNaN {a : F64} (h : isNaN a = false) : fsub a 0#64 = a := by
  have h0 : isNaN 0#64 = false ∧ isInf 0#64 = false := by decide
  cases hi : isInf a with
  | true => rw [fsub, h, hi, h0.1, h0.2]; rfl
  | false => exact fsub_zero (by rw [isFinite_eq_not, h, hi]; rfl)

/-! ### Non-negative costs, and the clamp -/

theorem not_flt_zero_of_nonneg {v : F64} (h : fle 0#64 v) : ¬ flt v 0#64 = true := by
  intro hlt
  obtain ⟨-, -, hkey⟩ := (flt_iff v 0#64).1 hlt
  exact hkey.not_ge h.2.2

theorem clampCost_of_nonneg {eps v : F64} (h : fle 0#64 v) : clampCost eps v = v :=
  clampCost_of_not_inWindow fun hw => not_flt_zero_of_nonneg h hw.1

theorem costError_of_nonneg {v : F64} (hf : isFinite v = true) (h : fle 0#64 v) : costError v = none :=
  (costError_of_isFinite hf).trans (if_neg (not_flt_zero_of_nonneg h))

/-- The clamp makes no infinity or NaN finite. -/
theorem isFinite_of_isFinite_clampCost {eps v : F64} (h : isFinite (clampCost eps v) = true) : isFinite v = true := by
  by_cases hw : InWindow eps v
  · exact isFinite_of_flt hw.2 hw.1
  · rwa [clampCost_of_not_inWindow hw] at h

/-- The clamp is monotone: it moves a value up to +0 only, past none outside the window (R205). -/
theorem clampCost_mono {eps x y : F64} (h : fle x y) : fle (clampCost eps x) (clampCost eps y) := by
  obtain ⟨nx, ny, hxy⟩ := h
  by_cases hx : InWindow eps x <;> by_cases hy : InWindow eps y
  · rw [clampCost_of_inWindow hx, clampCost_of_inWindow hy]
    exact fle_refl (by decide)
  · rw [clampCost_of_inWindow hx, clampCost_of_not_inWindow hy]
    refine ⟨by decide, ny, not_lt.1 fun hy0 => hy ⟨(flt_iff _ _).2 ⟨ny, by decide, hy0⟩, ?_⟩⟩
    obtain ⟨ne, -, hlow⟩ := (flt_iff _ _).1 hx.2
    exact (flt_iff _ _).2 ⟨ne, ny, hlow.trans_le hxy⟩
  · rw [clampCost_of_not_inWindow hx, clampCost_of_inWindow hy]
    exact ⟨nx, by decide, hxy.trans ((flt_iff _ _).1 hy.1).2.2.le⟩
  · rw [clampCost_of_not_inWindow hx, clampCost_of_not_inWindow hy]
    exact ⟨nx, ny, hxy⟩

theorem isFinite_of_costError_none {v : F64} (h : costError v = none) : isFinite v = true := by
  by_contra hf
  rw [costError_of_not_isFinite (Bool.eq_false_iff.2 hf)] at h
  exact absurd h (Option.some_ne_none _)

/-! ### Counts -/

theorem toNat_le_countSum (cnts : Nat → Word) {n i : Nat} (hi : i < n) : (cnts i).toNat ≤ countSum cnts n :=
  Finset.single_le_sum (f := fun i => (cnts i).toNat) (fun _ _ => Nat.zero_le _) (Finset.mem_range.2 hi)

theorem toNat_lt_two_pow_42 (c : Word) : c.toNat < 2 ^ 42 := c.isLt.trans (by decide)

theorem rawCost_of_zero {u : LogUnits} {b : F64} : rawCost u b 0 = b := if_pos rfl

theorem rawCost_of_ne_zero {u : LogUnits} {b : F64} {c : Word} (h : c ≠ 0) :
    rawCost u b c = fsub b (u.log2 (toF64 c.toNat)) := if_neg h

theorem costBase_of_sum_zero {u : LogUnits} {cnts : Nat → Word} {n : Nat} (h : countSum cnts n = 0) :
    costBase u cnts n = u.ln (toF64 n) := if_pos h

theorem costBase_of_sum_pos {u : LogUnits} {cnts : Nat → Word} {n : Nat} (h : 0 < countSum cnts n) :
    costBase u cnts n = u.log2 (toF64 (countSum cnts n)) := if_neg h.ne'

/-- A logarithm that the block takes is at least +0 (R204). -/
theorem log_nonneg {u : LogUnits} (p1 : P1 u) (p2 : P2 u) {k : Nat} (hk : 1 ≤ k) (h : k < 2 ^ 42) :
    fle 0#64 (u.log2 (toF64 k)) ∧ fle 0#64 (u.ln (toF64 k)) := by
  have hrise := p2 1 k le_rfl hk h
  rwa [p1.1, p1.2] at hrise

section
variable {u : LogUnits} {cnts : Nat → Word} {n i : Nat}

theorem costBase_nonneg (p1 : P1 u) (p2 : P2 u) (h1 : 1 ≤ n) (hn : n ≤ 1024) : fle 0#64 (costBase u cnts n) := by
  rcases Nat.eq_zero_or_pos (countSum cnts n) with h | h
  · rw [costBase_of_sum_zero h]
    exact (log_nonneg p1 p2 h1 (hn.trans_lt (by decide))).2
  · rw [costBase_of_sum_pos h]
    exact (log_nonneg p1 p2 h (countSum_lt hn)).1

theorem isFinite_costBase (p3 : P3 u) (h1 : 1 ≤ n) (hn : n ≤ 1024) : isFinite (costBase u cnts n) = true := by
  rcases Nat.eq_zero_or_pos (countSum cnts n) with h | h
  · rw [costBase_of_sum_zero h]
    exact (p3 n h1 (hn.trans_lt (by decide))).2
  · rw [costBase_of_sum_pos h]
    exact (p3 _ h (countSum_lt hn)).1

/-- The logarithm of a count is at most that of the sum (R204). -/
theorem log2_le_costBase (p2 : P2 u) (hn : n ≤ 1024) (hi : i < n) (h0 : cnts i ≠ 0) :
    fle (u.log2 (toF64 (cnts i).toNat)) (costBase u cnts n) := by
  have hpos := BitVec.toNat_pos_of_ne_zero h0
  have hle := toNat_le_countSum cnts hi
  rw [costBase_of_sum_pos (hpos.trans_le hle)]
  exact (p2 _ _ hpos hle (countSum_lt hn)).1

/-- Under P1 to P3 every raw cost is at least +0 and finite (R204, R206). -/
theorem rawCost_conforming (p1 : P1 u) (p2 : P2 u) (p3 : P3 u) (hn : n ≤ 1024) (hi : i < n) :
    fle 0#64 (rawCost u (costBase u cnts n) (cnts i)) ∧
      isFinite (rawCost u (costBase u cnts n) (cnts i)) = true := by
  have h1 : 1 ≤ n := Nat.one_le_of_lt hi
  have fb : isFinite (costBase u cnts n) = true := isFinite_costBase p3 h1 hn
  by_cases h0 : cnts i = 0
  · rw [h0, rawCost_of_zero]
    exact ⟨costBase_nonneg p1 p2 h1 hn, fb⟩
  · have hpos := BitVec.toNat_pos_of_ne_zero h0
    have hlt := toNat_lt_two_pow_42 (cnts i)
    rw [rawCost_of_ne_zero h0]
    obtain ⟨low, high⟩ := fsub_between fb (p3 _ hpos hlt).1 (log_nonneg p1 p2 hpos hlt).1 (log2_le_costBase p2 hn hi h0)
    exact ⟨low, isFinite_of_fle (by decide) fb low high⟩

theorem symbolCost_eq_rawCost (p1 : P1 u) (p2 : P2 u) (p3 : P3 u) (hn : n ≤ 1024) (hi : i < n) (eps : F64) :
    symbolCost u eps cnts n i = rawCost u (costBase u cnts n) (cnts i) :=
  clampCost_of_nonneg (rawCost_conforming p1 p2 p3 hn hi).1

end

/-- Settles O41: a difference of logarithms lies between +0 and the logarithm of the sum. -/
theorem conformingUnitsNeverErr : Obligations.ConformingUnitsNeverErr := by
  intro u p1 p2 p3 s cnts h hr
  have hn : eeN s ≤ 1024 := hr.nFits.trans (Scope.nMax_le h)
  have raw (i : Nat) (hi : i < eeN s) := rawCost_conforming (cnts := cnts) p1 p2 p3 hn hi
  have same (i : Nat) (hi : i < eeN s) := symbolCost_eq_rawCost (cnts := cnts) p1 p2 p3 hn hi s.params.eps
  have passes (i : Nat) (hi : i < eeN s) := costError_of_nonneg (raw i hi).2 (raw i hi).1
  obtain ⟨r, hrun, hok, hm⟩ := runCommand_estimate_succeeds h hr fun i hi => by rw [same i hi]; exact passes i hi
  refine ⟨fun i hi => ⟨(raw i hi).1, same i hi, passes i hi⟩, r, hrun, hok, fun i hi => ?_⟩
  exact ⟨_, hm.costs i (Nat.zero_le i) hi, by rw [same i hi]; exact (raw i hi).1⟩

/-- The cost of a positive count, where it is no error, is the clamped difference of finite logarithms. -/
theorem isFinite_logs_of_costError_none {u : LogUnits} {eps : F64} {cnts : Nat → Word} {n i : Nat}
    (h0 : cnts i ≠ 0) (ok : costError (symbolCost u eps cnts n i) = none) :
    isFinite (costBase u cnts n) = true ∧ isFinite (u.log2 (toF64 (cnts i).toNat)) = true := by
  have hraw := isFinite_of_isFinite_clampCost (isFinite_of_costError_none ok)
  rw [rawCost_of_ne_zero h0] at hraw
  exact isFinite_of_isFinite_fsub hraw

/-- Settles O42: a cost that is no error is a difference of finite logarithms, and subtraction and the clamp are
monotone. -/
theorem monotonicCost : Obligations.MonotonicCost := by
  intro u p2 s r cnts h hr hrun herr i j hi hj hlt hpos
  have ok := costsPass_of_no_err h hr hrun herr
  obtain ⟨r', hrun', -, hm⟩ := runCommand_estimate_succeeds h hr ok
  obtain rfl : r = r' := Host.Outcome.next.inj (hrun.symm.trans hrun')
  refine ⟨_, _, hm.costs i (Nat.zero_le i) hi, hm.costs j (Nat.zero_le j) hj, ?_⟩
  have hi0 : cnts i ≠ 0 := fun e => by simp [e] at hlt
  have hj0 : cnts j ≠ 0 := fun e => by simp [e] at hpos
  obtain ⟨fb, fi⟩ := isFinite_logs_of_costError_none hi0 (ok i hi)
  obtain ⟨-, fj⟩ := isFinite_logs_of_costError_none hj0 (ok j hj)
  rw [symbolCost, symbolCost, rawCost_of_ne_zero hi0, rawCost_of_ne_zero hj0]
  exact clampCost_mono (fsub_le_fsub fb fi fj (p2 _ _ hpos hlt.le (toNat_lt_two_pow_42 _)).1)

/-! ### Corner cases -/

/-- A count of 1 costs the logarithm of the sum, as P1 makes its own logarithm +0 (R207). -/
theorem rawCost_one {u : LogUnits} (p1 : P1 u) {b : F64} (hb : isNaN b = false) : rawCost u b 1 = b := by
  rw [rawCost_of_ne_zero (by decide), show (1 : Word).toNat = 1 from rfl, p1.1, fsub_zero_of_not_isNaN hb]

theorem logUnits_ln_two : logUnits.ln (toF64 2) = 0x3FE62E42FEFA39EF#64 := by decide +kernel

/-- Settles O43: subtracting the logarithm of 1, which is +0, changes no value that is no NaN. -/
theorem zeroCountCostsAsOne : Obligations.ZeroCountCostsAsOne := by
  refine ⟨fun u p1 p2 eps cnts n h1 hn => ⟨fun hs i j hi hj h0 h1' => ?_, fun hs i hi => ?_⟩, logUnits_ln_two⟩
  · have hb := (costBase_nonneg (cnts := cnts) p1 p2 h1 hn).2.1
    rw [symbolCost, symbolCost, h0, h1', rawCost_of_zero, rawCost_one p1 hb]
    exact ⟨costBase_of_sum_pos hs, costBase_of_sum_pos hs, rfl⟩
  · have h0 : cnts i = 0 := BitVec.eq_of_toNat_eq (Nat.le_zero.1 (hs ▸ toNat_le_countSum cnts hi))
    rw [h0, rawCost_of_zero, costBase_of_sum_zero hs]

/-- Where no other count is positive, the sum is the count of symbol `k` (R208). -/
theorem countSum_of_single {cnts : Nat → Word} {n k : Nat} (hk : k < n) (h : ∀ i, i < n → i ≠ k → cnts i = 0) :
    countSum cnts n = (cnts k).toNat := by
  refine Finset.sum_eq_single k (fun i hi hik => ?_) fun hkn => absurd (Finset.mem_range.2 hk) hkn
  rw [h i (Finset.mem_range.1 hi) hik]
  rfl

/-- The only positive count costs +0: its logarithm is that of the sum (R208). -/
theorem rawCost_single {u : LogUnits} (p3 : P3 u) {cnts : Nat → Word} {n k : Nat}
    (hs : countSum cnts n = (cnts k).toNat) (h0 : cnts k ≠ 0) : rawCost u (costBase u cnts n) (cnts k) = 0#64 := by
  have hpos := BitVec.toNat_pos_of_ne_zero h0
  rw [rawCost_of_ne_zero h0, costBase_of_sum_pos (hs ▸ hpos), hs]
  exact fsub_self (p3 _ hpos (toNat_lt_two_pow_42 _)).1

/-- Settles O44: with one positive count the sum is that count; one symbol without a count costs LN(1). -/
theorem singleCountCostsZero : Obligations.SingleCountCostsZero := by
  intro u p1 p2 p3 eps cnts n k hn hk
  refine ⟨fun honly => ?_, fun h1 => ?_⟩
  · have hs := countSum_of_single hk fun i hi => (honly i hi).2
    have hk0 : cnts k ≠ 0 := fun e => (honly k hk).1 e rfl
    refine ⟨(symbolCost_eq_rawCost p1 p2 p3 hn hk eps).trans (rawCost_single p3 hs hk0), fun i hi hik => ?_⟩
    rw [symbolCost_eq_rawCost p1 p2 p3 hn hi, (honly i hi).2 hik, rawCost_of_zero,
      costBase_of_sum_pos (hs ▸ BitVec.toNat_pos_of_ne_zero hk0), hs]
  · subst h1
    have hs : countSum cnts 1 = (cnts 0).toNat := countSum_of_single one_pos fun i hi hi0 => absurd hi (by omega)
    rw [symbolCost_eq_rawCost p1 p2 p3 hn one_pos]
    by_cases h0 : cnts 0 = 0
    · rw [h0, rawCost_of_zero, costBase_of_sum_zero (by rw [hs, h0]; rfl), p1.2]
    · exact rawCost_single p3 hs h0

end Sys2Proof.Proofs.Estimation

/-!
PROOFS. The family of spec/70_reset_and_hazards.md: what a reset leaves in the registers and in the memories, and the
fault of a command that meets an unwritten input (ResetRegisters, ResetMemories, UnwrittenInputFaults).
-/
namespace Sys2Proof.Proofs.Reset

open Sys2Proof.Machine Sys2Proof.Safety Sys2Proof.Proofs.Steps Sys2Proof.Proofs.Results

/-! ### Registers -/

/-- After power-up every register but the constants reads 0 (R22, R51). -/
theorem readReg_powerUp {r : Reg} (hid : r ≠ .id) (hcfg : r ≠ .cfg) : readReg r State.reset = 0#32 := by
  cases r
  case id => exact absurd rfl hid
  case cfg => exact absurd rfl hcfg
  all_goals rfl

/-- A reset gives every register its value after power-up; CFG follows the parameters instead (R24, R271). -/
theorem readReg_applyReset (s : State) {r : Reg} (hcfg : r ≠ .cfg) :
    readReg r s.applyReset = readReg r State.reset := by
  cases r
  case cfg => exact absurd rfl hcfg
  all_goals rfl

/-- With no source enabled the interrupt line is low (R239, R274). -/
theorem irq_of_irqEn_zero {s : State} (h : s.irqEn = 0) : s.irq = false := by simp [State.irq, h]

/-- Settles O11: a reset's registers read as after power-up, where all but the constants are 0. -/
theorem resetRegisters : Obligations.ResetRegisters := by
  refine ⟨fun u s ht => stepWith_of_nextTurn ht, fun s => ⟨rfl, rfl, irq_of_irqEn_zero rfl, rfl, rfl, fun r hid hcfg => ?_⟩,
    rfl, rfl, fun r => readReg_powerUp, irq_of_irqEn_zero rfl, fun a => rfl⟩
  exact (readReg_applyReset s hcfg).trans (readReg_powerUp hid hcfg)

/-! ### Memories -/

/-- Byte `x` belongs to entry `i` of SYM, which a running ASSIGN could write (R272). -/
def AbandonedSym (s : State) (x i : Nat) : Prop :=
  s.busy .ca = true ∧ i < s.ca.latchN.toNat ∧ i < s.params.nMax ∧ s.readLen i ≠ some 0 ∧
    symAddr i ≤ x ∧ x < symAddr i + 4

/-- Byte `x` belongs to entry `i` of BITLEN, which a running ESTIMATE could write (R272). -/
def AbandonedBitlen (s : State) (x i : Nat) : Prop :=
  s.busy .ee = true ∧ i < s.ee.latchN.toNat ∧ i < s.params.nMax ∧ bitlenAddr i ≤ x ∧ x < bitlenAddr i + 8

/-- The entry of SYM that holds byte `x`, by its address. -/
theorem symIndex_eq {x i : Nat} (h1 : symAddr i ≤ x) (h2 : x < symAddr i + 4) : (x - symAddr 0) / 4 = i := by
  simp only [symAddr] at *
  omega

theorem exists_abandonedSym_iff (s : State) (x : Nat) :
    (∃ i, AbandonedSym s x i) ↔ s.busy .ca = true ∧ symAddr 0 ≤ x ∧ x < symAddr (s.outputSpan .ca) ∧
      s.readLen ((x - symAddr 0) / 4) ≠ some 0 := by
  constructor
  · rintro ⟨i, hb, hn, hN, hl, h1, h2⟩
    have hspan : i < s.outputSpan .ca := lt_min hn hN
    refine ⟨hb, ?_, ?_, by rwa [symIndex_eq h1 h2]⟩ <;> simp only [symAddr] at * <;> omega
  · rintro ⟨hb, h1, h2, hl⟩
    have hspan : (x - symAddr 0) / 4 < s.outputSpan .ca := by simp only [symAddr] at *; omega
    refine ⟨_, hb, hspan.trans_le (Nat.min_le_left _ _), hspan.trans_le (Nat.min_le_right _ _), hl, ?_, ?_⟩ <;>
      simp only [symAddr] at * <;> omega

theorem exists_abandonedBitlen_iff (s : State) (x : Nat) :
    (∃ i, AbandonedBitlen s x i) ↔
      s.busy .ee = true ∧ bitlenAddr 0 ≤ x ∧ x < bitlenAddr (s.outputSpan .ee) := by
  constructor
  · rintro ⟨i, hb, hn, hN, h1, h2⟩
    have hspan : i < s.outputSpan .ee := lt_min hn hN
    refine ⟨hb, ?_, ?_⟩ <;> simp only [bitlenAddr] at * <;> omega
  · rintro ⟨hb, h1, h2⟩
    have hspan : (x - bitlenAddr 0) / 8 < s.outputSpan .ee := by simp only [bitlenAddr] at *; omega
    refine ⟨_, hb, hspan.trans_le (Nat.min_le_left _ _), hspan.trans_le (Nat.min_le_right _ _), ?_, ?_⟩ <;>
      simp only [bitlenAddr] at * <;> omega

/-- A reset makes unwritten the bytes of the entries that a running command could write (R272). -/
theorem abandoned_iff (s : State) (x : Nat) :
    s.abandoned x = true ↔ (∃ i, AbandonedSym s x i) ∨ ∃ i, AbandonedBitlen s x i := by
  rw [exists_abandonedSym_iff, exists_abandonedBitlen_iff]
  simp only [State.abandoned, inBitlen, Bool.or_eq_true, Bool.and_eq_true, decide_eq_true_eq, and_assoc]

theorem readWord_applyReset_of_abandoned {s : State} {x : Nat} (h : s.abandoned x = true) :
    s.applyReset.mem.readWord x = none := Memory.readWord_forget_of_forgotten h

theorem lookup_applyReset_of_kept {s : State} {x : Nat} (h : ¬ s.abandoned x = true) :
    s.applyReset.mem.lookup x = s.mem.lookup x :=
  (Memory.lookup_forget s.mem s.abandoned x).trans (if_neg h)

/-- Settles O12: a reset forgets the abandoned bytes and no other, and an erased word begins with one. -/
theorem resetMemories : Obligations.ResetMemories := by
  intro s _
  refine ⟨fun i l hb hn hN hl h0 => ?_, fun i high hb hn hN => ?_, fun x hsym hbitlen => ?_⟩
  · have hlen : s.readLen i ≠ some 0 := fun h => h0 (Option.some.inj (hl.symm.trans h))
    exact readWord_applyReset_of_abandoned ((abandoned_iff s _).2
      (.inl ⟨i, hb, hn, hN, hlen, le_rfl, Nat.lt_add_of_pos_right (by decide)⟩))
  · have hhalf : bitlenHalfAddr i high < bitlenAddr i + 8 := by cases high <;> simp [bitlenHalfAddr]
    exact readWord_applyReset_of_abandoned ((abandoned_iff s _).2
      (.inr ⟨i, hb, hn, hN, Nat.le_add_right _ _, hhalf⟩))
  · exact lookup_applyReset_of_kept fun h => ((abandoned_iff s x).1 h).elim hsym hbitlen

/-! ### Unwritten inputs -/

/-- Settles O35: the entries before the unwritten one list themselves, and the pass that reads it stops there. -/
theorem unwrittenInputFaults : Obligations.UnwrittenInputFaults := by
  intro u s k h
  refine ⟨fun hb hn hm hk hbad hl => ?_, fun hb hn hk hbad hw => ?_⟩
  · have legal : LegalLengths s (fun j => (s.readLen j).getD 0) k := by
      intro j hj
      obtain ⟨l, hr, hle⟩ := hl j hj
      simpa only [hr, Option.getD_some, true_and] using hle
    exact runCommand_assign_unwritten h hb hn hm hk legal hbad
  · have written : ListsCounts s (fun j => (s.readCnt j).getD 0) k := by
      intro j hj
      obtain ⟨c, hr⟩ := Option.ne_none_iff_exists'.1 (hw j hj)
      simp only [hr, Option.getD_some]
    exact runCommand_estimate_unwritten hb hn hk written hbad

end Sys2Proof.Proofs.Reset
